-- ==== Sys2Proof/Word.lean ====
section
/-! DEFINITION. The words of the CT16: bytes, complex samples, the two trunks, the two sources of a channel,
block qualities, and the blocks and records that pass between the ten blocks of the part. -/

namespace Sys2Proof

/-- One byte of a frame or a message. -/
abbrev Byte := BitVec 8

/-- An entry position of a plan, and the channel context of the same number (00, Entries and contexts). -/
abbrev EntryIx := Fin 16

/-- The two receive trunks. -/
inductive Trunk where
  | A
  | B
deriving DecidableEq, Repr, Inhabited

/-- The source in use of a channel, and the role of a tap (Table 1-6, Table 3-1). -/
inductive Source where
  | primary
  | alternate
deriving DecidableEq, Repr, Inhabited

/-- The source that is not this one. -/
def Source.other : Source → Source
  | .primary => .alternate
  | .alternate => .primary

/-- A complex sample: in-phase and quadrature component. On the links each is a signed 16-bit value; inside the
part a component is an integer without limit, since R77 carries the samples "with enough headroom". -/
structure Sample where
  re : Int
  im : Int
deriving DecidableEq, Repr, Inhabited

/-- The zero sample, of which silence is made. -/
def Sample.zero : Sample := ⟨0, 0⟩

/-- Silence of a given length. -/
def silence (n : Nat) : List Sample := List.replicate n Sample.zero

/-- The quality mark of a trunk block period (Table 1-4). -/
inductive Quality where
  | good
  | impaired
  | absent
deriving DecidableEq, Repr, Inhabited

/-- What EXT delivers to a context (R15): samples, quality, and the input level, present when the quality is GOOD. -/
structure ChannelBlock where
  samples : List Sample
  quality : Quality
  level   : Option Int
deriving DecidableEq, Repr, Inhabited

/-- The kind of a block record (R80, R85). -/
inductive RecordKind where
  | data
  | gap
deriving DecidableEq, Repr, Inhabited

/-- What a context hands on (R80) and a delay line holds (5.1): samples, output level present or absent, kind. -/
structure BlockRecord where
  samples : List Sample
  lout    : Option Int
  kind    : RecordKind
deriving DecidableEq, Repr, Inhabited

end Sys2Proof
end

