-- ==== Sys2Proof/Syntax.lean ====
section
/-! DEFINITION. The commands of the CT16: one constructor for each row of spec/opcode_table.json, with the
operands that come from outside the part. -/

namespace Sys2Proof

/-- What stands in a frame window: `none` is no frame signal, `some bytes` a frame signal with these bytes (R2, R121). -/
abbrev Window := Option (List Byte)

/-- One command, that is, one whole and indivisible step of the part. The request kinds carry no operand: each is the
step in which SVC executes the oldest item of its request queue (R161), and the item holds the tag and the body. -/
inductive Instr where
  /-- POWER_ON_RESET (R1): release of the power-on reset line. -/
  | powerOnReset
  /-- TRUNK_FRAME (R2): the port of a trunk takes what stands in its frame window. -/
  | trunkFrame (trunk : Trunk) (window : Window)
  /-- CHANNEL_BLOCK (R69): a context takes the oldest block of a role that waits for it. -/
  | channelBlock (entry : EntryIx) (role : Source)
  /-- MEMORY_ACCESS_COMPLETE (R92): the access that holds the memory port completes. -/
  | memoryAccessComplete
  /-- REFRESH_TIMER_EXPIRY (R93). -/
  | refreshTimerExpiry
  /-- OUTPUT_BLOCK_START (R102): a block period starts. -/
  | outputBlockStart
  /-- OUTPUT_BLOCK_ASSEMBLY (R104): the output block in course is assembled and completed. -/
  | outputBlockAssembly
  /-- FORWARD_DRIVE_FRAME (R120). -/
  | forwardDriveFrame
  /-- REVERSE_DRIVE_FRAME (R121): TXS takes what stands in the reverse frame window. -/
  | reverseDriveFrame (window : Window)
  /-- REFERENCE_LOCK_SAMPLE (R123), with the level of the reference lock line: true shows lock. -/
  | referenceLockSample (lock : Bool)
  /-- BIAS_TIMER_EXPIRY (R126). -/
  | biasTimerExpiry
  /-- COOL_TIMER_EXPIRY (R128). -/
  | coolTimerExpiry
  /-- TEST_EXPIRY (R152), of the test that runs on an entry. -/
  | testExpiry (entry : EntryIx)
  /-- REVERSE_TRUNK_FRAME (R11): the port of a trunk sends its reverse frame. -/
  | reverseTrunkFrame (trunk : Trunk)
  /-- UNKNOWN_KIND (R161): execution of a request whose kind is no request kind. -/
  | unknownKind
  /-- IDENTIFY (R166). -/
  | identify
  /-- RESTART (R167). -/
  | restart
  /-- PUT_ENTRY (R19). -/
  | putEntry
  /-- DROP_ENTRY (R24). -/
  | dropEntry
  /-- PUT_SETTINGS (R22). -/
  | putSettings
  /-- COPY_ACTIVE (R25). -/
  | copyActive
  /-- APPLY (R28). -/
  | apply
  /-- CANCEL (R30). -/
  | cancel
  /-- GET_ENTRY (R26). -/
  | getEntry
  /-- GET_SETTINGS (R27). -/
  | getSettings
  /-- GET_CHANNEL (R64). -/
  | getChannel
  /-- MUTE (R60). -/
  | mute
  /-- UNMUTE (R61). -/
  | unmute
  /-- FORCE_SOURCE (R62). -/
  | forceSource
  /-- CLEAR_FAULT_ENTRY (R63). -/
  | clearFaultEntry
  /-- GET_TRANSMIT (R136). -/
  | getTransmit
  /-- KEY (R124). -/
  | key
  /-- UNKEY (R125). -/
  | unkey
  /-- SHUTDOWN (R134). -/
  | shutdown
  /-- CLEAR_FAULT_TRANSMIT (R135). -/
  | clearFaultTransmit
  /-- SET_MONITOR (R145). -/
  | setMonitor
  /-- GET_SUPERVISION (R146). -/
  | getSupervision
  /-- TEST_START (R148). -/
  | testStart
  /-- TEST_STOP (R153). -/
  | testStop
  /-- POWER_ON_RESET_LINE_LOW (R1): the power-on reset line goes low, or the supply fails. -/
  | powerOnResetLineLow
deriving DecidableEq, Repr

end Sys2Proof
end

