-- ==== Sys2Proof/Decode.lean ====
section
/-! DEFINITION. The command that a word spells by the bits of spec/opcode_table.json. -/

namespace Sys2Proof

/-- The opcode table gives no row a bit pattern ("fields": [] and no "fixed" in all 40 rows), so no word spells a
command. Commands come in by the queue only (notes/assumptions/25.md). -/
def decodeTableWord (_nbits _w : Nat) : Option Instr := none

end Sys2Proof
end

