-- ==== Sys2Proof/Config.lean ====
section
/-! DEFINITION. The values the spec leaves open, each an opaque constant without a body: nothing can be proved of a
value of one. The first argument of those that are drawn afresh is the state's counter `free` (notes/assumptions/1.md). -/

namespace Sys2Proof

/-- The frequency in Hz that the lower band edge has in the samples of an input band (00, Slot grid: not given). -/
opaque Config.inputEdgeHz : Int

/-- The phase, in parts of 2 ^ 40 of a turn, at the first sample of a block period, of the shift that moves a range to baseband
(R15: not given). `n` is the same for all taps of one frame, so equal ranges of one trunk are moved alike. -/
opaque Config.extractPhase (n start width : Nat) : Nat

/-- Whether the components of sample `i` of a range are rounded up, where they are not whole (R15: the rounding is not given). -/
opaque Config.extractRounding (n start width i : Nat) : Bool × Bool

/-- The frequency in Hz that the lower band edge has in the samples of the output band (6.8: whether 0 Hz of the samples stands
for the edge, the middle or another frequency of the band is not given). -/
opaque Config.bandEdgeHz : Int

/-- The phase of an entry's carrier at the first sample of an output block, in parts of 2 ^ 40 of a turn: of the shift of its
samples, or of its test tone (R113, R114: not given). -/
opaque Config.carrierPhase (n : Nat) (entry : EntryIx) : Nat

/-- By how much the components of sample `i` of an entry in the output band are rounded away from the nearest integer; what is
above 1 or below -1 counts as 1 or -1 (R113, R114: the rounding is not given). -/
opaque Config.placeRounding (n : Nat) (entry : EntryIx) (i : Nat) : Sample

/-- What the DRAM reads at a record position that nothing has written since power-on (R97: unknown). -/
opaque Config.unknownRecord (cell : Nat) : BlockRecord

end Sys2Proof
end

