-- ==== Sys2Proof/Machine/State.lean ====
section
/-! DEFINITION. The state of the CT16: everything the spec gives each of its ten blocks, as plain data, with the values
it holds after a power-on reset, and the reasons a command may stop (none does). -/

namespace Sys2Proof.Machine

/-- No command of the CT16 stops the machine: every trip, overrun, damaged frame and refused request is an effect on the
state. The type has no constructor, which is safe: no claim can rest on a fault. -/
inductive Fault where
deriving DecidableEq, Repr

/-- Why a command is refused. -/
inductive Refusal where
  /-- Raised by an arm of `exec` for a command without a meaning. Safe; no arm raises it. -/
  | notModelled (mnemonic : String)
deriving DecidableEq, Repr

/-! ### Trunk ports (Table 1-1) and service assemblers (Table 10-1) -/

/-- Alignment state of a trunk port (R3 to R5). -/
inductive Align where
  | hunt
  | confirm
  | sync
  | flywheel
deriving DecidableEq, Repr

/-- Assembler state (R156). -/
inductive AsmPhase where
  | search
  | header
  | collect
deriving DecidableEq, Repr

/-- A service assembler: its state, the bytes gathered since the first marker byte, and the expected length,
present in COLLECT. -/
structure Assembler where
  phase    : AsmPhase
  gathered : List Byte
  expected : Option Nat
deriving DecidableEq, Repr

/-- A message whose sending on a trunk has begun and not ended (R163): the bytes still to send, and whether it is the
response in the outbox (else it is the copy of a notice). -/
structure Course where
  bytes      : List Byte
  isResponse : Bool
deriving DecidableEq, Repr

/-- A trunk port (Table 1-1). `outbox` holds the whole response message. `lastReverse` is the last reverse frame that
the transmit lanes carried, none before the first. -/
structure Port where
  align       : Align
  reference   : Option Nat
  confirm     : Nat
  failures    : Nat
  damage      : Nat
  slips       : Nat
  overload    : Bool
  alarm       : Bool
  revNumber   : Nat
  asm         : Assembler
  outbox      : Option (List Byte)
  course      : Option Course
  lastReverse : Option (List Byte)
deriving DecidableEq, Repr

/-! ### Extractor (Table 1-6) -/

/-- A tap table row in use. -/
structure Tap where
  trunk : Trunk
  start : Nat
  width : Nat
  owner : EntryIx
  role  : Source
deriving DecidableEq, Repr

/-- A block that EXT has cut and its owner has not yet taken, with the generation of the tap table it was cut under. -/
structure Waiting where
  owner : EntryIx
  role  : Source
  gen   : Nat
  block : ChannelBlock
deriving DecidableEq, Repr

/-- The tap table of 24 rows (`none` is a free row), the table against which the present block period is cut (R14), the
blocks that wait for their contexts, and the generation marks of R44: of the table, of the period's table, and of the
switch that last added or path-changed each position. -/
structure Ext where
  rows       : Vector (Option Tap) 24
  gen        : Nat
  periodRows : Vector (Option Tap) 24
  periodGen  : Nat
  waiting    : List Waiting
  since      : Vector Nat 16
deriving DecidableEq, Repr

/-! ### Plan store (Tables 2-1, 2-2 and 2-3) -/

/-- A trunk and an input start slot. -/
structure Slot where
  trunk : Trunk
  start : Nat
deriving DecidableEq, Repr

/-- Expiry action of an entry (R51, R52). -/
inductive Expiry where
  | notify
  | mute
  | failover
deriving DecidableEq, Repr

/-- A plan entry (Table 2-2). -/
structure Entry where
  primary        : Slot
  alternate      : Option Slot
  width          : Nat
  outStart       : Nat
  expiry         : Expiry
  revert         : Bool
  fine           : Int
  target         : Int
  loss           : Int
  attack         : Nat
  decay          : Nat
  bridgeCode     : Nat
  revertCode     : Nat
  pages          : Nat
  primaryDelay   : Nat
  alternateDelay : Nat
  priority       : Nat
deriving DecidableEq, Repr

/-- Test end action (R152). -/
inductive TestEnd where
  | ret
  | mute
deriving DecidableEq, Repr

/-- Notice trunk setting (R165). -/
inductive NoticeTrunk where
  | a
  | b
  | both
deriving DecidableEq, Repr

/-- The settings record (Table 2-3). -/
structure Settings where
  ceiling      : Int
  maxBackoff   : Nat
  hysteresis   : Nat
  acquire      : Nat
  rampStep     : Nat
  biasDeadline : Nat
  coolTime     : Nat
  refQual      : Nat
  foldStart    : Nat
  foldMax      : Nat
  tripRL       : Nat
  tripCount    : Nat
  refresh      : Nat
  testEnd      : TestEnd
  testStops    : Bool
  tolerance    : Nat
  dwell        : Nat
  noticeTrunk  : NoticeTrunk
deriving DecidableEq, Repr

/-- The power-on values of Table 2-3. -/
def Settings.powerOn : Settings where
  ceiling := -60
  maxBackoff := 30
  hysteresis := 10
  acquire := 50
  rampStep := 10
  biasDeadline := 2000
  coolTime := 500
  refQual := 2000
  foldStart := 140
  foldMax := 60
  tripRL := 80
  tripCount := 5
  refresh := 7
  testEnd := .ret
  testStops := false
  tolerance := 20
  dwell := 8
  noticeTrunk := .a

/-- A plan: 16 positions, each empty or holding an entry. -/
abbrev Plan := Vector (Option Entry) 16

/-- The plan with every position empty. -/
def Plan.empty : Plan := Vector.replicate 16 none

/-- The plan store (Table 2-1). `armed` is the arm state: true is ARMED, false is CLEAR. -/
structure Pln where
  staged         : Plan
  active         : Plan
  stagedSettings : Settings
  activeSettings : Settings
  armed          : Bool
deriving DecidableEq, Repr

/-! ### Channel contexts (Table 3-1) and test tone timers (Table 9-1) -/

/-- Mute cause. -/
inductive Cause where
  | loss
  | operator
  | overlevel
  | testEnd
deriving DecidableEq, Repr

/-- State of a channel context. The mute cause is present exactly in MUTED (3.1), and the remaining test time and the
test level exactly in TEST (9.1), so each is carried by its state. -/
inductive CtxState where
  | off
  | acquire
  | live
  | fade
  | muted (cause : Cause)
  | test (remaining : Nat) (level : Int)
deriving DecidableEq, Repr

/-- A channel context (Table 3-1). -/
structure Ctx where
  state      : CtxState
  source     : Source
  readyP     : Nat
  readyA     : Nat
  loss       : Nat
  expired    : Bool
  revert     : Nat
  gain       : Option Int
  lastIn     : Option Int
  lastOut    : Option Int
  badBlocks  : Nat
  failovers  : Nat
  clips      : Nat
  shed       : Bool
  strikes    : Nat
  lowOutput  : Bool
  done       : Bool
deriving DecidableEq, Repr

/-- The power-on values of Table 3-1. -/
def Ctx.powerOn : Ctx where
  state := .off
  source := .primary
  readyP := 0
  readyA := 0
  loss := 0
  expired := false
  revert := 0
  gain := none
  lastIn := none
  lastOut := none
  badBlocks := 0
  failovers := 0
  clips := 0
  shed := false
  strikes := 0
  lowOutput := false
  done := false

/-! ### Delay store (Tables 5-1 and 5-2) -/

/-- A delay line. `accepted` counts the records accepted since the last flush, up to the capacity (R83). -/
structure Line where
  pages    : List Nat
  writePos : Nat
  fill     : Nat
  accepted : Nat
deriving DecidableEq, Repr

/-- A pending write (R84). `cell` is the record position it is to occupy, page times 16 plus record; `done` is how many
of its `width` bursts have completed. -/
structure WriteReq where
  entry  : EntryIx
  cell   : Nat
  record : BlockRecord
  width  : Nat
  done   : Nat
deriving DecidableEq, Repr

/-- A pending read (R89). -/
structure ReadReq where
  entry : EntryIx
  cell  : Nat
  width : Nat
  done  : Nat
deriving DecidableEq, Repr

/-- Who holds the memory port (R92): nobody, a refresh, a burst of the oldest read, a burst of the oldest write, or a
burst whose read or write has been removed from its queue while the burst was in progress. -/
inductive PortUse where
  | idle
  | refresh
  | read
  | write
  | orphan
deriving DecidableEq, Repr

/-- The delay store. `gapMarks` lists the record positions whose gap mark is set, strictly rising. `dram` lists the
record positions written since power-on with their records, strictly rising. -/
structure Dst where
  pageMap        : Vector (Option EntryIx) 256
  lines          : Vector (Option Line) 16
  gapMarks       : List Nat
  dram           : List (Nat × BlockRecord)
  writes         : List WriteReq
  reads          : List ReadReq
  port           : PortUse
  refreshPending : Bool
  refreshPeriod  : Nat
  gapCounts      : Vector Nat 16
  overruns       : Nat
deriving DecidableEq, Repr

/-! ### Combiner (Table 6-1) -/

/-- The answer of an entry's read in the output block in course (R89 to R91, R104): no read was queued, the read waits
in the read queue, or it was answered. -/
inductive Answer where
  | unread
  | waiting
  | nothing
  | gap
  | data (r : BlockRecord)
  | late
deriving DecidableEq, Repr

/-- The output block in course: its number, the foldback sampled for it, the answers of its reads, and whether it began
before a warm restart that has since been taken (R99, R100, R102). -/
structure OutBlock where
  number    : Nat
  foldback  : Nat
  answers   : Vector Answer 16
  restarted : Bool
deriving DecidableEq, Repr

/-- The last block figures (Table 6-1, R118). -/
structure Figures where
  composite    : Option Int
  ceiling      : Int
  foldback     : Nat
  backoff      : Nat
  excess       : Bool
  contributors : Nat
  shed         : Nat
deriving DecidableEq, Repr

/-- The combiner. `held` are the undelayed records of the output block in course, `next` those handed on for the output
block of the next block period (R103). -/
structure Cmb where
  counter : Nat
  epochs  : Nat
  course  : Option OutBlock
  held    : Vector (Option BlockRecord) 16
  next    : Vector (Option BlockRecord) 16
  late    : Vector Nat 16
  figures : Figures
  excess  : Nat
  clips   : Nat
deriving DecidableEq, Repr

/-! ### Transmit sequencer (Table 7-1) -/

/-- Sequencer state. -/
inductive Seq where
  | offAir
  | biasWait
  | rampUp
  | onAir
  | rampDown
  | cool
  | held
  | tripped
deriving DecidableEq, Repr

/-- Trip cause. -/
inductive Trip where
  | none
  | biasTimeout
  | pa
  | vswr
  | link
  | command
deriving DecidableEq, Repr

/-- A contributor of an output block as TXS hands it to MON: its entry, its level, and its output range in that output
block (R115, R139, R141). -/
structure Applied where
  entry : EntryIx
  level : Int
  start : Nat
  width : Nat
deriving DecidableEq, Repr

/-- Drive samples formed at the completion of an output block, with the applied levels of its contributors (none when it
was formed in a silent state). -/
structure Drive where
  samples : List Sample
  applied : List Applied
deriving DecidableEq, Repr

/-- The transmit sequencer. A timer is `none` when stopped. `formed` is what the output block completed in this block
period formed, `toSend` what the forward frame of this block period carries (R120); none stands for zero samples. -/
structure Txs where
  state       : Seq
  keyed       : Bool
  cause       : Trip
  further     : Bool
  atten       : Nat
  bias        : Option Nat
  cool        : Option Nat
  qual        : Nat
  refOk       : Bool
  foldback    : Nat
  tripCount   : Nat
  lastRL      : Option Int
  linkUp      : Bool
  invalid     : Nat
  fwd         : Int
  refl        : Int
  paReady     : Bool
  paAlarm     : Bool
  fwdNumber   : Nat
  formed      : Option Drive
  toSend      : Option Drive
  lastForward : Option (List Byte)
deriving DecidableEq, Repr

/-! ### Output monitor (Table 8-1) -/

/-- Monitor mode. -/
inductive MonMode where
  | off
  | scan
  | lock (entry : EntryIx)
  | selftest
deriving DecidableEq, Repr

/-- What a dwell visits. -/
inductive Visited where
  | entry (e : EntryIx)
  | reference
deriving DecidableEq, Repr

/-- A dwell in progress. -/
structure Dwell where
  visited : Visited
  length  : Nat
  count   : Nat
  power   : Rat
deriving DecidableEq, Repr

/-- Self-test result. -/
inductive SelfTest where
  | none
  | pass
  | fail
deriving DecidableEq, Repr

/-- The output monitor (its strike counts and LOW_OUTPUT marks stand in the contexts). -/
structure Mon where
  mode       : MonMode
  returnMode : Option MonMode
  scanPos    : EntryIx
  dwell      : Option Dwell
  selftest   : SelfTest
deriving DecidableEq, Repr

/-! ### Service engine -/

/-- An item of the request queue (R160). -/
structure Request where
  trunk : Trunk
  tag   : Byte
  kind  : Byte
  body  : List Byte
deriving DecidableEq, Repr

/-- Reasons of CHANNEL-CHANGED (Table 3-4). -/
inductive Reason where
  | signal
  | failover
  | recovery
  | revert
  | request
  | test
  | monitor
  | overrun
  | plan
  | shed
  | restore
deriving DecidableEq, Repr

/-- The names of the context states, without what they carry. -/
inductive CtxName where
  | off
  | acquire
  | live
  | fade
  | muted
  | test
deriving DecidableEq, Repr

/-- Class of a position at a plan switch (Table 2-8). -/
inductive PosClass where
  | empty
  | removed
  | added
  | pathChange
  | tuning
  | unchanged
deriving DecidableEq, Repr

/-- Content of a notice, with what identifies its source (Table 10-4). -/
inductive Content where
  /-- CHANNEL-CHANGED (R66). -/
  | channel (entry : EntryIx) (state : CtxName) (cause : Option Cause) (source : Source) (expired shed : Bool)
      (failovers : Nat) (reason : Reason)
  /-- TRANSMIT-CHANGED (R137). -/
  | transmit (state : Seq) (keyed further refOk linkUp : Bool) (cause : Trip) (atten foldback : Nat)
  /-- PLAN-SWITCHED (R41). -/
  | plan (epoch : Nat) (classes : List PosClass) (taps pages : Nat)
  /-- MEMORY (R95). -/
  | memory (overruns lines : Nat)
  /-- RESET(POWER_ON) or RESET(WARM) (R164, R167). -/
  | reset (warm : Bool)
deriving DecidableEq, Repr

/-- A pending notice with its sent marks (R164). -/
structure Notice where
  content : Content
  sentA   : Bool
  sentB   : Bool
deriving DecidableEq, Repr

/-- The service engine. -/
structure Svc where
  queue   : List Request
  lost    : Nat
  notices : List Notice
deriving DecidableEq, Repr

/-! ### The whole part -/

/-- The state of the CT16. `pending` is the queue of commands, `inReset` says that the power-on reset line is held low,
`free` counts the free values drawn. -/
structure State where
  pending : List Instr
  inReset : Bool
  rtA     : Port
  rtB     : Port
  ext     : Ext
  pln     : Pln
  ctx     : Vector Ctx 16
  dst     : Dst
  cmb     : Cmb
  txs     : Txs
  mon     : Mon
  svc     : Svc
  free    : Nat
deriving DecidableEq, Repr

/-- A trunk port after a power-on reset (R1, R168). -/
def Port.powerOn : Port where
  align := .hunt
  reference := none
  confirm := 0
  failures := 0
  damage := 0
  slips := 0
  overload := false
  alarm := false
  revNumber := 0
  asm := ⟨.search, [], none⟩
  outbox := none
  course := none
  lastReverse := none

/-- EXT after a power-on reset: every row free (R13). -/
def Ext.powerOn : Ext where
  rows := Vector.replicate 24 none
  gen := 0
  periodRows := Vector.replicate 24 none
  periodGen := 0
  waiting := []
  since := Vector.replicate 16 0

/-- PLN after a power-on reset (R18). -/
def Pln.powerOn : Pln where
  staged := Plan.empty
  active := Plan.empty
  stagedSettings := Settings.powerOn
  activeSettings := Settings.powerOn
  armed := false

/-- DST after a power-on reset (Table 5-1, R97). Table 5-1 has no row for the memory port: an access in progress is dropped, and
the port starts idle (notes/assumptions/41.md, DESIGN CHOICE). The refresh timer runs its first period at the power-on interval
(R93). -/
def Dst.powerOn : Dst where
  pageMap := Vector.replicate 256 none
  lines := Vector.replicate 16 none
  gapMarks := []
  dram := []
  writes := []
  reads := []
  port := .idle
  refreshPending := false
  refreshPeriod := Settings.powerOn.refresh
  gapCounts := Vector.replicate 16 0
  overruns := 0

/-- The last block figures after a reset of CMB under a ceiling K (Table 6-1, R99). -/
def Figures.initial (k : Int) : Figures where
  composite := none
  ceiling := k
  foldback := 0
  backoff := 0
  excess := false
  contributors := 0
  shed := 0

/-- CMB after a power-on reset (Table 6-1, R99). -/
def Cmb.powerOn : Cmb where
  counter := 0
  epochs := 0
  course := none
  held := Vector.replicate 16 none
  next := Vector.replicate 16 none
  late := Vector.replicate 16 0
  figures := Figures.initial Settings.powerOn.ceiling
  excess := 0
  clips := 0

/-- TXS after a power-on reset (Table 7-1, R119). -/
def Txs.powerOn : Txs where
  state := .offAir
  keyed := false
  cause := .none
  further := false
  atten := 300
  bias := none
  cool := none
  qual := 0
  refOk := false
  foldback := 0
  tripCount := 0
  lastRL := none
  linkUp := false
  invalid := 0
  fwd := -600
  refl := -600
  paReady := false
  paAlarm := false
  fwdNumber := 0
  formed := none
  toSend := none
  lastForward := none

/-- MON after a power-on reset (Table 8-1, R138). -/
def Mon.powerOn : Mon where
  mode := .off
  returnMode := none
  scanPos := 15
  dwell := none
  selftest := .none

/-- SVC after a power-on reset: RESET(POWER_ON) alone in the notice queue (R164, R168). -/
def Svc.powerOn : Svc where
  queue := []
  lost := 0
  notices := [⟨.reset false, false, false⟩]

/-- The part right after a power-on reset, the reset line released and the first block period begun (R1). -/
def State.reset : State where
  pending := []
  inReset := false
  rtA := Port.powerOn
  rtB := Port.powerOn
  ext := Ext.powerOn
  pln := Pln.powerOn
  ctx := Vector.replicate 16 Ctx.powerOn
  dst := Dst.powerOn
  cmb := Cmb.powerOn
  txs := Txs.powerOn
  mon := Mon.powerOn
  svc := Svc.powerOn
  free := 0

end Sys2Proof.Machine
end

