-- ==== Sys2Proof/Machine/Bits.lean ====
section
/-! DEFINITION. Byte order, two's complement, the check, and the exact arithmetic of levels: rounding, roots, scaling by a
level, and the level of a power. Everything is integer arithmetic, so it can be evaluated. -/

namespace Sys2Proof.Machine

/-! ### Reading fields (11: most significant byte first, signed fields two's complement) -/

/-- Byte `i` of a frame or body; a byte that does not stand there reads as 0. -/
def byteAt (b : List Byte) (i : Nat) : Byte := b.getD i 0

/-- The one-byte field at offset `i`. -/
def u8 (b : List Byte) (i : Nat) : Nat := (byteAt b i).toNat

/-- The two-byte field at offset `i`. -/
def u16 (b : List Byte) (i : Nat) : Nat := u8 b i * 256 + u8 b (i + 1)

/-- The value of `n` read as a two's complement number of `bits` bits. -/
def signed (bits n : Nat) : Int := if n < 2 ^ (bits - 1) then (n : Int) else (n : Int) - 2 ^ bits

/-- The signed two-byte field at offset `i`. -/
def s16 (b : List Byte) (i : Nat) : Int := signed 16 (u16 b i)

/-- The signed four-byte field at offset `i`. -/
def s32 (b : List Byte) (i : Nat) : Int := signed 32 (u16 b i * 65536 + u16 b (i + 2))

/-! ### Writing fields. A value too large for its field is sent at the field's maximum (R171). -/

/-- A one-byte field. -/
def field8 (n : Nat) : List Byte := [BitVec.ofNat 8 (min n 255)]

/-- A two-byte field. -/
def field16 (n : Nat) : List Byte :=
  let m := min n 65535
  [BitVec.ofNat 8 (m / 256), BitVec.ofNat 8 (m % 256)]

/-- A four-byte field. -/
def field32 (n : Nat) : List Byte :=
  let m := min n 4294967295
  field16 (m / 65536) ++ field16 (m % 65536)

/-- A signed two-byte field. -/
def fieldS16 (i : Int) : List Byte := field16 ((max (-32768) (min i 32767)) % 65536).toNat

/-- A signed four-byte field. -/
def fieldS32 (i : Int) : List Byte := field32 ((max (-2147483648) (min i 2147483647)) % 4294967296).toNat

/-- A signed two-byte field that may report something absent, sent as -32768 (R170). -/
def fieldOptS16 (i : Option Int) : List Byte := fieldS16 (i.getD (-32768))

/-- An unsigned two-byte field that may report something absent, sent as all ones (R170). -/
def fieldOpt16 (n : Option Nat) : List Byte := field16 (n.getD 65535)

/-- An unsigned one-byte field that may report something absent, sent as all ones (R170). -/
def fieldOpt8 (n : Option Nat) : List Byte := field8 (n.getD 255)

/-- A byte of flags, bit 0 first. -/
def flagByte : List Bool → Nat
  | [] => 0
  | b :: rest => b.toNat + 2 * flagByte rest

/-! ### The check (R169) -/

/-- One bit of the CRC with generator x^16 + x^12 + x^5 + 1. -/
def crcShift (c : BitVec 16) : BitVec 16 :=
  if c.msb then (c <<< 1) ^^^ 0x1021#16 else c <<< 1

/-- One byte of the CRC, most significant bit first. -/
def crcByte (c : BitVec 16) (b : Byte) : BitVec 16 :=
  let c := c ^^^ (b.setWidth 16 <<< 8)
  crcShift (crcShift (crcShift (crcShift (crcShift (crcShift (crcShift (crcShift c)))))))

/-- The check of a byte list: register preset to all ones, no final inversion (R169). -/
def crc (bytes : List Byte) : BitVec 16 := bytes.foldl crcByte 0xFFFF#16

/-- The check field of a byte list, high byte first. -/
def checkField (bytes : List Byte) : List Byte := field16 (crc bytes).toNat

/-! ### Samples on the links: in-phase then quadrature component, each a signed 16-bit value -/

/-- The sample in four bytes at the front of a list. -/
def sampleAt (b : List Byte) : Sample := ⟨s16 b 0, s16 b 2⟩

/-- The first `n` samples of a byte list. -/
def readSamples : Nat → List Byte → List Sample
  | 0, _ => []
  | n + 1, b => sampleAt b :: readSamples n (b.drop 4)

/-- A sample as four bytes. -/
def sampleBytes (s : Sample) : List Byte := fieldS16 s.re ++ fieldS16 s.im

/-! ### Exact roots and scaling -/

/-- The greatest `n` below `2 ^ bits` above `lo` at which the falling predicate `p` still holds, by halving. -/
def bisect (p : Nat → Bool) : Nat → Nat → Nat
  | 0, lo => lo
  | bits + 1, lo => if p (lo + 2 ^ bits) then bisect p bits (lo + 2 ^ bits) else bisect p bits lo

/-- Is `n` at most `x * 10 ^ (g / 200)` rounded to the nearest integer, halves upward? That is `n - 1/2` against the
product, both sides doubled and raised to the 200th power, so that no root is taken. -/
def scaleFits (g : Int) (x n : Nat) : Bool :=
  n == 0 || decide ((2 * n - 1) ^ 200 * 10 ^ (-g).toNat ≤ (2 * x) ^ 200 * 10 ^ g.toNat)

/-- `x * 10 ^ (g / 200)` rounded to the nearest integer, for a magnitude `x`. -/
def scaleNat (g : Int) (x : Nat) : Nat := bisect (scaleFits g x) (Nat.log2 x + g.toNat / 60 + 3) 0

/-- A component scaled by the level `g` in 0.1 dB: multiplied by 10 raised to `g / 200` and rounded to the nearest
integer, halves away from zero (R77, R115, R120). -/
def scaleComponent (g x : Int) : Int := if x < 0 then -(scaleNat g x.natAbs : Int) else scaleNat g x.natAbs

/-- A sample scaled by a level; a level of 0 leaves it unchanged. -/
def scaleSample (g : Int) (s : Sample) : Sample :=
  if g = 0 then s else ⟨scaleComponent g s.re, scaleComponent g s.im⟩

/-- Samples scaled by a level. -/
def scaleSamples (g : Int) (l : List Sample) : List Sample := l.map (scaleSample g)

/-- The power of a sample: the sum of the squares of its components (R16). -/
def samplePower (s : Sample) : Nat := s.re.natAbs ^ 2 + s.im.natAbs ^ 2

/-- The power of all samples together. -/
def totalPower (l : List Sample) : Nat := (l.map samplePower).sum

/-- Full scale: the magnitude 32767 (00, Samples). -/
def fullScale : Nat := 32767

/-- Is the level of the ratio `num / den` at or above `-(k + 1/2)` in 0.1 dB? -/
def levelReaches (num den k : Nat) : Bool := decide (den ^ 200 ≤ num ^ 200 * 10 ^ (2 * k + 1))

/-- The level of the power ratio `num / den` in 0.1 dB: ten times its decibel ratio, rounded to the nearest integer with
an exact half toward 0, then clamped to -900..0 (R16, R141). -/
def levelOfRatio (num den : Nat) : Int :=
  -((min 900 (bisect (fun n => n == 0 || !levelReaches num den (n - 1)) 10 0) : Nat) : Int)

/-- The input level of a block of samples: its mean power relative to full scale (R16). -/
def levelOfSamples (l : List Sample) : Int := levelOfRatio (totalPower l) (l.length * fullScale ^ 2)

/-- The level of a mean power of the drive output (R141). -/
def levelOfPower (p : Rat) : Int := levelOfRatio p.num.toNat (p.den * fullScale ^ 2)

/-- The sample clamp (R117): a sample of magnitude above full scale is scaled to full scale keeping its phase, both
components truncated. Component `c` becomes the greatest `n` with `n ^ 2 * power ≤ (c * 32767) ^ 2`. -/
def clampComponent (power : Nat) (c : Int) : Int :=
  let n := bisect (fun n => decide (n ^ 2 * power ≤ (c.natAbs * fullScale) ^ 2)) 15 0
  if c < 0 then -(n : Int) else n

/-- Is a sample above full scale? -/
def sampleOver (s : Sample) : Bool := decide (fullScale ^ 2 < samplePower s)

/-- A sample of the output band after the clamp (R117). -/
def clampSample (s : Sample) : Sample :=
  if sampleOver s then ⟨clampComponent (samplePower s) s.re, clampComponent (samplePower s) s.im⟩ else s

/-! ### Small arithmetic -/

/-- A value clamped to a range (00, Clamping). -/
def clampInt (lo hi x : Int) : Int := max lo (min hi x)

/-- A counter stepped by one, saturating at its stated maximum (00, Counters). -/
def satInc (maximum n : Nat) : Nat := min maximum (n + 1)

/-- The nearest multiple of `m` to `x`, a value exactly halfway being rounded away from zero (R20). -/
def roundTo (m : Nat) (x : Int) : Int :=
  let q := (2 * x.natAbs + m) / (2 * m) * m
  if x < 0 then -(q : Int) else q

end Sys2Proof.Machine
end

