-- ==== Sys2Proof/Machine/Tables.lean ====
section
/-! DEFINITION. The numbers of the manual's tables: times, durations, the log-sum correction, and the codes of Tables 11-5
and 11-8. -/

namespace Sys2Proof.Machine

/-- The bridge of a bridge code in block periods (Table 2-4). -/
def bridgeTime (code : Nat) : Nat := [10, 20, 50, 100, 200, 500, 1000, 2000].getD code 2000

/-- The revert hold of a revert code in block periods (Table 2-5). -/
def revertHold (code : Nat) : Nat := [1000, 2000, 5000, 10000, 30000, 60000, 120000, 300000].getD code 300000

/-- The duration of a test in block periods (Table 9-2), for codes 1 to 9. -/
def testDuration (code : Nat) : Nat :=
  [5000, 15000, 60000, 120000, 300000, 600000, 900000, 1800000, 3600000].getD (code - 1) 3600000

/-- The log-sum correction f(n) in 0.1 dB (Table 6-3). -/
def logSum (n : Nat) : Nat := [30, 25, 21, 18, 15, 12, 10, 8, 6, 5, 4, 3, 3, 2, 2, 1, 1, 1, 1, 1].getD n 0

/-- Status codes of responses (Table 10-2). -/
inductive Status where
  | ok
  | clamped
  | armed
  | unknown
  | length
  | index
  | field
  | pending
  | notArmed
  | overlap
  | taps
  | pages
  | state
  | tripped
  | active
  | noAlternate
deriving DecidableEq, Repr

/-- The code of a status (Table 11-8). -/
def Status.code : Status → Nat
  | .ok => 0x00
  | .clamped => 0x01
  | .armed => 0x02
  | .unknown => 0x10
  | .length => 0x11
  | .index => 0x12
  | .field => 0x13
  | .pending => 0x20
  | .notArmed => 0x21
  | .overlap => 0x22
  | .taps => 0x23
  | .pages => 0x24
  | .state => 0x30
  | .tripped => 0x31
  | .active => 0x32
  | .noAlternate => 0x33

/-- The request kinds (Table 10-3). -/
inductive Kind where
  | identify
  | restart
  | putEntry
  | dropEntry
  | putSettings
  | copyActive
  | apply
  | cancel
  | getEntry
  | getSettings
  | getChannel
  | mute
  | unmute
  | forceSource
  | clearFaultEntry
  | getTransmit
  | key
  | unkey
  | shutdown
  | clearFaultTransmit
  | setMonitor
  | getSupervision
  | testStart
  | testStop
deriving DecidableEq, Repr

/-- The code of a request kind (Table 11-5). -/
def Kind.code : Kind → Nat
  | .identify => 0x01
  | .restart => 0x02
  | .putEntry => 0x10
  | .dropEntry => 0x11
  | .putSettings => 0x12
  | .copyActive => 0x13
  | .apply => 0x14
  | .cancel => 0x15
  | .getEntry => 0x16
  | .getSettings => 0x17
  | .getChannel => 0x20
  | .mute => 0x21
  | .unmute => 0x22
  | .forceSource => 0x23
  | .clearFaultEntry => 0x24
  | .getTransmit => 0x30
  | .key => 0x31
  | .unkey => 0x32
  | .shutdown => 0x33
  | .clearFaultTransmit => 0x34
  | .setMonitor => 0x40
  | .getSupervision => 0x41
  | .testStart => 0x50
  | .testStop => 0x51

/-- Every request kind. -/
def Kind.all : List Kind :=
  [.identify, .restart, .putEntry, .dropEntry, .putSettings, .copyActive, .apply, .cancel, .getEntry, .getSettings,
   .getChannel, .mute, .unmute, .forceSource, .clearFaultEntry, .getTransmit, .key, .unkey, .shutdown,
   .clearFaultTransmit, .setMonitor, .getSupervision, .testStart, .testStop]

/-- The length of the request body that a kind requires (Table 11-5). -/
def Kind.bodyLength : Kind → Nat
  | .putEntry => 28
  | .putSettings => 25
  | .dropEntry => 1
  | .getEntry => 2
  | .getSettings => 1
  | .getChannel => 1
  | .mute => 1
  | .unmute => 1
  | .clearFaultEntry => 1
  | .forceSource => 2
  | .setMonitor => 2
  | .testStart => 4
  | .testStop => 1
  | .identify => 0
  | .restart => 0
  | .copyActive => 0
  | .apply => 0
  | .cancel => 0
  | .getTransmit => 0
  | .key => 0
  | .unkey => 0
  | .shutdown => 0
  | .clearFaultTransmit => 0
  | .getSupervision => 0

/-- Is a kind code one of the request kinds of Table 10-3? -/
def isRequestKind (code : Nat) : Bool := Kind.all.any (fun k => k.code == code)

/-! ### Codes of Table 11-8 -/

/-- Trunk code. -/
def trunkCode : Trunk → Nat
  | .A => 0
  | .B => 1

/-- The trunk of a code. -/
def trunkOfCode : Nat → Option Trunk
  | 0 => some .A
  | 1 => some .B
  | _ => none

/-- Source code. -/
def sourceCode : Source → Nat
  | .primary => 0
  | .alternate => 1

/-- The source of a code. -/
def sourceOfCode : Nat → Option Source
  | 0 => some .primary
  | 1 => some .alternate
  | _ => none

/-- Expiry action code. -/
def Expiry.code : Expiry → Nat
  | .notify => 0
  | .mute => 1
  | .failover => 2

/-- The expiry action of a code. -/
def expiryOfCode : Nat → Option Expiry
  | 0 => some .notify
  | 1 => some .mute
  | 2 => some .failover
  | _ => none

/-- The truth value of a code 0 or 1 (revert, test stops on trip). -/
def boolOfCode : Nat → Option Bool
  | 0 => some false
  | 1 => some true
  | _ => none

/-- Test end action code. -/
def TestEnd.code : TestEnd → Nat
  | .ret => 0
  | .mute => 1

/-- The test end action of a code. -/
def testEndOfCode : Nat → Option TestEnd
  | 0 => some .ret
  | 1 => some .mute
  | _ => none

/-- Notice trunk code. -/
def NoticeTrunk.code : NoticeTrunk → Nat
  | .a => 0
  | .b => 1
  | .both => 2

/-- The notice trunk of a code. -/
def noticeTrunkOfCode : Nat → Option NoticeTrunk
  | 0 => some .a
  | 1 => some .b
  | 2 => some .both
  | _ => none

/-- Context state code. -/
def CtxName.code : CtxName → Nat
  | .off => 0
  | .acquire => 1
  | .live => 2
  | .fade => 3
  | .muted => 4
  | .test => 5

/-- Mute cause code; no cause is 0. -/
def causeCode : Option Cause → Nat
  | none => 0
  | some .loss => 1
  | some .operator => 2
  | some .overlevel => 3
  | some .testEnd => 4

/-- Reason code. -/
def Reason.code : Reason → Nat
  | .signal => 0
  | .failover => 1
  | .recovery => 2
  | .revert => 3
  | .request => 4
  | .test => 5
  | .monitor => 6
  | .overrun => 7
  | .plan => 8
  | .shed => 9
  | .restore => 10

/-- Sequencer state code. -/
def Seq.code : Seq → Nat
  | .offAir => 0
  | .biasWait => 1
  | .rampUp => 2
  | .onAir => 3
  | .rampDown => 4
  | .cool => 5
  | .held => 6
  | .tripped => 7

/-- Trip cause code. -/
def Trip.code : Trip → Nat
  | .none => 0
  | .biasTimeout => 1
  | .pa => 2
  | .vswr => 3
  | .link => 4
  | .command => 5

/-- Alignment code. -/
def Align.code : Align → Nat
  | .hunt => 0
  | .confirm => 1
  | .sync => 2
  | .flywheel => 3

/-- Monitor mode code. -/
def MonMode.code : MonMode → Nat
  | .off => 0
  | .scan => 1
  | .lock _ => 2
  | .selftest => 3

/-- The entry of a LOCK mode. -/
def MonMode.entry : MonMode → Option Nat
  | .lock e => some e.val
  | _ => none

/-- Self-test result code. -/
def SelfTest.code : SelfTest → Nat
  | .none => 0
  | .pass => 1
  | .fail => 2

/-- Position class code. -/
def PosClass.code : PosClass → Nat
  | .empty => 0
  | .removed => 1
  | .added => 2
  | .pathChange => 3
  | .tuning => 4
  | .unchanged => 5

end Sys2Proof.Machine
end

