-- ==== Sys2Proof/Machine/Flags.lean ====
section
/-! DEFINITION. What the rules read off a state: which states contribute, bias or drive, which source is READY, which
block is good, which combinations of entry fields act. -/

namespace Sys2Proof.Machine

/-! ### Context states -/

/-- The contributor states are LIVE, FADE and TEST (R59). -/
def isContributor : CtxState → Bool
  | .off => false
  | .acquire => false
  | .live => true
  | .fade => true
  | .muted _ => false
  | .test _ _ => true

/-- The name of a context state. -/
def stateName : CtxState → CtxName
  | .off => .off
  | .acquire => .acquire
  | .live => .live
  | .fade => .fade
  | .muted _ => .muted
  | .test _ _ => .test

/-- The mute cause, present exactly in MUTED (3.1). -/
def stateCause : CtxState → Option Cause
  | .muted c => some c
  | _ => none

/-- Is a context in TEST? -/
def inTest : CtxState → Bool
  | .test _ _ => true
  | _ => false

/-- Is a context in one of the two states in which expiry and revert act, LIVE and FADE? -/
def liveOrFade : CtxState → Bool
  | .live => true
  | .fade => true
  | _ => false

/-- The readiness counter of a source. -/
def readyCount (c : Ctx) : Source → Nat
  | .primary => c.readyP
  | .alternate => c.readyA

/-- A source is READY when its readiness counter equals Q (3.1). -/
def isReady (q : Nat) (c : Ctx) (r : Source) : Bool := readyCount c r == q

/-! ### Entries -/

/-- The bridge of an entry (3.1). -/
def entryBridge (en : Entry) : Nat := bridgeTime en.bridgeCode

/-- The capacity of an entry in blocks (2.2). -/
def entryCapacity (en : Entry) : Nat := 16 * en.pages

/-- The delay of a source of an entry (3.1). -/
def entryDelay (en : Entry) : Source → Nat
  | .primary => en.primaryDelay
  | .alternate => en.alternateDelay

/-- The input start slot of a source of an entry; an absent alternate is never in use (R67). -/
def entryStart (en : Entry) : Source → Nat
  | .primary => en.primary.start
  | .alternate => (en.alternate.getD en.primary).start

/-- FAILOVER acts as FAILOVER only when the alternate is present (R21). -/
def failoverActs (en : Entry) : Bool := en.expiry == .failover && en.alternate.isSome

/-- Revert acts only under FAILOVER with the alternate present and revert on (R21, R56). -/
def revertActs (en : Entry) : Bool := failoverActs en && en.revert

/-- A block is good when its quality is GOOD and its input level is at or above the loss threshold (R45). -/
def blockGood (en : Entry) (b : ChannelBlock) : Bool :=
  match b.quality, b.level with
  | .good, some l => decide (en.loss ≤ l)
  | _, _ => false

/-! ### Transmit sequencer -/

/-- The bias-on states (Table 7-2). -/
def biasOn : Seq → Bool
  | .offAir => false
  | .biasWait => true
  | .rampUp => true
  | .onAir => true
  | .rampDown => true
  | .cool => true
  | .held => true
  | .tripped => false

/-- The driving states (Table 7-2). -/
def driving : Seq → Bool
  | .offAir => false
  | .biasWait => false
  | .rampUp => true
  | .onAir => true
  | .rampDown => true
  | .cool => false
  | .held => false
  | .tripped => false

/-! ### Notices -/

/-- Does the notice trunk setting name a trunk (R165)? -/
def namesTrunk : NoticeTrunk → Trunk → Bool
  | .a, .A => true
  | .a, .B => false
  | .b, .A => false
  | .b, .B => true
  | .both, _ => true

/-- The sent mark of a notice for a trunk. -/
def sentMark (n : Notice) : Trunk → Bool
  | .A => n.sentA
  | .B => n.sentB

/-- Has a notice been sent on every trunk that the setting names (R164)? -/
def fullySent (setting : NoticeTrunk) (n : Notice) : Bool :=
  (!namesTrunk setting .A || n.sentA) && (!namesTrunk setting .B || n.sentB)

/-- The sources of the notice queue (Table 10-4): each entry, the sequencer, the plan, the memory, and the reset. -/
inductive NoticeSource where
  | channel (entry : EntryIx)
  | transmit
  | plan
  | memory
  | reset
deriving DecidableEq, Repr

/-- The source of a content. -/
def sourceOf : Content → NoticeSource
  | .channel e _ _ _ _ _ _ _ => .channel e
  | .transmit _ _ _ _ _ _ _ _ => .transmit
  | .plan _ _ _ _ => .plan
  | .memory _ _ => .memory
  | .reset _ => .reset

/-- Do two contents come from the same notice source? -/
def sameSource (a b : Content) : Bool := sourceOf a == sourceOf b

end Sys2Proof.Machine
end

