-- ==== Sys2Proof/Machine/Operands.lean ====
section
/-! DEFINITION. The operand forms: the entry and settings records of request bodies, the frames taken from and put on
the lanes, and the messages of the service lane, byte by byte (chapter 11). -/

namespace Sys2Proof.Machine

/-! ### The entry record (Table 11-6) -/

/-- A range of `width` slots from `start` lies within the 96 slots. -/
def rangeFits (start width : Nat) : Bool := decide (start ≤ 95) && decide (start + width ≤ 96)

/-- The number of the first structural field that fails, in the order of R19, with the presence byte tested first in the
alternate field (R170). `none` when all pass. -/
def entryFieldError (b : List Byte) : Option Nat :=
  if (trunkOfCode (u8 b 0)).isNone then some 1
  else if 95 < u8 b 1 then some 2
  else if u8 b 5 = 0 ∨ 16 < u8 b 5 then some 3
  else if 96 < u8 b 1 + u8 b 5 then some 4
  else if 1 < u8 b 2 then some 5
  else if u8 b 2 = 1 ∧ ((trunkOfCode (u8 b 3)).isNone ∨ rangeFits (u8 b 4) (u8 b 5) = false) then some 5
  else if u8 b 2 = 1 ∧ u8 b 3 = u8 b 0 ∧ u8 b 4 = u8 b 1 then some 6
  else if rangeFits (u8 b 6) (u8 b 5) = false then some 7
  else if (expiryOfCode (u8 b 7)).isNone then some 8
  else if (boolOfCode (u8 b 8)).isNone then some 9
  else none

/-- The entry as sent, every numeric field at its whole value (R170). The alternate delay of an absent alternate is 0,
whatever was sent (R20). Meaningful when `entryFieldError` finds no failure. -/
def entrySent (b : List Byte) : Entry where
  primary := ⟨(trunkOfCode (u8 b 0)).getD .A, u8 b 1⟩
  alternate := if u8 b 2 = 1 then some ⟨(trunkOfCode (u8 b 3)).getD .A, u8 b 4⟩ else none
  width := u8 b 5
  outStart := u8 b 6
  expiry := (expiryOfCode (u8 b 7)).getD .notify
  revert := (boolOfCode (u8 b 8)).getD false
  fine := s32 b 10
  target := s16 b 14
  loss := s16 b 16
  attack := u8 b 18
  decay := u8 b 19
  bridgeCode := u8 b 20
  revertCode := u8 b 9
  pages := u8 b 21
  primaryDelay := u16 b 22
  alternateDelay := if u8 b 2 = 1 then u16 b 24 else 0
  priority := u8 b 26

/-- An entry with its numeric fields clamped to Table 2-2; the delays to the capacity of the stored page count (R20). -/
def clampEntry (en : Entry) : Entry :=
  let pages := min en.pages 32
  { en with
    fine := clampInt (-125000) 125000 en.fine
    target := clampInt (-400) 0 en.target
    loss := clampInt (-900) (-100) en.loss
    attack := min en.attack 7
    decay := min en.decay 7
    bridgeCode := min en.bridgeCode 7
    revertCode := min en.revertCode 7
    pages := pages
    primaryDelay := min en.primaryDelay (16 * pages)
    alternateDelay := min en.alternateDelay (16 * pages)
    priority := min en.priority 7 }

/-- The entry as stored: clamped, then the fine offset rounded to a multiple of 25 Hz (R20). -/
def storeEntry (en : Entry) : Entry :=
  let c := clampEntry en
  { c with fine := roundTo 25 c.fine }

/-- The entry record of an entry, 27 bytes. An absent alternate's trunk and start slot report something absent and are
sent as all ones (R170, notes/assumptions/18.md). -/
def entryRecord (en : Entry) : List Byte :=
  field8 (trunkCode en.primary.trunk) ++ field8 en.primary.start ++
  (match en.alternate with
   | none => field8 0 ++ field8 255 ++ field8 255
   | some a => field8 1 ++ field8 (trunkCode a.trunk) ++ field8 a.start) ++
  field8 en.width ++ field8 en.outStart ++ field8 en.expiry.code ++ field8 en.revert.toNat ++
  field8 en.revertCode ++ fieldS32 en.fine ++ fieldS16 en.target ++ fieldS16 en.loss ++
  field8 en.attack ++ field8 en.decay ++ field8 en.bridgeCode ++ field8 en.pages ++
  field16 en.primaryDelay ++ field16 en.alternateDelay ++ field8 en.priority

/-! ### The settings record (Table 11-6) -/

/-- The number of the first enumerated setting outside its list, in the order of R22. -/
def settingsFieldError (b : List Byte) : Option Nat :=
  if (testEndOfCode (u8 b 20)).isNone then some 1
  else if (boolOfCode (u8 b 21)).isNone then some 2
  else if (noticeTrunkOfCode (u8 b 24)).isNone then some 3
  else none

/-- The settings as sent. -/
def settingsSent (b : List Byte) : Settings where
  ceiling := s16 b 0
  maxBackoff := u8 b 2
  hysteresis := u8 b 3
  acquire := u16 b 4
  rampStep := u8 b 6
  biasDeadline := u16 b 7
  coolTime := u16 b 9
  refQual := u16 b 11
  foldStart := u16 b 13
  foldMax := u8 b 15
  tripRL := u16 b 16
  tripCount := u8 b 18
  refresh := u8 b 19
  testEnd := (testEndOfCode (u8 b 20)).getD .ret
  testStops := (boolOfCode (u8 b 21)).getD false
  tolerance := u8 b 22
  dwell := u8 b 23
  noticeTrunk := (noticeTrunkOfCode (u8 b 24)).getD .a

/-- A natural number clamped to a range (00, Clamping). -/
def clampNat (lo hi n : Nat) : Nat := max lo (min hi n)

/-- Settings with every numeric setting clamped to Table 2-3: RLfold first, RLtrip to the RLfold stored (R22). -/
def clampSettings (r : Settings) : Settings :=
  let foldStart := clampNat 60 300 r.foldStart
  { r with
    ceiling := clampInt (-300) 0 r.ceiling
    maxBackoff := min r.maxBackoff 100
    hysteresis := min r.hysteresis 60
    acquire := clampNat 1 1000 r.acquire
    rampStep := clampNat 1 100 r.rampStep
    biasDeadline := clampNat 100 5000 r.biasDeadline
    coolTime := min r.coolTime 5000
    refQual := clampNat 100 10000 r.refQual
    foldStart := foldStart
    foldMax := min r.foldMax 100
    tripRL := clampNat 30 foldStart r.tripRL
    tripCount := clampNat 1 100 r.tripCount
    refresh := clampNat 2 15 r.refresh
    tolerance := clampNat 5 60 r.tolerance
    dwell := clampNat 4 64 r.dwell }

/-- The settings record, 25 bytes. -/
def settingsRecord (r : Settings) : List Byte :=
  fieldS16 r.ceiling ++ field8 r.maxBackoff ++ field8 r.hysteresis ++ field16 r.acquire ++ field8 r.rampStep ++
  field16 r.biasDeadline ++ field16 r.coolTime ++ field16 r.refQual ++ field16 r.foldStart ++ field8 r.foldMax ++
  field16 r.tripRL ++ field8 r.tripCount ++ field8 r.refresh ++ field8 r.testEnd.code ++ field8 r.testStops.toNat ++
  field8 r.tolerance ++ field8 r.dwell ++ field8 r.noticeTrunk.code

/-! ### Frames (Tables 11-1 to 11-3) -/

/-- The trunk sync pattern, in both directions. -/
def trunkSync : List Byte := [0x3C, 0xA6, 0x59, 0xC3]

/-- The drive link sync pattern. -/
def driveSync : List Byte := [0x5A, 0x3C, 0xC3, 0xA5]

/-- The identity byte of a trunk. -/
def trunkIdentity : Trunk → Byte
  | .A => 0x0A
  | .B => 0x0B

/-- Samples of a band in one block period (Table 11-1). -/
def bandSamples : Nat := 48000

/-- What a good trunk frame brings (R2). -/
structure TrunkFrame where
  number   : Nat
  overload : Bool
  alarm    : Bool
  band     : List Sample
  segment  : List Byte
deriving DecidableEq, Repr

/-- The outcome of a block period at a trunk port (Table 1-2). -/
inductive FrameOutcome where
  | missing
  | badSync
  | wrongIdentity
  | damaged
  | good (f : TrunkFrame)
deriving DecidableEq, Repr

/-- The contents of a trunk frame (Table 11-1): the low 10 bits of the number, the two receiver flags, the samples and the
service segment. -/
def readTrunkFrame (b : List Byte) : TrunkFrame where
  number := u16 b 5 % 1024
  overload := (byteAt b 7).getLsbD 0
  alarm := (byteAt b 7).getLsbD 1
  band := readSamples bandSamples (b.drop 8)
  segment := (b.drop 192008).take 32

/-- Does the check field at offset `at_` match the check of everything after the four sync bytes (R169)? A signal that
does not have exactly the bytes of its frame has no check that matches. -/
def checkMatches (b : List Byte) (at_ : Nat) : Bool :=
  decide (b.length = at_ + 2) && (b.drop at_ == checkField ((b.take at_).drop 4))

/-- Sorting what stands in the frame window of a trunk (R2). -/
def sortWindow (t : Trunk) (w : Window) : FrameOutcome :=
  match w with
  | none => .missing
  | some b =>
    if b.take 4 ≠ trunkSync then .badSync
    else if byteAt b 4 ≠ trunkIdentity t then .wrongIdentity
    else if checkMatches b 192040 = false then .damaged
    else .good (readTrunkFrame b)

/-- A reverse trunk frame (Table 11-2). -/
def reverseTrunkBytes (number : Nat) (segment : List Byte) : List Byte :=
  trunkSync ++ (field16 number ++ segment) ++ checkField (field16 number ++ segment)

/-- A forward drive link frame (Table 11-3). -/
def forwardDriveBytes (number : Nat) (bias active : Bool) (samples : List Sample) : List Byte :=
  let covered := field16 number ++ field8 (flagByte [bias, active]) ++ samples.flatMap sampleBytes
  driveSync ++ covered ++ checkField covered

/-- What a valid reverse drive link frame brings (Table 11-3). -/
structure Reading where
  fwd   : Int
  refl  : Int
  ready : Bool
  alarm : Bool
deriving DecidableEq, Repr

/-- The readings of a reverse drive link frame, clamped to -600..+30 (R122 stage 1). -/
def readDrive (b : List Byte) : Reading where
  fwd := clampInt (-600) 30 (s16 b 4)
  refl := clampInt (-600) 30 (s16 b 6)
  ready := (byteAt b 8).getLsbD 0
  alarm := (byteAt b 8).getLsbD 1

/-- Judging the reverse drive frame window (R121): the readings of a valid frame, `none` for an invalid one. -/
def sortDrive (w : Window) : Option Reading :=
  match w with
  | none => none
  | some b => if b.take 4 = driveSync ∧ checkMatches b 9 = true then some (readDrive b) else none

/-! ### Messages (Table 11-4) -/

/-- The two bytes of the start marker. -/
def marker1 : Byte := 0xC5
/-- The second byte of the start marker. -/
def marker2 : Byte := 0x3A

/-- A service message: start marker, length, tag, kind, body, check over everything after the marker (Table 11-4). -/
def messageBytes (tag kind : Nat) (body : List Byte) : List Byte :=
  let covered := field16 (body.length + 8) ++ field8 tag ++ field8 kind ++ body
  [marker1, marker2] ++ covered ++ checkField covered

/-- A complete message as the assembler gathered it is good when its check matches (R157). -/
def messageGood (m : List Byte) : Bool :=
  let covered := (m.drop 2).take (m.length - 4)
  m.drop (m.length - 2) == checkField covered

/-- The request that a good message stands for (R160). -/
def messageRequest (t : Trunk) (m : List Byte) : Request where
  trunk := t
  tag := byteAt m 4
  kind := byteAt m 5
  body := (m.drop 6).take (m.length - 8)

/-- Body of a notice (Table 11-7). -/
def noticeBody : Content → List Byte
  | .channel e st cause src expired shed failovers reason =>
    field8 e.val ++ field8 st.code ++ field8 (causeCode cause) ++ field8 (sourceCode src) ++
    field8 (flagByte [expired, shed]) ++ field8 failovers ++ field8 reason.code
  | .transmit st keyed further refOk linkUp cause atten foldback =>
    field8 st.code ++ field8 (flagByte [keyed, further, refOk, linkUp]) ++ field8 cause.code ++ field16 atten ++
    field8 foldback
  | .plan epoch classes taps pages =>
    field16 epoch ++ classes.flatMap (fun c => field8 c.code) ++ field8 taps ++ field16 pages
  | .memory overruns lines => field8 overruns ++ field8 lines
  | .reset warm => field8 warm.toNat

/-- Kind code of a notice (Table 11-7). -/
def noticeKind : Content → Nat
  | .channel _ _ _ _ _ _ _ _ => 0x80
  | .transmit _ _ _ _ _ _ _ _ => 0x81
  | .plan _ _ _ _ => 0x82
  | .memory _ _ => 0x83
  | .reset _ => 0x84

/-- The message of a notice: a notice kind in place of a request kind, and tag 0 (R164). -/
def noticeMessage (c : Content) : List Byte := messageBytes 0 (noticeKind c) (noticeBody c)

end Sys2Proof.Machine
end

