-- ==== Sys2Proof/Machine/Ops.lean ====
section
/-! DEFINITION. The named operations that the meanings share: reading and writing one place of the state, posting a
notice, committing a change of a context or of the sequencer with all it brings, the delay store's queues, memory and
port, and the answering of requests. -/

namespace Sys2Proof.Machine

/-! ### Places -/

/-- The place of entry `e`. -/
def vget {α : Type} (v : Vector α 16) (e : EntryIx) : α := v[e.val]

/-- Replace the place of entry `e`. -/
def vput {α : Type} (v : Vector α 16) (e : EntryIx) (a : α) : Vector α 16 := v.set e.val a

/-- The sixteen entry positions in entry number order. -/
def entries : List EntryIx := List.finRange 16

/-- The port of a trunk. -/
def portOf (s : State) : Trunk → Port
  | .A => s.rtA
  | .B => s.rtB

/-- Replace the port of a trunk. -/
def setPort (t : Trunk) (p : Port) (s : State) : State :=
  match t with
  | .A => { s with rtA := p }
  | .B => { s with rtB := p }

/-- The context of an entry. -/
def ctxAt (s : State) (e : EntryIx) : Ctx := vget s.ctx e

/-- Replace the context of an entry. -/
def setCtx (e : EntryIx) (c : Ctx) (s : State) : State := { s with ctx := vput s.ctx e c }

/-- Replace all the contexts. -/
def setCtxs (v : Vector Ctx 16) (s : State) : State := { s with ctx := v }

/-- The entry of the active plan at a position. -/
def activeAt (s : State) (e : EntryIx) : Option Entry := vget s.pln.active e

/-- The line of an entry. -/
def lineAt (s : State) (e : EntryIx) : Option Line := vget s.dst.lines e

/-- Replace the delay store. -/
def setDst (d : Dst) (s : State) : State := { s with dst := d }

/-- Replace the combiner. -/
def setCmb (c : Cmb) (s : State) : State := { s with cmb := c }

/-- Replace the monitor. -/
def setMon (m : Mon) (s : State) : State := { s with mon := m }

/-- Replace the service engine. -/
def setSvc (v : Svc) (s : State) : State := { s with svc := v }

/-- Replace the extractor. -/
def setExt (x : Ext) (s : State) : State := { s with ext := x }

/-- Replace the plan store. -/
def setPln (p : Pln) (s : State) : State := { s with pln := p }

/-- Replace the sequencer's fields, without what a change of its state brings. -/
def setTxs (x : Txs) (s : State) : State := { s with txs := x }

/-- Draw a free value: advance the counter. -/
def drawFree (s : State) : State := { s with free := s.free + 1 }

/-! ### Notices (10.5) -/

/-- Posting of a content into the notice queue: a pending notice of the same source keeps its place and gets the new
content with both sent marks clear; else the notice joins the back (R164). -/
def postNotice (c : Content) (q : List Notice) : List Notice :=
  if q.any (fun n => sameSource n.content c) then
    q.map (fun n => if sameSource n.content c then ⟨c, false, false⟩ else n)
  else q ++ [⟨c, false, false⟩]

/-- Post a notice. -/
def post (c : Content) (s : State) : State := setSvc { s.svc with notices := postNotice c s.svc.notices } s

/-- The content of CHANNEL-CHANGED for a context as it stands (R66). -/
def channelContent (e : EntryIx) (c : Ctx) (reason : Reason) : Content :=
  .channel e (stateName c.state) (stateCause c.state) c.source c.expired c.shed c.failovers reason

/-- Post CHANNEL-CHANGED for an entry, carrying its context as it stands. -/
def postChannel (e : EntryIx) (reason : Reason) (s : State) : State := post (channelContent e (ctxAt s e) reason) s

/-- The content of TRANSMIT-CHANGED: the items of R137 and Table 11-7, without the qualification counter that R123 names
(notes/assumptions/33.md). -/
def transmitContent (x : Txs) : Content :=
  .transmit x.state x.keyed x.further x.refOk x.linkUp x.cause x.atten x.foldback

/-! ### Monitor dwells (R142) -/

/-- End a dwell in progress without a finding. -/
def endDwell (s : State) : State := setMon { s.mon with dwell := none } s

/-- End a dwell in progress on an entry without a finding. -/
def endDwellOn (e : EntryIx) (s : State) : State :=
  match s.mon.dwell with
  | some d => if d.visited = .entry e then endDwell s else s
  | none => s

/-! ### Contexts -/

/-- Did a change alter a field that CHANNEL-CHANGED is posted for: state, mute cause, source in use, expired mark (R66)? -/
def reportChanged (old new : Ctx) : Bool :=
  stateName old.state != stateName new.state || stateCause old.state != stateCause new.state ||
  old.source != new.source || old.expired != new.expired

/-- Does a context leave the contributor states (R59)? -/
def leavesAir (old new : Ctx) : Bool := isContributor old.state && !isContributor new.state

/-- A changed context as it stands after the change: one that leaves the contributor states has its shed flag cleared in the
same event (R59, R111). -/
def committed (old new : Ctx) : Ctx := if leavesAir old new then { new with shed := false } else new

/-- Commit a changed context, with all that the change brings: its shed flag (R111), the end of a dwell on it when it leaves
the contributor states (R142), and CHANNEL-CHANGED when a reported field changed (R66). -/
def commitCtx (e : EntryIx) (new : Ctx) (reason : Reason) (s : State) : State :=
  let old := ctxAt s e
  let s := setCtx e (committed old new) s
  let s := if leavesAir old new then endDwellOn e s else s
  if reportChanged old new then postChannel e reason s else s

/-- A context that enters ACQUIRE by a transition (R48, R51, R56): loss count 0, expired mark clear, revert counter 0. -/
def toAcquire (c : Ctx) : Ctx := { c with state := .acquire, loss := 0, expired := false, revert := 0 }

/-- A context that enters MUTED (R54): its cause set, loss count 0, expired mark clear, revert counter 0. A test that ran
is gone with the state TEST. -/
def toMuted (cause : Cause) (c : Ctx) : Ctx :=
  { c with state := .muted cause, loss := 0, expired := false, revert := 0 }

/-- A context at a source switch (R53): the other source in use, ACQUIRE, the gain uninitialised, the readiness counters
unchanged, the failover counter stepped when the switch is a failover. -/
def switched (isFailover : Bool) (c : Ctx) : Ctx :=
  { toAcquire c with
    source := c.source.other
    gain := none
    failovers := if isFailover then satInc 255 c.failovers else c.failovers }

/-- A test that ends into ACQUIRE without its done flag (R153, R155). Contexts not in TEST are not touched. -/
def stopTest (e : EntryIx) (s : State) : State :=
  if inTest (ctxAt s e).state then commitCtx e (toAcquire (ctxAt s e)) .test s else s

/-! ### Delay store: record positions, gap marks, memory -/

/-- Insert into a strictly rising list. -/
def insertMark (m : Nat) : List Nat → List Nat
  | [] => [m]
  | a :: rest => if m < a then m :: a :: rest else if m = a then a :: rest else a :: insertMark m rest

/-- Set the gap mark of a record position. -/
def setGapMark (cell : Nat) (d : Dst) : Dst := { d with gapMarks := insertMark cell d.gapMarks }

/-- Clear the gap mark of a record position. -/
def clearGapMark (cell : Nat) (d : Dst) : Dst := { d with gapMarks := d.gapMarks.filter (· != cell) }

/-- Write a record into a list with strictly rising record positions. -/
def insertCell (cell : Nat) (r : BlockRecord) : List (Nat × BlockRecord) → List (Nat × BlockRecord)
  | [] => [(cell, r)]
  | (a, x) :: rest =>
    if cell < a then (cell, r) :: (a, x) :: rest
    else if cell = a then (cell, r) :: rest
    else (a, x) :: insertCell cell r rest

/-- Store a record in the DRAM. -/
def dramWrite (cell : Nat) (r : BlockRecord) (d : Dst) : Dst := { d with dram := insertCell cell r d.dram }

/-- What the DRAM reads at a record position: the record written there, or what it held at power-on, which is unknown (R97). -/
def dramRead (d : Dst) (cell : Nat) : BlockRecord :=
  match d.dram.find? (fun p => p.1 == cell) with
  | some p => p.2
  | none => Config.unknownRecord cell

/-- The canonical form of the delay store's memory: the record positions written, and those with a gap mark, are strictly
rising, so that equal contents are equal data. -/
def dramWf (d : Dst) : Bool :=
  decide ((d.dram.map Prod.fst).Pairwise (· < ·)) && decide (d.gapMarks.Pairwise (· < ·))

/-- The capacity of a line (Table 5-2). -/
def lineCapacity (l : Line) : Nat := 16 * l.pages.length

/-- The record position of line position `p`: page `p / 16` of the page list, record `p mod 16` (R83). -/
def lineCell (l : Line) (p : Nat) : Nat := l.pages.getD (p / 16) 0 * 16 + p % 16

/-- The line position at distance `d` behind the write position, modulo the capacity (R83). -/
def linePosition (l : Line) (d : Nat) : Nat := (l.writePos + lineCapacity l - d) % lineCapacity l

/-- The line after a record has been accepted: the write position advances (R84). -/
def lineAccept (l : Line) : Line :=
  { l with
    writePos := if l.writePos + 1 < lineCapacity l then l.writePos + 1 else 0
    accepted := min (lineCapacity l) (l.accepted + 1) }

/-- The line with one more record in its fill, up to the capacity (R85, R86). -/
def lineFill (l : Line) : Line := { l with fill := min (lineCapacity l) (l.fill + 1) }

/-- The line after a flush: fill 0 and no record held; the write position is kept (R87). -/
def lineFlush (l : Line) : Line := { l with fill := 0, accepted := 0 }

/-- Replace the line of an entry. -/
def setLine (e : EntryIx) (l : Option Line) (d : Dst) : Dst := { d with lines := vput d.lines e l }

/-! ### Delay store: queues and port -/

/-- The arbiter's grant when the port is free: a pending refresh, whose request the grant clears, then the oldest read,
then the oldest write (R92, Table 5-4). -/
def grant (d : Dst) : Dst :=
  match d.port with
  | .idle =>
    if d.refreshPending then { d with port := .refresh, refreshPending := false }
    else if !d.reads.isEmpty then { d with port := .read }
    else if !d.writes.isEmpty then { d with port := .write }
    else d
  | _ => d

/-- Remove the writes that satisfy `p` from the write queue. A burst in progress of a removed write still holds the port
to its end (R87, R92). -/
def removeWrites (p : WriteReq → Bool) (d : Dst) : Dst :=
  { d with
    writes := d.writes.filter (fun w => !p w)
    port := if d.port = .write ∧ (d.writes.head?.elim false p) = true then .orphan else d.port }

/-- Remove the reads that satisfy `p` from the read queue; a burst in progress of a removed read holds the port to its end. -/
def removeReads (p : ReadReq → Bool) (d : Dst) : Dst :=
  { d with
    reads := d.reads.filter (fun r => !p r)
    port := if d.port = .read ∧ (d.reads.head?.elim false p) = true then .orphan else d.port }

/-- Give the answer of an entry's read to the output block in course. -/
def answerRead (e : EntryIx) (a : Answer) (c : Cmb) : Cmb :=
  match c.course with
  | none => c
  | some o => { c with course := some { o with answers := vput o.answers e a } }

/-- Remove the reads of an entry from the read queue and answer each with nothing (R87). -/
def dropReads (e : EntryIx) (s : State) : State :=
  if s.dst.reads.any (fun r => r.entry == e) then
    setCmb (answerRead e .nothing s.cmb) (setDst (removeReads (fun r => r.entry == e) s.dst) s)
  else s

/-- A flush of an entry's line (R87): fill 0, its queued writes removed, its queued reads removed and answered with
nothing. An entry without a line has nothing to flush. -/
def flushLine (e : EntryIx) (s : State) : State :=
  match lineAt s e with
  | none => s
  | some l => dropReads e (setDst (removeWrites (fun w => w.entry == e) (setLine e (some (lineFlush l)) s.dst)) s)

/-- The read of an entry for the output block in course is of its old source, and is answered with nothing, also where it
has been answered already (R102). An entry for which no read was queued has none to answer. -/
def voidRead (e : EntryIx) (s : State) : State :=
  match s.cmb.course with
  | none => s
  | some o => if vget o.answers e = .unread then s else setCmb (answerRead e .nothing s.cmb) s

/-- A source switch of a context (R53, R62): the context changed, with a reason, its line flushed (R87), and its read of the
old source answered with nothing (R102). -/
def switchSource (e : EntryIx) (isFailover : Bool) (reason : Reason) (c : Ctx) (s : State) : State :=
  voidRead e (flushLine e (commitCtx e (switched isFailover c) reason s))

/-- A flush of every line, with both queues emptied and every read in them answered with nothing (R94, R97). -/
def flushAll (s : State) : State :=
  let s := entries.foldl (fun s e => dropReads e (flushLine e s)) s
  setDst (removeWrites (fun _ => true) s.dst) s

/-- A write joins the back of the write queue, and an idle port is granted at once (R84, R92). -/
def joinWrites (w : WriteReq) (d : Dst) : Dst := grant { d with writes := d.writes ++ [w] }

/-- Accepting a record into a line (R84, R85). An older queued write of the position is removed. With fewer than 32 writes
queued the record joins the write queue, and an idle port is granted at once (R92); else a GAP is entered in its place. -/
def acceptRecord (e : EntryIx) (l : Line) (width : Nat) (r : BlockRecord) (d : Dst) : Dst :=
  let cell := lineCell l l.writePos
  let d' := removeWrites (fun w => w.entry == e && w.cell == cell) d
  if d.writes.length < 32 then
    joinWrites ⟨e, cell, r, width, 0⟩ (setLine e (some (lineAccept l)) d')
  else
    let d' := setGapMark cell (setLine e (some (lineFill (lineAccept l))) d')
    { d' with gapCounts := vput d'.gapCounts e (satInc 65535 (vget d'.gapCounts e)) }

/-! ### Transmit sequencer -/

/-- Entry into OFF_AIR: bias off, timers stopped, F, the trip count and the last RL at their rest (R128, R130, R131). -/
def toOffAir (x : Txs) : Txs :=
  { x with state := .offAir, bias := none, cool := none, foldback := 0, tripCount := 0, lastRL := none }

/-- Entry into TRIPPED with a cause (R132). -/
def toTripped (cause : Trip) (x : Txs) : Txs :=
  { x with
    state := .tripped
    cause := cause
    keyed := false
    atten := 300
    foldback := 0
    tripCount := 0
    lastRL := none
    bias := none
    cool := none }

/-- Entry into COOL with the cool timer started at the cool time; a cool time of 0 goes on to OFF_AIR in the same event (R128). -/
def toCool (set : Settings) (x : Txs) : Txs :=
  if set.coolTime = 0 then toOffAir { x with atten := 300 }
  else { x with state := .cool, cool := some set.coolTime, bias := none, atten := 300 }

/-- Entry into BIAS_WAIT with the bias timer started at the bias deadline (R124). -/
def toBiasWait (set : Settings) (x : Txs) : Txs :=
  { x with state := .biasWait, bias := some set.biasDeadline, cool := none }

/-- Entry into RAMP_UP with A at 300, both timers stopped (R124, R126, R129). -/
def toRampUp (x : Txs) : Txs := { x with state := .rampUp, atten := 300, bias := none, cool := none }

/-- Entry into HELD, both timers stopped (R126, R129). -/
def toHeld (x : Txs) : Txs := { x with state := .held, atten := 300, bias := none, cool := none }

/-- When test stops on trip is yes, every running test ends in entry order as TEST-STOP does (R155). -/
def endTestsOnTrip (s : State) : State :=
  if s.pln.activeSettings.testStops then entries.foldl (fun s e => stopTest e s) s else s

/-- Commit a changed sequencer, with all that a change of its state brings: leaving ON_AIR ends a dwell (R139), a change of
state or a newly set further-faults mark posts TRANSMIT-CHANGED (R137), and entry into TRIPPED is then reported to TTG (R155),
so that TRANSMIT-CHANGED is posted before the notices of the tests that end (notes/assumptions/36.md). -/
def commitTxs (new : Txs) (s : State) : State :=
  let old := s.txs
  let s := setTxs new s
  let s := if old.state = .onAir ∧ new.state ≠ .onAir then endDwell s else s
  let s := if old.state ≠ new.state ∨ (new.further && !old.further) = true then post (transmitContent new) s else s
  if new.state = .tripped ∧ old.state ≠ .tripped then endTestsOnTrip s else s

/-- A trip condition with a cause: a trip in a state other than TRIPPED (R132); in TRIPPED a further fault, which sets the
mark and keeps the cause (R133). -/
def tripOrFurther (cause : Trip) (s : State) : State :=
  if s.txs.state = .tripped then commitTxs { s.txs with further := true } s
  else commitTxs (toTripped cause s.txs) s

/-- What the sequencer does when ref_ok becomes `ok` (R129). -/
def refChange (set : Settings) (ok : Bool) (x : Txs) : Txs :=
  let x := { x with refOk := ok }
  if ok then
    if x.state = .held ∧ x.keyed = true then toRampUp x else x
  else if driving x.state then
    if x.keyed then toHeld x else toCool set x
  else x

/-! ### Requests (10.3) -/

/-- The answer of an owning block: status, further body, and the state it leaves. -/
structure Reply where
  status : Status
  body   : List Byte
  state  : State

/-- Place a response in the outbox of the request's trunk: the request's tag and kind, the status, the lost-request count
copied and then set to 0, and the further body (R159, R162). -/
def respond (r : Request) (status : Status) (body : List Byte) (s : State) : State :=
  let m := messageBytes r.tag.toNat r.kind.toNat (field8 status.code ++ field8 s.svc.lost ++ body)
  let s := setSvc { s.svc with lost := 0 } s
  setPort r.trunk { portOf s r.trunk with outbox := some m } s

/-- The oldest item of the request queue, when the outbox of its trunk is empty (R161), and the state without it. -/
def takeRequest (s : State) : Option (Request × State) :=
  match s.svc.queue with
  | [] => none
  | r :: rest => if (portOf s r.trunk).outbox.isNone then some (r, setSvc { s.svc with queue := rest } s) else none

/-- A command acts only while the power-on reset line is not held low (R1, notes/assumptions/14.md). -/
def running (s : State) (f : State → State) : Host.Outcome State Fault Refusal :=
  if s.inReset then .next s else .next (f s)

/-- Execution of the oldest request when it is of a kind: the body's length is tested, then the owning block acts, then the
response is placed (R161). When the oldest request is of another kind, or its outbox is not empty, or there is none, the
step does not come about (notes/assumptions/7.md). -/
def execRequest (k : Kind) (act : List Byte → State → Reply) (s : State) : State :=
  match takeRequest s with
  | none => s
  | some (r, s') =>
    if r.kind.toNat ≠ k.code then s
    else if r.body.length ≠ k.bodyLength then respond r .length [] s'
    else
      let a := act r.body s'
      respond r a.status a.body a.state

/-- The entry position of an index field, when it is not above 15. -/
def entryIndex (n : Nat) : Option EntryIx := if h : n < 16 then some ⟨n, h⟩ else none

end Sys2Proof.Machine
end

