-- ==== Sys2Proof/Machine/Level.lean ====
section
/-! DEFINITION. The level loop of a channel context (chapter 4). -/

namespace Sys2Proof.Machine

/-- The desired gain: target less input level, clamped to -200..600 (R71). -/
def desiredGain (target lin : Int) : Int := clampInt (-200) 600 (target - lin)

/-- The step for a difference and a divisor: the quotient truncated toward zero, or one in the direction of the difference
when that is 0 (R74). -/
def gainStep (delta : Int) (divisor : Nat) : Int :=
  let q := Int.tdiv delta divisor
  if q ≠ 0 then q else if 0 < delta then 1 else if delta < 0 then -1 else 0

/-- One evaluation of the loop on a good block (R71 to R75). -/
def evalGain (en : Entry) (gain : Option Int) (lin : Int) : Int :=
  let d := desiredGain en.target lin
  match gain with
  | none => d
  | some g =>
    let delta := d - g
    let divisor := if delta < 0 then 2 ^ en.attack else 2 ^ en.decay
    clampInt (-200) 600 (g + gainStep delta divisor)

/-- What the loop makes of a block: the gain, the record handed on, and whether the block is a channel clip. -/
structure LoopResult where
  gain   : Option Int
  record : BlockRecord
  clip   : Bool
deriving DecidableEq, Repr

/-- Scaled samples and output level of a block with an input level under a gain (R77, R79): scaled by the gain, or, when the
output level would be above 0, by minus the input level, with output level 0: a channel clip (R78). An output level below -900,
which the range of Tables 3-1 and 4-1 does not reach, is recorded and handed on as R77 and R79 form it
(notes/assumptions/40.md, DESIGN CHOICE). -/
def scaleBlock (gain lin : Int) (samples : List Sample) : LoopResult :=
  if 0 < lin + gain then ⟨some gain, ⟨scaleSamples (-lin) samples, some 0, .data⟩, true⟩
  else ⟨some gain, ⟨scaleSamples gain samples, some (lin + gain), .data⟩, false⟩

/-- The loop on a block of the source in use (Table 4-6). -/
def runLoop (en : Entry) (gain : Option Int) (b : ChannelBlock) : LoopResult :=
  match b.quality, b.level with
  | .good, some lin =>
    if blockGood en b then scaleBlock (evalGain en gain lin) lin b.samples
    else
      match gain with
      | some g => scaleBlock g lin b.samples
      | none => ⟨none, ⟨silence b.samples.length, none, .data⟩, false⟩
  | _, _ => ⟨gain, ⟨silence b.samples.length, none, .data⟩, false⟩

end Sys2Proof.Machine
end

