-- ==== Sys2Proof/Machine/Channel.lean ====
section
/-! DEFINITION. CHANNEL_BLOCK: what a context does with one block (chapter 3, R69). -/

namespace Sys2Proof.Machine

/-! ### Taking the block from EXT -/

/-- The oldest block of a role that waits for an entry, and the blocks that still wait without it. -/
def takeWaiting (e : EntryIx) (r : Source) : List Waiting → Option (Waiting × List Waiting)
  | [] => none
  | w :: rest =>
    if w.owner = e ∧ w.role = r then some (w, rest)
    else match takeWaiting e r rest with
      | none => none
      | some (x, rest') => some (x, w :: rest')

/-- Was a block cut under a tap table that stood before the switch which added or path-changed its position (R44)? -/
def isStale (x : Ext) (w : Waiting) : Bool := decide (w.gen < vget x.since w.owner)

/-! ### Step 1: readiness (R46) and the bad block counter (R47) -/

/-- The readiness counter after a block: up to Q on a good block, 0 on a bad one (R46). -/
def nextReady (q : Nat) (good : Bool) (n : Nat) : Nat := if good then min q (n + 1) else 0

/-- The context after the readiness update of a block's source (R46). -/
def updateReady (q : Nat) (r : Source) (good : Bool) (c : Ctx) : Ctx :=
  match r with
  | .primary => { c with readyP := nextReady q good c.readyP }
  | .alternate => { c with readyA := nextReady q good c.readyA }

/-- The context after steps 1 to 4 of R69 on a block of the source in use: bad blocks counted, the gain, the clip counter
and the recorded levels updated (R47, R78, R80). -/
def recordLoop (good : Bool) (b : ChannelBlock) (l : LoopResult) (c : Ctx) : Ctx :=
  { c with
    badBlocks := if good then c.badBlocks else satInc 65535 c.badBlocks
    gain := l.gain
    clips := if l.clip then satInc 65535 c.clips else c.clips
    lastIn := if b.quality = .good then b.level else none
    lastOut := l.record.lout }

/-! ### Step 5: does the block cause a source switch? -/

/-- Does a bad block of the source in use bring the context to an expiry (R48, R50, R51)? -/
def isExpiry (en : Entry) (c : Ctx) (good : Bool) : Bool :=
  !good && !c.expired && decide (entryBridge en ≤ c.loss + 1) &&
  (match c.state with
   | .acquire => true
   | .fade => true
   | _ => false)

/-- Is an expiry a failover: FAILOVER acts and the other source is READY (R52)? -/
def isFailover (en : Entry) (q : Nat) (c : Ctx) (good : Bool) : Bool :=
  isExpiry en c good && failoverActs en && isReady q c c.source.other

/-- The source onto which a context in MUTED(LOSS) recovers after a block, if any (R55). -/
def recoverySource (en : Entry) (q : Nat) (c : Ctx) : Option Source :=
  match c.state with
  | .muted .loss =>
    if failoverActs en then
      if isReady q c .primary then some .primary
      else if isReady q c .alternate then some .alternate else none
    else if isReady q c c.source then some c.source else none
  | _ => none

/-- The revert counter after a primary block (R56): it counts good primary blocks while revert acts, the alternate is in
use and the state is LIVE or FADE, and a bad one sets it to 0. -/
def nextRevert (en : Entry) (c : Ctx) (r : Source) (good : Bool) : Nat :=
  if revertActs en && c.source == .alternate && liveOrFade c.state then
    match r with
    | .primary => if good then satInc 300000 c.revert else 0
    | .alternate => c.revert
  else c.revert

/-- Does a good primary block cause a revert, once the counter has been stepped (R56)? -/
def isRevert (en : Entry) (q : Nat) (c : Ctx) (r : Source) (good : Bool) : Bool :=
  good && r == .primary && revertActs en && c.source == .alternate && liveOrFade c.state &&
  decide (revertHold en.revertCode ≤ c.revert) && isReady q c .primary

/-- The source switch that a block causes: whether it is a failover, and its reason. -/
def blockSwitch (en : Entry) (q : Nat) (c : Ctx) (r : Source) (good : Bool) : Option (Bool × Reason) :=
  if r == c.source && isFailover en q c good then some (true, .failover)
  else if recoverySource en q c == some c.source.other then some (false, .recovery)
  else if isRevert en q c r good then some (false, .revert)
  else none

/-! ### Step 5: handing on (R47, R80, R84, R103) -/

/-- Hand a record on: to the entry's line when the page count is above 0, else to CMB as the entry's undelayed record for the
next output block. -/
def handOn (e : EntryIx) (en : Entry) (r : BlockRecord) (s : State) : State :=
  if en.pages = 0 then setCmb { s.cmb with next := vput s.cmb.next e (some r) } s
  else
    match lineAt s e with
    | some l => setDst (acceptRecord e l en.width r s.dst) s
    | none => s

/-! ### Step 6: the rule of the state (R48 to R57) -/

/-- The acquisition condition after a good block: the source in use READY, and the line fill at least its delay when the
entry has pages (R48). -/
def acquired (en : Entry) (q : Nat) (c : Ctx) (line : Option Line) : Bool :=
  isReady q c c.source &&
  (en.pages == 0 || decide (entryDelay en c.source ≤ (line.map Line.fill).getD 0))

/-- The context after a bad block in ACQUIRE or FADE that causes no source switch (R48, R50, R51, R52). -/
def badInRun (en : Entry) (c : Ctx) : Ctx :=
  if c.expired then c
  else if entryBridge en ≤ c.loss + 1 then
    match en.expiry with
    | .notify => { c with loss := entryBridge en, expired := true }
    | .mute => toMuted .loss c
    | .failover => toMuted .loss c
  else { c with loss := c.loss + 1 }

/-- The context and the reason of its change after a block of the source in use that causes no source switch, with the line
as it stands after the handing on (R48 to R51, R54, R57). -/
def inUseRule (en : Entry) (q : Nat) (good : Bool) (line : Option Line) (c : Ctx) : Ctx :=
  match c.state with
  | .acquire =>
    if good then
      let c := { c with loss := 0, expired := false }
      if acquired en q c line then { c with state := .live } else c
    else badInRun en c
  | .live => if good then { c with loss := 0 } else { c with state := .fade, loss := 1 }
  | .fade => if good then { c with state := .live, loss := 0, expired := false } else badInRun en c
  | .off => c
  | .muted _ => c
  | .test _ _ => c

/-! ### The whole step -/

/-- The rest of the step once the readiness update and, for the source in use, the loop have been made. `record` is what
would be handed on. The acquisition test is made within this step, on the fill as the handing on leaves it: a write of the
block's own record, or of an older one, that completes later in the block period is not in it (notes/assumptions/37.md). -/
def finishBlock (e : EntryIx) (en : Entry) (r : Source) (good : Bool) (record : BlockRecord) (c : Ctx) (s : State) : State :=
  let q := s.pln.activeSettings.acquire
  let inUse := r == c.source
  let c := { c with revert := nextRevert en c r good }
  match blockSwitch en q c r good with
  | some (isFailover, reason) => switchSource e isFailover reason c s
  | none =>
    let s := if inUse then handOn e en record s else s
    if (recoverySource en q c).isSome then commitCtx e (toAcquire c) .recovery s
    else if inUse then commitCtx e (inUseRule en q good (lineAt s e) c) .signal s
    else commitCtx e c .signal s

/-- A block taken by a context that does not discard it (R69). -/
def takeBlock (e : EntryIx) (en : Entry) (r : Source) (b : ChannelBlock) (s : State) : State :=
  let c := ctxAt s e
  let good := blockGood en b
  let c' := updateReady s.pln.activeSettings.acquire r good c
  if r = c.source then
    let l := runLoop en c.gain b
    finishBlock e en r good l.record (recordLoop good b l c') s
  else finishBlock e en r good ⟨[], none, .data⟩ c' s

/-- The oldest waiting block of a role reaches its context (R44): a context in OFF discards it, and so does one that a switch
has added or path-changed since the block's tap table stood; else it is taken. With no block waiting nothing comes about
(notes/assumptions/8.md). -/
def deliverBlock (e : EntryIx) (r : Source) (s : State) : State :=
  match takeWaiting e r s.ext.waiting with
  | none => s
  | some (w, rest) =>
    let s' := setExt { s.ext with waiting := rest } s
    match activeAt s e with
    | none => s'
    | some en => if (ctxAt s e).state = .off ∨ isStale s.ext w = true then s' else takeBlock e en r w.block s'

/-- CHANNEL_BLOCK (R69). -/
def execChannelBlock (e : EntryIx) (r : Source) (s : State) : Host.Outcome State Fault Refusal :=
  running s (deliverBlock e r)

end Sys2Proof.Machine
end

