-- ==== Sys2Proof/Machine/Carrier.lean ====
section
/-! DEFINITION. The carrier arithmetic of CMB, EXT and MON (6.8, 1.12, 8.3): where a range lies, the turn that a frequency makes
at each sample of a band, the unit vector of a turn, a sample moved by it, and the frequency lines of which extraction takes
those of a range, raising keeps those of a channel, and measuring takes the power. Integers in fixed point, so that it can be
evaluated; its error lies far below the rounding that R15, R113 and R114 leave open (notes/assumptions/2.md, 3.md, 4.md and
5.md). -/

namespace Sys2Proof.Machine

/-- The centre in Hz above the lower band edge of a range of `width` slots from `start` (R113). -/
def rangeCentre (start width : Nat) : Int := (start : Int) * 500000 + width * 250000

/-- The samples of a whole band in one second: 48000 in each block period of one millisecond (6.8, Table 11-1). -/
def outputRate : Nat := 48000000

/-- The parts of which one turn has: a turn is a number below this. -/
def turnUnits : Nat := 2 ^ 40

/-- One in the fixed point of the unit vector. -/
def unitOne : Int := 2 ^ 48

/-- A quarter turn in radians, in the same fixed point: pi / 2. -/
def quarterTurn : Int := 442139859501778

/-- The fixed point of the samples that are moved: their components count in parts of `2 ^ 16`. -/
def fineOne : Nat := 2 ^ 16

/-- A power series `1 - y / d₁ (1 - y / d₂ (1 - ...))` in the fixed point of the unit vector. -/
def unitSeries (y : Int) (divisors : List Int) : Int :=
  divisors.foldr (fun d rest => unitOne - y * rest / (d * unitOne)) unitOne

/-- Cosine and sine of an angle of at most a quarter turn, in radians. -/
def unitOfAngle (x : Int) : Sample :=
  let y := x * x / unitOne
  ⟨unitSeries y [2, 12, 30, 56, 90, 132, 182, 240, 306],
    x * unitSeries y [6, 20, 42, 72, 110, 156, 210, 272, 342] / unitOne⟩

/-- The unit vector of a turn: its angle within the quarter, brought to its quadrant. -/
def unitOfTurn (k : Nat) : Sample :=
  let quarter := turnUnits / 4
  let u := unitOfAngle ((k % quarter : Nat) * quarterTurn / quarter)
  match k / quarter % 4 with
  | 0 => u
  | 1 => ⟨-u.im, u.re⟩
  | 2 => ⟨-u.re, -u.im⟩
  | _ => ⟨u.im, -u.re⟩

/-- The turn of a carrier of `hz` at sample `i` of a block that it begins at `phase`: it advances by
`hz / outputRate` of a turn with each sample. -/
def turnAt (phase : Nat) (hz : Int) (i : Nat) : Nat :=
  ((phase + hz * i * turnUnits / outputRate) % turnUnits).toNat

/-- The product of two samples. -/
def mulSample (a b : Sample) : Sample := ⟨a.re * b.re - a.im * b.im, a.re * b.im + a.im * b.re⟩

/-- Two samples added. -/
def addSample (a b : Sample) : Sample := ⟨a.re + b.re, a.im + b.im⟩

/-- A component in the product of both fixed points, brought to the nearest integer and from there by `rounding`, at most
one either way: how a moved component is rounded is not given. -/
def roundMoved (rounding x : Int) : Int :=
  (2 * x + fineOne * unitOne) / (2 * (fineOne * unitOne)) + clampInt (-1) 1 rounding

/-- A sample in fine parts moved by a turn, and rounded. -/
def moveSample (rounding : Sample) (z : Sample) (turn : Nat) : Sample :=
  let m := mulSample z (unitOfTurn turn)
  ⟨roundMoved rounding.re m.re, roundMoved rounding.im m.im⟩

/-- The constant amplitude of a carrier whose mean power is `level`, in fine parts: full scale times ten raised to
`level / 200` (R114; 00, Levels). -/
def carrierAmplitude (level : Int) : Sample := ⟨scaleComponent level (fullScale * fineOne : Nat), 0⟩

/-! ### Frequency lines

A block period holds its samples at frequencies one turn a block period apart: its lines, 1 kHz from one to the next. A slot of
500 kHz has 500 of them, as many as the samples that it is given (R15). That a range is its lines, the lower edge in and the upper
out, is notes/assumptions/2.md, DESIGN CHOICE. -/

/-- The turn, at sample `i` of `n`, of a carrier that makes `k` turns in the `n`. -/
def turnOver (k : Int) (i n : Nat) : Nat := (k * i * turnUnits / n % turnUnits).toNat

/-- All samples of a list added. -/
def sumSamples (l : List Sample) : Sample := l.foldr addSample ⟨0, 0⟩

/-- What samples hold at the line `k`, times their number: moved so that the line comes to lie at 0 Hz, and added. -/
def lineOf (samples : List Sample) (k : Int) : Sample :=
  sumSamples (samples.mapIdx fun i z => mulSample z (unitOfTurn (turnOver (-k) i samples.length)))

/-- The number of line `j` of `count` lines about 0 Hz. -/
def lineNumber (count j : Nat) : Int := (j : Int) - (count / 2 : Nat)

/-- The lines of a range of `count` lines about 0 Hz. -/
def rangeLines (count : Nat) (samples : List Sample) : List Sample :=
  (List.range count).map fun j => lineOf samples (lineNumber count j)

/-- Sample `i` of `n` that lines about 0 Hz make together. -/
def ofLines (lines : List Sample) (n i : Nat) : Sample :=
  sumSamples (lines.mapIdx fun j z => mulSample z (unitOfTurn (turnOver (lineNumber lines.length j) i n)))

/-! ### Extraction (R15) -/

/-- The frequency by which a range is moved so that its centre comes to lie at 0 Hz (R15). -/
def basebandHz (start width : Nat) : Int := -(Config.inputEdgeHz + rangeCentre start width)

/-- A band moved by a frequency, in the fixed point of the unit vector. -/
def shiftBand (phase : Nat) (hz : Int) (band : List Sample) : List Sample :=
  band.mapIdx fun i z => mulSample z (unitOfTurn (turnAt phase hz i))

/-- A component in parts of `one`, brought to one of the two integers beside it; a whole one stands. -/
def roundEither (up : Bool) (one x : Int) : Int := if up && decide (x % one ≠ 0) then x / one + 1 else x / one

/-- Sample `i` of the samples that the lines of a range make, one for each line: decimated, nothing outside the range being among
the lines (R15). `total` is the number of samples the lines were taken from. -/
def decimated (rounding : Bool × Bool) (total : Nat) (lines : List Sample) (i : Nat) : Sample :=
  let m := ofLines lines lines.length i
  ⟨roundEither rounding.1 (total * unitOne ^ 3) m.re, roundEither rounding.2 (total * unitOne ^ 3) m.im⟩

/-! ### Raising (R113) -/

/-- Sample `i` of the output rate that a channel's baseband makes, in fine parts: the channel keeps the lines it has, and no
others come in (notes/assumptions/3.md). `total` is the number of its samples. -/
def raisedSample (total : Nat) (lines : List Sample) (i : Nat) : Sample :=
  let m := ofLines lines bandSamples i
  ⟨m.re * fineOne / (total * unitOne ^ 2), m.im * fineOne / (total * unitOne ^ 2)⟩

/-! ### Measuring (R141) -/

/-- The mean power of a frame's samples across a range of `width` slots from `start`, in squared component units (R141): that of
the lines of the range, once its centre has been moved to 0 Hz. The phase of the move does not count, since only the power is
taken (notes/assumptions/5.md). -/
def rangePower (samples : List Sample) (start width : Nat) : Rat :=
  let shifted := shiftBand 0 (-(Config.bandEdgeHz + rangeCentre start width)) samples
  totalPower (rangeLines (width * 500) shifted) / ((samples.length * unitOne ^ 2) ^ 2 : Int)

end Sys2Proof.Machine
end

