-- ==== Sys2Proof/Machine/Switch.lean ====
section
/-! DEFINITION. The plan switch: classification, adoption, page reallocation, the tap table, the treatment of every context,
and the effects of changed settings (2.6, R23, R98, R101). -/

namespace Sys2Proof.Machine

/-! ### Classification (R33) -/

/-- Do two entries agree in every path field (R33)? An absent alternate's delay is stored as 0 and never differs. -/
def samePath (a b : Entry) : Bool :=
  a.primary == b.primary && a.alternate == b.alternate && a.width == b.width && a.pages == b.pages &&
  a.primaryDelay == b.primaryDelay && a.alternateDelay == b.alternateDelay

/-- The class of a position (Table 2-8). -/
def classify (before after : Option Entry) : PosClass :=
  match before, after with
  | none, none => .empty
  | some _, none => .removed
  | none, some _ => .added
  | some a, some b => if samePath a b = false then .pathChange else if a = b then .unchanged else .tuning

/-- Does a class end the old channel (R34, R36)? -/
def endsChannel : PosClass → Bool
  | .removed => true
  | .pathChange => true
  | _ => false

/-- Does a class start a channel (R35, R36)? -/
def startsChannel : PosClass → Bool
  | .added => true
  | .pathChange => true
  | _ => false

/-! ### Taps (R14) -/

/-- The taps that an entry needs: its primary, then its alternate when present. -/
def entryTaps (e : EntryIx) (en : Entry) : List Tap :=
  ⟨en.primary.trunk, en.primary.start, en.width, e, .primary⟩ ::
  (match en.alternate with
   | none => []
   | some a => [⟨a.trunk, a.start, en.width, e, .alternate⟩])

/-- The taps of a plan in entry number order. -/
def planTaps (p : Plan) : List Tap := entries.flatMap fun e => (vget p e).elim [] (entryTaps e)

/-- The tap table rebuilt from a plan: rows 0 upward filled, the rest free (R14). -/
def buildRows (p : Plan) : Vector (Option Tap) 24 := Vector.ofFn fun i => (planTaps p)[i.val]?

/-- The sum of the page counts of a plan. -/
def planPages (p : Plan) : Nat := (entries.map fun e => (vget p e).elim 0 Entry.pages).sum

/-! ### Pages and lines (R39, R98) -/

/-- The first pass for one entry whose channel ends: its line flushed and gone, its pages freed. -/
def freeEntry (e : EntryIx) (s : State) : State :=
  let s := flushLine e s
  setDst { setLine e none s.dst with pageMap := s.dst.pageMap.map (fun o => if o = some e then none else o) } s

/-- The lowest-numbered free pages, `n` of them. -/
def freePages (m : Vector (Option EntryIx) 256) (n : Nat) : List Nat :=
  ((List.range 256).filter (fun i => (m.toList.getD i none).isNone)).take n

/-- The page map after an entry has taken pages. -/
def takePages (e : EntryIx) (taken : List Nat) (m : Vector (Option EntryIx) 256) : Vector (Option EntryIx) 256 :=
  m.mapIdx fun i o => if taken.contains i then some e else o

/-- The second pass for one entry whose channel starts with pages: it takes its pages and its line begins empty. -/
def allocEntry (e : EntryIx) (en : Entry) (s : State) : State :=
  if en.pages = 0 then s
  else
    let taken := freePages s.dst.pageMap en.pages
    setDst { setLine e (some ⟨taken, 0, 0, 0⟩) s.dst with pageMap := takePages e taken s.dst.pageMap } s

/-- What DST and CMB reset for a position whose channel ends or starts: gap count, late count and undelayed records (R96,
R101, R105). -/
def clearCounts (e : EntryIx) (s : State) : State :=
  setCmb { s.cmb with
      late := vput s.cmb.late e 0
      held := vput s.cmb.held e none
      next := vput s.cmb.next e none }
    (setDst { s.dst with gapCounts := vput s.dst.gapCounts e 0 } s)

/-! ### Contexts (R34 to R38) -/

/-- The context of a removed position: every field at its power-on value, OFF (R34, R68, R147). -/
def removedCtx : Ctx := Ctx.powerOn

/-- The context of an added or path-changed position: ACQUIRE on the primary, everything else at its power-on value (R35,
R36, R68, R147). -/
def startedCtx : Ctx := { Ctx.powerOn with state := .acquire }

/-- A retuned context with its counts and mark settled against the new entry (R38). -/
def retunedCtx (en : Entry) (c : Ctx) : Ctx :=
  let c := if c.expired then { c with loss := entryBridge en, expired := en.expiry == .notify } else c
  let c := if revertActs en then c else { c with revert := 0 }
  if en.priority = 7 then { c with shed := false } else c

/-- A context after the switch, by the class of its position and the entry that the position now holds (R34 to R38). -/
def switchedCtx (cls : PosClass) (en : Option Entry) (c : Ctx) : Ctx :=
  match cls with
  | .empty => c
  | .unchanged => c
  | .removed => removedCtx
  | .added => startedCtx
  | .pathChange => startedCtx
  | .tuning =>
    match en with
    | none => c
    | some en => retunedCtx en c

/-- Does the switch post CHANNEL-CHANGED for a position (R34 to R38, R101)? -/
def switchReports (cls : PosClass) (old new : Ctx) : Bool :=
  match cls with
  | .empty => false
  | .unchanged => false
  | .removed => old.state != .off
  | .added => true
  | .pathChange => true
  | .tuning => old.expired != new.expired || old.shed != new.shed

/-- Treatment of one context by its class. A removed context that was not in OFF, and every started one, posts
CHANNEL-CHANGED; a retuned one posts it when its mark or its shed flag changed (R34 to R38, R101). -/
def switchCtx (e : EntryIx) (cls : PosClass) (s : State) : State :=
  let old := ctxAt s e
  let new := switchedCtx cls (activeAt s e) old
  let s := setCtx e new s
  let s := if endsChannel cls then endDwellOn e s else s
  if switchReports cls old new then postChannel e .plan s else s

/-! ### Settings (Table 2-6) -/

/-- A readiness counter above the new Q is set to it. -/
def clampReady (q : Nat) (c : Ctx) : Ctx := { c with readyP := min q c.readyP, readyA := min q c.readyA }

/-- A foldback above the new Fmax is lowered to it, and a qualification counter above the new setting is set to it, with
ref_ok true (R123, R129, R130). A counter equal to the new setting stands, and ref_ok with it (notes/assumptions/34.md). -/
def settleTxs (set : Settings) (x : Txs) : Txs :=
  let x := { x with foldback := min set.foldMax x.foldback }
  if set.refQual < x.qual then
    let x := { x with qual := set.refQual }
    if x.refOk then x else refChange set true x
  else x

/-- A notice that has been sent on every trunk of the new setting leaves the queue (Table 2-6). -/
def settleNotices (set : Settings) (q : List Notice) : List Notice :=
  q.filter (fun n => !fullySent set.noticeTrunk n)

/-- The effects at the switch of the settings that have become active (Table 2-6). -/
def settleSettings (s : State) : State :=
  let set := s.pln.activeSettings
  let s := setSvc { s.svc with notices := settleNotices set s.svc.notices } s
  let s := setCtxs (s.ctx.map (clampReady set.acquire)) s
  commitTxs (settleTxs set s.txs) s

/-! ### The switch (R32) -/

/-- The class of every position. -/
def switchClasses (s : State) : Vector PosClass 16 := Vector.zipWith classify s.pln.active s.pln.staged

/-- The taps in use: rows that are not free. -/
def tapsInUse (rows : Vector (Option Tap) 24) : Nat := (rows.toList.filterMap id).length

/-- The pages in use: those an entry owns. -/
def pagesInUse (m : Vector (Option EntryIx) 256) : Nat := (m.toList.filterMap id).length

/-- The staged copy becomes the active copy (R32). -/
def adoptPlan (s : State) : State :=
  setPln { s.pln with active := s.pln.staged, activeSettings := s.pln.stagedSettings } s

/-- The classes of all positions in a switch. -/
abbrev Classes := Vector PosClass 16

/-- The first pass for one position: a channel that ends frees its pages. -/
def freePosition (k : Classes) (e : EntryIx) (s : State) : State := if endsChannel (vget k e) then freeEntry e s else s

/-- The first pass over the pages (R39, R98). -/
def freePass (k : Classes) (s : State) : State := entries.foldl (fun s e => freePosition k e s) s

/-- The second pass for one position: an entry whose channel starts takes its pages. -/
def allocPosition (k : Classes) (e : EntryIx) (s : State) : State :=
  match activeAt s e with
  | some en => if startsChannel (vget k e) then allocEntry e en s else s
  | none => s

/-- The second pass over the pages, in entry number order (R39). -/
def allocPass (k : Classes) (s : State) : State := entries.foldl (fun s e => allocPosition k e s) s

/-- Counts and undelayed records of one position, cleared when its channel ends or starts. -/
def clearPosition (k : Classes) (e : EntryIx) (s : State) : State :=
  if endsChannel (vget k e) || startsChannel (vget k e) then clearCounts e s else s

/-- Counts and undelayed records of every position whose channel ends or starts (R96, R101). -/
def clearPass (k : Classes) (s : State) : State := entries.foldl (fun s e => clearPosition k e s) s

/-- The tap table rebuilt from the active plan (R14): a new generation, from which the started positions take blocks. -/
def rebuildTaps (k : Classes) (s : State) : State :=
  let gen := s.ext.gen + 1
  setExt { s.ext with
    rows := buildRows s.pln.active
    gen := gen
    since := Vector.zipWith (fun c g => if startsChannel c then gen else g) k s.ext.since } s

/-- The contexts by class (R34 to R38). -/
def contextPass (k : Classes) (s : State) : State := entries.foldl (fun s e => switchCtx e (vget k e) s) s

/-- The arm state becomes CLEAR. -/
def disarm (s : State) : State := setPln { s.pln with armed := false } s

/-- The PLAN-SWITCHED notice of a switch (R41). -/
def postSwitched (k : Classes) (s : State) : State :=
  post (.plan s.cmb.epochs k.toList (tapsInUse s.ext.rows) (pagesInUse s.dst.pageMap)) s

/-- The plan switch, in the steps of R32: classification, the staged copy active and its settings in effect, the pages, the
tap table, the contexts, the arm state and the notice. -/
def planSwitch (s : State) : State :=
  let k := switchClasses s
  let s := settleSettings (adoptPlan s)
  let s := clearPass k (allocPass k (freePass k s))
  let s := contextPass k (rebuildTaps k s)
  postSwitched k (disarm s)

end Sys2Proof.Machine
end

