-- ==== Sys2Proof/Machine/Combiner.lean ====
section
/-! DEFINITION. OUTPUT_BLOCK_START and OUTPUT_BLOCK_ASSEMBLY: the reads of an output block, the power budget, placement,
summing, the clamp, and the completion of the block (chapter 6), with the forming of the drive samples (7.2, 7.5). -/

namespace Sys2Proof.Machine

/-! ### The start of a block period (R100, R102, R126, R128, R151) -/

/-- A running timer at the start of a block period: it decreases by 1, and at 0 its expiry is due (notes/assumptions/9.md). -/
def tick (n : Nat) : Nat := n - 1

/-- The bias and cool timers at the start of a block period (R126, R128). What the last output block formed is what the
forward frame of this block period carries (R120). -/
def txsPeriodStart (x : Txs) : Txs :=
  { x with bias := x.bias.map tick, cool := x.cool.map tick, toSend := x.formed, formed := none }

/-- A context's remaining test time at the start of a block period (R151). -/
def tickTest (c : Ctx) : Ctx :=
  match c.state with
  | .test remaining level => { c with state := .test (tick remaining) level }
  | _ => c

/-- The answer that a read gets when CMB queues it (R89): `waiting` when it joins the read queue. -/
def firstAnswer (d : Dst) (l : Line) (delay distance : Nat) : Answer :=
  if l.fill < delay ∨ l.accepted < distance then .nothing
  else
    let cell := lineCell l (linePosition l distance)
    match d.writes.find? (fun w => w.cell == cell) with
    | some w => .data w.record
    | none => if d.gapMarks.contains cell then .gap else .waiting

/-- The entry, line and delay of the read that CMB queues for a position, if any (R88): the context in LIVE, FADE or TEST and
the page count above 0. -/
def readWanted (s : State) (e : EntryIx) : Option (Entry × Line × Nat) :=
  match activeAt s e, lineAt s e with
  | some en, some l =>
    if isContributor (ctxAt s e).state && decide (0 < en.pages) then some (en, l, entryDelay en (ctxAt s e).source) else none
  | _, _ => none

/-- The distance of a read: the delay of the source in use, or 1 when that is 0 (R88). -/
def readDistance (delay : Nat) : Nat := if delay = 0 then 1 else delay

/-- A read joins the back of the read queue, and an idle port is granted at once (R89, R92). -/
def joinReads (r : ReadReq) (d : Dst) : Dst := grant { d with reads := d.reads ++ [r] }

/-- Queue the read of one position (R88, R89). -/
def queueRead (e : EntryIx) (s : State) : State :=
  match readWanted s e with
  | none => s
  | some (en, l, delay) =>
    let a := firstAnswer s.dst l delay (readDistance delay)
    let s := setCmb (answerRead e a s.cmb) s
    if a = .waiting then
      setDst (joinReads ⟨e, lineCell l (linePosition l (readDistance delay)), en.width, 0⟩ s.dst) s
    else s

/-- The timers of TXS and TTG step, and EXT fixes the tap table of the period (R14, R126, R128, R151). -/
def startPeriod (s : State) : State :=
  let s := setCtxs (s.ctx.map tickTest) (setTxs (txsPeriodStart s.txs) s)
  setExt { s.ext with periodRows := s.ext.rows, periodGen := s.ext.gen } s

/-- CMB begins an output block: it numbers it, samples F, and each undelayed record handed on becomes the held one (R100,
R102, R103). Reads still queued for an output block that was never assembled are gone. -/
def beginOutBlock (s : State) : State :=
  let block : OutBlock := ⟨s.cmb.counter, s.txs.foldback, Vector.replicate 16 .unread, false⟩
  setCmb { s.cmb with course := some block, held := s.cmb.next, next := Vector.replicate 16 none }
    (setDst (removeReads (fun _ => true) s.dst) s)

/-- CMB queues its reads in entry order (R88). -/
def queueReads (s : State) : State := entries.foldl (fun s e => queueRead e s) s

/-- The start of a block period (R102). Where an expiry falls due here as well (the bias timer, R126; the cool timer, whose
OFF_AIR sets F to 0, R128; a test, which leaves TEST, R151 and R152), the rules give no order between it and CMB: CMB samples
F and queues its reads first, and the expiry is a command of its own after it (notes/assumptions/42.md, DESIGN CHOICE). -/
def startBlock (s : State) : State := queueReads (beginOutBlock (startPeriod s))

/-- OUTPUT_BLOCK_START (R102). -/
def execOutputBlockStart (s : State) : Host.Outcome State Fault Refusal := running s startBlock

/-! ### Levels and the composite (R104, R106) -/

/-- What a context offers an output block (R104): its level, and its record's samples or, in TEST, the tone. -/
inductive Offer where
  | samples (level : Int) (l : List Sample)
  | tone (level : Int)
deriving DecidableEq, Repr

/-- The level of an offer. -/
def offerLevel : Offer → Int
  | .samples l _ => l
  | .tone l => l

/-- What a record offers: its level and samples when it carries an output level (Table 6-2). -/
def recordOffer (r : BlockRecord) : Option Offer := r.lout.map (fun l => .samples l r.samples)

/-- What a read's answer offers (Table 6-2). -/
def answerOffer : Answer → Option Offer
  | .data r => recordOffer r
  | .unread => none
  | .waiting => none
  | .nothing => none
  | .gap => none
  | .late => none

/-- What a position offers at assembly (R104): nothing outside the contributor states, the tone in TEST unless the read was
late, else what the record of the output block gives. An output block that began before a warm restart has no contributors,
also where a context has left ACQUIRE since (R99). -/
def offerOf (o : OutBlock) (s : State) (e : EntryIx) : Option Offer :=
  if o.restarted then none else
  match activeAt s e, (ctxAt s e).state with
  | none, _ => none
  | some en, .live => if en.pages = 0 then (vget s.cmb.held e).bind recordOffer else answerOffer (vget o.answers e)
  | some en, .fade => if en.pages = 0 then (vget s.cmb.held e).bind recordOffer else answerOffer (vget o.answers e)
  | some _, .test _ level => if vget o.answers e = .late then none else some (.tone level)
  | some _, .off => none
  | some _, .acquire => none
  | some _, .muted _ => none

/-- Insert a level into levels in descending order. -/
def insertLevel (l : Int) : List Int → List Int
  | [] => [l]
  | a :: rest => if a < l then l :: a :: rest else a :: insertLevel l rest

/-- Levels in descending order. -/
def sortLevels : List Int → List Int
  | [] => []
  | a :: rest => insertLevel a (sortLevels rest)

/-- One level added to the running total (R106). -/
def addLevel (total l : Int) : Int := total + logSum ((total - l) / 10).toNat

/-- The composite level of levels: added from the strongest down, none of an empty set (R106). -/
def composite (levels : List Int) : Option Int :=
  match sortLevels levels with
  | [] => none
  | a :: rest => some (rest.foldl addLevel a)

/-! ### Shedding and restoration (R108 to R112) -/

/-- What the budget knows of a position that has a level: its entry, level and priority. -/
structure Share where
  entry    : EntryIx
  level    : Int
  priority : Nat
deriving DecidableEq, Repr

/-- The composite of shares. -/
def shareComposite (l : List Share) : Option Int := composite (l.map Share.level)

/-- The excess of a set over the effective ceiling; an empty set has none. -/
def excessOf (keff : Int) (l : List Share) : Int :=
  match shareComposite l with
  | none => 0
  | some c => c - keff

/-- Is `a` shed before `b`: a lower priority, or the same and a higher entry number (R109)? -/
def shedsBefore (a b : Share) : Bool :=
  decide (a.priority < b.priority) || (a.priority == b.priority && decide (b.entry < a.entry))

/-- The contributor that CMB picks to shed, none when only those of priority 7 remain (R109). -/
def pickShed (l : List Share) : Option Share :=
  (l.filter (fun c => decide (c.priority < 7))).foldl
    (fun best c => match best with
      | none => some c
      | some b => if shedsBefore c b then some c else some b) none

/-- Shedding (R109): the contributors that remain, and those shed in the order they were shed. At most as many are shed as
there are contributors, which `fuel` counts. -/
def shedLoop (keff : Int) (bmax : Nat) : Nat → List Share → List Share × List Share
  | 0, l => (l, [])
  | fuel + 1, l =>
    if excessOf keff l ≤ bmax then (l, [])
    else
      match pickShed l with
      | none => (l, [])
      | some c =>
        let r := shedLoop keff bmax fuel (l.filter (fun x => x.entry != c.entry))
        (r.1, c :: r.2)

/-- Is `a` restored before `b`: a higher priority, or the same and a lower entry number (R112)? -/
def restoresBefore (a b : Share) : Bool :=
  decide (b.priority < a.priority) || (a.priority == b.priority && decide (a.entry < b.entry))

/-- The candidate of the restoration trial among the shed contexts with a level (R112). -/
def pickRestore (l : List Share) : Option Share :=
  l.foldl (fun best c => match best with
    | none => some c
    | some b => if restoresBefore c b then some c else some b) none

/-- The restoration trial (R112): the candidate whose trial composite lies far enough below. -/
def restoreTrial (keff : Int) (bmax hyst : Nat) (contributors shed : List Share) : Option Share :=
  match pickRestore shed with
  | none => none
  | some c => if excessOf keff (c :: contributors) ≤ (bmax : Int) - hyst then some c else none

/-- The power budget of an output block. -/
structure Budget where
  contributors : List Share
  newlyShed    : List Share
  restored     : Option Share
  composite    : Option Int
  backoff      : Nat
  excess       : Bool
deriving DecidableEq, Repr

/-- The budget from the contexts with a level, their shed flags, and the settings (R108 to R112). -/
def budget (keff : Int) (bmax hyst : Nat) (unshed shed : List Share) : Budget :=
  let r := shedLoop keff bmax unshed.length unshed
  let e := excessOf keff r.1
  { contributors := r.1
    newlyShed := r.2
    restored := if r.2.isEmpty then restoreTrial keff bmax hyst unshed shed else none
    composite := shareComposite r.1
    backoff := e.toNat
    excess := !r.1.isEmpty && decide ((bmax : Int) < e) }

/-! ### Placement, scaling, summing and the clamp (R113 to R117) -/

/-- The frequency shift of a channel in Hz, from its centre in the input band to its centre in the output band (R113). -/
def shiftHz (en : Entry) (src : Source) : Int := ((en.outStart : Int) - entryStart en src) * 500000 + en.fine

/-- The centre to which a channel of a source is moved: that of its input range, shifted (R113). -/
def placedCentre (en : Entry) (src : Source) : Int := rangeCentre (entryStart en src) en.width + shiftHz en src

/-- The frequency of an entry's test tone: the centre of its output range, moved by the fine offset (R114). -/
def toneCentre (en : Entry) : Int := rangeCentre en.outStart en.width + en.fine

/-- Sample `i` of an entry in the output band, from the sample `z` in fine parts: moved to `hz` above the lower band edge from
the phase at which the block begins. -/
def placeSample (n : Nat) (e : EntryIx) (hz : Int) (i : Nat) (z : Sample) : Sample :=
  moveSample (Config.placeRounding n e i) z (turnAt (Config.carrierPhase n e) (Config.bandEdgeHz + hz) i)

/-- The samples of an offer of an entry in the output band: a record's, raised to the output rate and moved to the centre of
the output range, or a carrier of constant amplitude there (R113, R114). -/
def placeOffer (n : Nat) (e : EntryIx) (en : Entry) (src : Source) : Offer → List Sample
  | .samples _ l =>
    let lines := rangeLines l.length l
    (List.range bandSamples).map fun i => placeSample n e (placedCentre en src) i (raisedSample l.length lines i)
  | .tone level => (List.range bandSamples).map fun i => placeSample n e (toneCentre en) i (carrierAmplitude level)

/-- Two bands added sample by sample (R116). -/
def addBands (a b : List Sample) : List Sample := List.zipWith addSample a b

/-- A contributor's samples in the output band, turned down by the backoff (R113 to R115). -/
def contribution (n backoff : Nat) (o : OutBlock) (s : State) (c : Share) : List Sample :=
  match activeAt s c.entry, offerOf o s c.entry with
  | some en, some f => scaleSamples (-(backoff : Int)) (placeOffer n c.entry en (ctxAt s c.entry).source f)
  | _, _ => silence bandSamples

/-- The sum of the placed samples of the contributors; silence when there is none (R116). -/
def summedBand (n : Nat) (o : OutBlock) (s : State) (b : Budget) : List Sample :=
  b.contributors.foldl (fun band c => addBands band (contribution n b.backoff o s c)) (silence bandSamples)

/-- A contributor as TXS hands it to MON, at its placed level (R115). -/
def placedOf (s : State) (b : Budget) (c : Share) : Applied :=
  match activeAt s c.entry with
  | some en => ⟨c.entry, c.level - b.backoff, en.outStart, en.width⟩
  | none => ⟨c.entry, c.level - b.backoff, 0, 0⟩

/-! ### The step of attenuation and the forming of the drive samples (R120, R127, R128) -/

/-- The sequencer's step at a completed output block (R127, R128). -/
def rampStep (set : Settings) (x : Txs) : Txs :=
  match x.state with
  | .rampUp =>
    if x.atten ≤ set.rampStep then { x with state := .onAir, atten := 0 } else { x with atten := x.atten - set.rampStep }
  | .rampDown =>
    if 300 ≤ x.atten + set.rampStep then toCool set x else { x with atten := x.atten + set.rampStep }
  | _ => x

/-- The drive samples and applied levels of an output block (R120): attenuated by A in a driving state, zeros and no applied
level in a silent one. The applied level is less the A that the block was formed with (R115, R120), also where the frame is
sent when ON_AIR has come since (notes/assumptions/35.md). -/
def formDrive (x : Txs) (band : List Sample) (placed : List Applied) : Drive :=
  if driving x.state then
    ⟨scaleSamples (-(x.atten : Int)) band, placed.map (fun a => { a with level := a.level - x.atten })⟩
  else ⟨silence bandSamples, []⟩

/-- TXS takes a completed output block: the step, then the forming, in one event. -/
def takeOutputBlock (band : List Sample) (placed : List Applied) (s : State) : State :=
  let s := commitTxs (rampStep s.pln.activeSettings s.txs) s
  setTxs { s.txs with formed := some (formDrive s.txs band placed) } s

/-! ### Assembly -/

/-- The shares of the positions that offer something and whose shed flag stands as given, in entry order. -/
def shares (o : OutBlock) (s : State) (flag : Bool) : List Share :=
  entries.filterMap fun e =>
    match activeAt s e, offerOf o s e with
    | some en, some f => if (ctxAt s e).shed == flag then some ⟨e, offerLevel f, en.priority⟩ else none
    | _, _ => none

/-- A read not yet answered at assembly is late: it leaves the read queue and is counted (R91, R105). -/
def markLate (o : OutBlock) : OutBlock := { o with answers := o.answers.map (fun a => if a = .waiting then .late else a) }

/-- The late counts after assembly (R105). -/
def countLate (o : OutBlock) (late : Vector Nat 16) : Vector Nat 16 :=
  Vector.zipWith (fun a n => if a = .waiting then satInc 65535 n else n) o.answers late

/-- Set a shed flag (R109): a dwell on the entry ends (R142) and CHANNEL-CHANGED is posted. -/
def shedOne (c : Share) (s : State) : State :=
  postChannel c.entry .shed (endDwellOn c.entry (setCtx c.entry { ctxAt s c.entry with shed := true } s))

/-- Shed each of a list of contributors, in the order CMB picked them (R109). -/
def shedAll (l : List Share) (s : State) : State := l.foldl (fun s c => shedOne c s) s

/-- Clear the shed flag of the restored context (R112). -/
def restoreOne (c : Option Share) (s : State) : State :=
  match c with
  | none => s
  | some c => postChannel c.entry .restore (setCtx c.entry { ctxAt s c.entry with shed := false } s)

/-- How many contexts have their shed flag set. -/
def shedCount (s : State) : Nat := (s.ctx.toList.filter Ctx.shed).length

/-- The counts and figures of CMB after a block's budget and band (R110, R117, R118). -/
def recordBlock (o : OutBlock) (keff : Int) (b : Budget) (clipped : Bool) (shed : Nat) (c : Cmb) : Cmb :=
  { c with
    figures := ⟨b.composite, keff, o.foldback, b.backoff, b.excess, b.contributors.length, shed⟩
    excess := if b.excess then satInc 65535 c.excess else c.excess
    clips := if clipped then satInc 4294967295 c.clips else c.clips
    held := Vector.replicate 16 none }

/-- The completion of an output block (R99, R100, R101): the counter steps and, at number 0, the epoch comes, with the switch
when it is armed. A block that began before a warm restart does neither. -/
def completeBlock (o : OutBlock) (s : State) : State :=
  if o.restarted then setCmb { s.cmb with course := none } s
  else
    let s := setCmb { s.cmb with course := none, counter := (s.cmb.counter + 1) % 64 } s
    if o.number = 0 then
      let s := setCmb { s.cmb with epochs := (s.cmb.epochs + 1) % 65536 } s
      if s.pln.armed then planSwitch s else s
    else s

/-- The assembly of an output block in course. -/
def assemble (o₀ : OutBlock) (s : State) : State :=
  let set := s.pln.activeSettings
  let o := markLate o₀
  let s := setDst (removeReads (fun _ => true) s.dst) (setCmb { s.cmb with late := countLate o₀ s.cmb.late } s)
  let keff := set.ceiling - o.foldback
  let b := budget keff set.maxBackoff set.hysteresis (shares o s false) (shares o s true)
  let sum := summedBand s.free o s b
  let placed := b.contributors.map (placedOf s b)
  let s := restoreOne b.restored (shedAll b.newlyShed s)
  let s := drawFree (setCmb (recordBlock o keff b (sum.any sampleOver) (shedCount s) s.cmb) s)
  completeBlock o (takeOutputBlock (sum.map clampSample) placed s)

/-- The assembly of the output block in course; with none in course nothing comes about (notes/assumptions/15.md). -/
def assembleBlock (s : State) : State :=
  match s.cmb.course with
  | none => s
  | some o => assemble o s

/-- OUTPUT_BLOCK_ASSEMBLY (R104). -/
def execOutputBlockAssembly (s : State) : Host.Outcome State Fault Refusal := running s assembleBlock

end Sys2Proof.Machine
end

