-- ==== Sys2Proof/Machine/Memory.lean ====
section
/-! DEFINITION. MEMORY_ACCESS_COMPLETE and REFRESH_TIMER_EXPIRY: the memory port, refresh and overrun (5.6, 5.7). -/

namespace Sys2Proof.Machine

/-- A burst of the oldest write completes. At its last burst the record is in the DRAM, the write leaves the queue, its gap
mark is cleared, and the line's fill goes up (R86). -/
def completeWrite (d : Dst) : Dst :=
  match d.writes with
  | [] => d
  | w :: rest =>
    if w.done + 1 < w.width then { d with writes := { w with done := w.done + 1 } :: rest }
    else
      let d := clearGapMark w.cell (dramWrite w.cell w.record { d with writes := rest })
      match vget d.lines w.entry with
      | some l => setLine w.entry (some (lineFill l)) d
      | none => d

/-- A burst of the oldest read completes. At its last burst the read leaves the queue and DST answers CMB with the record
(R90). -/
def completeRead (s : State) : State :=
  match s.dst.reads with
  | [] => s
  | r :: rest =>
    if r.done + 1 < r.width then setDst { s.dst with reads := { r with done := r.done + 1 } :: rest } s
    else
      setCmb (answerRead r.entry (.data (dramRead s.dst r.cell)) s.cmb) (setDst { s.dst with reads := rest } s)

/-- The access that holds the port completes, and the arbiter grants the port anew (R92). -/
def completeAccess (s : State) : State :=
  let s :=
    match s.dst.port with
    | .idle => s
    | .refresh => s
    | .orphan => s
    | .read => completeRead s
    | .write => setDst (completeWrite s.dst) s
  setDst (grant { s.dst with port := .idle }) s

/-- MEMORY_ACCESS_COMPLETE (R92). -/
def execMemoryAccessComplete (s : State) : Host.Outcome State Fault Refusal := running s completeAccess

/-- The overrun request taken by a context (R58): LIVE or FADE with pages enters ACQUIRE. -/
def overrunCtx (e : EntryIx) (s : State) : State :=
  match activeAt s e with
  | none => s
  | some en =>
    if liveOrFade (ctxAt s e).state && decide (0 < en.pages) then commitCtx e (toAcquire (ctxAt s e)) .overrun s else s

/-- The overrun request sent to every context, in entry order (R94). -/
def tellOverrun (s : State) : State := entries.foldl (fun s e => overrunCtx e s) s

/-- The number of lines that exist. -/
def lineCount (d : Dst) : Nat := (d.lines.toList.filterMap id).length

/-- A memory overrun (R94, R95): every line flushed, both queues emptied, the contexts told in entry order, the overrun
counted, and the MEMORY notice posted. -/
def overrun (s : State) : State :=
  let s := tellOverrun (flushAll s)
  let s := setDst { s.dst with overruns := satInc 255 s.dst.overruns } s
  post (.memory s.dst.overruns (lineCount s.dst)) s

/-- An expiry of the refresh timer (R93): the next period begins with the active interval, and a request still pending is a
memory overrun, else the request becomes pending, and an idle port is granted to it at once (R92). -/
def refreshExpiry (s : State) : State :=
  let s := setDst { s.dst with refreshPeriod := s.pln.activeSettings.refresh } s
  if s.dst.refreshPending then overrun s
  else setDst (grant { s.dst with refreshPending := true }) s

/-- REFRESH_TIMER_EXPIRY (R93). -/
def execRefreshTimerExpiry (s : State) : Host.Outcome State Fault Refusal := running s refreshExpiry

end Sys2Proof.Machine
end

