-- ==== Sys2Proof/Machine/PlanRequests.lean ====
section
/-! DEFINITION. The requests of the plan store (2.2 to 2.5): PUT_ENTRY, DROP_ENTRY, PUT_SETTINGS, COPY_ACTIVE, APPLY,
CANCEL, GET_ENTRY, GET_SETTINGS. -/

namespace Sys2Proof.Machine

/-- OK, or CLAMPED when a clamp changed a value. -/
def clampStatus (changed : Bool) : Status := if changed then .clamped else .ok

/-- Replace a staged position. -/
def stageAt (e : EntryIx) (en : Option Entry) (s : State) : State :=
  setPln { s.pln with staged := vput s.pln.staged e en } s

/-- What PLN does with PUT-ENTRY: PENDING while armed, INDEX, FIELD with the number of the failing field, else the entry is
stored clamped and rounded (R19, R20). -/
def actPutEntry (b : List Byte) (s : State) : Reply :=
  if s.pln.armed then ⟨.pending, [], s⟩
  else
    match entryIndex (u8 b 0) with
    | none => ⟨.index, [], s⟩
    | some e =>
      let r := b.drop 1
      match entryFieldError r with
      | some n => ⟨.field, field8 n, s⟩
      | none =>
        let sent := entrySent r
        let stored := storeEntry sent
        ⟨clampStatus (clampEntry sent != sent), field8 e.val ++ entryRecord stored, stageAt e (some stored) s⟩

/-- PUT_ENTRY (R19). -/
def execPutEntry (s : State) : Host.Outcome State Fault Refusal := running s (execRequest .putEntry actPutEntry)

/-- What PLN does with DROP-ENTRY (R24). -/
def actDropEntry (b : List Byte) (s : State) : Reply :=
  if s.pln.armed then ⟨.pending, [], s⟩
  else
    match entryIndex (u8 b 0) with
    | none => ⟨.index, [], s⟩
    | some e => ⟨.ok, field8 (vget s.pln.staged e).isSome.toNat, stageAt e none s⟩

/-- DROP_ENTRY (R24). -/
def execDropEntry (s : State) : Host.Outcome State Fault Refusal := running s (execRequest .dropEntry actDropEntry)

/-- What PLN does with PUT-SETTINGS (R22). -/
def actPutSettings (b : List Byte) (s : State) : Reply :=
  if s.pln.armed then ⟨.pending, [], s⟩
  else
    match settingsFieldError b with
    | some n => ⟨.field, field8 n, s⟩
    | none =>
      let sent := settingsSent b
      let stored := clampSettings sent
      ⟨clampStatus (stored != sent), settingsRecord stored, setPln { s.pln with stagedSettings := stored } s⟩

/-- PUT_SETTINGS (R22). -/
def execPutSettings (s : State) : Host.Outcome State Fault Refusal := running s (execRequest .putSettings actPutSettings)

/-- What PLN does with COPY-ACTIVE (R25). -/
def actCopyActive (_ : List Byte) (s : State) : Reply :=
  if s.pln.armed then ⟨.pending, [], s⟩
  else ⟨.ok, [], setPln { s.pln with staged := s.pln.active, stagedSettings := s.pln.activeSettings } s⟩

/-- COPY_ACTIVE (R25). -/
def execCopyActive (s : State) : Host.Outcome State Fault Refusal := running s (execRequest .copyActive actCopyActive)

/-! ### APPLY (R28) -/

/-- Do the output ranges of two entries share a slot? -/
def outputsOverlap (a b : Entry) : Bool :=
  decide (a.outStart < b.outStart + b.width) && decide (b.outStart < a.outStart + a.width)

/-- Do the output ranges of two positions of a plan share a slot? -/
def positionsOverlap (p : Plan) (i j : EntryIx) : Bool :=
  match vget p i, vget p j with
  | some a, some b => outputsOverlap a b
  | _, _ => false

/-- The pairs of positions in the order of Table 2-7: the lower entry from 0 upward, and for each the higher one upward. -/
def positionPairs : List (EntryIx × EntryIx) :=
  entries.flatMap fun i => (entries.filter (fun j => decide (i < j))).map fun j => (i, j)

/-- The first overlapping pair. -/
def firstOverlap (p : Plan) : Option (EntryIx × EntryIx) := positionPairs.find? (fun q => positionsOverlap p q.1 q.2)

/-- The taps that a plan needs: one per entry and one more per present alternate. -/
def planTapCount (p : Plan) : Nat :=
  (entries.map fun e => (vget p e).elim 0 (fun en => 1 + en.alternate.isSome.toNat)).sum

/-- What PLN does with APPLY: PENDING while armed, then the three checks in the order of Table 2-7 (R28). -/
def actApply (_ : List Byte) (s : State) : Reply :=
  if s.pln.armed then ⟨.pending, [], s⟩
  else
    match firstOverlap s.pln.staged with
    | some (i, j) => ⟨.overlap, field8 i.val ++ field8 j.val, s⟩
    | none =>
      let taps := planTapCount s.pln.staged
      let pages := planPages s.pln.staged
      if 24 < taps then ⟨.taps, field8 taps, s⟩
      else if 256 < pages then ⟨.pages, field16 pages, s⟩
      else ⟨.armed, field8 taps ++ field16 pages, setPln { s.pln with armed := true } s⟩

/-- APPLY (R28). -/
def execApply (s : State) : Host.Outcome State Fault Refusal := running s (execRequest .apply actApply)

/-- What PLN does with CANCEL (R30). -/
def actCancel (_ : List Byte) (s : State) : Reply :=
  if s.pln.armed then ⟨.ok, [], setPln { s.pln with armed := false } s⟩ else ⟨.notArmed, [], s⟩

/-- CANCEL (R30). -/
def execCancel (s : State) : Host.Outcome State Fault Refusal := running s (execRequest .cancel actCancel)

/-! ### Reading the plan (R26, R27) -/

/-- The record of a position in a GET-ENTRY body: present mark and entry record, zeros when empty (Table 11-5). -/
def positionRecord (en : Option Entry) : List Byte :=
  match en with
  | none => field8 0 ++ List.replicate 27 0
  | some en => field8 1 ++ entryRecord en

/-- What PLN does with GET-ENTRY (R26). -/
def actGetEntry (b : List Byte) (s : State) : Reply :=
  match entryIndex (u8 b 0) with
  | none => ⟨.index, [], s⟩
  | some e =>
    match boolOfCode (u8 b 1) with
    | none => ⟨.field, [], s⟩
    | some active =>
      let p := if active then s.pln.active else s.pln.staged
      ⟨.ok, field8 e.val ++ field8 active.toNat ++ positionRecord (vget p e), s⟩

/-- GET_ENTRY (R26). -/
def execGetEntry (s : State) : Host.Outcome State Fault Refusal := running s (execRequest .getEntry actGetEntry)

/-- What PLN does with GET-SETTINGS (R27). -/
def actGetSettings (b : List Byte) (s : State) : Reply :=
  match boolOfCode (u8 b 0) with
  | none => ⟨.field, [], s⟩
  | some active =>
    let r := if active then s.pln.activeSettings else s.pln.stagedSettings
    ⟨.ok, field8 active.toNat ++ field8 s.pln.armed.toNat ++ settingsRecord r, s⟩

/-- GET_SETTINGS (R27). -/
def execGetSettings (s : State) : Host.Outcome State Fault Refusal := running s (execRequest .getSettings actGetSettings)

end Sys2Proof.Machine
end

