-- ==== Sys2Proof/Machine/ChannelRequests.lean ====
section
/-! DEFINITION. The requests of the channel contexts (3.9): MUTE, UNMUTE, FORCE_SOURCE, CLEAR_FAULT_ENTRY. -/

namespace Sys2Proof.Machine

/-- A request that carries an entry index first: an index above 15 is refused with INDEX. -/
def onEntry (b : List Byte) (s : State) (f : EntryIx → Ctx → Reply) : Reply :=
  match entryIndex (u8 b 0) with
  | none => ⟨.index, [], s⟩
  | some e => f e (ctxAt s e)

/-- What CTX does with MUTE (R60): STATE in OFF; MUTED(OPERATOR) is unchanged; every other state enters it. -/
def actMute (b : List Byte) (s : State) : Reply :=
  onEntry b s fun e c =>
    match c.state with
    | .off => ⟨.state, [], s⟩
    | .muted .operator => ⟨.ok, [], s⟩
    | _ => ⟨.ok, [], commitCtx e (toMuted .operator c) .request s⟩

/-- MUTE (R60). -/
def execMute (s : State) : Host.Outcome State Fault Refusal := running s (execRequest .mute actMute)

/-- What CTX does with UNMUTE (R61). -/
def actUnmute (b : List Byte) (s : State) : Reply :=
  onEntry b s fun e c =>
    match c.state with
    | .muted .operator => ⟨.ok, [], commitCtx e (toAcquire c) .request s⟩
    | .muted .testEnd => ⟨.ok, [], commitCtx e (toAcquire c) .request s⟩
    | _ => ⟨.state, [], s⟩

/-- UNMUTE (R61). -/
def execUnmute (s : State) : Host.Outcome State Fault Refusal := running s (execRequest .unmute actUnmute)

/-- Is a context in one of the states in which FORCE-SOURCE is taken (R62)? -/
def forcible : CtxState → Bool
  | .acquire => true
  | .live => true
  | .fade => true
  | _ => false

/-- What CTX does with FORCE-SOURCE, the tests in the order of R62. -/
def actForceSource (b : List Byte) (s : State) : Reply :=
  onEntry b s fun e c =>
    match sourceOfCode (u8 b 1) with
    | none => ⟨.field, [], s⟩
    | some r =>
      if forcible c.state = false then ⟨.state, [], s⟩
      else if r = .alternate ∧ ((activeAt s e).bind Entry.alternate).isNone then ⟨.noAlternate, [], s⟩
      else if r = c.source then ⟨.ok, [], s⟩
      else ⟨.ok, [], switchSource e false .request c s⟩

/-- FORCE_SOURCE (R62). -/
def execForceSource (s : State) : Host.Outcome State Fault Refusal := running s (execRequest .forceSource actForceSource)

/-- What CTX does with CLEAR-FAULT(entry) (R63): MON's findings are cleared, and MUTED(OVERLEVEL) enters ACQUIRE. -/
def actClearFaultEntry (b : List Byte) (s : State) : Reply :=
  onEntry b s fun e c =>
    let c' := { c with strikes := 0, lowOutput := false }
    match c.state with
    | .off => ⟨.state, [], s⟩
    | .muted .overlevel => ⟨.ok, [], commitCtx e (toAcquire c') .request s⟩
    | _ => ⟨.ok, [], setCtx e c' s⟩

/-- CLEAR_FAULT_ENTRY (R63). -/
def execClearFaultEntry (s : State) : Host.Outcome State Fault Refusal :=
  running s (execRequest .clearFaultEntry actClearFaultEntry)

end Sys2Proof.Machine
end

