-- ==== Sys2Proof/Machine/Reports.lean ====
section
/-! DEFINITION. The requests that report: IDENTIFY, GET_CHANNEL, GET_TRANSMIT, GET_SUPERVISION (Table 11-7). -/

namespace Sys2Proof.Machine

/-- IDENTIFY's body: the part code CT16, the revision 3, and the capacities (R166, Table 11-5). -/
def identifyBody : List Byte :=
  [0x43, 0x54, 0x31, 0x36] ++ field8 3 ++ field8 16 ++ field8 24 ++ field16 256 ++ field8 96 ++ field8 8

/-- What SVC does with IDENTIFY (R166). -/
def actIdentify (_ : List Byte) (s : State) : Reply := ⟨.ok, identifyBody, s⟩

/-- IDENTIFY (R166). -/
def execIdentify (s : State) : Host.Outcome State Fault Refusal := running s (execRequest .identify actIdentify)

/-! ### GET_CHANNEL (R64) -/

/-- The remaining test time in whole seconds, rounded up; none when no test runs (R151). -/
def testSeconds : CtxState → Option Nat
  | .test r _ => some ((r + 999) / 1000)
  | _ => none

/-- The test level; none when no test runs. -/
def testLevel : CtxState → Option Int
  | .test _ l => some l
  | _ => none

/-- The GET-CHANNEL body (R64, Table 11-7). A position without an entry has no bridge, which is sent as all ones: the model's
choice (notes/assumptions/18.md). -/
def channelBody (s : State) (e : EntryIx) : List Byte :=
  let c := ctxAt s e
  let q := s.pln.activeSettings.acquire
  let line := lineAt s e
  field8 e.val ++ field8 (stateName c.state).code ++ field8 (causeCode (stateCause c.state)) ++
  field8 (sourceCode c.source) ++
  field8 (flagByte [c.expired, isReady q c .primary, isReady q c .alternate, c.shed, c.lowOutput, c.done]) ++
  field16 c.readyP ++ field16 c.readyA ++
  field16 c.loss ++ fieldOpt16 ((activeAt s e).map entryBridge) ++
  field32 c.revert ++
  fieldOptS16 c.gain ++ fieldOptS16 c.lastIn ++ fieldOptS16 c.lastOut ++
  field8 c.strikes ++
  fieldOpt16 (testSeconds c.state) ++ fieldOptS16 (testLevel c.state) ++
  field16 c.badBlocks ++ field8 c.failovers ++ field16 c.clips ++
  field16 ((line.map Line.fill).getD 0) ++ field16 ((line.map lineCapacity).getD 0) ++
  field16 (vget s.dst.gapCounts e) ++ field16 (vget s.cmb.late e)

/-- What CTX does with GET-CHANNEL (R64). -/
def actGetChannel (b : List Byte) (s : State) : Reply := onEntry b s fun e _ => ⟨.ok, channelBody s e, s⟩

/-- GET_CHANNEL (R64). -/
def execGetChannel (s : State) : Host.Outcome State Fault Refusal := running s (execRequest .getChannel actGetChannel)

/-! ### GET_TRANSMIT (R136) -/

/-- The GET-TRANSMIT body (R136, Table 11-7). -/
def transmitBody (x : Txs) : List Byte :=
  field8 x.state.code ++ field8 (flagByte [x.keyed, x.further, x.refOk, x.linkUp, x.paReady, x.paAlarm]) ++
  field8 x.cause.code ++ field16 x.atten ++ field8 x.foldback ++
  fieldOpt16 x.bias ++ fieldOpt16 x.cool ++ field16 x.qual ++
  field8 x.tripCount ++ fieldOptS16 x.lastRL ++ field8 x.invalid ++ fieldS16 x.fwd ++ fieldS16 x.refl

/-- What TXS does with GET-TRANSMIT (R136). -/
def actGetTransmit (_ : List Byte) (s : State) : Reply := ⟨.ok, transmitBody s.txs, s⟩

/-- GET_TRANSMIT (R136). -/
def execGetTransmit (s : State) : Host.Outcome State Fault Refusal := running s (execRequest .getTransmit actGetTransmit)

/-! ### GET_SUPERVISION (R146) -/

/-- The trunk section for one port (R12). -/
def trunkSection (p : Port) : List Byte :=
  field8 p.align.code ++ field8 (flagByte [p.overload, p.alarm]) ++ field16 p.damage ++ field16 p.slips

/-- The memory section (R82, R96). -/
def memorySection (d : Dst) : List Byte := field16 (pagesInUse d.pageMap) ++ field8 d.overruns

/-- The combiner section (R118). EXCESS is sent as 1 when set and as 0 when clear, for which the tables list no code
(notes/assumptions/39.md). -/
def combinerSection (c : Cmb) : List Byte :=
  field8 c.counter ++ field16 c.epochs ++ field16 c.excess ++ field32 c.clips ++
  fieldOptS16 c.figures.composite ++ fieldS16 c.figures.ceiling ++ field8 c.figures.foldback ++
  field16 c.figures.backoff ++ field8 c.figures.excess.toNat ++ field8 c.figures.contributors ++ field8 c.figures.shed

/-- The code of what a dwell visits: 0 to 15, or 16 for REFERENCE. -/
def visitedCode : Visited → Nat
  | .entry e => e.val
  | .reference => 16

/-- One entry's byte of the monitor section: bits 0 and 1 the strike count, bit 2 LOW_OUTPUT. -/
def strikeByte (c : Ctx) : Nat := c.strikes % 4 + 4 * c.lowOutput.toNat

/-- The monitor section (R146). What is absent is sent as all ones (R170). -/
def monitorSection (m : Mon) (ctx : Vector Ctx 16) : List Byte :=
  field8 m.mode.code ++ fieldOpt8 m.mode.entry ++
  fieldOpt8 (m.returnMode.map MonMode.code) ++ fieldOpt8 (m.returnMode.bind MonMode.entry) ++
  field8 m.scanPos.val ++
  fieldOpt8 (m.dwell.map (fun d => visitedCode d.visited)) ++ fieldOpt8 (m.dwell.map Dwell.count) ++
  fieldOpt8 (m.dwell.map Dwell.length) ++
  field8 m.selftest.code ++ ctx.toList.flatMap (fun c => field8 (strikeByte c))

/-- The GET-SUPERVISION body (R146, Table 11-7). -/
def supervisionBody (s : State) : List Byte :=
  trunkSection s.rtA ++ trunkSection s.rtB ++ memorySection s.dst ++ combinerSection s.cmb ++ monitorSection s.mon s.ctx

/-- What MON does with GET-SUPERVISION (R146). -/
def actGetSupervision (_ : List Byte) (s : State) : Reply := ⟨.ok, supervisionBody s, s⟩

/-- GET_SUPERVISION (R146). -/
def execGetSupervision (s : State) : Host.Outcome State Fault Refusal :=
  running s (execRequest .getSupervision actGetSupervision)

end Sys2Proof.Machine
end

