-- ==== Sys2Proof/Machine/Reset.lean ====
section
/-! DEFINITION. The two resets: POWER_ON_RESET_LINE_LOW, POWER_ON_RESET and RESTART; and the answer to an unknown kind. -/

namespace Sys2Proof.Machine

/-- POWER_ON_RESET_LINE_LOW (R1): the part is in power-on reset, in which nothing is taken and nothing sent. -/
def execPowerOnResetLineLow (s : State) : Host.Outcome State Fault Refusal := .next { s with inReset := true }

/-- POWER_ON_RESET (R1): every block at its power-on values, RESET(POWER_ON) in the notice queue, the first block period
begun. The model's own queue of commands and its counter of free values stand. -/
def execPowerOnReset (s : State) : Host.Outcome State Fault Refusal :=
  .next { State.reset with pending := s.pending, free := s.free }

/-! ### The warm restart (R167) -/

/-- DST at a warm restart (R97): every line flushed, counts cleared, a new refresh period begun. -/
def restartDst (s : State) : State :=
  let s := flushAll s
  setDst { s.dst with
      gapCounts := Vector.replicate 16 0
      overruns := 0
      refreshPeriod := s.pln.activeSettings.refresh } s

/-- A context at a warm restart (R43, R138, R147): ACQUIRE with everything else at its power-on value when its position holds
an entry of the active plan; an empty position's context at its power-on values. -/
def restartCtx (en : Option Entry) : Ctx :=
  match en with
  | none => Ctx.powerOn
  | some _ => { Ctx.powerOn with state := .acquire }

/-- CMB at a warm restart (R99). The output block in course is marked as begun before the restart. -/
def restartCmb (set : Settings) (c : Cmb) : Cmb :=
  { c with
    counter := 0
    course := c.course.map (fun o => { o with restarted := true })
    held := Vector.replicate 16 none
    next := Vector.replicate 16 none
    late := Vector.replicate 16 0
    figures := Figures.initial set.ceiling
    excess := 0
    clips := 0 }

/-- TXS at a warm restart (R119). -/
def restartTxs (x : Txs) : Txs :=
  { toOffAir x with keyed := false, atten := 300, cause := .none, further := false }

/-- MON at a warm restart (Table 8-1, R138). -/
def restartMon (m : Mon) : Mon := { m with mode := .off, returnMode := none, dwell := none }

/-- SVC at a warm restart (R167): the request queue discarded, the notice queue holding RESET(WARM) alone. -/
def restartSvc (_ : Svc) : Svc := ⟨[], 0, [⟨.reset true, false, false⟩]⟩

/-- The warm restart of every block, in one event. -/
def warmRestart (s : State) : State :=
  let s := restartDst s
  let s := setCtxs (s.pln.active.map restartCtx) (setPln { s.pln with armed := false } s)
  let s := setTxs (restartTxs s.txs) (setCmb (restartCmb s.pln.activeSettings s.cmb) s)
  setSvc (restartSvc s.svc) (setMon (restartMon s.mon) s)

/-- Execution of a RESTART request (R167): the OK response is placed first, then the restart takes effect in the same event. -/
def restartRequest (s : State) : State :=
  match takeRequest s with
  | none => s
  | some (r, s') =>
    if r.kind.toNat ≠ Kind.restart.code then s
    else if r.body.length ≠ Kind.restart.bodyLength then respond r .length [] s'
    else warmRestart (respond r .ok [] s')

/-- RESTART (R167). -/
def execRestart (s : State) : Host.Outcome State Fault Refusal := running s restartRequest

/-- Execution of the oldest request when its kind is no request kind: it is answered UNKNOWN (R161). -/
def unknownRequest (s : State) : State :=
  match takeRequest s with
  | none => s
  | some (r, s') => if isRequestKind r.kind.toNat then s else respond r .unknown [] s'

/-- UNKNOWN_KIND (R161). -/
def execUnknownKind (s : State) : Host.Outcome State Fault Refusal := running s unknownRequest

end Sys2Proof.Machine
end

