-- ==== Sys2Proof/Machine/TestTone.lean ====
section
/-! DEFINITION. Timed test tones (chapter 9): TEST_START, TEST_STOP and TEST_EXPIRY. -/

namespace Sys2Proof.Machine

/-- A context under a test that starts (R57, R149): loss count 0, expired mark, revert counter and done flag clear, its source
kept. -/
def startedTest (duration : Nat) (level : Int) (c : Ctx) : Ctx :=
  { c with state := .test duration level, loss := 0, expired := false, revert := 0, done := false }

/-- A test restarted on a context already in TEST (R150): its time and its level afresh, all else unchanged. -/
def restartedTest (duration : Nat) (level : Int) (c : Ctx) : Ctx := { c with state := .test duration level }

/-- What TTG does with TEST-STOP on an entry (R153). `body` is the body of the answer with status OK. -/
def stopReply (e : EntryIx) (c : Ctx) (body : List Byte) (s : State) : Reply :=
  if inTest c.state then ⟨.ok, body, stopTest e s⟩ else ⟨.state, [], s⟩

/-- Is TEST-START refused in a state (R148)? -/
def testRefused : CtxState → Bool
  | .off => true
  | .muted .overlevel => true
  | _ => false

/-- What TTG does with TEST-START, in the order of R148. Duration code 0 makes it a TEST-STOP, answered with the body as
received. -/
def actTestStart (b : List Byte) (s : State) : Reply :=
  onEntry b s fun e c =>
    if u8 b 3 = 0 then stopReply e c b s
    else if testRefused c.state then ⟨.state, [], s⟩
    else
      let level := clampInt (-400) 0 (s16 b 1)
      let code := min (u8 b 3) 9
      let changed := level != s16 b 1 || code != u8 b 3
      let body := field8 e.val ++ fieldS16 level ++ field8 code
      let c' := if inTest c.state then restartedTest (testDuration code) level c else startedTest (testDuration code) level c
      ⟨if changed then .clamped else .ok, body, commitCtx e c' .test s⟩

/-- TEST_START (R148). -/
def execTestStart (s : State) : Host.Outcome State Fault Refusal := running s (execRequest .testStart actTestStart)

/-- What TTG does with TEST-STOP (R153). -/
def actTestStop (b : List Byte) (s : State) : Reply := onEntry b s fun e c => stopReply e c [] s

/-- TEST_STOP (R153). -/
def execTestStop (s : State) : Host.Outcome State Fault Refusal := running s (execRequest .testStop actTestStop)

/-- Expiry of the test on an entry (R152): when its remaining time has reached 0 the done flag is set and the context leaves
TEST under the test end action; otherwise no test expires. -/
def expireTest (e : EntryIx) (s : State) : State :=
  let c := ctxAt s e
  match c.state with
  | .test 0 _ =>
    let c := { c with done := true }
    match s.pln.activeSettings.testEnd with
    | .ret => commitCtx e (toAcquire c) .test s
    | .mute => commitCtx e (toMuted .testEnd c) .test s
  | _ => s

/-- TEST_EXPIRY (R152). -/
def execTestExpiry (e : EntryIx) (s : State) : Host.Outcome State Fault Refusal := running s (expireTest e)

end Sys2Proof.Machine
end

