-- ==== Sys2Proof/Machine/Monitor.lean ====
section
/-! DEFINITION. The output monitor (chapter 8): dwells, findings, the self-test, and SET_MONITOR. -/

namespace Sys2Proof.Machine

/-- What MON gets with a forward frame: its samples and the applied levels of its contributors (R139). -/
abbrev Heard := Drive

/-- The applied level of an entry in a frame. -/
def appliedOf (h : Heard) (e : EntryIx) : Option Applied := h.applied.find? (fun a => a.entry == e)

/-- May an entry be visited in a frame (R140): it has an applied level in the frame's output block, and its context is in a
contributor state with its shed flag clear (notes/assumptions/23.md). -/
def mayVisit (h : Heard) (s : State) (e : EntryIx) : Bool :=
  (appliedOf h e).isSome && isContributor (ctxAt s e).state && !(ctxAt s e).shed

/-- The order in which SCAN looks at the entries: from the scan position plus one, ending with the scan position (R140). -/
def scanOrder (pos : EntryIx) : List EntryIx := entries.map (fun k => pos + 1 + k)

/-- What a dwell that begins in a mode visits, if anything (R140). -/
def nextVisit (h : Heard) (s : State) : Option Visited :=
  match s.mon.mode with
  | .off => none
  | .scan => ((scanOrder s.mon.scanPos).find? (mayVisit h s)).map .entry
  | .lock e => if mayVisit h s e then some (.entry e) else none
  | .selftest => some .reference

/-- The mean power of the internal reference, which stands at -200 (-20.0 dB) relative to drive full scale (R144). -/
def referencePower : Rat := (fullScale ^ 2 : Nat) / 100

/-- The power that a frame adds to a dwell, none when the frame is not counted: the reference's power as R144 gives it, or
the mean power of the frame's samples across the output range of an entry with an applied level, as the active plan placed it for
the frame's output block (R141). -/
def framePower (h : Heard) (v : Visited) : Option Rat :=
  match v with
  | .reference => some referencePower
  | .entry e => (appliedOf h e).map fun a => rangePower h.samples a.start a.width

/-- The measured level of a completed dwell (R141). -/
def measuredLevel (d : Dwell) : Int := levelOfPower (d.power / (d.count : Rat))

/-- The finding on an entry's context (Table 8-2): the context, and whether this was the third strike. -/
def finding (m x : Int) (tolerance : Nat) (c : Ctx) : Ctx × Bool :=
  if x + tolerance < m then
    if c.strikes + 1 ≥ 3 then ({ c with strikes := 0, lowOutput := false }, true)
    else ({ c with strikes := c.strikes + 1, lowOutput := false }, false)
  else if m < x - tolerance then ({ c with strikes := 0, lowOutput := true }, false)
  else ({ c with strikes := 0, lowOutput := false }, false)

/-- The over-level mute request taken by a context (R58): LIVE, FADE or TEST enters MUTED(OVERLEVEL). -/
def overlevelMute (e : EntryIx) (s : State) : State :=
  if isContributor (ctxAt s e).state then commitCtx e (toMuted .overlevel (ctxAt s e)) .monitor s else s

/-- Completion of a dwell on an entry at the applied level `x` of the completing frame (R143). -/
def completeEntry (d : Dwell) (e : EntryIx) (x : Int) (s : State) : State :=
  let f := finding (measuredLevel d) x s.pln.activeSettings.tolerance (ctxAt s e)
  let s := setCtx e f.1 (endDwell s)
  if f.2 then overlevelMute e s else s

/-- Completion of a self-test dwell (R144). -/
def completeSelftest (d : Dwell) (s : State) : State :=
  let t : Int := s.pln.activeSettings.tolerance
  let m := measuredLevel d
  let result := if -200 - t ≤ m ∧ m ≤ -200 + t then SelfTest.pass else SelfTest.fail
  setMon { s.mon with dwell := none, mode := s.mon.returnMode.getD .off, returnMode := none, selftest := result } s

/-- A measured frame taken into a dwell in progress (R141): not counted, counted, or the completing frame. -/
def countFrame (h : Heard) (d : Dwell) (s : State) : State :=
  match framePower h d.visited with
  | none => s
  | some p =>
    let d := { d with count := d.count + 1, power := d.power + p }
    if d.count < d.length then setMon { s.mon with dwell := some d } s
    else
      match d.visited with
      | .reference => completeSelftest d s
      | .entry e =>
        match appliedOf h e with
        | some a => completeEntry d e a.level s
        | none => s

/-- A measured frame with no dwell in progress: a dwell begins when something may be visited, and the frame is its first
counted frame (R140). -/
def beginDwell (h : Heard) (s : State) : State :=
  match nextVisit h s with
  | none => s
  | some v =>
    let pos := match s.mon.mode, v with
      | .scan, .entry e => e
      | _, _ => s.mon.scanPos
    countFrame h ⟨v, s.pln.activeSettings.dwell, 0, 0⟩ (setMon { s.mon with scanPos := pos } s)

/-- MON takes a forward frame (R139): measured when the mode is not OFF and the sequencer is in ON_AIR. -/
def monitorFrame (h : Heard) (s : State) : State :=
  if s.mon.mode = .off ∨ s.txs.state ≠ .onAir then s
  else
    match s.mon.dwell with
    | some d => countFrame h d s
    | none => beginDwell h s

/-! ### SET_MONITOR (R145) -/

/-- The mode that a mode byte and an index name. -/
def modeOfCode (mode index : Nat) : Except Status MonMode :=
  match mode with
  | 0 => .ok .off
  | 1 => .ok .scan
  | 2 => match entryIndex index with
    | some e => .ok (.lock e)
    | none => .error .index
  | 3 => .ok .selftest
  | _ => .error .field

/-- The monitor after an accepted mode request (R145). -/
def enterMode (m : MonMode) (x : Mon) : Mon :=
  if m = x.mode then x
  else if m = .selftest then { x with dwell := none, returnMode := some x.mode, mode := .selftest }
  else { x with dwell := none, returnMode := none, mode := m }

/-- What MON does with SET-MONITOR. -/
def actSetMonitor (b : List Byte) (s : State) : Reply :=
  match modeOfCode (u8 b 0) (u8 b 1) with
  | .error st => ⟨st, [], s⟩
  | .ok m => ⟨.ok, [], setMon (enterMode m s.mon) s⟩

/-- SET_MONITOR (R145). -/
def execSetMonitor (s : State) : Host.Outcome State Fault Refusal := running s (execRequest .setMonitor actSetMonitor)

end Sys2Proof.Machine
end

