-- ==== Sys2Proof/Machine/Transmit.lean ====
section
/-! DEFINITION. The transmit sequencer and the drive link (chapter 7): FORWARD_DRIVE_FRAME, REVERSE_DRIVE_FRAME,
REFERENCE_LOCK_SAMPLE, the two timer expiries, and the requests KEY, UNKEY, SHUTDOWN and CLEAR_FAULT_TRANSMIT. -/

namespace Sys2Proof.Machine

/-! ### The forward frame (R120) -/

/-- What a forward frame carries: the formed samples with their applied levels in a driving state, zeros without applied
levels in a silent state or before anything has been formed (R120, R139). What counts is the state at the sending: samples
formed before a trip or a warm restart are sent when the sequencer drives again by then (notes/assumptions/38.md). -/
def heardFrame (x : Txs) : Drive :=
  match driving x.state, x.toSend with
  | true, some d => d
  | _, _ => ⟨silence bandSamples, []⟩

/-- The sequencer after sending a forward frame: the frame stands on the lanes, and the frame number goes up. -/
def sentForward (x : Txs) : Txs :=
  { x with
    fwdNumber := (x.fwdNumber + 1) % 1024
    lastForward := some (forwardDriveBytes x.fwdNumber (biasOn x.state) (driving x.state) (heardFrame x).samples) }

/-- Sending of a forward frame, which MON hears (R120, R139). -/
def sendForward (s : State) : State := monitorFrame (heardFrame s.txs) (setTxs (sentForward s.txs) s)

/-- FORWARD_DRIVE_FRAME (R120). -/
def execForwardDriveFrame (s : State) : Host.Outcome State Fault Refusal := running s sendForward

/-! ### The reverse frame (R121, R122, R130, R131) -/

/-- An invalid frame (R121): at a count of 8 the link is LOST, which trips a bias-on state and is a further fault in TRIPPED. -/
def takeInvalid (s : State) : State :=
  let n := satInc 255 s.txs.invalid
  let lost := s.txs.linkUp && decide (8 ≤ n)
  let s := setTxs { s.txs with invalid := n, linkUp := s.txs.linkUp && decide (n < 8) } s
  if lost && (biasOn s.txs.state || s.txs.state == .tripped) then tripOrFurther .link s else s

/-- Stage 1 (R122): the held readings and flags; a valid frame makes the link UP. -/
def holdReading (r : Reading) (x : Txs) : Txs :=
  { x with fwd := r.fwd, refl := r.refl, paReady := r.ready, paAlarm := r.alarm, invalid := 0, linkUp := true }

/-- Stage 2 (R122, R126): PA ready seen in BIAS_WAIT. -/
def stageReady (s : State) : State :=
  if s.txs.state = .biasWait ∧ s.txs.paReady = true then
    commitTxs (if s.txs.refOk then toRampUp s.txs else toHeld s.txs) s
  else s

/-- Stage 3 (R122, R132): a held PA alarm or a held PA ready that is clear trips a bias-on state other than BIAS_WAIT. -/
def stageTrip (s : State) : State :=
  if (biasOn s.txs.state && s.txs.state != .biasWait && (s.txs.paAlarm || !s.txs.paReady)) = true then
    tripOrFurther .pa s
  else s

/-- The foldback of a return loss (R130): twice the amount by which RLfold exceeds it, clamped to 0..Fmax. -/
def foldbackOf (set : Settings) (rl : Int) : Nat := (clampInt 0 set.foldMax (2 * (set.foldStart - rl))).toNat

/-- An evaluated reading before its trip is considered (R130, R131). -/
def evaluated (set : Settings) (x : Txs) : Txs :=
  let rl := x.fwd - x.refl
  { x with
    lastRL := some rl
    foldback := foldbackOf set rl
    tripCount := if rl < set.tripRL then satInc 100 x.tripCount else 0 }

/-- Stage 4 (R122): a reading in a driving state with P at or above -200 is evaluated, and the trip count reaching Ntrip by an
increase trips with cause VSWR. -/
def stageEvaluate (s : State) : State :=
  if (driving s.txs.state && decide (-200 ≤ s.txs.fwd)) = true then
    let set := s.pln.activeSettings
    let s := setTxs (evaluated set s.txs) s
    if s.txs.fwd - s.txs.refl < set.tripRL ∧ set.tripCount ≤ s.txs.tripCount then tripOrFurther .vswr s else s
  else s

/-- A valid frame (R122): in TRIPPED only stage 1, with a further fault when the alarm has just changed to set (R133). -/
def takeValid (r : Reading) (s : State) : State :=
  let rose := r.alarm && !s.txs.paAlarm
  let s := setTxs (holdReading r s.txs) s
  if s.txs.state = .tripped then if rose then tripOrFurther .pa s else s
  else stageEvaluate (stageTrip (stageReady s))

/-- What stands in the reverse frame window is taken (R121). -/
def takeReverse (w : Window) (s : State) : State :=
  match sortDrive w with
  | none => takeInvalid s
  | some r => takeValid r s

/-- REVERSE_DRIVE_FRAME (R121). -/
def execReverseDriveFrame (w : Window) (s : State) : Host.Outcome State Fault Refusal := running s (takeReverse w)

/-! ### Reference qualification (R123, R129) -/

/-- The reference lock line sampled (R123): the counter up to the setting, ref_ok true when it reaches it; without lock both
fall. The sequencer acts on a change of ref_ok (R129). A counter that a switch left equal to the setting makes ref_ok true
here, at the next sample with lock (notes/assumptions/34.md). -/
def sampleLock (lock : Bool) (s : State) : State :=
  let set := s.pln.activeSettings
  let qual := if lock then min set.refQual (s.txs.qual + 1) else 0
  let ok := lock && (s.txs.refOk || qual == set.refQual)
  let x := { s.txs with qual := qual }
  if ok = x.refOk then setTxs x s else commitTxs (refChange set ok x) s

/-- REFERENCE_LOCK_SAMPLE (R123). -/
def execReferenceLockSample (lock : Bool) (s : State) : Host.Outcome State Fault Refusal := running s (sampleLock lock)

/-! ### Timer expiries (R126, R128) -/

/-- Expiry of the bias timer: it trips BIAS_WAIT when the timer has reached 0, and otherwise nothing expires. -/
def expireBias (s : State) : State :=
  if s.txs.state = .biasWait ∧ s.txs.bias = some 0 then tripOrFurther .biasTimeout s else s

/-- BIAS_TIMER_EXPIRY (R126). -/
def execBiasTimerExpiry (s : State) : Host.Outcome State Fault Refusal := running s expireBias

/-- Expiry of the cool timer: COOL enters OFF_AIR when the timer has reached 0, and otherwise nothing expires. -/
def expireCool (s : State) : State :=
  if s.txs.state = .cool ∧ s.txs.cool = some 0 then commitTxs (toOffAir s.txs) s else s

/-- COOL_TIMER_EXPIRY (R128). -/
def execCoolTimerExpiry (s : State) : Host.Outcome State Fault Refusal := running s expireCool

/-! ### Requests -/

/-- The sequencer after an accepted KEY (R124). -/
def keyedTxs (set : Settings) (x : Txs) : Txs :=
  let x := { x with keyed := true }
  match x.state with
  | .offAir => if x.linkUp then toBiasWait set x else toTripped .link x
  | .cool => if x.paReady then (if x.refOk then toRampUp x else toHeld x) else toBiasWait set x
  | .rampDown => { x with state := .rampUp }
  | .biasWait => x
  | .rampUp => x
  | .onAir => x
  | .held => x
  | .tripped => x

/-- What TXS does with KEY (R124): refused in TRIPPED; from OFF_AIR with the link LOST it trips in the same event. -/
def actKey (_ : List Byte) (s : State) : Reply :=
  if s.txs.state = .tripped then ⟨.tripped, [], s⟩
  else
    let x := keyedTxs s.pln.activeSettings s.txs
    ⟨if x.state = .tripped then .tripped else .ok, [], commitTxs x s⟩

/-- KEY (R124). -/
def execKey (s : State) : Host.Outcome State Fault Refusal := running s (execRequest .key actKey)

/-- The sequencer after UNKEY (R125). -/
def unkeyedTxs (set : Settings) (x : Txs) : Txs :=
  let x := { x with keyed := false }
  match x.state with
  | .biasWait => toOffAir x
  | .rampUp => { x with state := .rampDown }
  | .onAir => { x with state := .rampDown, atten := 0 }
  | .held => toCool set x
  | .offAir => x
  | .rampDown => x
  | .cool => x
  | .tripped => x

/-- What TXS does with UNKEY (R125). -/
def actUnkey (_ : List Byte) (s : State) : Reply :=
  ⟨.ok, [], commitTxs (unkeyedTxs s.pln.activeSettings s.txs) s⟩

/-- UNKEY (R125). -/
def execUnkey (s : State) : Host.Outcome State Fault Refusal := running s (execRequest .unkey actUnkey)

/-- What TXS does with SHUTDOWN (R134): a trip with cause COMMAND, in TRIPPED a further fault. -/
def actShutdown (_ : List Byte) (s : State) : Reply := ⟨.ok, [], tripOrFurther .command s⟩

/-- SHUTDOWN (R134). -/
def execShutdown (s : State) : Host.Outcome State Fault Refusal := running s (execRequest .shutdown actShutdown)

/-- What TXS does with CLEAR-FAULT(transmit) (R135). -/
def actClearFaultTransmit (_ : List Byte) (s : State) : Reply :=
  if s.txs.state ≠ .tripped then ⟨.state, [], s⟩
  else if (s.txs.paAlarm || !s.txs.linkUp) = true then ⟨.active, [], s⟩
  else ⟨.ok, [], commitTxs { toOffAir s.txs with cause := .none, further := false } s⟩

/-- CLEAR_FAULT_TRANSMIT (R135). -/
def execClearFaultTransmit (s : State) : Host.Outcome State Fault Refusal :=
  running s (execRequest .clearFaultTransmit actClearFaultTransmit)

end Sys2Proof.Machine
end

