-- ==== Sys2Proof/Machine/Trunk.lean ====
section
/-! DEFINITION. TRUNK_FRAME and REVERSE_TRUNK_FRAME: alignment, damage, slips, block quality, the service assembler, the
extraction of channel blocks, and the filling of reverse segments (chapters 1 and 10). -/

namespace Sys2Proof.Machine

/-! ### Alignment (R3 to R8) -/

/-- The number one above the reference number, modulo 1024. -/
def expectedNumber (p : Port) : Nat := (p.reference.getD 0 + 1) % 1024

/-- A failure, that is, missing, bad sync or wrong identity (R3, R4, R5). -/
def takeFailure (p : Port) : Port :=
  match p.align with
  | .hunt => p
  | .confirm => { p with align := .hunt, reference := none, confirm := 0 }
  | .sync => { p with align := .flywheel, failures := 1, reference := some (expectedNumber p) }
  | .flywheel =>
    if p.failures + 1 ≥ 4 then { p with align := .hunt, reference := none, failures := 0 }
    else { p with failures := p.failures + 1, reference := some (expectedNumber p) }

/-- A damaged frame: it is counted in every state (R7), and moves the alignment as R3, R4 and R5 give. -/
def takeDamaged (p : Port) : Port :=
  let p := { p with damage := satInc 65535 p.damage }
  match p.align with
  | .hunt => p
  | .confirm => { p with align := .hunt, reference := none, confirm := 0 }
  | .sync => { p with reference := some (expectedNumber p) }
  | .flywheel => { p with reference := some (expectedNumber p) }

/-- Is a good frame of this number a slip at this port (R6)? -/
def isSlip (p : Port) (number : Nat) : Bool :=
  match p.align with
  | .hunt => false
  | .confirm => false
  | .sync => number != expectedNumber p
  | .flywheel => number != expectedNumber p

/-- A good frame: its flags are copied in every state (R8); the alignment moves as R3, R4 and R5 give; a slip is counted (R6). -/
def takeGood (f : TrunkFrame) (p : Port) : Port :=
  let slips := if isSlip p f.number then satInc 65535 p.slips else p.slips
  let p := { p with overload := f.overload, alarm := f.alarm, slips := slips }
  match p.align with
  | .hunt => { p with align := .confirm, reference := some f.number, confirm := 0 }
  | .confirm =>
    if f.number = expectedNumber p then
      if p.confirm + 1 ≥ 2 then { p with align := .sync, reference := some f.number, confirm := 0 }
      else { p with reference := some f.number, confirm := p.confirm + 1 }
    else { p with align := .hunt, reference := none, confirm := 0 }
  | .sync => { p with reference := some f.number }
  | .flywheel => { p with align := .sync, failures := 0, reference := some f.number }

/-- The port after a block period's outcome. -/
def takeOutcome (o : FrameOutcome) (p : Port) : Port :=
  match o with
  | .missing => takeFailure p
  | .badSync => takeFailure p
  | .wrongIdentity => takeFailure p
  | .damaged => takeDamaged p
  | .good f => takeGood f p

/-- The quality of a block period, from the port before it, its outcome, and the port after it (Table 1-4). -/
def blockQuality (before after : Port) (o : FrameOutcome) : Quality :=
  match after.align with
  | .sync =>
    match o with
    | .good f => if isSlip before f.number || f.overload || f.alarm then .impaired else .good
    | _ => .impaired
  | _ => .absent

/-! ### The service assembler (R156 to R160) -/

/-- What a byte makes of a partial message. -/
inductive AsmEvent where
  | none
  | discard
  | complete (message : List Byte)
deriving DecidableEq, Repr

/-- The assembler with no partial message. -/
def searching : Assembler := ⟨.search, [], none⟩

/-- A byte examined in SEARCH (R156). -/
def searchByte (b : Byte) : Assembler := if b = marker1 then ⟨.header, [b], none⟩ else searching

/-- One byte taken by an assembler (R156). -/
def asmByte (a : Assembler) (b : Byte) : Assembler × AsmEvent :=
  let g := a.gathered ++ [b]
  match a.phase with
  | .search => (searchByte b, .none)
  | .header =>
    if g.length = 2 ∧ b ≠ marker2 then (searchByte b, .none)
    else if g.length < 4 then (⟨.header, g, none⟩, .none)
    else if 8 ≤ u16 g 2 ∧ u16 g 2 ≤ 512 then (⟨.collect, g, some (u16 g 2)⟩, .none)
    else (searching, .discard)
  | .collect =>
    if g.length < a.expected.getD 0 then (⟨.collect, g, a.expected⟩, .none)
    else (searching, .complete g)

/-- A message is lost: the count of both trunks together goes up (R159). -/
def countLost (v : Svc) : Svc := { v with lost := satInc 255 v.lost }

/-- A good message is offered to the request queue (R160). -/
def offer (r : Request) (v : Svc) : Svc :=
  if v.queue.length < 8 then { v with queue := v.queue ++ [r] } else countLost v

/-- What SVC makes of an assembler's event on a trunk (R157, R159). -/
def takeAsmEvent (t : Trunk) (ev : AsmEvent) (v : Svc) : Svc :=
  match ev with
  | .none => v
  | .discard => countLost v
  | .complete m => if messageGood m then offer (messageRequest t m) v else countLost v

/-- The bytes of a segment, one at a time (R156). -/
def takeBytes (t : Trunk) : List Byte → Assembler → Svc → Assembler × Svc
  | [], a, v => (a, v)
  | b :: rest, a, v =>
    let next := asmByte a b
    takeBytes t rest next.1 (takeAsmEvent t next.2 v)

/-- A segment lost indication: a partial message is discarded and counted, in SEARCH nothing changes (R158). -/
def segmentLost (a : Assembler) (v : Svc) : Assembler × Svc :=
  match a.phase with
  | .search => (a, v)
  | .header => (searching, countLost v)
  | .collect => (searching, countLost v)

/-- What the port gives its assembler in a block period (R10): the segment of a good frame that leaves the port in SYNC,
after a segment lost indication when the frame is a slip, and segment lost in every other case. -/
def feedAssembler (t : Trunk) (before after : Port) (o : FrameOutcome) (v : Svc) : Assembler × Svc :=
  match o with
  | .good f =>
    if after.align = .sync then
      if isSlip before f.number then
        let lost := segmentLost after.asm v
        takeBytes t f.segment lost.1 lost.2
      else takeBytes t f.segment after.asm v
    else segmentLost after.asm v
  | _ => segmentLost after.asm v

/-! ### Extraction (R15, R16) -/

/-- The samples of a band that a tap yields: the range moved so that its centre lies at 0 Hz, everything outside it filtered away,
and decimated to width times 500 samples (R15). The phase and the rounding are free (notes/assumptions/2.md). -/
def extracted (n : Nat) (band : List Sample) (start width : Nat) : List Sample :=
  let lines := rangeLines (width * 500) (shiftBand (Config.extractPhase n start width) (basebandHz start width) band)
  (List.range (width * 500)).map fun i => decimated (Config.extractRounding n start width i) band.length lines i

/-- The block that a tap cuts from a block period of its trunk (R15): silence without a level unless the quality is GOOD. -/
def cutBlock (n : Nat) (o : FrameOutcome) (q : Quality) (tap : Tap) : ChannelBlock :=
  match q, o with
  | .good, .good f =>
    let samples := extracted n f.band tap.start tap.width
    ⟨samples, .good, some (levelOfSamples samples)⟩
  | q, _ => ⟨silence (tap.width * 500), q, none⟩

/-- The blocks of a trunk's taps in a block period, in row order, cut against the table of the period (R14, R15). -/
def cutBlocks (n : Nat) (t : Trunk) (o : FrameOutcome) (q : Quality) (x : Ext) : List Waiting :=
  (x.periodRows.toList.filterMap id).filterMap fun tap =>
    if tap.trunk = t then some ⟨tap.owner, tap.role, x.periodGen, cutBlock n o q tap⟩ else none

/-- A block period taken at a trunk port: alignment, quality, the service segment, and the channel blocks. -/
def takeTrunkOutcome (t : Trunk) (o : FrameOutcome) (s : State) : State :=
  let before := portOf s t
  let after := takeOutcome o before
  let fed := feedAssembler t before after o s.svc
  let blocks := cutBlocks s.free t o (blockQuality before after o) s.ext
  let s := setSvc fed.2 (setPort t { after with asm := fed.1 } s)
  drawFree (setExt { s.ext with waiting := s.ext.waiting ++ blocks } s)

/-- TRUNK_FRAME (R2): the port of a trunk takes what stands in its frame window. -/
def execTrunkFrame (t : Trunk) (w : Window) (s : State) : Host.Outcome State Fault Refusal :=
  running s (takeTrunkOutcome t (sortWindow t w))

/-! ### Reverse segments (R163, R165) -/

/-- Set the sent mark of a notice for a trunk. -/
def markSent (t : Trunk) (n : Notice) : Notice :=
  match t with
  | .A => { n with sentA := true }
  | .B => { n with sentB := true }

/-- The oldest pending notice not yet sent on a trunk. -/
def nextNotice (t : Trunk) (q : List Notice) : Option Notice := q.find? (fun n => !sentMark n t)

/-- The queue after that notice has been begun on the trunk: its mark set, and the notice gone when it has now been sent on
every trunk of the setting (R165). At most one pending notice is of its source (R164). -/
def sendNotice (setting : NoticeTrunk) (t : Trunk) (c : Content) (q : List Notice) : List Notice :=
  (q.map (fun n => if n.content = c then markSent t n else n)).filter
    (fun n => !(decide (n.content = c) && fullySent setting n))

/-- The message in course on a trunk when a segment is filled, with what its beginning changes: the one in course, else the
response of the outbox, else a notice when the setting names the trunk and its port is in SYNC (R163, R165). A response may so
leave before RESET(POWER_ON) has, though R168 has idle fill on both trunks until then (notes/assumptions/43.md, DESIGN CHOICE). -/
def beginMessage (t : Trunk) (s : State) : State :=
  let p := portOf s t
  match p.course, p.outbox with
  | some _, _ => s
  | none, some m => setPort t { p with course := some ⟨m, true⟩ } s
  | none, none =>
    if namesTrunk s.pln.activeSettings.noticeTrunk t && p.align == .sync then
      match nextNotice t s.svc.notices with
      | none => s
      | some n =>
        let q := sendNotice s.pln.activeSettings.noticeTrunk t n.content s.svc.notices
        setSvc { s.svc with notices := q } (setPort t { p with course := some ⟨noticeMessage n.content, false⟩ } s)
    else s

/-- The 32 bytes of a reverse segment: the next bytes of the message in course, then the idle fill value 00 (R163). -/
def segmentBytes (c : Option Course) : List Byte :=
  match c with
  | none => List.replicate 32 0
  | some c => c.bytes.take 32 ++ List.replicate (32 - (c.bytes.take 32).length) 0

/-- The port after its message in course has given 32 bytes: when the last byte has left, the course ends, and the outbox
is empty again if it was the response (R162, R163). -/
def advanceCourse (p : Port) : Port :=
  match p.course with
  | none => p
  | some c =>
    if (c.bytes.drop 32).isEmpty then
      { p with course := none, outbox := if c.isResponse then none else p.outbox }
    else { p with course := some { c with bytes := c.bytes.drop 32 } }

/-- Sending of a reverse frame on a trunk (R11). -/
def sendReverse (t : Trunk) (s : State) : State :=
  let s := beginMessage t s
  let p := portOf s t
  let frame := reverseTrunkBytes p.revNumber (segmentBytes p.course)
  setPort t { advanceCourse p with revNumber := (p.revNumber + 1) % 1024, lastReverse := some frame } s

/-- REVERSE_TRUNK_FRAME (R11). -/
def execReverseTrunkFrame (t : Trunk) (s : State) : Host.Outcome State Fault Refusal := running s (sendReverse t)

end Sys2Proof.Machine
end

