-- ==== Sys2Proof/Machine/Dispatch.lean ====
section
/-! DEFINITION. The dispatch: one arm for each command. -/

namespace Sys2Proof.Machine

def exec (i : Instr) (s : State) : Host.Outcome State Fault Refusal :=
  match i with
  | .powerOnReset => Sys2Proof.Machine.execPowerOnReset s
  | .trunkFrame t w => Sys2Proof.Machine.execTrunkFrame t w s
  | .channelBlock e r => Sys2Proof.Machine.execChannelBlock e r s
  | .memoryAccessComplete => Sys2Proof.Machine.execMemoryAccessComplete s
  | .refreshTimerExpiry => Sys2Proof.Machine.execRefreshTimerExpiry s
  | .outputBlockStart => Sys2Proof.Machine.execOutputBlockStart s
  | .outputBlockAssembly => Sys2Proof.Machine.execOutputBlockAssembly s
  | .forwardDriveFrame => Sys2Proof.Machine.execForwardDriveFrame s
  | .reverseDriveFrame w => Sys2Proof.Machine.execReverseDriveFrame w s
  | .referenceLockSample l => Sys2Proof.Machine.execReferenceLockSample l s
  | .biasTimerExpiry => Sys2Proof.Machine.execBiasTimerExpiry s
  | .coolTimerExpiry => Sys2Proof.Machine.execCoolTimerExpiry s
  | .testExpiry e => Sys2Proof.Machine.execTestExpiry e s
  | .reverseTrunkFrame t => Sys2Proof.Machine.execReverseTrunkFrame t s
  | .unknownKind => Sys2Proof.Machine.execUnknownKind s
  | .identify => Sys2Proof.Machine.execIdentify s
  | .restart => Sys2Proof.Machine.execRestart s
  | .putEntry => Sys2Proof.Machine.execPutEntry s
  | .dropEntry => Sys2Proof.Machine.execDropEntry s
  | .putSettings => Sys2Proof.Machine.execPutSettings s
  | .copyActive => Sys2Proof.Machine.execCopyActive s
  | .apply => Sys2Proof.Machine.execApply s
  | .cancel => Sys2Proof.Machine.execCancel s
  | .getEntry => Sys2Proof.Machine.execGetEntry s
  | .getSettings => Sys2Proof.Machine.execGetSettings s
  | .getChannel => Sys2Proof.Machine.execGetChannel s
  | .mute => Sys2Proof.Machine.execMute s
  | .unmute => Sys2Proof.Machine.execUnmute s
  | .forceSource => Sys2Proof.Machine.execForceSource s
  | .clearFaultEntry => Sys2Proof.Machine.execClearFaultEntry s
  | .getTransmit => Sys2Proof.Machine.execGetTransmit s
  | .key => Sys2Proof.Machine.execKey s
  | .unkey => Sys2Proof.Machine.execUnkey s
  | .shutdown => Sys2Proof.Machine.execShutdown s
  | .clearFaultTransmit => Sys2Proof.Machine.execClearFaultTransmit s
  | .setMonitor => Sys2Proof.Machine.execSetMonitor s
  | .getSupervision => Sys2Proof.Machine.execGetSupervision s
  | .testStart => Sys2Proof.Machine.execTestStart s
  | .testStop => Sys2Proof.Machine.execTestStop s
  | .powerOnResetLineLow => Sys2Proof.Machine.execPowerOnResetLineLow s

end Sys2Proof.Machine
end

