-- ==== Sys2Proof/Safety.lean ====
section
/-! DEFINITION. What counts as a safe state: the laws that the spec says each block keeps, in the terms the claims use. -/

namespace Sys2Proof.Safety

open Sys2Proof.Machine

/-- The request queue holds at most 8 requests (R160), the write queue at most 32 writes and the read queue at most 16
reads (Table 5-1, R84, R89). -/
def QueuesBounded (s : State) : Prop :=
  s.svc.queue.length ≤ 8 ∧ s.dst.writes.length ≤ 32 ∧ s.dst.reads.length ≤ 16

/-- The notice queue holds at most one notice per source (R164). -/
def NoticesDistinct (s : State) : Prop := s.svc.notices.Pairwise (fun a b => sameSource a.content b.content = false)

/-- The states in which the station is wanted on the air: the keyed flag stands in these and in no other (R124, R125). -/
def wantsAir : Seq → Bool
  | .biasWait => true
  | .rampUp => true
  | .onAir => true
  | .held => true
  | .offAir => false
  | .rampDown => false
  | .cool => false
  | .tripped => false

/-- What the sequencer keeps (R124 to R132): the keyed flag and the state agree, so that it is false in TRIPPED; bias is on
only with the link UP; ON_AIR drives unattenuated; a trip cause stands exactly in TRIPPED, and the further-faults mark only
there; each timer runs exactly in its state. -/
structure SequencerLaw (x : Txs) : Prop where
  keyed       : x.keyed = wantsAir x.state
  link        : biasOn x.state = true → x.linkUp = true
  fullDrive   : x.state = .onAir → x.atten = 0
  attenuation : x.atten ≤ 300
  cause       : x.cause ≠ .none ↔ x.state = .tripped
  further     : x.further = true → x.state = .tripped
  bias        : x.bias.isSome = true ↔ x.state = .biasWait
  cool        : x.cool.isSome = true ↔ x.state = .cool

/-- The gain of every context, once initialised, lies between -200 and 600 (R75). -/
def GainLaw (s : State) : Prop := ∀ e g, (ctxAt s e).gain = some g → -200 ≤ g ∧ g ≤ 600

/-- A context's shed flag is set only in LIVE, FADE or TEST (R111). -/
def ShedLaw (s : State) : Prop := ∀ e, (ctxAt s e).shed = true → isContributor (ctxAt s e).state = true

/-- The source in use is PRIMARY whenever the entry's alternate is absent (R67). -/
def SourceLaw (s : State) : Prop :=
  ∀ e en, activeAt s e = some en → en.alternate = none → (ctxAt s e).source = .primary

/-- The fill of every line lies between 0 and its capacity (R83). -/
def FillLaw (s : State) : Prop := ∀ e l, lineAt s e = some l → l.fill ≤ 16 * l.pages.length

/-- For a block that has a composite, the composite less the backoff is at or below the effective ceiling (R108). -/
def FiguresLaw (f : Figures) : Prop := ∀ c, f.composite = some c → c - (f.backoff : Int) ≤ f.ceiling

/-! ### The plan (R19, R20, R22, R28, R32, R13) -/

/-- A slot range within the 96 slots (R19). -/
def RangeSound (start width : Nat) : Prop := start ≤ 95 ∧ start + width ≤ 96

/-- An entry as PUT-ENTRY stores it: structurally sound and every numeric field in its range (R19, R20, Table 2-2). -/
structure EntrySound (en : Entry) : Prop where
  width          : 1 ≤ en.width ∧ en.width ≤ 16
  primary        : RangeSound en.primary.start en.width
  alternate      : ∀ a, en.alternate = some a → RangeSound a.start en.width ∧ a ≠ en.primary
  output         : RangeSound en.outStart en.width
  fine           : -125000 ≤ en.fine ∧ en.fine ≤ 125000 ∧ (25 : Int) ∣ en.fine
  target         : -400 ≤ en.target ∧ en.target ≤ 0
  loss           : -900 ≤ en.loss ∧ en.loss ≤ -100
  exponents      : en.attack ≤ 7 ∧ en.decay ≤ 7
  codes          : en.bridgeCode ≤ 7 ∧ en.revertCode ≤ 7
  pages          : en.pages ≤ 32
  primaryDelay   : en.primaryDelay ≤ 16 * en.pages
  alternateDelay : en.alternateDelay ≤ 16 * en.pages ∧ (en.alternate = none → en.alternateDelay = 0)
  priority       : en.priority ≤ 7

/-- Settings as PUT-SETTINGS stores them: every numeric setting in its range, RLtrip at most RLfold (R22, Table 2-3). -/
structure SettingsSound (r : Settings) : Prop where
  ceiling      : -300 ≤ r.ceiling ∧ r.ceiling ≤ 0
  maxBackoff   : r.maxBackoff ≤ 100
  hysteresis   : r.hysteresis ≤ 60
  acquire      : 1 ≤ r.acquire ∧ r.acquire ≤ 1000
  rampStep     : 1 ≤ r.rampStep ∧ r.rampStep ≤ 100
  biasDeadline : 100 ≤ r.biasDeadline ∧ r.biasDeadline ≤ 5000
  coolTime     : r.coolTime ≤ 5000
  refQual      : 100 ≤ r.refQual ∧ r.refQual ≤ 10000
  foldStart    : 60 ≤ r.foldStart ∧ r.foldStart ≤ 300
  foldMax      : r.foldMax ≤ 100
  tripRL       : 30 ≤ r.tripRL ∧ r.tripRL ≤ r.foldStart
  tripCount    : 1 ≤ r.tripCount ∧ r.tripCount ≤ 100
  refresh      : 2 ≤ r.refresh ∧ r.refresh ≤ 15
  tolerance    : 5 ≤ r.tolerance ∧ r.tolerance ≤ 60
  dwell        : 4 ≤ r.dwell ∧ r.dwell ≤ 64

/-- Every entry of a plan is sound. -/
def PlanSound (p : Plan) : Prop := ∀ e en, vget p e = some en → EntrySound en

/-- The entries of a plan fit beside each other: no two output ranges share a slot, at most 24 taps, at most 256 pages
(R28, R32). -/
structure PlanFits (p : Plan) : Prop where
  outputs : ∀ i j a b, i ≠ j → vget p i = some a → vget p j = some b →
    a.outStart + a.width ≤ b.outStart ∨ b.outStart + b.width ≤ a.outStart
  taps    : planTapCount p ≤ 24
  pages   : planPages p ≤ 256

/-- What the plan store and the extractor keep: both copies sound, the active plan fitting, the staged plan fitting while a
switch is armed, and the tap table that of the active plan (R22, R29, R32, R13). -/
structure PlanLaw (s : State) : Prop where
  staged         : PlanSound s.pln.staged
  active         : PlanSound s.pln.active
  stagedSettings : SettingsSound s.pln.stagedSettings
  activeSettings : SettingsSound s.pln.activeSettings
  activeFits     : PlanFits s.pln.active
  armedFits      : s.pln.armed = true → PlanFits s.pln.staged
  taps           : s.ext.rows = buildRows s.pln.active

/-- What the delay store keeps with the plan (R39, R82, R83): the pages an entry owns are as many as its page count, a line
exists exactly for an entry with pages, and its page list holds its pages, each once. -/
structure PagesLaw (s : State) : Prop where
  owned : ∀ e, (s.dst.pageMap.toList.filter (fun o => o == some e)).length = (activeAt s e).elim 0 Entry.pages
  line  : ∀ e, (lineAt s e).isSome = true ↔ ∃ en, activeAt s e = some en ∧ 0 < en.pages
  list  : ∀ e l, lineAt s e = some l → l.pages.Nodup ∧ ∀ p, p ∈ l.pages ↔ s.dst.pageMap[p]? = some (some e)

/-- What the contexts keep with the plan (R42, R67): a context stands in OFF exactly when its position is empty, and one in
OFF, MUTED or TEST holds its loss count at 0 and its expired mark clear. -/
structure PositionLaw (s : State) : Prop where
  off   : ∀ e, (ctxAt s e).state = .off ↔ activeAt s e = none
  quiet : ∀ e, (ctxAt s e).state ≠ .acquire → (ctxAt s e).state ≠ .live → (ctxAt s e).state ≠ .fade →
    (ctxAt s e).loss = 0 ∧ (ctxAt s e).expired = false

/-- A dwell in progress on an entry: its context is in a contributor state with its shed flag clear (R140, R142). -/
def DwellLaw (s : State) : Prop :=
  ∀ d e, s.mon.dwell = some d → d.visited = .entry e → isContributor (ctxAt s e).state = true ∧ (ctxAt s e).shed = false

/-! ### Vocabulary of the claims: bytes on the lanes -/

/-- A frame or a message (R169): its opening pattern, `n` bytes up to its check, and the check of what stands between. -/
structure Framed (b pattern : List Byte) (n : Nat) : Prop where
  length : b.length = n + 2
  opens  : b.take pattern.length = pattern
  check  : b.drop n = checkField ((b.take n).drop pattern.length)

/-- One bit into the register of the check (R169): out goes the highest bit, and where it and the bit that comes in differ, the
terms x^12, x^5 and 1 of the generator are added. -/
def checkBit (c : BitVec 16) (bit : Bool) : BitVec 16 :=
  if (c.msb ^^ bit) = true then (c <<< 1) ^^^ 0x1021#16 else c <<< 1

/-- The register of the check over bytes, bit by bit (R169): preset to all ones, each byte most significant bit first. -/
def checkRegister (bytes : List Byte) : BitVec 16 :=
  (bytes.flatMap fun b => (List.range 8).map fun i => b.getLsbD (7 - i)).foldl checkBit 0xFFFF#16

/-- The four-byte field at an offset, most significant byte first. -/
def u32 (b : List Byte) (i : Nat) : Nat := u16 b i * 65536 + u16 b (i + 2)

/-- The signed two-byte field at an offset holds a level, at the field's limit when the level lies outside it (R171), and
-32768 for an absent one (R170). -/
def LevelField (b : List Byte) (i : Nat) (l : Option Int) : Prop :=
  s16 b i = max (-32768) (min 32767 (l.getD (-32768)))

/-- A byte of flags, bit 0 first; the bits not named are 0. -/
def FlagField (b : List Byte) (i : Nat) (flags : List Bool) : Prop :=
  ∀ k < 8, (byteAt b i).getLsbD k = flags.getD k false

/-- The kind and the body of a notice, field by field (Table 11-7, with the codes of Table 11-8). -/
def NoticeReport (kind : Nat) (b : List Byte) : Content → Prop
  | .channel e st cause src expired shed failovers reason =>
    kind = 0x80 ∧ b.length = 7 ∧ u8 b 0 = e.val ∧ u8 b 1 = st.code ∧ u8 b 2 = causeCode cause ∧ u8 b 3 = sourceCode src ∧
    FlagField b 4 [expired, shed] ∧ u8 b 5 = min 255 failovers ∧ u8 b 6 = reason.code
  | .transmit st keyed further refOk linkUp cause atten foldback =>
    kind = 0x81 ∧ b.length = 6 ∧ u8 b 0 = st.code ∧ FlagField b 1 [keyed, further, refOk, linkUp] ∧ u8 b 2 = cause.code ∧
    u16 b 3 = min 65535 atten ∧ u8 b 5 = min 255 foldback
  | .plan epoch classes taps pages =>
    kind = 0x82 ∧ u16 b 0 = min 65535 epoch ∧ (classes.length = 16 → b.length = 21 ∧
      (∀ (i : Nat) c, classes[i]? = some c → u8 b (2 + i) = c.code) ∧ u8 b 18 = min 255 taps ∧ u16 b 19 = min 65535 pages)
  | .memory overruns lines => kind = 0x83 ∧ b.length = 2 ∧ u8 b 0 = min 255 overruns ∧ u8 b 1 = min 255 lines
  | .reset warm => kind = 0x84 ∧ b.length = 1 ∧ u8 b 0 = if warm = true then 1 else 0

/-! ### Vocabulary of the claims: samples moved by a turn -/

/-- A sample times the unit vector of a turn. -/
def turned (z : Sample) (turn : Nat) : Sample :=
  ⟨z.re * (unitOfTurn turn).re - z.im * (unitOfTurn turn).im, z.re * (unitOfTurn turn).im + z.im * (unitOfTurn turn).re⟩

/-- The sum of samples, component by component. -/
def summed (l : List Sample) : Sample := ⟨(l.map Sample.re).sum, (l.map Sample.im).sum⟩

/-- A placed sample (R113, R114): a sample in parts of `2 ^ 16` of a component, moved to `hz` above the lower band edge by a
carrier of entry `e` that has made its turn at sample `i` of the block, and rounded. -/
def PlacedBy (n : Nat) (e : EntryIx) (hz : Int) (i : Nat) (z x : Sample) : Prop :=
  let m := turned z (turnAt (Config.carrierPhase n e) (Config.bandEdgeHz + hz) i)
  x = ⟨roundMoved (Config.placeRounding n e i).re m.re, roundMoved (Config.placeRounding n e i).im m.im⟩

/-! ### Vocabulary of the claims: requests -/

/-- The oldest item of the request queue is of a kind, with the body length of its kind, and the outbox of its trunk is
empty: SVC executes it (R161). -/
structure Serves (k : Kind) (s : State) (r : Request) (rest : List Request) : Prop where
  released : s.inReset = false
  front    : s.svc.queue = r :: rest
  outbox   : (portOf s r.trunk).outbox = none
  kind     : r.kind.toNat = k.code
  length   : r.body.length = k.bodyLength

/-- The command in which SVC executes a request of a kind. -/
def commandOf : Kind → Instr
  | .identify => .identify
  | .restart => .restart
  | .putEntry => .putEntry
  | .dropEntry => .dropEntry
  | .putSettings => .putSettings
  | .copyActive => .copyActive
  | .apply => .apply
  | .cancel => .cancel
  | .getEntry => .getEntry
  | .getSettings => .getSettings
  | .getChannel => .getChannel
  | .mute => .mute
  | .unmute => .unmute
  | .forceSource => .forceSource
  | .clearFaultEntry => .clearFaultEntry
  | .getTransmit => .getTransmit
  | .key => .key
  | .unkey => .unkey
  | .shutdown => .shutdown
  | .clearFaultTransmit => .clearFaultTransmit
  | .setMonitor => .setMonitor
  | .getSupervision => .getSupervision
  | .testStart => .testStart
  | .testStop => .testStop

/-- The response message to a request (R162, Table 11-4). -/
def responseTo (s : State) (r : Request) (st : Status) (body : List Byte) : List Byte :=
  messageBytes r.tag.toNat r.kind.toNat (field8 st.code ++ field8 s.svc.lost ++ body)

/-- A state once its oldest request has been answered (R159, R161, R162): the item has left the queue, the response stands in
the outbox of its trunk, the lost-request count is 0, and nothing else has changed. -/
def answered (r : Request) (rest : List Request) (st : Status) (body : List Byte) (s : State) : State :=
  setPort r.trunk { portOf s r.trunk with outbox := some (responseTo s r st body) }
    { s with svc := { s.svc with queue := rest, lost := 0 } }

/-- A state with one context replaced and the CHANNEL-CHANGED notice of it posted. -/
def reported (e : EntryIx) (c : Ctx) (reason : Reason) (s : State) : State :=
  { s with
    ctx := vput s.ctx e c
    svc := { s.svc with notices := postNotice (channelContent e c reason) s.svc.notices } }

/-- A state in which a dwell on an entry has ended when that entry's context was a contributor (R142). -/
def dwellLeft (e : EntryIx) (s : State) : State :=
  match s.mon.dwell with
  | some d =>
    if d.visited = .entry e ∧ isContributor (ctxAt s e).state = true then { s with mon := { s.mon with dwell := none } } else s
  | none => s

/-- A state in which the sequencer is replaced and TRANSMIT-CHANGED posted. -/
def sequenced (x : Txs) (s : State) : State :=
  { s with
    txs := x
    svc := { s.svc with notices := postNotice (transmitContent x) s.svc.notices } }

/-- A state in which a dwell in progress has ended because the sequencer leaves ON_AIR (R139). -/
def airLeft (s : State) : State :=
  if s.txs.state = .onAir then { s with mon := { s.mon with dwell := none } } else s

/-- A context's fields that a stay in ACQUIRE, MUTED or TEST starts with: loss count 0, expired mark clear, revert counter 0. -/
def settled (c : Ctx) : Ctx := { c with loss := 0, expired := false, revert := 0 }

/-! ### Vocabulary of the claims: the plan -/

/-- The entry that PUT-ENTRY stores for an entry sent (R20): every numeric field in its range, unchanged where it already
was; the fine offset the multiple of 25 nearest to the clamped one; the delays clamped to the capacity of the stored pages. -/
structure StoredFrom (sent en : Entry) : Prop where
  structural     : en.primary = sent.primary ∧ en.alternate = sent.alternate ∧ en.width = sent.width ∧
    en.outStart = sent.outStart ∧ en.expiry = sent.expiry ∧ en.revert = sent.revert
  fine           : (25 : Int) ∣ en.fine ∧ 2 * (en.fine - max (-125000) (min 125000 sent.fine)).natAbs ≤ 25
  target         : en.target = max (-400) (min 0 sent.target)
  loss           : en.loss = max (-900) (min (-100) sent.loss)
  exponents      : en.attack = min 7 sent.attack ∧ en.decay = min 7 sent.decay
  codes          : en.bridgeCode = min 7 sent.bridgeCode ∧ en.revertCode = min 7 sent.revertCode
  pages          : en.pages = min 32 sent.pages
  primaryDelay   : en.primaryDelay = min (16 * en.pages) sent.primaryDelay
  alternateDelay : en.alternateDelay = min (16 * en.pages) sent.alternateDelay
  priority       : en.priority = min 7 sent.priority

/-- A clamp changes a value of an entry sent (R20); the rounding of the fine offset is no clamp. -/
def ClampedFrom (sent en : Entry) : Prop :=
  sent.fine < -125000 ∨ 125000 < sent.fine ∨ en.target ≠ sent.target ∨ en.loss ≠ sent.loss ∨ en.attack ≠ sent.attack ∨
  en.decay ≠ sent.decay ∨ en.bridgeCode ≠ sent.bridgeCode ∨ en.revertCode ≠ sent.revertCode ∨ en.pages ≠ sent.pages ∨
  en.primaryDelay ≠ sent.primaryDelay ∨ en.alternateDelay ≠ sent.alternateDelay ∨ en.priority ≠ sent.priority

/-- The settings that PUT-SETTINGS stores for settings sent (R22): every numeric setting in its range of Table 2-3, RLtrip
in 30 to the RLfold stored. -/
structure SettingsFrom (sent r : Settings) : Prop where
  listed       : r.testEnd = sent.testEnd ∧ r.testStops = sent.testStops ∧ r.noticeTrunk = sent.noticeTrunk
  ceiling      : r.ceiling = max (-300) (min 0 sent.ceiling)
  maxBackoff   : r.maxBackoff = min 100 sent.maxBackoff
  hysteresis   : r.hysteresis = min 60 sent.hysteresis
  acquire      : r.acquire = max 1 (min 1000 sent.acquire)
  rampStep     : r.rampStep = max 1 (min 100 sent.rampStep)
  biasDeadline : r.biasDeadline = max 100 (min 5000 sent.biasDeadline)
  coolTime     : r.coolTime = min 5000 sent.coolTime
  refQual      : r.refQual = max 100 (min 10000 sent.refQual)
  foldStart    : r.foldStart = max 60 (min 300 sent.foldStart)
  foldMax      : r.foldMax = min 100 sent.foldMax
  tripRL       : r.tripRL = max 30 (min r.foldStart sent.tripRL)
  tripCount    : r.tripCount = max 1 (min 100 sent.tripCount)
  refresh      : r.refresh = max 2 (min 15 sent.refresh)
  tolerance    : r.tolerance = max 5 (min 60 sent.tolerance)
  dwell        : r.dwell = max 4 (min 64 sent.dwell)

/-- Two positions of a plan hold entries whose output ranges share a slot. -/
def Overlap (p : Plan) (i j : EntryIx) : Prop :=
  ∃ a b, vget p i = some a ∧ vget p j = some b ∧ a.outStart < b.outStart + b.width ∧ b.outStart < a.outStart + a.width

/-- A pair of positions is the first that overlaps: the lower entry least, then the higher one (Table 2-7). -/
def FirstOverlap (p : Plan) (i j : EntryIx) : Prop :=
  i < j ∧ Overlap p i j ∧ ∀ k l, k < l → Overlap p k l → i < k ∨ (i = k ∧ j ≤ l)

/-- The path fields in which two entries agree (R33). -/
def SamePath (a b : Entry) : Prop :=
  a.primary = b.primary ∧ a.alternate = b.alternate ∧ a.width = b.width ∧ a.pages = b.pages ∧
  a.primaryDelay = b.primaryDelay ∧ a.alternateDelay = b.alternateDelay

/-- A position keeps its channel at a switch (R37): it holds an entry before and after, with the same path fields. -/
def Keeps (before after : Option Entry) : Prop := ∃ a b, before = some a ∧ after = some b ∧ SamePath a b

/-- The class of a position at a switch (Table 2-8). -/
def ClassIs (before after : Option Entry) : PosClass → Prop
  | .empty => before = none ∧ after = none
  | .removed => before ≠ none ∧ after = none
  | .added => before = none ∧ after ≠ none
  | .pathChange => ∃ a b, before = some a ∧ after = some b ∧ ¬SamePath a b
  | .tuning => ∃ a b, before = some a ∧ after = some b ∧ SamePath a b ∧ a ≠ b
  | .unchanged => ∃ a, before = some a ∧ after = some a

/-! ### Vocabulary of the claims: the sequencer -/

/-- The sequencer after a trip with a cause (R132). -/
def trippedTxs (cause : Trip) (x : Txs) : Txs :=
  { x with
    state := .tripped, cause := cause, keyed := false, atten := 300, foldback := 0, tripCount := 0, lastRL := none,
    bias := none, cool := none }

/-- A trip has been taken from a sequencer `x` (R132, R137, R139, R155): TRIPPED with its cause, TRANSMIT-CHANGED posted, a
dwell ended when the sequencer was in ON_AIR, or when the test on its entry ends (R142); with test stops on trip, every
context in TEST back in ACQUIRE without its done flag and reported with reason TEST, else every context as it was. Nothing
else has changed. -/
structure TripTo (cause : Trip) (x : Txs) (s t : State) : Prop where
  txs      : t.txs = trippedTxs cause x
  notice   : ⟨transmitContent t.txs, false, false⟩ ∈ t.svc.notices
  dwell    : s.txs.state = .onAir → t.mon.dwell = none
  monitor  : { t.mon with dwell := s.mon.dwell } = s.mon
  tested   : ∀ d e, s.mon.dwell = some d → d.visited = .entry e → s.pln.activeSettings.testStops = true →
    (∃ n l, (ctxAt s e).state = .test n l) → t.mon.dwell = none
  untested : s.txs.state ≠ .onAir → (∀ d e, s.mon.dwell = some d → d.visited = .entry e →
    s.pln.activeSettings.testStops = false ∨ ∀ n l, (ctxAt s e).state ≠ .test n l) → t.mon = s.mon
  stopped  : ∀ e, s.pln.activeSettings.testStops = true → (∃ n l, (ctxAt s e).state = .test n l) →
    ctxAt t e = { settled (ctxAt s e) with state := .acquire, shed := false } ∧
    ⟨channelContent e (ctxAt t e) .test, false, false⟩ ∈ t.svc.notices
  others   : ∀ e, s.pln.activeSettings.testStops = false ∨ (∀ n l, (ctxAt s e).state ≠ .test n l) →
    ctxAt t e = ctxAt s e
  frame    : t.rtA = s.rtA ∧ t.rtB = s.rtB ∧ t.ext = s.ext ∧ t.pln = s.pln ∧ t.dst = s.dst ∧ t.cmb = s.cmb ∧
    t.svc.queue = s.svc.queue ∧ t.svc.lost = s.svc.lost ∧ t.pending = s.pending ∧ t.inReset = s.inReset ∧ t.free = s.free

/-- A further fault found in TRIPPED (R133): the mark set and reported, the cause kept; with the mark already set, nothing. -/
def furthered (x : Txs) (s : State) : State :=
  if x.further = true then { s with txs := x } else sequenced { x with further := true } s

/-- The sequencer once it has entered COOL, or with a cool time of 0 OFF_AIR (R128). -/
def cooled (coolTime : Nat) (x : Txs) : Txs :=
  if coolTime = 0 then
    { x with state := .offAir, atten := 300, bias := none, cool := none, foldback := 0, tripCount := 0, lastRL := none }
  else { x with state := .cool, atten := 300, bias := none, cool := some coolTime }

/-- The sequencer in RAMP_UP with A at 300, or in HELD, both timers stopped, as ref_ok says (R124, R126). -/
def readied (x : Txs) : Txs :=
  { x with state := if x.refOk = true then .rampUp else .held, atten := 300, bias := none, cool := none }

/-- What stands in the reverse frame window is a valid frame with these readings (R121, R122, Table 11-3). -/
def ValidFrame (w : Window) (p r : Int) (ready alarm : Bool) : Prop :=
  ∃ b, w = some b ∧ b.take 4 = driveSync ∧ checkMatches b 9 = true ∧
    p = max (-600) (min 30 (s16 b 4)) ∧ r = max (-600) (min 30 (s16 b 6)) ∧
    ready = (byteAt b 8).getLsbD 0 ∧ alarm = (byteAt b 8).getLsbD 1

/-- What stands in the reverse frame window is no valid frame (R121). -/
def InvalidFrame (w : Window) : Prop :=
  ∀ b, w = some b → b.take 4 ≠ driveSync ∨ checkMatches b 9 = false

/-- The sequencer that holds the readings of a valid frame (R121, R122 stage 1). -/
def held (p r : Int) (ready alarm : Bool) (x : Txs) : Txs :=
  { x with fwd := p, refl := r, paReady := ready, paAlarm := alarm, invalid := 0, linkUp := true }

/-- The sequencer after an evaluated reading (R130, R131). -/
def judged (set : Settings) (x : Txs) : Txs :=
  { x with
    lastRL := some (x.fwd - x.refl)
    foldback := (max 0 (min (set.foldMax : Int) (2 * (set.foldStart - (x.fwd - x.refl))))).toNat
    tripCount := if x.fwd - x.refl < set.tripRL then min 100 (x.tripCount + 1) else 0 }

/-! ### Vocabulary of the claims: the monitor -/

/-- What MON hears with a forward frame: the samples and applied levels formed for it in a driving state, zeros and no applied
levels otherwise (R120, R139). -/
def heardWith (s : State) : Drive :=
  match s.txs.toSend with
  | some d => if driving s.txs.state = true then d else ⟨silence 48000, []⟩
  | none => ⟨silence 48000, []⟩

/-- A forward frame is measured (R139). -/
def Measured (s : State) : Prop := s.mon.mode ≠ .off ∧ s.txs.state = .onAir

/-- An entry may be visited in a frame (R140). -/
def Visitable (s : State) (e : EntryIx) : Prop :=
  (∃ a ∈ (heardWith s).applied, a.entry = e) ∧ isContributor (ctxAt s e).state = true ∧ (ctxAt s e).shed = false

/-- The entry that SCAN visits next (R140): the first that may be visited, looked for from the scan position plus one, wrapping,
and ending with the scan position. -/
def ScanVisits (s : State) (e : EntryIx) : Prop :=
  ∃ k : EntryIx, e = s.mon.scanPos + 1 + k ∧ Visitable s e ∧ ∀ j < k, ¬Visitable s (s.mon.scanPos + 1 + j)

/-- The findings of Table 8-2 on a context: strike count, LOW_OUTPUT mark, and whether the over-level mute request is sent. -/
def FindingIs (m x : Int) (tolerance : Nat) (c : Ctx) (strikes : Nat) (low mutes : Prop) : Prop :=
  (x + tolerance < m → ¬low ∧ (c.strikes + 1 < 3 → strikes = c.strikes + 1 ∧ ¬mutes) ∧
    (3 ≤ c.strikes + 1 → strikes = 0 ∧ mutes)) ∧
  (m < x - tolerance → strikes = 0 ∧ low ∧ ¬mutes) ∧
  (x - tolerance ≤ m → m ≤ x + tolerance → strikes = 0 ∧ ¬low ∧ ¬mutes)

/-! ### Vocabulary of the claims: channel blocks -/

/-- The oldest block of a role that waits for an entry is `w`, with `before` older and `after` younger blocks. -/
structure Waits (e : EntryIx) (r : Source) (s : State) (before : List Waiting) (w : Waiting) (after : List Waiting) :
    Prop where
  released : s.inReset = false
  waiting  : s.ext.waiting = before ++ w :: after
  oldest   : ∀ x ∈ before, ¬(x.owner = e ∧ x.role = r)
  owner    : w.owner = e
  role     : w.role = r

/-- The context takes the block: it is not in OFF, its position holds an entry, and no switch has added or path-changed the
position since the block's tap table stood (R44). -/
structure Takes (e : EntryIx) (r : Source) (s : State) (before : List Waiting) (w : Waiting) (after : List Waiting)
    (en : Entry) : Prop extends Waits e r s before w after where
  entry   : activeAt s e = some en
  running : (ctxAt s e).state ≠ .off
  fresh   : vget s.ext.since e ≤ w.gen

/-- What taking a block of an entry never touches. Contexts and lines of the other entries, the plan, the sequencer, the
ports, the requests, the DRAM and the page map stand, and of EXT only the block taken has gone. CMB keeps its counts, figures
and held records, and of the output block in course everything but the answer of this entry's read. MON keeps everything, but
for a dwell on this entry, which ends exactly when its context leaves the contributor states (R142). DST keeps its counts and
timer, the gap counts and queued accesses of the other entries, and every gap mark but that of the record position at which
this entry's line stands; a pending refresh can change only at an idle port (R92). Of the notices only the one of this entry
can be posted. -/
structure BlockFrame (e : EntryIx) (s : State) (before after : List Waiting) (t : State) : Prop where
  ext       : t.ext = { s.ext with waiting := before ++ after }
  contexts  : ∀ f, f ≠ e → ctxAt t f = ctxAt s f
  lines     : ∀ f, f ≠ e → lineAt t f = lineAt s f
  plan      : t.pln = s.pln
  txs       : t.txs = s.txs
  ports     : t.rtA = s.rtA ∧ t.rtB = s.rtB
  requests  : t.svc.queue = s.svc.queue ∧ t.svc.lost = s.svc.lost
  notices   : t.svc.notices = s.svc.notices ∨
    ∃ reason, t.svc.notices = postNotice (channelContent e (ctxAt t e) reason) s.svc.notices
  memory    : t.dst.dram = s.dst.dram ∧ t.dst.pageMap = s.dst.pageMap
  gapMarks  : ∀ a, (a ∈ s.dst.gapMarks → a ∈ t.dst.gapMarks) ∧
    (a ∈ t.dst.gapMarks → a ∈ s.dst.gapMarks ∨ ∃ l, lineAt s e = some l ∧ a = lineCell l l.writePos)
  gapCounts : ∀ f, f ≠ e → vget t.dst.gapCounts f = vget s.dst.gapCounts f
  writes    : t.dst.writes.filter (fun w => w.entry != e) = s.dst.writes.filter (fun w => w.entry != e)
  reads     : t.dst.reads.filter (fun x => x.entry != e) = s.dst.reads.filter (fun x => x.entry != e)
  refresh   : t.dst.refreshPeriod = s.dst.refreshPeriod ∧ t.dst.overruns = s.dst.overruns ∧
    (s.dst.port ≠ .idle → t.dst.refreshPending = s.dst.refreshPending)
  counts    : t.cmb.counter = s.cmb.counter ∧ t.cmb.epochs = s.cmb.epochs ∧ t.cmb.late = s.cmb.late ∧
    t.cmb.figures = s.cmb.figures ∧ t.cmb.excess = s.cmb.excess ∧ t.cmb.clips = s.cmb.clips
  records   : t.cmb.held = s.cmb.held ∧ ∀ f, f ≠ e → vget t.cmb.next f = vget s.cmb.next f
  course    : (s.cmb.course = none → t.cmb.course = none) ∧ ∀ o, s.cmb.course = some o → ∃ answers : Vector Answer 16,
    t.cmb.course = some { o with answers := answers } ∧ ∀ f, f ≠ e → vget answers f = vget o.answers f
  monitor   : t.mon = if isContributor (ctxAt t e).state = true then s.mon else (dwellLeft e s).mon
  model     : t.pending = s.pending ∧ t.inReset = s.inReset ∧ t.free = s.free

/-- A block is good (R45). -/
def GoodBlock (en : Entry) (b : ChannelBlock) : Prop := b.quality = .good ∧ ∃ l, b.level = some l ∧ en.loss ≤ l

/-- A source of a context is READY (3.1): its readiness counter stands at Q. -/
def Ready (s : State) (c : Ctx) : Source → Prop
  | .primary => c.readyP = s.pln.activeSettings.acquire
  | .alternate => c.readyA = s.pln.activeSettings.acquire

/-- The context `c` with the readiness of a source stepped by a block (R46). -/
def Stepped (q : Nat) (r : Source) (good : Prop) (c d : Ctx) : Prop :=
  (r = .primary → d.readyA = c.readyA ∧ (good → d.readyP = min q (c.readyP + 1)) ∧ (¬good → d.readyP = 0)) ∧
  (r = .alternate → d.readyP = c.readyP ∧ (good → d.readyA = min q (c.readyA + 1)) ∧ (¬good → d.readyA = 0))

/-- The record that the loop makes of a block of the source in use, under the gain `g` as the evaluation leaves it (R77 to R80,
Table 4-6): scaled by the gain, or limited by minus the input level where the output level would be above 0; silence without a
level for a block that is IMPAIRED or ABSENT, and for one bad by level while the gain is uninitialised. An output level below
-900 stands as it is formed (notes/assumptions/40.md). -/
structure RecordOf (b : ChannelBlock) (g : Option Int) (r : BlockRecord) : Prop where
  scaled  : ∀ l x, b.quality = .good → b.level = some l → g = some x → l + x ≤ 0 →
    r = ⟨scaleSamples x b.samples, some (l + x), .data⟩
  limited : ∀ l x, b.quality = .good → b.level = some l → g = some x → 0 < l + x →
    r = ⟨scaleSamples (-l) b.samples, some 0, .data⟩
  unset   : b.quality = .good → g = none → r = ⟨silence b.samples.length, none, .data⟩
  absent  : b.quality ≠ .good → r = ⟨silence b.samples.length, none, .data⟩

/-- The step from a gain by a difference and a divisor (R74): the quotient truncated toward zero, or one in the direction of
the difference when that is 0. -/
def StepIs (delta : Int) (divisor : Nat) (step : Int) : Prop :=
  (divisor ≤ delta.natAbs → step.natAbs = delta.natAbs / divisor ∧ (0 < delta ↔ 0 < step)) ∧
  (delta.natAbs < divisor → step = Int.sign delta)

/-- The gain that an evaluation at the input level `l` leaves (R71 to R74): the desired gain, or one step toward it. -/
def GainAfter (en : Entry) (l : Int) (old : Option Int) (new : Int) : Prop :=
  let d := max (-200) (min 600 (en.target - l))
  (old = none → new = d) ∧ ∀ g, old = some g → -200 ≤ g → g ≤ 600 →
    ∃ step, new = g + step ∧ StepIs (d - g) (if d < g then 2 ^ en.attack else 2 ^ en.decay) step

/-- The last output level and the clip counter after a block of input level `l` under the gain `g` (R77, R78). -/
def LevelsAre (l g : Int) (c d : Ctx) : Prop :=
  (l + g ≤ 0 → d.lastOut = some (l + g) ∧ d.clips = c.clips) ∧
  (0 < l + g → d.lastOut = some 0 ∧ d.clips = min 65535 (c.clips + 1))

/-- A flush has emptied a line (R87): its fill is 0, no record is held, the write position stands, and neither queue holds
anything of it. -/
def Flushed (e : EntryIx) (s t : State) : Prop :=
  lineAt t e = (lineAt s e).map lineFlush ∧ (lineAt s e ≠ none →
    (∀ w ∈ t.dst.writes, w.entry ≠ e) ∧ ∀ x ∈ t.dst.reads, x.entry ≠ e)

/-- CHANNEL-CHANGED for an entry is pending with the context as it stands and a reason, due on every trunk (R66, R164). -/
def Notified (e : EntryIx) (reason : Reason) (t : State) : Prop :=
  ⟨channelContent e (ctxAt t e) reason, false, false⟩ ∈ t.svc.notices

/-- A source switch has been made (R53): the other source in use, ACQUIRE, counts and mark clear, the gain uninitialised, the
line flushed, the read that the output block in course has of the old source, if any, answered with nothing (R102),
CHANNEL-CHANGED posted with the reason, the failover counter stepped for a failover, a dwell on the entry ended when its
context was a contributor, and MON otherwise as it was (R142). -/
def SwitchedOver (e : EntryIx) (isFailover : Prop) (reason : Reason) (s t : State) : Prop :=
  (ctxAt t e).source = (ctxAt s e).source.other ∧ (ctxAt t e).state = .acquire ∧ (ctxAt t e).loss = 0 ∧
  (ctxAt t e).expired = false ∧ (ctxAt t e).revert = 0 ∧ (ctxAt t e).gain = none ∧
  (isFailover → (ctxAt t e).failovers = min 255 ((ctxAt s e).failovers + 1)) ∧
  (¬isFailover → (ctxAt t e).failovers = (ctxAt s e).failovers) ∧
  Flushed e s t ∧ Notified e reason t ∧ t.mon = (dwellLeft e s).mon ∧
  ∀ o, s.cmb.course = some o → ∃ answers : Vector Answer 16, t.cmb.course = some { o with answers := answers } ∧
    (∀ f, f ≠ e → vget answers f = vget o.answers f) ∧
    (vget answers e = .nothing ∨ vget answers e = .unread ∧ vget o.answers e = .unread)

/-! ### Vocabulary of the claims: trunk ports -/

/-- Alignment state, reference number, confirm count and failure count after a block period's outcome, row by row as
R3, R4 and R5 give them. -/
def alignmentAfter (p : Port) (o : FrameOutcome) : Align × Option Nat × Nat × Nat :=
  let expected := some (expectedNumber p)
  match p.align, o with
  | .hunt, .good f => (.confirm, some f.number, 0, p.failures)
  | .hunt, _ => (.hunt, p.reference, p.confirm, p.failures)
  | .confirm, .good f =>
    if some f.number ≠ expected then (.hunt, none, 0, p.failures)
    else if p.confirm = 0 then (.confirm, some f.number, 1, p.failures)
    else (.sync, some f.number, 0, p.failures)
  | .confirm, _ => (.hunt, none, 0, p.failures)
  | .sync, .good f => (.sync, some f.number, p.confirm, p.failures)
  | .sync, .damaged => (.sync, expected, p.confirm, p.failures)
  | .sync, _ => (.flywheel, expected, p.confirm, 1)
  | .flywheel, .good f => (.sync, some f.number, p.confirm, 0)
  | .flywheel, .damaged => (.flywheel, expected, p.confirm, p.failures)
  | .flywheel, _ =>
    if p.failures + 1 < 4 then (.flywheel, expected, p.confirm, p.failures + 1) else (.hunt, none, p.confirm, 0)

/-- Is an outcome a slip at a port (R6): a good frame, taken in SYNC or FLYWHEEL, of another number than expected? -/
def Slips (p : Port) (o : FrameOutcome) : Prop :=
  ∃ f, o = .good f ∧ (p.align = .sync ∨ p.align = .flywheel) ∧ f.number ≠ expectedNumber p

/-- The quality of a block period of a trunk (Table 1-4), from the port before it, its outcome, and the alignment after it. -/
def QualityIs (before : Port) (o : FrameOutcome) (after : Align) : Quality → Prop
  | .absent => after ≠ .sync
  | .impaired => after = .sync ∧
    ¬(∃ f, o = .good f ∧ ¬Slips before o ∧ f.overload = false ∧ f.alarm = false)
  | .good => after = .sync ∧ ∃ f, o = .good f ∧ ¬Slips before o ∧ f.overload = false ∧ f.alarm = false

/-- The taps of a trunk in the tap table of the block period, in row order (R14). -/
def tapsOf (t : Trunk) (x : Ext) : List Tap := (x.periodRows.toList.filterMap id).filter (fun tap => tap.trunk == t)

/-- A block cut by a tap in a block period of a quality (R15, R16): for the tap's owner and role, 500 samples a slot, silence
without a level unless the quality is GOOD, then with the level measured from its own samples. -/
def CutBy (gen : Nat) (q : Quality) (tap : Tap) (w : Waiting) : Prop :=
  w.owner = tap.owner ∧ w.role = tap.role ∧ w.gen = gen ∧ w.block.quality = q ∧
  w.block.samples.length = 500 * tap.width ∧
  (q ≠ .good → w.block.samples = silence (500 * tap.width) ∧ w.block.level = none) ∧
  (q = .good → w.block.level = some (levelOfSamples w.block.samples))

/-- What a segment lost indication does (R158). -/
def afterLoss (a : Assembler) (v : Svc) : Assembler × Svc :=
  if a.phase = .search then (a, v) else (searching, { v with lost := min 255 (v.lost + 1) })

/-- The check of a received trunk frame holds (R2, R169, Table 11-1): the frame has its 192042 bytes (notes/assumptions/22.md),
and its last two are the check of everything between the sync pattern and them. -/
def TrunkCheckHolds (b : List Byte) : Prop :=
  b.length = 192042 ∧ b.drop 192040 = checkField ((b.take 192040).drop 4)

/-- What a good frame brings, read at the offsets of Table 11-1. -/
structure FrameRead (b : List Byte) (f : TrunkFrame) : Prop where
  number  : f.number = (u8 b 5 * 256 + u8 b 6) % 1024
  flags   : f.overload = (byteAt b 7).getLsbD 0 ∧ f.alarm = (byteAt b 7).getLsbD 1
  samples : f.band.length = 48000 ∧ ∀ k < 48000, f.band[k]? = some ⟨s16 b (8 + 4 * k), s16 b (10 + 4 * k)⟩
  segment : f.segment = (b.drop 192008).take 32

/-- The message whose bytes a reverse segment carries: the rest of the one in course, else the response in the outbox, else
the oldest notice due on the trunk when the trunk may send one (R163, R165); nothing stands for idle fill. -/
def messageDue (t : Trunk) (s : State) : List Byte :=
  match (portOf s t).course, (portOf s t).outbox with
  | some c, _ => c.bytes
  | none, some m => m
  | none, none =>
    if namesTrunk s.pln.activeSettings.noticeTrunk t = true ∧ (portOf s t).align = .sync then
      match s.svc.notices.find? (fun n => !sentMark n t) with
      | some n => noticeMessage n.content
      | none => []
    else []

/-- The notice queue once a reverse frame has been filled (R163, R165): the oldest notice due on the trunk, when it is the one
that begins, has its sent mark set, and has left the queue when it has now been sent on every trunk of the setting. -/
def noticesAfter (t : Trunk) (s : State) : List Notice :=
  match (portOf s t).course, (portOf s t).outbox with
  | none, none =>
    if namesTrunk s.pln.activeSettings.noticeTrunk t = true ∧ (portOf s t).align = .sync then
      match s.svc.notices.find? (fun n => !sentMark n t) with
      | some n => sendNotice s.pln.activeSettings.noticeTrunk t n.content s.svc.notices
      | none => s.svc.notices
    else s.svc.notices
  | _, _ => s.svc.notices

/-- Bytes cut to a segment of 32, the rest of it idle fill 00 (R163, Table 11-2). -/
def padded (bytes : List Byte) : List Byte := bytes.take 32 ++ List.replicate (32 - bytes.length) 0

/-! ### Vocabulary of the claims: the delay store -/

/-- What the arbiter grants a free port, and whether the refresh request stays pending (R92, Table 5-4). -/
def Granted (refreshPending : Bool) (d : Dst) : Prop :=
  d.refreshPending = false ∧
  (refreshPending = true → d.port = .refresh) ∧
  (refreshPending = false → d.reads ≠ [] → d.port = .read) ∧
  (refreshPending = false → d.reads = [] → d.writes ≠ [] → d.port = .write) ∧
  (refreshPending = false → d.reads = [] → d.writes = [] → d.port = .idle)

/-- A line after a record has been accepted into it (R84): the write position one further, modulo the capacity. -/
def Advanced (l m : Line) : Prop :=
  m.pages = l.pages ∧ m.writePos = (if l.writePos + 1 < 16 * l.pages.length then l.writePos + 1 else 0) ∧
  m.accepted = min (16 * l.pages.length) (l.accepted + 1)

/-- The read that CMB queues for a position at the start of a block period (R88): entry, line and delay, when the context is in
LIVE, FADE or TEST and the entry has pages. -/
def ReadFor (s : State) (e : EntryIx) (en : Entry) (l : Line) : Prop :=
  activeAt s e = some en ∧ lineAt s e = some l ∧ isContributor (ctxAt s e).state = true ∧ 0 < en.pages

/-- The record position a read names (R88): at the distance of the delay of the source in use, or 1 when that is 0. -/
def readCell (s : State) (e : EntryIx) (en : Entry) (l : Line) : Nat :=
  lineCell l (linePosition l (max 1 (entryDelay en (ctxAt s e).source)))

/-- A read goes to the DRAM (R89): the line holds the record at the read's distance, no write of it is queued, and no gap mark
stands at its position. -/
def GoesToDram (s : State) (e : EntryIx) (en : Entry) (l : Line) : Prop :=
  entryDelay en (ctxAt s e).source ≤ l.fill ∧ max 1 (entryDelay en (ctxAt s e).source) ≤ l.accepted ∧
  (∀ w ∈ s.dst.writes, w.cell ≠ readCell s e en l) ∧ readCell s e en l ∉ s.dst.gapMarks

/-- The level of a position in the output block that is assembled (R104, R105, Table 6-2): none outside the contributor
states, the test level in TEST unless the read is late, else the level of the record, none for a late read; none at all in an
output block that began before a warm restart (R99). -/
def levelAt (o : OutBlock) (s : State) (e : EntryIx) : Option Int :=
  if o.restarted = true then none else
  match activeAt s e, (ctxAt s e).state with
  | some _, .test _ level => if vget o.answers e = .waiting ∨ vget o.answers e = .late then none else some level
  | some en, .live => recorded en
  | some en, .fade => recorded en
  | _, _ => none
where
  /-- The level of the record that the position plays out. -/
  recorded (en : Entry) : Option Int :=
    if en.pages = 0 then (vget s.cmb.held e).bind BlockRecord.lout
    else
      match vget o.answers e with
      | .data r => r.lout
      | _ => none

/-- The positions that have a level in the output block that is assembled and whose shed flag stands as given, in entry order,
with their levels and priorities (R104). -/
def sharesAt (o : OutBlock) (s : State) (flag : Bool) : List Share :=
  entries.filterMap fun e =>
    match activeAt s e, levelAt o s e with
    | some en, some l => if (ctxAt s e).shed = flag then some ⟨e, l, en.priority⟩ else none
    | _, _ => none

/-- The power budget of the output block that is assembled (R107 to R112). -/
def budgetAt (o : OutBlock) (s : State) : Budget :=
  budget (s.pln.activeSettings.ceiling - o.foldback) s.pln.activeSettings.maxBackoff s.pln.activeSettings.hysteresis
    (sharesAt o s false) (sharesAt o s true)

/-- The completion of an output block makes a plan switch (R31, R99, R101). -/
def Switches (o : OutBlock) (s : State) : Prop := o.restarted = false ∧ o.number = 0 ∧ s.pln.armed = true

/-- The record that a position plays out in the output block that is assembled, if any: the held undelayed record without
pages, else the record that its read brought back (R103, R104, Table 6-2). -/
def recordAt (o : OutBlock) (s : State) (e : EntryIx) (en : Entry) : Option BlockRecord :=
  if en.pages = 0 then vget s.cmb.held e
  else
    match vget o.answers e with
    | .data r => some r
    | _ => none

/-- A contributor's samples in the output band: its test tone in TEST, else the samples of the record it plays out, placed
(R104, R113, R114). -/
def placedAt (o : OutBlock) (s : State) (e : EntryIx) : List Sample :=
  match activeAt s e with
  | none => silence 48000
  | some en =>
    match (ctxAt s e).state, recordAt o s e en with
    | .test _ level, _ => placeOffer s.free e en (ctxAt s e).source (.tone level)
    | _, some r => placeOffer s.free e en (ctxAt s e).source (.samples (r.lout.getD 0) r.samples)
    | _, none => silence 48000

/-- The summed band of the output block that is assembled (R115, R116): sample by sample the placed samples of its contributors,
each turned down by the backoff. -/
def bandAt (o : OutBlock) (s : State) : List Sample :=
  (List.range 48000).map fun i =>
    let parts := (budgetAt o s).contributors.map fun c =>
      scaleSample (-((budgetAt o s).backoff : Int)) ((placedAt o s c.entry).getD i ⟨0, 0⟩)
    ⟨(parts.map Sample.re).sum, (parts.map Sample.im).sum⟩

/-- The sample clip count after an assembly (R117): one more exactly when a sample of the summed band lies above full scale. -/
def Clipped (o : OutBlock) (s u : State) : Prop :=
  u.cmb.clips =
    if (bandAt o s).any (fun z => decide (32767 ^ 2 < samplePower z)) = true then min 4294967295 (s.cmb.clips + 1) else s.cmb.clips

/-- What TXS forms of the output block that is assembled, once the sequencer's step has left it as `x` (R115 to R117, R120): zeros
and no applied levels in a silent state; else the summed band, clamped and then attenuated by A, and every contributor of the
budget at its level less backoff and attenuation, with its output range; zeros where there is no contributor. -/
structure DriveFormed (o : OutBlock) (s : State) (x : Txs) (d : Drive) : Prop where
  silent : driving x.state = false → d = ⟨silence 48000, []⟩
  driven : driving x.state = true → d.samples = scaleSamples (-(x.atten : Int)) ((bandAt o s).map clampSample) ∧
    d.samples.length = 48000 ∧ List.Forall₂ (fun (c : Share) (a : Applied) => a.entry = c.entry ∧
      a.level = c.level - ((budgetAt o s).backoff : Int) - (x.atten : Int) ∧
      ∀ en, activeAt s c.entry = some en → a.start = en.outStart ∧ a.width = en.width) (budgetAt o s).contributors d.applied
  empty  : (budgetAt o s).contributors = [] → d.samples = silence 48000

/-- The assembly of an output block sheds a context (R109). -/
def NewlyShed (o : OutBlock) (s : State) (e : EntryIx) : Prop := ∃ x ∈ (budgetAt o s).newlyShed, x.entry = e

/-- A share is shed before another (R109): a lower priority, or the same and a higher entry number. -/
def ShedBefore (a b : Share) : Prop := a.priority < b.priority ∨ a.priority = b.priority ∧ b.entry < a.entry

/-- A share is the first of some to be restored (R112): of the highest priority, and of those the lowest entry number. -/
def FirstToRestore (l : List Share) (a : Share) : Prop :=
  a ∈ l ∧ ∀ b ∈ l, b.priority < a.priority ∨ b.priority = a.priority ∧ a.entry ≤ b.entry

/-- The composite of a set of levels by R106, however they are ordered: the strongest first, each further one adding the
correction of Table 6-3. -/
inductive CompositeIs : List Int → Int → Prop where
  | one (a : Int) : CompositeIs [a] a
  | more (l : List Int) (b total : Int) : CompositeIs l total → (∀ a ∈ l, b ≤ a) →
      CompositeIs (l ++ [b]) (total + logSum ((total - b) / 10).toNat)

/-! ### Vocabulary of the claims: the plan switch -/

/-- A position's channel ends at the switch: it is removed, or its path changes (R34, R36). -/
def EndsAt (s : State) (e : EntryIx) : Prop :=
  vget s.pln.active e ≠ none ∧ ¬Keeps (vget s.pln.active e) (vget s.pln.staged e)

/-- A position's channel starts at the switch: it is added, or its path changes (R35, R36). -/
def StartsAt (s : State) (e : EntryIx) : Prop :=
  vget s.pln.staged e ≠ none ∧ ¬Keeps (vget s.pln.active e) (vget s.pln.staged e)

/-- The shed flag of a context after the budget of the output block that is assembled, before a switch (R109, R112). -/
def ShedAfter (o : OutBlock) (s : State) (e : EntryIx) : Prop :=
  NewlyShed o s e ∨
  ((ctxAt s e).shed = true ∧ ∀ x, (budgetAt o s).restored = some x → x.entry ≠ e)

/-- What the switch makes of the plan and of the extractor (R32, R14, R44): the staged copy active, the tap table rebuilt under
the next generation (notes/assumptions/11.md), from which the started positions take blocks. The blocks that wait and the table
of the block period stand. -/
structure SwitchPlan (s u : State) : Prop where
  plan  : u.pln = { s.pln with active := s.pln.staged, activeSettings := s.pln.stagedSettings, armed := false }
  rows  : u.ext.rows = buildRows s.pln.staged
  gen   : u.ext.gen = s.ext.gen + 1
  since : ∀ e, (StartsAt s e → vget u.ext.since e = s.ext.gen + 1) ∧ (¬StartsAt s e → vget u.ext.since e = vget s.ext.since e)
  rest  : u.ext.waiting = s.ext.waiting ∧ u.ext.periodRows = s.ext.periodRows ∧ u.ext.periodGen = s.ext.periodGen

/-- What the switch makes of the contexts (R34 to R38, R101, Table 2-6), with the CHANNEL-CHANGED notices of reason PLAN. The
shed flag is the one that the budget of the block leaves. -/
structure SwitchContexts (o : OutBlock) (s u : State) : Prop where
  removed   : ∀ e, vget s.pln.active e ≠ none → vget s.pln.staged e = none →
    ctxAt u e = Ctx.powerOn ∧ ((ctxAt s e).state ≠ .off → Notified e .plan u)
  started   : ∀ e, StartsAt s e → ctxAt u e = { Ctx.powerOn with state := .acquire } ∧ Notified e .plan u
  kept      : ∀ e, Keeps (vget s.pln.active e) (vget s.pln.staged e) → ∃ loss expired revert shed, ctxAt u e = { ctxAt s e with
    readyP := min s.pln.stagedSettings.acquire (ctxAt s e).readyP
    readyA := min s.pln.stagedSettings.acquire (ctxAt s e).readyA
    loss := loss, expired := expired, revert := revert, shed := shed }
  unchanged : ∀ e a, vget s.pln.active e = some a → vget s.pln.staged e = some a →
    (ctxAt u e).loss = (ctxAt s e).loss ∧ (ctxAt u e).expired = (ctxAt s e).expired ∧
    (ctxAt u e).revert = (ctxAt s e).revert ∧ ((ctxAt u e).shed = true ↔ ShedAfter o s e)
  tuned     : ∀ e a b, vget s.pln.active e = some a → vget s.pln.staged e = some b → SamePath a b → a ≠ b →
    ((ctxAt s e).expired = true → (ctxAt u e).loss = bridgeTime b.bridgeCode ∧
      ((ctxAt u e).expired = true ↔ b.expiry = .notify)) ∧
    ((ctxAt s e).expired = false → (ctxAt u e).loss = (ctxAt s e).loss ∧ (ctxAt u e).expired = false) ∧
    (¬(b.expiry = .failover ∧ b.alternate ≠ none ∧ b.revert = true) → (ctxAt u e).revert = 0) ∧
    (b.expiry = .failover ∧ b.alternate ≠ none ∧ b.revert = true → (ctxAt u e).revert = (ctxAt s e).revert) ∧
    ((ctxAt u e).shed = true ↔ ShedAfter o s e ∧ b.priority ≠ 7) ∧
    ((ctxAt u e).expired ≠ (ctxAt s e).expired ∨ ShedAfter o s e ∧ b.priority = 7 → Notified e .plan u)
  empty     : ∀ e, vget s.pln.active e = none → vget s.pln.staged e = none → ctxAt u e = { ctxAt s e with
    readyP := min s.pln.stagedSettings.acquire (ctxAt s e).readyP
    readyA := min s.pln.stagedSettings.acquire (ctxAt s e).readyA }
  dwell     : ∀ e d, s.mon.dwell = some d → d.visited = .entry e → EndsAt s e ∨ NewlyShed o s e → u.mon.dwell = none
  dwellKept : (∀ e d, s.mon.dwell = some d → d.visited = .entry e → ¬EndsAt s e ∧ ¬NewlyShed o s e) → u.mon = s.mon
  monitor   : { u.mon with dwell := s.mon.dwell } = s.mon

/-- What the switch makes of the delay store and of CMB's records and counts (R36, R39, R96, R98, R101). Pages of ended channels
are freed, and started ones take the lowest free pages in entry order, in rising order; their lines begin empty. -/
structure SwitchStore (s u : State) : Prop where
  pagesKept : ∀ (q : Nat) (f : EntryIx), s.dst.pageMap[q]? = some (some f) → ¬EndsAt s f → u.dst.pageMap[q]? = some (some f)
  pagesFree : ∀ q : Nat, (s.dst.pageMap[q]? = some none ∨ ∃ f, s.dst.pageMap[q]? = some (some f) ∧ EndsAt s f) →
    u.dst.pageMap[q]? = some none ∨ ∃ e, StartsAt s e ∧ u.dst.pageMap[q]? = some (some e)
  started   : ∀ e en, StartsAt s e → vget s.pln.staged e = some en → 0 < en.pages → ∃ l, lineAt u e = some l ∧
    l.writePos = 0 ∧ l.fill = 0 ∧ l.accepted = 0 ∧ l.pages.Pairwise (· < ·) ∧
    (PlanLaw s → PagesLaw s → l.pages.length = en.pages) ∧
    ∀ p ∈ l.pages, u.dst.pageMap[p]? = some (some e) ∧
      ∀ q < p, ∃ f, u.dst.pageMap[q]? = some (some f) ∧ (f ≤ e ∨ s.dst.pageMap[q]? = some (some f))
  ended     : ∀ e, EndsAt s e → (∀ en, vget s.pln.staged e = some en → en.pages = 0) →
    lineAt u e = none ∧ ∀ q : Nat, u.dst.pageMap[q]? ≠ some (some e)
  kept      : ∀ e, Keeps (vget s.pln.active e) (vget s.pln.staged e) → lineAt u e = lineAt s e ∧
    vget u.dst.gapCounts e = vget s.dst.gapCounts e ∧ vget u.cmb.next e = vget s.cmb.next e
  late      : ∀ e o, Keeps (vget s.pln.active e) (vget s.pln.staged e) → s.cmb.course = some o → vget u.cmb.late e =
    if vget o.answers e = .waiting then min 65535 (vget s.cmb.late e + 1) else vget s.cmb.late e
  cleared   : ∀ e, EndsAt s e ∨ StartsAt s e →
    vget u.dst.gapCounts e = 0 ∧ vget u.cmb.late e = 0 ∧ vget u.cmb.next e = none ∧ vget u.cmb.held e = none
  writes    : (∀ w ∈ s.dst.writes, ¬EndsAt s w.entry → w ∈ u.dst.writes) ∧
    ∀ w ∈ u.dst.writes, w ∈ s.dst.writes ∧ (EndsAt s w.entry → lineAt s w.entry = none)
  reads     : u.dst.reads = []
  memory    : u.dst.dram = s.dst.dram ∧ u.dst.gapMarks = s.dst.gapMarks ∧ u.dst.overruns = s.dst.overruns ∧
    u.dst.refreshPending = s.dst.refreshPending ∧ u.dst.refreshPeriod = s.dst.refreshPeriod

/-- The sequencer after its step of attenuation at a completed output block (R127, R128). -/
def ramped (set : Settings) (x : Txs) : Txs :=
  match x.state with
  | .rampUp => if x.atten ≤ set.rampStep then { x with state := .onAir, atten := 0 } else { x with atten := x.atten - set.rampStep }
  | .rampDown => if 300 ≤ x.atten + set.rampStep then cooled set.coolTime x else { x with atten := x.atten + set.rampStep }
  | _ => x

/-- The sequencer under new settings (Table 2-6, R123, R129): F at most the new Fmax; a qualification counter above the new
setting set to it with ref_ok true, which takes a keyed HELD to RAMP_UP. A counter equal to it changes nothing
(notes/assumptions/34.md). -/
def resettled (set : Settings) (x : Txs) : Txs :=
  let y := { x with foldback := min set.foldMax x.foldback }
  if x.qual ≤ set.refQual then y
  else if x.refOk = false ∧ x.state = .held ∧ x.keyed = true then readied { y with qual := set.refQual, refOk := true }
  else { y with qual := set.refQual, refOk := true }

/-- The switch posts nothing for a notice source, and neither does the output block at whose completion it is made: the
memory, the reset, the sequencer when its state stands, and an entry whose shed flag the budget leaves and whose context the
switch leaves as it was or only retunes. -/
def NotPosted (o : OutBlock) (s u : State) : NoticeSource → Prop
  | .memory => True
  | .reset => True
  | .plan => False
  | .transmit => (ramped s.pln.activeSettings s.txs).state = s.txs.state ∧ u.txs.state = s.txs.state
  | .channel e =>
    (∀ x ∈ (budgetAt o s).newlyShed, x.entry ≠ e) ∧ (∀ x, (budgetAt o s).restored = some x → x.entry ≠ e) ∧ ¬StartsAt s e ∧
    (EndsAt s e → (ctxAt s e).state = .off) ∧
    ∀ a b, vget s.pln.active e = some a → vget s.pln.staged e = some b → a ≠ b →
      (ctxAt u e).expired = (ctxAt s e).expired ∧ ((ctxAt s e).shed = true → b.priority ≠ 7)

/-- What the new settings do at the switch to the sequencer and to the notices that are pending (Table 2-6), with
TRANSMIT-CHANGED for a change of the sequencer's state (R137) and PLAN-SWITCHED (R41); and what the output block at whose
completion the switch is made leaves: its drive samples, figures and counts. -/
structure SwitchSettings (o : OutBlock) (s u : State) : Prop where
  txs      : ∃ d, DriveFormed o s (ramped s.pln.activeSettings s.txs) d ∧
    u.txs = resettled s.pln.stagedSettings { ramped s.pln.activeSettings s.txs with formed := some d }
  transmit : u.txs.state ≠ (ramped s.pln.activeSettings s.txs).state → ⟨transmitContent u.txs, false, false⟩ ∈ u.svc.notices
  stepped  : u.txs.state = (ramped s.pln.activeSettings s.txs).state → u.txs.state ≠ s.txs.state →
    ⟨transmitContent (ramped s.pln.activeSettings s.txs), false, false⟩ ∈ u.svc.notices
  pending  : ∀ n : Notice, NotPosted o s u (sourceOf n.content) →
    (n ∈ u.svc.notices ↔ n ∈ s.svc.notices ∧ fullySent s.pln.stagedSettings.noticeTrunk n = false)
  figures  : ∀ shed : EntryIx → Bool, (∀ e, shed e = true ↔ ShedAfter o s e) → u.cmb.figures =
    ⟨(budgetAt o s).composite, s.pln.activeSettings.ceiling - o.foldback, o.foldback, (budgetAt o s).backoff,
      (budgetAt o s).excess, (budgetAt o s).contributors.length, (entries.filter shed).length⟩
  clips    : Clipped o s u
  excess   : u.cmb.excess = (if (budgetAt o s).excess = true then min 65535 (s.cmb.excess + 1) else s.cmb.excess)
  epoch    : u.cmb.epochs = (s.cmb.epochs + 1) % 65536
  switched : ∃ classes : EntryIx → PosClass,
    (∀ e, ClassIs (vget s.pln.active e) (vget s.pln.staged e) (classes e)) ∧
    ⟨.plan u.cmb.epochs (entries.map classes) (tapsInUse u.ext.rows) (pagesInUse u.dst.pageMap), false, false⟩ ∈ u.svc.notices
  rest     : u.rtA = s.rtA ∧ u.rtB = s.rtB ∧ u.svc.queue = s.svc.queue ∧ u.svc.lost = s.svc.lost ∧ u.cmb.course = none ∧
    u.cmb.counter = (s.cmb.counter + 1) % 64 ∧ u.pending = s.pending ∧ u.inReset = s.inReset

/-! ### Vocabulary of the claims: report bodies (Table 11-7), field by field at their offsets -/

/-- The GET-CHANNEL body of an entry (R64, R151, Table 11-7). A position without an entry reports its bridge as FFFF
(notes/assumptions/18.md); without a line, fill and capacity are 0. -/
structure ChannelReport (s : State) (e : EntryIx) (b : List Byte) : Prop where
  length   : b.length = 41
  index    : u8 b 0 = e.val
  state    : u8 b 1 = (stateName (ctxAt s e).state).code
  cause    : u8 b 2 = causeCode (stateCause (ctxAt s e).state)
  source   : u8 b 3 = sourceCode (ctxAt s e).source
  flags    : ∃ p a, (p = true ↔ Ready s (ctxAt s e) .primary) ∧ (a = true ↔ Ready s (ctxAt s e) .alternate) ∧
    FlagField b 4 [(ctxAt s e).expired, p, a, (ctxAt s e).shed, (ctxAt s e).lowOutput, (ctxAt s e).done]
  ready    : u16 b 5 = min 65535 (ctxAt s e).readyP ∧ u16 b 7 = min 65535 (ctxAt s e).readyA
  loss     : u16 b 9 = min 65535 (ctxAt s e).loss
  bridge   : (∀ en, activeAt s e = some en → u16 b 11 = bridgeTime en.bridgeCode) ∧ (activeAt s e = none → u16 b 11 = 65535)
  revert   : u32 b 13 = min 4294967295 (ctxAt s e).revert
  levels   : LevelField b 17 (ctxAt s e).gain ∧ LevelField b 19 (ctxAt s e).lastIn ∧ LevelField b 21 (ctxAt s e).lastOut
  strikes  : u8 b 23 = min 255 (ctxAt s e).strikes
  test     : ∀ n l, (ctxAt s e).state = .test n l → u16 b 24 = min 65535 ((n + 999) / 1000) ∧ LevelField b 26 (some l)
  noTest   : (∀ n l, (ctxAt s e).state ≠ .test n l) → u16 b 24 = 65535 ∧ s16 b 26 = -32768
  counters : u16 b 28 = min 65535 (ctxAt s e).badBlocks ∧ u8 b 30 = min 255 (ctxAt s e).failovers ∧
    u16 b 31 = min 65535 (ctxAt s e).clips
  line     : (∀ l, lineAt s e = some l → u16 b 33 = min 65535 l.fill ∧ u16 b 35 = min 65535 (16 * l.pages.length)) ∧
    (lineAt s e = none → u16 b 33 = 0 ∧ u16 b 35 = 0)
  counts   : u16 b 37 = min 65535 (vget s.dst.gapCounts e) ∧ u16 b 39 = min 65535 (vget s.cmb.late e)

/-- The GET-TRANSMIT body (R136, Table 11-7). A stopped timer is sent as FFFF, no return loss as -32768 (R170). -/
structure TransmitReport (x : Txs) (b : List Byte) : Prop where
  length  : b.length = 20
  state   : u8 b 0 = x.state.code
  flags   : FlagField b 1 [x.keyed, x.further, x.refOk, x.linkUp, x.paReady, x.paAlarm]
  cause   : u8 b 2 = x.cause.code
  atten   : u16 b 3 = min 65535 x.atten
  fold    : u8 b 5 = min 255 x.foldback
  timers  : u16 b 6 = min 65535 (x.bias.getD 65535) ∧ u16 b 8 = min 65535 (x.cool.getD 65535)
  qual    : u16 b 10 = min 65535 x.qual
  trips   : u8 b 12 = min 255 x.tripCount
  lastRL  : LevelField b 13 x.lastRL
  invalid : u8 b 15 = min 255 x.invalid
  held    : LevelField b 16 (some x.fwd) ∧ LevelField b 18 (some x.refl)

/-- The six bytes of a trunk in the GET-SUPERVISION body (R12, Table 11-7). -/
def TrunkReport (p : Port) (b : List Byte) (i : Nat) : Prop :=
  u8 b i = p.align.code ∧ FlagField b (i + 1) [p.overload, p.alarm] ∧ u16 b (i + 2) = min 65535 p.damage ∧
  u16 b (i + 4) = min 65535 p.slips

/-- The GET-SUPERVISION body (R12, R82, R96, R118, R146, Table 11-7). What is absent is sent as all ones (R170). That EXCESS
is sent as 1 or 0 is the model's choice (notes/assumptions/39.md). -/
structure SupervisionReport (s : State) (b : List Byte) : Prop where
  length  : b.length = 59
  trunks  : TrunkReport s.rtA b 0 ∧ TrunkReport s.rtB b 6
  memory  : u16 b 12 = s.dst.pageMap.toList.countP Option.isSome ∧ u8 b 14 = min 255 s.dst.overruns
  counter : u8 b 15 = min 255 s.cmb.counter ∧ u16 b 16 = min 65535 s.cmb.epochs
  counts  : u16 b 18 = min 65535 s.cmb.excess ∧ u32 b 20 = min 4294967295 s.cmb.clips
  levels  : LevelField b 24 s.cmb.figures.composite ∧ LevelField b 26 (some s.cmb.figures.ceiling)
  budget  : u8 b 28 = min 255 s.cmb.figures.foldback ∧ u16 b 29 = min 65535 s.cmb.figures.backoff ∧
    u8 b 31 = (if s.cmb.figures.excess = true then 1 else 0)
  figures : u8 b 32 = min 255 s.cmb.figures.contributors ∧ u8 b 33 = min 255 s.cmb.figures.shed
  mode    : u8 b 34 = s.mon.mode.code ∧ (∀ e, s.mon.mode = .lock e → u8 b 35 = e.val) ∧
    ((∀ e, s.mon.mode ≠ .lock e) → u8 b 35 = 255)
  back    : (∀ m, s.mon.returnMode = some m → u8 b 36 = m.code) ∧ (s.mon.returnMode = none → u8 b 36 = 255) ∧
    (∀ e, s.mon.returnMode = some (.lock e) → u8 b 37 = e.val) ∧ ((∀ e, s.mon.returnMode ≠ some (.lock e)) → u8 b 37 = 255)
  scan    : u8 b 38 = s.mon.scanPos.val
  dwell   : ∀ d, s.mon.dwell = some d → (∀ e, d.visited = .entry e → u8 b 39 = e.val) ∧
    (d.visited = .reference → u8 b 39 = 16) ∧ u8 b 40 = min 255 d.count ∧ u8 b 41 = min 255 d.length
  noDwell : s.mon.dwell = none → u8 b 39 = 255 ∧ u8 b 40 = 255 ∧ u8 b 41 = 255
  test    : u8 b 42 = s.mon.selftest.code
  entries : ∀ e : EntryIx, u8 b (43 + e.val) = (ctxAt s e).strikes % 4 + (if (ctxAt s e).lowOutput = true then 4 else 0)

end Sys2Proof.Safety
end

