-- ==== Sys2Proof/Certificates/Slice0/Obligations.lean ====
section
/-! DEFINITION. The statements for the provers: what the numbered rules of the spec say the commands do, and the laws that
every step keeps. -/

open Sys2Proof Sys2Proof.Machine Sys2Proof.Safety

/-! ### The machine -/

/-- One step runs the command at the front of the queue on the state with the queue's rest; on an empty queue nothing
comes about, which is the model's choice (notes/assumptions/16.md). -/
def Obligations.StepTakesFront : Prop :=
  (∀ (c : Instr) (rest : List Instr) (s : State),
    step { s with pending := c :: rest } = exec c { s with pending := rest }) ∧
  ∀ s : State, s.pending = [] → step s = .next s

/-- The two commands of the power-on reset line (R1), and the model's choice that between them no other command has an effect
(notes/assumptions/14.md). The queue of commands and the counter of free values are the model's own and stand through a
reset (notes/assumptions/26.md). That an access in progress at the memory port is dropped is the model's choice
(notes/assumptions/41.md). -/
def Obligations.ResetLine : Prop :=
  (∀ s, exec .powerOnReset s = .next { State.reset with pending := s.pending, free := s.free }) ∧
  (∀ s, exec .powerOnResetLineLow s = .next { s with inReset := true }) ∧
  ∀ c s, s.inReset = true → c ≠ .powerOnReset → c ≠ .powerOnResetLineLow → exec c s = .next s

/-- The power-on values of Tables 1-1, 1-6, 2-1, 2-3, 3-1, 4-1, 5-1, 6-1, 7-1, 8-1 and of R168, field by field, with the
refresh timer at its power-on interval of 7. -/
def Obligations.ResetValues : Prop :=
  let s := State.reset
  (∀ t, (portOf s t).align = .hunt ∧ (portOf s t).reference = none ∧ (portOf s t).confirm = 0 ∧
    (portOf s t).failures = 0 ∧ (portOf s t).damage = 0 ∧ (portOf s t).slips = 0 ∧ (portOf s t).overload = false ∧
    (portOf s t).alarm = false ∧ (portOf s t).revNumber = 0 ∧ (portOf s t).asm = ⟨.search, [], none⟩ ∧
    (portOf s t).outbox = none ∧ (portOf s t).course = none) ∧
  (∀ i : Fin 24, s.ext.rows[i] = none) ∧
  (∀ e, vget s.pln.staged e = none ∧ vget s.pln.active e = none) ∧ s.pln.armed = false ∧
  s.pln.stagedSettings = s.pln.activeSettings ∧
  s.pln.activeSettings = ⟨-60, 30, 10, 50, 10, 2000, 500, 2000, 140, 60, 80, 5, 7, .ret, false, 20, 8, .a⟩ ∧
  (∀ e, ctxAt s e = ⟨.off, .primary, 0, 0, 0, false, 0, none, none, none, 0, 0, 0, false, 0, false, false⟩) ∧
  (∀ e, lineAt s e = none ∧ vget s.dst.gapCounts e = 0) ∧ (∀ i : Fin 256, s.dst.pageMap[i] = none) ∧
  s.dst.gapMarks = [] ∧ s.dst.writes = [] ∧ s.dst.reads = [] ∧ s.dst.refreshPending = false ∧ s.dst.refreshPeriod = 7 ∧
  s.dst.overruns = 0 ∧ s.cmb.counter = 0 ∧ s.cmb.epochs = 0 ∧ (∀ e, vget s.cmb.held e = none ∧ vget s.cmb.late e = 0) ∧
  s.cmb.figures = ⟨none, -60, 0, 0, false, 0, 0⟩ ∧ s.cmb.excess = 0 ∧ s.cmb.clips = 0 ∧
  s.txs.state = .offAir ∧ s.txs.keyed = false ∧ s.txs.cause = .none ∧ s.txs.further = false ∧ s.txs.atten = 300 ∧
  s.txs.bias = none ∧ s.txs.cool = none ∧ s.txs.qual = 0 ∧ s.txs.refOk = false ∧ s.txs.foldback = 0 ∧
  s.txs.tripCount = 0 ∧ s.txs.lastRL = none ∧ s.txs.linkUp = false ∧ s.txs.invalid = 0 ∧ s.txs.fwd = -600 ∧
  s.txs.refl = -600 ∧ s.txs.paReady = false ∧ s.txs.paAlarm = false ∧ s.txs.fwdNumber = 0 ∧
  s.mon = ⟨.off, none, 15, none, .none⟩ ∧
  s.svc = ⟨[], 0, [⟨.reset false, false, false⟩]⟩

/-- Every law below holds right after a power-on reset. -/
def Obligations.LawsHoldAtReset : Prop :=
  QueuesBounded State.reset ∧ NoticesDistinct State.reset ∧ SequencerLaw State.reset.txs ∧ GainLaw State.reset ∧
  ShedLaw State.reset ∧ SourceLaw State.reset ∧ FillLaw State.reset ∧ FiguresLaw State.reset.cmb.figures ∧
  PlanLaw State.reset ∧ PagesLaw State.reset ∧ PositionLaw State.reset ∧ DwellLaw State.reset ∧
  dramWf State.reset.dst = true

/-! ### Laws that every step keeps -/

/-- The request, write and read queues stay within their lengths (R84, R89, R160). -/
def Obligations.QueuesStayBounded : Prop :=
  ∀ s t, QueuesBounded s → step s = .next t → QueuesBounded t

/-- At most one notice per source, and at most 20 in all, are ever pending (R164). -/
def Obligations.NoticesStayDistinct : Prop :=
  ∀ s t, NoticesDistinct s → step s = .next t → NoticesDistinct t ∧ t.svc.notices.length ≤ 20

/-- The sequencer's state, keyed flag, link, timers, attenuation and trip fields stay in agreement (R121 to R135). -/
def Obligations.SequencerStaysLawful : Prop :=
  ∀ s t, SequencerLaw s.txs → step s = .next t → SequencerLaw t.txs

/-- A gain once initialised stays within -200 and 600 (R75), a shed flag stands only in LIVE, FADE or TEST (R111), and the
source in use is PRIMARY whenever the alternate is absent (R67). A dwell in progress on an entry has its context in a contributor
state with its shed flag clear (R142), OFF standing exactly at the empty positions. -/
def Obligations.ContextsStayLawful : Prop :=
  (∀ s t, GainLaw s → step s = .next t → GainLaw t) ∧
  (∀ s t, ShedLaw s → step s = .next t → ShedLaw t) ∧
  (∀ s t, SourceLaw s → step s = .next t → SourceLaw t) ∧
  ∀ s t, PositionLaw s → DwellLaw s → step s = .next t → DwellLaw t

/-- A context stays in OFF exactly while its position is empty, and idle counts stay clear (R42, R67). -/
def Obligations.PositionsStayLawful : Prop :=
  ∀ s t, PositionLaw s → step s = .next t → PositionLaw t

/-- The fill of every line stays within its capacity (R83), and the record positions of the DRAM and the gap marks stay in
their canonical form (Table 5-1; the form is the model's). -/
def Obligations.StoreStaysLawful : Prop :=
  (∀ s t, FillLaw s → step s = .next t → FillLaw t) ∧
  ∀ s t, dramWf s.dst = true → step s = .next t → dramWf t.dst = true

/-- The last block figures keep the power budget's law: the composite less the backoff is at or below the effective ceiling
(R108). -/
def Obligations.FiguresStayLawful : Prop :=
  ∀ s t, FiguresLaw s.cmb.figures → step s = .next t → FiguresLaw t.cmb.figures

/-- Both plans stay sound, the active plan stays free of overlaps and within 24 taps and 256 pages, a staged plan that is
armed fits, and the tap table is that of the active plan (R13, R14, R22, R29, R32). -/
def Obligations.PlanStaysLawful : Prop :=
  ∀ s t, PlanLaw s → step s = .next t → PlanLaw t

/-- Every page stays free or owned by one entry with as many pages as its page count, and every line runs through the pages
its entry owns (R39, R82, R83). -/
def Obligations.PagesStayLawful : Prop :=
  ∀ s t, PlanLaw s → PagesLaw s → step s = .next t → PagesLaw t

/-! ### Trunk ports and the extractor -/

/-- Which frame window gives which outcome (R2, Table 1-2), with what a good frame brings (Table 11-1; that a signal of another
length fails its check is the model's reading, notes/assumptions/22.md); and what a block period's outcome does to a trunk port
(R3 to R8): alignment, reference number and counts of Table 1-3, the damage and slip counts, the receiver flags. The other port,
the plan, the contexts, the delay store, the combiner, the sequencer, the monitor and the notices stand. -/
def Obligations.TrunkFrameAlignment : Prop :=
  (∀ (t : Trunk) (b : List Byte),
    let identity : Byte := if t = .A then 0x0A else 0x0B
    let synced := b.take 4 = [0x3C, 0xA6, 0x59, 0xC3]
    sortWindow t none = .missing ∧
    (¬synced → sortWindow t (some b) = .badSync) ∧
    (synced → byteAt b 4 ≠ identity → sortWindow t (some b) = .wrongIdentity) ∧
    (synced → byteAt b 4 = identity → ¬TrunkCheckHolds b → sortWindow t (some b) = .damaged) ∧
    (synced → byteAt b 4 = identity → TrunkCheckHolds b → ∃ f, sortWindow t (some b) = .good f ∧ FrameRead b f)) ∧
  ∀ t w s, s.inReset = false → ∃ u, exec (.trunkFrame t w) s = .next u ∧
    let p := portOf s t
    let q := portOf u t
    let o := sortWindow t w
    (q.align, q.reference, q.confirm, q.failures) = alignmentAfter p o ∧
    q.damage = (if o = .damaged then min 65535 (p.damage + 1) else p.damage) ∧
    (Slips p o → q.slips = min 65535 (p.slips + 1)) ∧ (¬Slips p o → q.slips = p.slips) ∧
    (∀ f, o = .good f → q.overload = f.overload ∧ q.alarm = f.alarm) ∧
    ((∀ f, o ≠ .good f) → q.overload = p.overload ∧ q.alarm = p.alarm) ∧
    q.revNumber = p.revNumber ∧ q.outbox = p.outbox ∧ q.course = p.course ∧ q.lastReverse = p.lastReverse ∧
    (∀ x, x ≠ t → portOf u x = portOf s x) ∧
    u.pln = s.pln ∧ u.ctx = s.ctx ∧ u.dst = s.dst ∧ u.cmb = s.cmb ∧ u.txs = s.txs ∧ u.mon = s.mon ∧
    u.svc.notices = s.svc.notices ∧ u.pending = s.pending ∧ u.inReset = false

/-- What EXT cuts in a block period (R9, R14, R15, R16): one block per tap of the trunk in the period's table, in row order,
of the period's quality, behind the blocks that wait; a good block holds the samples that extraction makes of the frame's band
(LevelsAndScalingRound says which), and blocks of one frame from equal ranges are equal. A band that is silent
throughout gives silence, which rests on the filter and the rounding of the model (notes/assumptions/2.md). EXT changes in nothing
else. -/
def Obligations.TrunkFrameBlocks : Prop :=
  ∀ t w s, s.inReset = false → ∃ u blocks q, exec (.trunkFrame t w) s = .next u ∧
    u.ext = { s.ext with waiting := s.ext.waiting ++ blocks } ∧
    QualityIs (portOf s t) (sortWindow t w) (portOf u t).align q ∧
    List.Forall₂ (CutBy s.ext.periodGen q) (tapsOf t s.ext) blocks ∧
    (∀ f, sortWindow t w = .good f → q = .good → List.Forall₂ (fun (tap : Tap) (x : Waiting) =>
      x.block.samples = extracted s.free f.band tap.start tap.width) (tapsOf t s.ext) blocks) ∧
    (∀ f, sortWindow t w = .good f → (∀ z ∈ f.band, z = ⟨0, 0⟩) → ∀ x ∈ blocks, x.block.samples = silence x.block.samples.length) ∧
    ∀ i j : Nat, ∀ a b : Tap, ∀ x y : Waiting, (tapsOf t s.ext)[i]? = some a → (tapsOf t s.ext)[j]? = some b →
      blocks[i]? = some x → blocks[j]? = some y → a.start = b.start → a.width = b.width → x.block = y.block

/-- How levels and scaled components are rounded. The input level of samples (R16): with `p` their total power and `d` that of
as many samples at full scale, level `-k` says that `p / d` lies above `10 ^ -((k + 1/2) / 100)`, an exact half included,
and below `10 ^ -((k - 1/2) / 100)`, the level clamped to -900..0. Scaling by a level `g` (R77): the result lies within a
half of `x * 10 ^ (g / 200)`, an exact half away from zero. Both without roots: everything is raised to the 200th power.
The sample clamp (R117): a sample of magnitude at most 32767 stands; any other keeps its phase, each component `c` becoming
`|c| * 32767 / magnitude` truncated. Placement (R113, R114): record and tone are both moved to the centre of the output range
plus the fine offset, whichever the source in use. Extraction (R15) moves the centre of its range to 0 Hz. Everything outside the
range is filtered away: bands that hold the same at every line of the range give the same samples, whatever else they hold. What
lies in the range passes: a sample lies within one of what the lines of the range make together; that a range is its lines is
the model's choice (2). A line is the sum of the samples, each turned back by the line's turns, and lines make a sample as the
sum of them, each turned forward. The unit vector of no turn is 1, and that of an eighth has equal components. A carrier of `f` Hz
advances by `f / 48000000` of a turn with each sample, in parts of 2 ^ 40 of a turn; a further quarter turn turns a moved
sample by a quarter; and a moved component lies within one and a half of the exact one, how it is rounded being open
(notes/assumptions/2.md, 3.md and 4.md, which also name the fixed point). -/
def Obligations.LevelsAndScalingRound : Prop :=
  (∀ l : List Sample, ∃ k : Nat, levelOfSamples l = -(k : Int) ∧ k ≤ 900 ∧
    (0 < k → totalPower l ^ 200 * 10 ^ (2 * k - 1) < (l.length * 32767 ^ 2) ^ 200) ∧
    (k < 900 → (l.length * 32767 ^ 2) ^ 200 ≤ totalPower l ^ 200 * 10 ^ (2 * k + 1))) ∧
  (∀ (g : Int) (x : Nat), ∃ n : Nat, scaleComponent g x = n ∧ scaleComponent g (-(x : Int)) = -(n : Int) ∧
    (0 < n → (2 * n - 1) ^ 200 * 10 ^ (-g).toNat ≤ (2 * x) ^ 200 * 10 ^ g.toNat) ∧
    (2 * x) ^ 200 * 10 ^ g.toNat < (2 * n + 1) ^ 200 * 10 ^ (-g).toNat) ∧
  (∀ z : Sample,
    (samplePower z ≤ 32767 ^ 2 → clampSample z = z) ∧
    (32767 ^ 2 < samplePower z →
      samplePower (clampSample z) ≤ 32767 ^ 2 ∧
      ∀ part : Sample → Int, (part = Sample.re ∨ part = Sample.im) →
        (0 ≤ part z → 0 ≤ part (clampSample z)) ∧ (part z < 0 → part (clampSample z) ≤ 0) ∧
        (part (clampSample z)).natAbs ^ 2 * samplePower z ≤ ((part z).natAbs * 32767) ^ 2 ∧
        ((part z).natAbs * 32767) ^ 2 < ((part (clampSample z)).natAbs + 1) ^ 2 * samplePower z)) ∧
  (∀ (en : Entry) (src : Source), placedCentre en src = 250000 * (2 * en.outStart + en.width) + en.fine ∧
    toneCentre en = placedCentre en src) ∧
  (∀ start width : Nat, basebandHz start width = -(Config.inputEdgeHz + 250000 * (2 * start + width))) ∧
  (∀ (n start width : Nat) (band : List Sample),
    let moved := shiftBand (Config.extractPhase n start width) (basebandHz start width)
    (∀ other, other.length = band.length →
      (∀ k : Int, -(250 * width) ≤ k → k < 250 * width → lineOf (moved other) k = lineOf (moved band) k) →
      extracted n other start width = extracted n band start width) ∧
    (band ≠ [] → ∀ i < 500 * width, ∀ part : Sample → Int, (part = Sample.re ∨ part = Sample.im) →
      ∃ z, (extracted n band start width)[i]? = some z ∧
        |part z * (band.length * unitOne ^ 3) - part (ofLines (rangeLines (500 * width) (moved band)) (500 * width) i)| <
          band.length * unitOne ^ 3)) ∧
  (∀ (phase : Nat) (hz : Int) (i : Nat), ∃ d : Int, 0 ≤ d ∧ d ≤ 1 ∧
    (turnAt phase hz (i + 1) : Int) % 2 ^ 40 = (turnAt phase hz i + hz * 2 ^ 40 / 48000000 + d) % 2 ^ 40) ∧
  (∀ k : Nat, unitOfTurn (k + 2 ^ 38) = ⟨-(unitOfTurn k).im, (unitOfTurn k).re⟩) ∧
  unitOfTurn 0 = ⟨unitOne, 0⟩ ∧ (let u := unitOfTurn (2 ^ 37)
    |u.re - u.im| ≤ 4 ∧ |u.re ^ 2 + u.im ^ 2 - unitOne ^ 2| ≤ 4 * unitOne) ∧
  (∀ (k : Int) (i n : Nat), (turnOver k i n : Int) = k * i * 2 ^ 40 / n % 2 ^ 40) ∧
  (∀ (l : List Sample) (k : Int), lineOf l k =
    summed ((List.range l.length).map fun i => turned (l.getD i ⟨0, 0⟩) (turnOver (-k) i l.length))) ∧
  (∀ (l : List Sample) (n i : Nat), ofLines l n i =
    summed ((List.range l.length).map fun j => turned (l.getD j ⟨0, 0⟩) (turnOver ((j : Int) - (l.length / 2 : Nat)) i n))) ∧
  (∀ (l : List Sample) (phase : Nat) (hz : Int), shiftBand phase hz l =
    (List.range l.length).map fun i => turned (l.getD i ⟨0, 0⟩) (turnAt phase hz i)) ∧
  ∀ r x : Int, |2 * (roundMoved r x * 2 ^ 64 - x)| ≤ 3 * 2 ^ 64

/-! ### The service lane -/

/-- A message of any tag, kind and body of at most 504 bytes, taken byte by byte by an assembler in SEARCH, is offered to the
request queue with exactly its tag, kind and body, and leaves the assembler in SEARCH (R156, R157, R160). Its bytes stand at the
offsets of Table 11-4. The check of every frame and message is the 16-bit register of R169, taken bit by bit, high byte first;
over the digits 1 to 9 it is 29B1. -/
def Obligations.MessageRoundTrip : Prop :=
  (∀ (t : Trunk) (tag kind : Byte) (body : List Byte) (v : Svc), body.length ≤ 504 →
    takeBytes t (messageBytes tag.toNat kind.toNat body) searching v =
      (searching,
        if v.queue.length < 8 then { v with queue := v.queue ++ [⟨t, tag, kind, body⟩] }
        else { v with lost := min 255 (v.lost + 1) })) ∧
  (∀ (tag kind : Byte) (body : List Byte), body.length ≤ 504 →
    let m := messageBytes tag.toNat kind.toNat body
    Framed m [0xC5, 0x3A] (6 + body.length) ∧ u16 m 2 = m.length ∧ byteAt m 4 = tag ∧ byteAt m 5 = kind ∧
      (m.drop 6).take body.length = body) ∧
  (∀ b : List Byte, (checkField b).length = 2 ∧ u16 (checkField b) 0 = (checkRegister b).toNat) ∧
  checkField [0x31, 0x32, 0x33, 0x34, 0x35, 0x36, 0x37, 0x38, 0x39] = [0x29, 0xB1]

/-- What a block period gives its service assembler (R10, R158): the segment of a good frame after which the port is in SYNC,
a slip's segment after a loss; a loss in every other case. Nothing in SEARCH is lost; idle fill changes nothing; a length
outside 8..512 and a failed check are counted (R156, R157, R159). -/
def Obligations.ServiceSegment : Prop :=
  (∀ t w s, s.inReset = false → ∃ u, exec (.trunkFrame t w) s = .next u ∧
    let a := (portOf s t).asm
    (∀ f, sortWindow t w = .good f → (portOf u t).align = .sync → ¬Slips (portOf s t) (sortWindow t w) →
      ((portOf u t).asm, u.svc) = takeBytes t f.segment a s.svc) ∧
    (∀ f, sortWindow t w = .good f → (portOf u t).align = .sync → Slips (portOf s t) (sortWindow t w) →
      ((portOf u t).asm, u.svc) = takeBytes t f.segment (afterLoss a s.svc).1 (afterLoss a s.svc).2) ∧
    (((∀ f, sortWindow t w ≠ .good f) ∨ (portOf u t).align ≠ .sync) →
      ((portOf u t).asm, u.svc) = afterLoss a s.svc)) ∧
  (∀ t n v, takeBytes t (List.replicate n 0) searching v = (searching, v)) ∧
  (∀ t (h l : Byte) v, (h.toNat * 256 + l.toNat < 8 ∨ 512 < h.toNat * 256 + l.toNat) →
    takeBytes t [0xC5, 0x3A, h, l] searching v = (searching, { v with lost := min 255 (v.lost + 1) })) ∧
  (∀ t (h l : Byte) (covered check : List Byte) v, check.length = 2 →
    h.toNat * 256 + l.toNat = covered.length + 6 → 2 ≤ covered.length → covered.length ≤ 506 →
    check ≠ checkField (h :: l :: covered) →
    takeBytes t (0xC5 :: 0x3A :: h :: l :: covered ++ check) searching v =
      (searching, { v with lost := min 255 (v.lost + 1) }))

/-- A reverse frame (R11, R163, Table 11-2): at their offsets the sync pattern, the port's reverse frame number, the next 32
bytes of the message due filled up with 00, and the check. That a response leaves before RESET(POWER_ON) where R163 lets it,
though R168 has idle fill until then, is the model's choice (notes/assumptions/43.md). The message goes on in the next frame
until its last byte; then the course is over, and the outbox is empty if it was the response. A notice that begins has its
sent mark set, and leaves the queue once it has been sent on every trunk of the setting (R165). Nothing changes but the port
and that notice. -/
def Obligations.ReverseFrame : Prop :=
  (∀ (number : Nat) (segment : List Byte), segment.length = 32 →
    let b := reverseTrunkBytes number segment
    Framed b [0x3C, 0xA6, 0x59, 0xC3] 38 ∧ u16 b 4 = min 65535 number ∧ (b.drop 6).take 32 = segment) ∧
  (∀ bytes, (padded bytes).length = 32) ∧
  ∀ t s, s.inReset = false → exec (.reverseTrunkFrame t) s =
    .next (setPort t
      { portOf s t with
        revNumber := ((portOf s t).revNumber + 1) % 1024
        lastReverse := some (reverseTrunkBytes (portOf s t).revNumber (padded (messageDue t s)))
        course :=
          if (messageDue t s).length ≤ 32 then none
          else some ⟨(messageDue t s).drop 32,
            (portOf s t).course.elim (portOf s t).outbox.isSome Course.isResponse⟩
        outbox :=
          if (messageDue t s).length ≤ 32 ∧ (portOf s t).course.elim true Course.isResponse = true then none
          else (portOf s t).outbox }
      { s with svc := { s.svc with notices := noticesAfter t s } })

/-- The choice of a notice (R163, R165): when no message is in course and the outbox is empty, and the setting names the
trunk and its port is in SYNC, the oldest notice not yet sent on the trunk begins, its sent mark is set, and it leaves the
queue once it has been sent on every trunk of the setting. Otherwise the queue stands. The message of a notice has tag 0, the
kind and the body of Table 11-7 for its content, field by field, and the codes of Table 11-8. -/
def Obligations.NoticeSending : Prop :=
  (∀ t s before n after, s.inReset = false → NoticesDistinct s →
    (portOf s t).course = none → (portOf s t).outbox = none →
    namesTrunk s.pln.activeSettings.noticeTrunk t = true → (portOf s t).align = .sync →
    s.svc.notices = before ++ n :: after → (∀ x ∈ before, sentMark x t = true) → sentMark n t = false →
    ∃ u, exec (.reverseTrunkFrame t) s = .next u ∧ messageDue t s = noticeMessage n.content ∧
      u.svc.notices = before ++
        (if fullySent s.pln.activeSettings.noticeTrunk ⟨n.content, t == .A || n.sentA, t == .B || n.sentB⟩ = true
         then after else ⟨n.content, t == .A || n.sentA, t == .B || n.sentB⟩ :: after)) ∧
  (∀ t s, s.inReset = false →
    ((portOf s t).course ≠ none ∨ (portOf s t).outbox ≠ none ∨
      namesTrunk s.pln.activeSettings.noticeTrunk t = false ∨ (portOf s t).align ≠ .sync ∨
      (∀ x ∈ s.svc.notices, sentMark x t = true)) →
    ∃ u, exec (.reverseTrunkFrame t) s = .next u ∧ u.svc = s.svc) ∧
  (∀ c : Content, ∃ kind body, noticeMessage c = messageBytes 0 kind body ∧ NoticeReport kind body c) ∧
  [Reason.signal, .failover, .recovery, .revert, .request, .test, .monitor, .overrun, .plan, .shed, .restore].map Reason.code =
    [0, 1, 2, 3, 4, 5, 6, 7, 8, 9, 10] ∧
  [PosClass.empty, .removed, .added, .pathChange, .tuning, .unchanged].map PosClass.code = [0, 1, 2, 3, 4, 5]

/-! ### The plan store -/

/-- PUT-ENTRY (R19, R20): PENDING while armed; INDEX; FIELD with the number of the failing field; else the entry sent is stored
in its staged position, clamped and rounded, and answered whole, CLAMPED exactly when a clamp changed a value. -/
def Obligations.PutEntry : Prop :=
  ∀ s r rest, Serves .putEntry s r rest →
    (s.pln.armed = true → exec .putEntry s = .next (answered r rest .pending [] s)) ∧
    (s.pln.armed = false → 15 < u8 r.body 0 → exec .putEntry s = .next (answered r rest .index [] s)) ∧
    (∀ n, s.pln.armed = false → u8 r.body 0 ≤ 15 → entryFieldError (r.body.drop 1) = some n →
      exec .putEntry s = .next (answered r rest .field [BitVec.ofNat 8 n] s)) ∧
    ∀ e : EntryIx, s.pln.armed = false → u8 r.body 0 = e.val → entryFieldError (r.body.drop 1) = none →
      ∃ en st, StoredFrom (entrySent (r.body.drop 1)) en ∧
        (st = .clamped ∧ ClampedFrom (entrySent (r.body.drop 1)) en ∨
          st = .ok ∧ ¬ClampedFrom (entrySent (r.body.drop 1)) en) ∧
        exec .putEntry s = .next (answered r rest st (field8 e.val ++ entryRecord en)
          { s with pln := { s.pln with staged := vput s.pln.staged e (some en) } })

/-- The structural tests of PUT-ENTRY and their order (R19, R170): field n fails first exactly when it fails and no lower one
does. -/
def Obligations.EntryFieldOrder : Prop :=
  ∀ b, let fails : List Prop :=
      [1 < u8 b 0, 95 < u8 b 1, u8 b 5 = 0 ∨ 16 < u8 b 5, 96 < u8 b 1 + u8 b 5,
       1 < u8 b 2 ∨ (u8 b 2 = 1 ∧ (1 < u8 b 3 ∨ 95 < u8 b 4 ∨ 96 < u8 b 4 + u8 b 5)),
       u8 b 2 = 1 ∧ u8 b 3 = u8 b 0 ∧ u8 b 4 = u8 b 1, 95 < u8 b 6 ∨ 96 < u8 b 6 + u8 b 5, 2 < u8 b 7, 1 < u8 b 8]
    (entryFieldError b = none ↔ ∀ p ∈ fails, ¬p) ∧
    ∀ n, entryFieldError b = some n ↔
      1 ≤ n ∧ (∃ p, fails[n - 1]? = some p ∧ p) ∧ ∀ m p, m + 1 < n → fails[m]? = some p → ¬p

/-- Entry and settings records are read back as they were written (Table 11-6, R20, R22, R170): the record of a sound entry
passes the structural tests and is stored as that entry without a clamp, and the record of sound settings likewise. -/
def Obligations.RecordsRoundTrip : Prop :=
  (∀ en, EntrySound en → (entryRecord en).length = 27 ∧ entryFieldError (entryRecord en) = none ∧
    entrySent (entryRecord en) = en ∧ storeEntry en = en ∧ clampEntry en = en) ∧
  ∀ r, SettingsSound r → (settingsRecord r).length = 25 ∧ settingsFieldError (settingsRecord r) = none ∧
    settingsSent (settingsRecord r) = r ∧ clampSettings r = r

/-- PUT-SETTINGS (R22): PENDING while armed; FIELD with 1, 2 or 3 for the first enumerated setting outside its list; else the
whole record is staged, each numeric setting clamped, CLAMPED exactly when a clamp changed a value. -/
def Obligations.PutSettings : Prop :=
  ∀ s r rest, Serves .putSettings s r rest →
    (s.pln.armed = true → exec .putSettings s = .next (answered r rest .pending [] s)) ∧
    (s.pln.armed = false →
      (1 < u8 r.body 20 → exec .putSettings s = .next (answered r rest .field [1] s)) ∧
      (u8 r.body 20 ≤ 1 → 1 < u8 r.body 21 → exec .putSettings s = .next (answered r rest .field [2] s)) ∧
      (u8 r.body 20 ≤ 1 → u8 r.body 21 ≤ 1 → 2 < u8 r.body 24 →
        exec .putSettings s = .next (answered r rest .field [3] s)) ∧
      (u8 r.body 20 ≤ 1 → u8 r.body 21 ≤ 1 → u8 r.body 24 ≤ 2 →
        ∃ x st, SettingsFrom (settingsSent r.body) x ∧
          (st = .clamped ∧ x ≠ settingsSent r.body ∨ st = .ok ∧ x = settingsSent r.body) ∧
          exec .putSettings s = .next (answered r rest st (settingsRecord x)
            { s with pln := { s.pln with stagedSettings := x } })))

/-- DROP-ENTRY and COPY-ACTIVE (R24, R25), each refused with PENDING while armed: the staged position becomes empty and the
body says whether it held an entry; the staged copy becomes the active copy. -/
def Obligations.DropAndCopy : Prop :=
  (∀ s r rest, Serves .dropEntry s r rest →
    (s.pln.armed = true → exec .dropEntry s = .next (answered r rest .pending [] s)) ∧
    (s.pln.armed = false → 15 < u8 r.body 0 → exec .dropEntry s = .next (answered r rest .index [] s)) ∧
    ∀ e : EntryIx, s.pln.armed = false → u8 r.body 0 = e.val →
      exec .dropEntry s = .next (answered r rest .ok [if vget s.pln.staged e = none then 0 else 1]
        { s with pln := { s.pln with staged := vput s.pln.staged e none } })) ∧
  ∀ s r rest, Serves .copyActive s r rest →
    (s.pln.armed = true → exec .copyActive s = .next (answered r rest .pending [] s)) ∧
    (s.pln.armed = false → exec .copyActive s = .next (answered r rest .ok []
      { s with pln := { s.pln with staged := s.pln.active, stagedSettings := s.pln.activeSettings } }))

/-- APPLY and CANCEL (R28, R30): PENDING while armed; the first pair of staged entries whose outputs overlap; more than 24 taps;
more than 256 pages; else ARMED with the taps and pages needed. CANCEL clears the arm, or is answered NOT_ARMED. -/
def Obligations.ApplyAndCancel : Prop :=
  (∀ s r rest, Serves .apply s r rest →
    (s.pln.armed = true → exec .apply s = .next (answered r rest .pending [] s)) ∧
    (s.pln.armed = false →
      (∀ i j, FirstOverlap s.pln.staged i j →
        exec .apply s = .next (answered r rest .overlap (field8 i.val ++ field8 j.val) s)) ∧
      ((∀ i j, i ≠ j → ¬Overlap s.pln.staged i j) → 24 < planTapCount s.pln.staged →
        exec .apply s = .next (answered r rest .taps (field8 (planTapCount s.pln.staged)) s)) ∧
      ((∀ i j, i ≠ j → ¬Overlap s.pln.staged i j) → planTapCount s.pln.staged ≤ 24 → 256 < planPages s.pln.staged →
        exec .apply s = .next (answered r rest .pages (field16 (planPages s.pln.staged)) s)) ∧
      (PlanFits s.pln.staged →
        exec .apply s = .next (answered r rest .armed
          (field8 (planTapCount s.pln.staged) ++ field16 (planPages s.pln.staged))
          { s with pln := { s.pln with armed := true } })))) ∧
  ∀ s r rest, Serves .cancel s r rest →
    (s.pln.armed = true → exec .cancel s = .next (answered r rest .ok [] { s with pln := { s.pln with armed := false } })) ∧
    (s.pln.armed = false → exec .cancel s = .next (answered r rest .notArmed [] s))

/-- The plan switch (R23, R31 to R39, R41, R44, R98, R101): at the completion of output block 0 with the arm state ARMED and no
warm restart since the block began, and at no other assembly. The staged copy becomes active and the tap table is rebuilt;
every position is treated by its class, with the CHANNEL-CHANGED notices of reason PLAN; pages, lines, counts and undelayed
records of the ended and started channels are freed, taken and cleared, those of the others kept; the new settings act on F,
the qualification and the pending notices; and PLAN-SWITCHED is posted with the epoch count. The generations by which EXT knows
blocks cut before the switch are notes/assumptions/11.md, and that a qualification counter equal to its new setting changes
nothing is notes/assumptions/34.md; the drive samples of that output block rest on notes/assumptions/20.md as in RampAndDrive. -/
def Obligations.PlanSwitch : Prop :=
  ∀ s o, s.inReset = false → s.cmb.course = some o → ∃ u, exec .outputBlockAssembly s = .next u ∧
    (o.restarted = false → o.number = 0 → s.pln.armed = true →
      SwitchPlan s u ∧ SwitchContexts o s u ∧ SwitchStore s u ∧ SwitchSettings o s u) ∧
    ((o.restarted = true ∨ o.number ≠ 0 ∨ s.pln.armed = false) →
      u.pln = s.pln ∧ u.ext = s.ext ∧ u.dst.pageMap = s.dst.pageMap ∧ u.dst.lines = s.dst.lines)

/-! ### Requests that report -/

/-- IDENTIFY (R166): answered OK in every state with the part code CT16, the revision 3 and the capacities 16, 24, 256, 96
and 8, and nothing changes. -/
def Obligations.Identify : Prop :=
  ∀ s r rest, Serves .identify s r rest →
    exec .identify s = .next (answered r rest .ok [0x43, 0x54, 0x31, 0x36, 3, 16, 24, 1, 0, 96, 8] s)

/-- The requests that report change nothing but the queue and the outbox (R26, R27, R64, R136, R146): GET-ENTRY, GET-SETTINGS,
GET-CHANNEL, GET-TRANSMIT and GET-SUPERVISION, with their refusals. The bodies of the last three are laid out field by field, at
the offsets of Table 11-7, with the codes of Table 11-8; that a position in OFF sends FFFF for its bridge, and that EXCESS is
sent as 1 or 0, are the model's choices (notes/assumptions/18.md and 39.md). -/
def Obligations.Reports : Prop :=
  (∀ s r rest, Serves .getEntry s r rest →
    (15 < u8 r.body 0 → exec .getEntry s = .next (answered r rest .index [] s)) ∧
    (u8 r.body 0 ≤ 15 → 1 < u8 r.body 1 → exec .getEntry s = .next (answered r rest .field [] s)) ∧
    (∀ e : EntryIx, u8 r.body 0 = e.val →
      (u8 r.body 1 = 0 → exec .getEntry s =
        .next (answered r rest .ok (field8 e.val ++ [0] ++ positionRecord (vget s.pln.staged e)) s)) ∧
      (u8 r.body 1 = 1 → exec .getEntry s =
        .next (answered r rest .ok (field8 e.val ++ [1] ++ positionRecord (vget s.pln.active e)) s)))) ∧
  (∀ s r rest, Serves .getSettings s r rest →
    (1 < u8 r.body 0 → exec .getSettings s = .next (answered r rest .field [] s)) ∧
    (u8 r.body 0 = 0 → exec .getSettings s = .next (answered r rest .ok
      ([0] ++ [if s.pln.armed = true then 1 else 0] ++ settingsRecord s.pln.stagedSettings) s)) ∧
    (u8 r.body 0 = 1 → exec .getSettings s = .next (answered r rest .ok
      ([1] ++ [if s.pln.armed = true then 1 else 0] ++ settingsRecord s.pln.activeSettings) s))) ∧
  (∀ s r rest, Serves .getChannel s r rest →
    (15 < u8 r.body 0 → exec .getChannel s = .next (answered r rest .index [] s)) ∧
    ∀ e : EntryIx, u8 r.body 0 = e.val →
      ∃ b, ChannelReport s e b ∧ exec .getChannel s = .next (answered r rest .ok b s)) ∧
  (∀ s r rest, Serves .getTransmit s r rest →
    ∃ b, TransmitReport s.txs b ∧ exec .getTransmit s = .next (answered r rest .ok b s)) ∧
  (∀ s r rest, Serves .getSupervision s r rest →
    ∃ b, SupervisionReport s b ∧ exec .getSupervision s = .next (answered r rest .ok b s)) ∧
  [CtxName.off, .acquire, .live, .fade, .muted, .test].map CtxName.code = [0, 1, 2, 3, 4, 5] ∧
  [none, some Cause.loss, some .operator, some .overlevel, some .testEnd].map causeCode = [0, 1, 2, 3, 4] ∧
  [Source.primary, .alternate].map sourceCode = [0, 1] ∧
  [Seq.offAir, .biasWait, .rampUp, .onAir, .rampDown, .cool, .held, .tripped].map Seq.code = [0, 1, 2, 3, 4, 5, 6, 7] ∧
  [Trip.none, .biasTimeout, .pa, .vswr, .link, .command].map Trip.code = [0, 1, 2, 3, 4, 5] ∧
  [Align.hunt, .confirm, .sync, .flywheel].map Align.code = [0, 1, 2, 3] ∧
  (∀ e, [MonMode.off, .scan, .lock e, .selftest].map MonMode.code = [0, 1, 2, 3]) ∧
  [SelfTest.none, .pass, .fail].map SelfTest.code = [0, 1, 2]

/-- A request of an unknown kind is answered UNKNOWN, and one whose body has not the length of its kind is answered LENGTH,
whichever the kind; neither changes any state outside SVC (R161). -/
def Obligations.UnknownAndLength : Prop :=
  (∀ s r rest, s.inReset = false → s.svc.queue = r :: rest → (portOf s r.trunk).outbox = none →
    (∀ k : Kind, r.kind.toNat ≠ k.code) → exec .unknownKind s = .next (answered r rest .unknown [] s)) ∧
  ∀ (k : Kind) s r rest, s.inReset = false → s.svc.queue = r :: rest → (portOf s r.trunk).outbox = none →
    r.kind.toNat = k.code → r.body.length ≠ k.bodyLength →
    exec (commandOf k) s = .next (answered r rest .length [] s)

/-- RESTART (R167): the response is placed, and in the same event every block takes its warm restart values (R1, R13, R18, R43,
R97, R99, R119, R138, R147). That EXT keeps the blocks it has cut and the generations of its tables is the model's reading
(notes/assumptions/21.md). -/
def Obligations.Restart : Prop :=
  ∀ s r rest, Serves .restart s r rest → ∃ u, exec .restart s = .next u ∧
    portOf u r.trunk = { portOf s r.trunk with outbox := some (responseTo s r .ok []) } ∧
    (∀ t, t ≠ r.trunk → portOf u t = portOf s t) ∧
    u.svc = ⟨[], 0, [⟨.reset true, false, false⟩]⟩ ∧
    u.ext = s.ext ∧ u.pln = { s.pln with armed := false } ∧
    (∀ e, (activeAt s e ≠ none → ctxAt u e = { Ctx.powerOn with state := .acquire }) ∧
      (activeAt s e = none → ctxAt u e = Ctx.powerOn)) ∧
    (∀ e, lineAt u e = (lineAt s e).map lineFlush) ∧ u.dst.writes = [] ∧ u.dst.reads = [] ∧
    (∀ e, vget u.dst.gapCounts e = 0) ∧ u.dst.overruns = 0 ∧ u.dst.pageMap = s.dst.pageMap ∧
    u.dst.gapMarks = s.dst.gapMarks ∧ u.dst.dram = s.dst.dram ∧ u.dst.refreshPending = s.dst.refreshPending ∧
    u.dst.refreshPeriod = s.pln.activeSettings.refresh ∧
    u.cmb.counter = 0 ∧ u.cmb.epochs = s.cmb.epochs ∧ (∀ e, vget u.cmb.held e = none ∧ vget u.cmb.next e = none ∧
      vget u.cmb.late e = 0) ∧ u.cmb.excess = 0 ∧ u.cmb.clips = 0 ∧
    u.cmb.course.map OutBlock.number = s.cmb.course.map OutBlock.number ∧
    u.cmb.course.map OutBlock.restarted = s.cmb.course.map (fun _ => true) ∧
    u.cmb.figures = ⟨none, s.pln.activeSettings.ceiling, 0, 0, false, 0, 0⟩ ∧
    u.txs = { s.txs with
      state := .offAir, keyed := false, atten := 300, foldback := 0, tripCount := 0, lastRL := none, cause := .none,
      further := false, bias := none, cool := none } ∧
    u.mon = { s.mon with mode := .off, returnMode := none, dwell := none } ∧
    u.pending = s.pending ∧ u.inReset = false

/-! ### Channel contexts: requests -/

/-- MUTE and UNMUTE (R60, R61): INDEX; STATE; the mute and its lifting, with the change reported and a dwell on the entry ended
when it was a contributor; MUTE of a channel the operator has muted changes nothing. -/
def Obligations.MuteUnmute : Prop :=
  (∀ s r rest, Serves .mute s r rest →
    (15 < u8 r.body 0 → exec .mute s = .next (answered r rest .index [] s)) ∧
    ∀ e : EntryIx, u8 r.body 0 = e.val →
      ((ctxAt s e).state = .off → exec .mute s = .next (answered r rest .state [] s)) ∧
      ((ctxAt s e).state = .muted .operator → exec .mute s = .next (answered r rest .ok [] s)) ∧
      ((ctxAt s e).state ≠ .off → (ctxAt s e).state ≠ .muted .operator →
        exec .mute s = .next (answered r rest .ok [] (reported e
          { settled (ctxAt s e) with
            state := .muted .operator
            shed := (ctxAt s e).shed && !isContributor (ctxAt s e).state }
          .request (dwellLeft e s))))) ∧
  ∀ s r rest, Serves .unmute s r rest →
    (15 < u8 r.body 0 → exec .unmute s = .next (answered r rest .index [] s)) ∧
    ∀ e : EntryIx, u8 r.body 0 = e.val →
      ((ctxAt s e).state = .muted .operator ∨ (ctxAt s e).state = .muted .testEnd →
        exec .unmute s = .next (answered r rest .ok []
          (reported e { settled (ctxAt s e) with state := .acquire } .request s))) ∧
      ((ctxAt s e).state ≠ .muted .operator → (ctxAt s e).state ≠ .muted .testEnd →
        exec .unmute s = .next (answered r rest .state [] s))

/-- CLEAR-FAULT(entry) (R63): INDEX; STATE in OFF; else the strike count and the LOW_OUTPUT mark are cleared, and a context in
MUTED(OVERLEVEL) enters ACQUIRE with the change reported. -/
def Obligations.ClearFaultEntry : Prop :=
  ∀ s r rest, Serves .clearFaultEntry s r rest →
    (15 < u8 r.body 0 → exec .clearFaultEntry s = .next (answered r rest .index [] s)) ∧
    ∀ e : EntryIx, u8 r.body 0 = e.val →
      ((ctxAt s e).state = .off → exec .clearFaultEntry s = .next (answered r rest .state [] s)) ∧
      ((ctxAt s e).state = .muted .overlevel → exec .clearFaultEntry s = .next (answered r rest .ok [] (reported e
        { settled (ctxAt s e) with state := .acquire, strikes := 0, lowOutput := false } .request s))) ∧
      ((ctxAt s e).state ≠ .off → (ctxAt s e).state ≠ .muted .overlevel →
        exec .clearFaultEntry s = .next (answered r rest .ok []
          { s with ctx := vput s.ctx e { ctxAt s e with strikes := 0, lowOutput := false } }))

/-- FORCE-SOURCE (R62): INDEX, FIELD, STATE, NO_ALTERNATE in that order; OK without a change for the source in use; else a source
switch with reason REQUEST that is no failover, at which the entry's read of the old source for the output block in course is
answered with nothing, also where it was answered before (R102). -/
def Obligations.ForceSource : Prop :=
  ∀ s r rest, Serves .forceSource s r rest →
    (15 < u8 r.body 0 → exec .forceSource s = .next (answered r rest .index [] s)) ∧
    ∀ e : EntryIx, u8 r.body 0 = e.val →
      let c := ctxAt s e
      let forcible := c.state = .acquire ∨ c.state = .live ∨ c.state = .fade
      (1 < u8 r.body 1 → exec .forceSource s = .next (answered r rest .field [] s)) ∧
      (u8 r.body 1 ≤ 1 → ¬forcible → exec .forceSource s = .next (answered r rest .state [] s)) ∧
      (u8 r.body 1 = 1 → forcible → (∀ en, activeAt s e = some en → en.alternate = none) →
        exec .forceSource s = .next (answered r rest .noAlternate [] s)) ∧
      ∀ src : Source, u8 r.body 1 = sourceCode src → forcible →
        (src = .alternate → ∃ en, activeAt s e = some en ∧ en.alternate ≠ none) →
        (src = c.source → exec .forceSource s = .next (answered r rest .ok [] s)) ∧
        (src ≠ c.source → ∃ t, exec .forceSource s = .next t ∧ SwitchedOver e False .request s t ∧
          (portOf t r.trunk).outbox = some (responseTo s r .ok []) ∧ t.svc.queue = rest ∧ t.svc.lost = 0 ∧
          (ctxAt t e).readyP = c.readyP ∧ (ctxAt t e).readyA = c.readyA ∧ t.pln = s.pln ∧ t.ext = s.ext ∧
          (∀ f, f ≠ e → ctxAt t f = ctxAt s f ∧ lineAt t f = lineAt s f) ∧ t.txs = s.txs ∧
          t.dst.dram = s.dst.dram ∧ t.dst.pageMap = s.dst.pageMap ∧ t.dst.gapMarks = s.dst.gapMarks)

/-! ### Channel contexts: blocks -/

/-- A block that reaches a context in OFF, or that was cut under a tap table standing before the switch that added or
path-changed the position, is discarded: it leaves EXT and nothing else changes (R44). -/
def Obligations.BlockDiscarded : Prop :=
  ∀ e r s before w after, Waits e r s before w after →
    ((ctxAt s e).state = .off ∨ w.gen < vget s.ext.since e) →
    exec (.channelBlock e r) s = .next { s with ext := { s.ext with waiting := before ++ after } }

/-- Each block taken updates the readiness counter of its own source first, whichever source is in use (R46), the bad block
counter counts bad blocks of the source in use alone (R47, R65). Beyond the context, its line with its queued accesses, gap
count and gap mark, its undelayed record, the answer of its read, a dwell on it and its notice, nothing changes (BlockFrame says
so block by block). -/
def Obligations.BlockReadiness : Prop :=
  ∀ e r s before w after en, Takes e r s before w after en → ∃ t, exec (.channelBlock e r) s = .next t ∧
    BlockFrame e s before after t ∧
    Stepped s.pln.activeSettings.acquire r (GoodBlock en w.block) (ctxAt s e) (ctxAt t e) ∧
    (r = (ctxAt s e).source → ¬GoodBlock en w.block →
      (ctxAt t e).badBlocks = min 65535 ((ctxAt s e).badBlocks + 1)) ∧
    (r ≠ (ctxAt s e).source ∨ GoodBlock en w.block → (ctxAt t e).badBlocks = (ctxAt s e).badBlocks) ∧
    (ctxAt t e).strikes = (ctxAt s e).strikes ∧ (ctxAt t e).lowOutput = (ctxAt s e).lowOutput ∧
    (ctxAt t e).done = (ctxAt s e).done

/-- The evaluation of the gain (R71 to R76): on a good block of the source in use an uninitialised gain becomes the desired
gain, and an initialised one steps toward it by attack or decay; on a bad block, and on a block of the other source, it is
held. A source switch leaves it uninitialised. -/
def Obligations.GainEvaluation : Prop :=
  ∀ e r s before w after en, Takes e r s before w after en → ∃ t, exec (.channelBlock e r) s = .next t ∧
    ((ctxAt t e).source ≠ (ctxAt s e).source → (ctxAt t e).gain = none) ∧
    ((ctxAt t e).source = (ctxAt s e).source →
      (r ≠ (ctxAt s e).source ∨ ¬GoodBlock en w.block → (ctxAt t e).gain = (ctxAt s e).gain) ∧
      ∀ l, r = (ctxAt s e).source → w.block.quality = .good → w.block.level = some l → en.loss ≤ l →
        ∃ g, (ctxAt t e).gain = some g ∧ GainAfter en l (ctxAt s e).gain g)

/-- What the loop makes of a block of the source in use (R77 to R80, Table 4-6): the last levels, the clip counter, and, when
the block causes no source switch, the record handed on (RecordOf, every row of Table 4-6): to CMB as the undelayed record of
an entry without pages, to DST for the line of one with pages. `g` is the gain as the evaluation left it. A block that causes
a source switch leaves the last output level and the clip counter by the gain held (bad by level) or evaluated (good) before
the switch. That an output level below -900 stands is the model's choice (notes/assumptions/40.md). -/
def Obligations.BlockLevels : Prop :=
  ∀ e s before w after en, Takes e (ctxAt s e).source s before w after en →
    ∃ t, exec (.channelBlock e (ctxAt s e).source) s = .next t ∧
      (w.block.quality ≠ .good → (ctxAt t e).lastIn = none ∧ (ctxAt t e).lastOut = none ∧
        (ctxAt t e).clips = (ctxAt s e).clips) ∧
      (∀ l, w.block.quality = .good → w.block.level = some l → (ctxAt t e).lastIn = some l) ∧
      (∀ l, w.block.quality = .good → w.block.level = some l → (ctxAt s e).gain = none → l < en.loss →
        (ctxAt t e).lastOut = none ∧ (ctxAt t e).clips = (ctxAt s e).clips) ∧
      (∀ l g, w.block.quality = .good → w.block.level = some l → l < en.loss → (ctxAt s e).gain = some g →
        LevelsAre l g (ctxAt s e) (ctxAt t e)) ∧
      (∀ l, w.block.quality = .good → w.block.level = some l → en.loss ≤ l →
        ∃ g, GainAfter en l (ctxAt s e).gain g ∧ LevelsAre l g (ctxAt s e) (ctxAt t e)) ∧
      ((ctxAt t e).source = (ctxAt s e).source →
        (∀ l g, w.block.quality = .good → w.block.level = some l → (ctxAt t e).gain = some g →
          LevelsAre l g (ctxAt s e) (ctxAt t e)) ∧
        ∃ r, RecordOf w.block (ctxAt t e).gain r ∧ (en.pages = 0 → vget t.cmb.next e = some r) ∧
          ∀ l, 0 < en.pages → lineAt s e = some l → t.dst = acceptRecord e l en.width r s.dst) ∧
      ((ctxAt t e).source ≠ (ctxAt s e).source → t.cmb.next = s.cmb.next)

/-- LIVE and FADE without an expiry (R49, R50, R51): a good block of the source in use brings LIVE with loss count 0 and the mark
clear; a bad one in LIVE brings FADE with loss count 1, and in FADE counts up below the bridge, or leaves the count while the
expired mark stands. A change of state or mark is reported with reason SIGNAL. -/
def Obligations.LiveAndFade : Prop :=
  ∀ e s before w after en, Takes e (ctxAt s e).source s before w after en →
    ∃ t, exec (.channelBlock e (ctxAt s e).source) s = .next t ∧
      ((ctxAt s e).state = .live → GoodBlock en w.block →
        (ctxAt t e).state = .live ∧ (ctxAt t e).loss = 0 ∧ (ctxAt t e).expired = (ctxAt s e).expired) ∧
      ((ctxAt s e).state = .live → ¬GoodBlock en w.block →
        (ctxAt t e).state = .fade ∧ (ctxAt t e).loss = 1 ∧ Notified e .signal t) ∧
      ((ctxAt s e).state = .fade → GoodBlock en w.block →
        (ctxAt t e).state = .live ∧ (ctxAt t e).loss = 0 ∧ (ctxAt t e).expired = false ∧ Notified e .signal t) ∧
      ((ctxAt s e).state = .fade → ¬GoodBlock en w.block → (ctxAt s e).expired = true →
        (ctxAt t e).state = .fade ∧ (ctxAt t e).loss = (ctxAt s e).loss ∧ (ctxAt t e).expired = true) ∧
      ((ctxAt s e).state = .fade → ¬GoodBlock en w.block → (ctxAt s e).expired = false →
        (ctxAt s e).loss + 1 < bridgeTime en.bridgeCode →
        (ctxAt t e).state = .fade ∧ (ctxAt t e).loss = (ctxAt s e).loss + 1 ∧ (ctxAt t e).expired = false) ∧
      ((ctxAt s e).state = .live ∨ (ctxAt s e).state = .fade ∧
          (GoodBlock en w.block ∨ (ctxAt s e).expired = true ∨ (ctxAt s e).loss + 1 < bridgeTime en.bridgeCode) →
        (ctxAt t e).source = (ctxAt s e).source ∧ (ctxAt t e).failovers = (ctxAt s e).failovers ∧
        (ctxAt t e).shed = (ctxAt s e).shed)

/-- An expiry (R51, R52): a bad block of the source in use in ACQUIRE or FADE, the mark clear, that brings the loss count to
the bridge. Under NOTIFY the state stays and the mark is set; under MUTE, and under FAILOVER when the alternate is absent or
the other source is not READY, MUTED(LOSS); under FAILOVER with the other source READY, a failover. A dwell on the entry ends
when its context leaves the contributor states (R142). A source switch answers the entry's read of the old source with nothing
(R102). -/
def Obligations.Expiry : Prop :=
  ∀ e s before w after en, Takes e (ctxAt s e).source s before w after en → ¬GoodBlock en w.block →
    (ctxAt s e).state = .acquire ∨ (ctxAt s e).state = .fade → (ctxAt s e).expired = false →
    bridgeTime en.bridgeCode ≤ (ctxAt s e).loss + 1 →
    ∃ t, exec (.channelBlock e (ctxAt s e).source) s = .next t ∧
      (en.expiry = .notify → (ctxAt t e).state = (ctxAt s e).state ∧ (ctxAt t e).loss = bridgeTime en.bridgeCode ∧
        (ctxAt t e).expired = true ∧ (ctxAt t e).source = (ctxAt s e).source ∧ Notified e .signal t) ∧
      (en.expiry = .mute ∨ en.expiry = .failover ∧
          (en.alternate = none ∨ ¬Ready s (ctxAt s e) (ctxAt s e).source.other) →
        (ctxAt t e).state = .muted .loss ∧ (ctxAt t e).loss = 0 ∧ (ctxAt t e).expired = false ∧
        (ctxAt t e).revert = 0 ∧ (ctxAt t e).shed = ((ctxAt s e).shed && !isContributor (ctxAt s e).state) ∧
        t.mon = (dwellLeft e s).mon ∧ (ctxAt t e).source = (ctxAt s e).source ∧ Notified e .signal t) ∧
      (en.expiry = .failover → en.alternate ≠ none → Ready s (ctxAt s e) (ctxAt s e).source.other →
        SwitchedOver e True .failover s t)

/-- Acquisition (R48): a good block of the source in use clears the loss count and the mark, and brings LIVE exactly when the
source is then READY and the line, as it stands after the handing on, holds the delay; where only the mark changes, the change
is reported (R51); a bad block that is no expiry counts. That the test is made on the fill as it stands within the block's own
step is notes/assumptions/37.md. -/
def Obligations.Acquisition : Prop :=
  ∀ e s before w after en, Takes e (ctxAt s e).source s before w after en → (ctxAt s e).state = .acquire →
    ∃ t, exec (.channelBlock e (ctxAt s e).source) s = .next t ∧
      (GoodBlock en w.block → (ctxAt t e).loss = 0 ∧ (ctxAt t e).expired = false ∧
        (ctxAt t e).source = (ctxAt s e).source ∧
        (Ready s (ctxAt t e) (ctxAt s e).source ∧
            (en.pages = 0 ∨ entryDelay en (ctxAt s e).source ≤ (lineAt t e).elim 0 Line.fill) →
          (ctxAt t e).state = .live ∧ Notified e .signal t) ∧
        (¬(Ready s (ctxAt t e) (ctxAt s e).source ∧
            (en.pages = 0 ∨ entryDelay en (ctxAt s e).source ≤ (lineAt t e).elim 0 Line.fill)) →
          (ctxAt t e).state = .acquire ∧ ((ctxAt s e).expired = true → Notified e .signal t))) ∧
      (¬GoodBlock en w.block → (ctxAt s e).expired = true →
        (ctxAt t e).state = .acquire ∧ (ctxAt t e).loss = (ctxAt s e).loss ∧ (ctxAt t e).expired = true) ∧
      (¬GoodBlock en w.block → (ctxAt s e).expired = false → (ctxAt s e).loss + 1 < bridgeTime en.bridgeCode →
        (ctxAt t e).state = .acquire ∧ (ctxAt t e).loss = (ctxAt s e).loss + 1 ∧ (ctxAt t e).expired = false)

/-- Recovery and revert (R55, R56). In MUTED(LOSS) a context recovers, after a block of either source, onto the source in use
when it is READY, or, where FAILOVER acts, onto the primary when READY and else the alternate. In LIVE or FADE on the alternate,
where revert acts, each good primary block counts, and one that brings the count to the hold with the primary READY switches
back; a bad one sets the count to 0. A source switch answers the entry's read of the old source with nothing (R102). `Ready` is
read after the block's own readiness update. -/
def Obligations.RecoveryAndRevert : Prop :=
  ∀ e r s before w after en, Takes e r s before w after en → ∃ t, exec (.channelBlock e r) s = .next t ∧
    let c := ctxAt s e
    let fails := en.expiry = .failover ∧ en.alternate ≠ none
    let reverts := fails ∧ en.revert = true ∧ c.source = .alternate ∧ (c.state = .live ∨ c.state = .fade)
    (∀ x : Source, c.state = .muted .loss →
      (¬fails ∧ x = c.source ∧ Ready s (ctxAt t e) x ∨
        fails ∧ Ready s (ctxAt t e) x ∧ (x = .alternate → ¬Ready s (ctxAt t e) .primary)) →
      (x = c.source → (ctxAt t e).state = .acquire ∧ (ctxAt t e).source = c.source ∧ (ctxAt t e).loss = 0 ∧
        Notified e .recovery t) ∧
      (x ≠ c.source → SwitchedOver e False .recovery s t)) ∧
    (c.state = .muted .loss → (¬fails → ¬Ready s (ctxAt t e) c.source) →
      (fails → ¬Ready s (ctxAt t e) .primary ∧ ¬Ready s (ctxAt t e) .alternate) →
      (ctxAt t e).state = .muted .loss ∧ (ctxAt t e).source = c.source) ∧
    (reverts → r = .primary → GoodBlock en w.block → revertHold en.revertCode ≤ c.revert + 1 →
      Ready s (ctxAt t e) .primary → SwitchedOver e False .revert s t) ∧
    (reverts → r = .primary → GoodBlock en w.block →
      (c.revert + 1 < revertHold en.revertCode ∨ ¬Ready s (ctxAt t e) .primary) →
      (ctxAt t e).revert = min 300000 (c.revert + 1) ∧ (ctxAt t e).source = .alternate ∧ (ctxAt t e).state = c.state) ∧
    (reverts → r = .primary → ¬GoodBlock en w.block →
      (ctxAt t e).revert = 0 ∧ (ctxAt t e).source = .alternate ∧ (ctxAt t e).state = c.state) ∧
    (¬reverts → (ctxAt t e).revert = c.revert ∨ (ctxAt t e).revert = 0)

/-! ### The delay store -/

/-- The arbiter (R92): when the access that holds the port completes, the port goes to a pending refresh, whose request the
grant clears, else to the oldest read, else to the oldest write, else to nobody. A completing refresh, or the rest of a burst
whose record has been removed, changes no queue. -/
def Obligations.AccessGrant : Prop :=
  ∀ s, s.inReset = false → ∃ t, exec .memoryAccessComplete s = .next t ∧ Granted s.dst.refreshPending t.dst ∧
    (s.dst.port ≠ .read → s.dst.port ≠ .write →
      t = { s with dst := { s.dst with port := t.dst.port, refreshPending := false } }) ∧
    t.pln = s.pln ∧ t.ctx = s.ctx ∧ t.ext = s.ext ∧ t.txs = s.txs ∧ t.mon = s.mon ∧ t.svc = s.svc ∧ t.rtA = s.rtA ∧
    t.rtB = s.rtB ∧ t.dst.pageMap = s.dst.pageMap ∧ t.dst.gapCounts = s.dst.gapCounts ∧
    t.dst.overruns = s.dst.overruns ∧ t.pending = s.pending ∧ t.free = s.free

/-- The bursts (R86, R90): a burst before the last of a record is counted and changes nothing else, which is the model's
reading of R86 (notes/assumptions/28.md). At the last burst of a write the record is in the DRAM at its position and at no
other, its gap mark is clear, and the fill goes up to at most the capacity; at the last burst of a read CMB is answered with
the record of its position. -/
def Obligations.BurstsComplete : Prop :=
  (∀ s w rest, s.inReset = false → s.dst.port = .write → s.dst.writes = w :: rest →
    ∃ t, exec .memoryAccessComplete s = .next t ∧ t.cmb = s.cmb ∧ t.dst.reads = s.dst.reads ∧
      (w.done + 1 < w.width → t.dst.writes = { w with done := w.done + 1 } :: rest ∧ t.dst.dram = s.dst.dram ∧
        t.dst.gapMarks = s.dst.gapMarks ∧ t.dst.lines = s.dst.lines) ∧
      (w.width ≤ w.done + 1 → t.dst.writes = rest ∧ dramRead t.dst w.cell = w.record ∧
        (∀ a, a ≠ w.cell → dramRead t.dst a = dramRead s.dst a) ∧
        (∀ a, a ∈ t.dst.gapMarks ↔ a ≠ w.cell ∧ a ∈ s.dst.gapMarks) ∧
        (∀ l, lineAt s w.entry = some l →
          lineAt t w.entry = some { l with fill := min (16 * l.pages.length) (l.fill + 1) }) ∧
        ∀ f, f ≠ w.entry ∨ lineAt s f = none → lineAt t f = lineAt s f)) ∧
  ∀ s x rest, s.inReset = false → s.dst.port = .read → s.dst.reads = x :: rest →
    ∃ t, exec .memoryAccessComplete s = .next t ∧ t.dst.writes = s.dst.writes ∧ t.dst.dram = s.dst.dram ∧
      t.dst.gapMarks = s.dst.gapMarks ∧ t.dst.lines = s.dst.lines ∧
      (x.done + 1 < x.width → t.dst.reads = { x with done := x.done + 1 } :: rest ∧ t.cmb = s.cmb) ∧
      (x.width ≤ x.done + 1 → t.dst.reads = rest ∧
        ∀ o, s.cmb.course = some o → t.cmb = { s.cmb with
          course := some { o with answers := vput o.answers x.entry (.data (dramRead s.dst x.cell)) } })

/-- The refresh timer (R93, R94, R95, R58): an expiry begins a period of the active length and raises the request, which an
idle port takes at once. With the request still pending it is a memory overrun: every line flushed, both queues empty and the
reads answered with nothing, the contexts in LIVE or FADE with pages returned to ACQUIRE, a dwell on one of them ended (R142),
the overrun counted and MEMORY posted. -/
def Obligations.RefreshAndOverrun : Prop :=
  (∀ s, s.inReset = false → s.dst.refreshPending = false → exec .refreshTimerExpiry s = .next
    { s with dst :=
      if s.dst.port = .idle then { s.dst with refreshPeriod := s.pln.activeSettings.refresh, port := .refresh }
      else { s.dst with refreshPeriod := s.pln.activeSettings.refresh, refreshPending := true } }) ∧
  ∀ s, s.inReset = false → s.dst.refreshPending = true → ∃ t, exec .refreshTimerExpiry s = .next t ∧
    (∀ e, lineAt t e = (lineAt s e).map lineFlush) ∧ t.dst.writes = [] ∧ t.dst.reads = [] ∧
    t.dst.refreshPending = true ∧ t.dst.refreshPeriod = s.pln.activeSettings.refresh ∧
    t.dst.overruns = min 255 (s.dst.overruns + 1) ∧ t.dst.pageMap = s.dst.pageMap ∧
    t.dst.gapMarks = s.dst.gapMarks ∧ t.dst.gapCounts = s.dst.gapCounts ∧ t.dst.dram = s.dst.dram ∧
    (∃ n ∈ t.svc.notices, n = ⟨.memory t.dst.overruns (s.dst.lines.toList.filterMap id).length, false, false⟩) ∧
    (∀ e en, activeAt s e = some en → 0 < en.pages → (ctxAt s e).state = .live ∨ (ctxAt s e).state = .fade →
      ctxAt t e = { settled (ctxAt s e) with state := .acquire, shed := false } ∧ Notified e .overrun t) ∧
    (∀ e, (ctxAt s e).state ≠ .live → (ctxAt s e).state ≠ .fade → ctxAt t e = ctxAt s e) ∧
    (∀ e, (∀ en, activeAt s e = some en → en.pages = 0) → ctxAt t e = ctxAt s e) ∧
    (let returned := fun e => (∃ en, activeAt s e = some en ∧ 0 < en.pages) ∧
      ((ctxAt s e).state = .live ∨ (ctxAt s e).state = .fade)
     (∀ d e, s.mon.dwell = some d → d.visited = .entry e → returned e → t.mon = { s.mon with dwell := none }) ∧
     ((∀ d e, s.mon.dwell = some d → d.visited = .entry e → ¬returned e) → t.mon = s.mon)) ∧
    (∀ o, s.cmb.course = some o → ∃ p, t.cmb.course = some p ∧
      ∀ e, ((∃ x ∈ s.dst.reads, x.entry = e) → vget p.answers e = .nothing) ∧
        ((∀ x ∈ s.dst.reads, x.entry ≠ e) → vget p.answers e = vget o.answers e)) ∧
    t.pln = s.pln ∧ t.ext = s.ext ∧ t.txs = s.txs ∧ t.rtA = s.rtA ∧ t.rtB = s.rtB ∧ t.svc.queue = s.svc.queue

/-- How DST accepts a record (R84, R85): with fewer than 32 writes queued it joins the back of the write queue at the line's
write position; else a GAP is entered there, with its mark, its fill and its count. Either way the write position advances, an
older queued write of the position is gone, and the DRAM stands. A block of the source in use that causes no source switch is
handed to the line of an entry with pages in just this way, as the record that the loop makes of it (RecordOf), an output level
below -900 included (notes/assumptions/40.md, the model's choice). -/
def Obligations.RecordAccepted : Prop :=
  (∀ e l width r d, let t := acceptRecord e l width r d
    let cell := lineCell l l.writePos
    let kept := d.writes.filter (fun x => !(x.entry == e && x.cell == cell))
    (∃ m, vget t.lines e = some m ∧ Advanced l m ∧
      (d.writes.length < 32 → m.fill = l.fill ∧ t.writes = kept ++ [⟨e, cell, r, width, 0⟩] ∧
        t.gapMarks = d.gapMarks ∧ t.gapCounts = d.gapCounts) ∧
      (32 ≤ d.writes.length → m.fill = min (16 * l.pages.length) (l.fill + 1) ∧ t.writes = kept ∧
        (∀ a, a ∈ t.gapMarks ↔ a = cell ∨ a ∈ d.gapMarks) ∧
        t.gapCounts = vput d.gapCounts e (min 65535 (vget d.gapCounts e + 1)))) ∧
    (∀ f, f ≠ e → vget t.lines f = vget d.lines f) ∧ t.dram = d.dram ∧ t.reads = d.reads ∧ t.pageMap = d.pageMap) ∧
  ∀ e s before w after en l, Takes e (ctxAt s e).source s before w after en → 0 < en.pages → lineAt s e = some l →
    ∃ t, exec (.channelBlock e (ctxAt s e).source) s = .next t ∧
      ((ctxAt t e).source = (ctxAt s e).source → ∃ r, t.dst = acceptRecord e l en.width r s.dst ∧
        RecordOf w.block (ctxAt t e).gain r ∧ r.lout = (ctxAt t e).lastOut ∧ r.kind = .data ∧
        r.samples.length = w.block.samples.length) ∧
      ((ctxAt t e).source ≠ (ctxAt s e).source → Flushed e s t)

/-- The start of a block period (R88, R89, R100, R102, R103, R126, R128, R151): the output block takes its number and the
foldback, the records handed on become the held ones, one read is queued for each contributor with pages and answered at once
unless its record lies in the DRAM, and the bias, cool and test timers step. The model's choices and readings here: the timers
step at this command (notes/assumptions/9.md); an expiry that is due here comes after CMB has sampled F and queued its reads
(42); EXT fixes the table of the period (11); the records handed on and the held ones are two places (12), as are the formed
samples and those to be sent (13); an unassembled output block is replaced and its reads are gone (15). -/
def Obligations.OutputStart : Prop :=
  ∀ s, s.inReset = false → ∃ t o, exec .outputBlockStart s = .next t ∧
    t.cmb = { s.cmb with course := some o, held := s.cmb.next, next := Vector.replicate 16 none } ∧
    o.number = s.cmb.counter ∧ o.foldback = s.txs.foldback ∧ o.restarted = false ∧
    (∀ e en l, ReadFor s e en l →
      (l.fill < entryDelay en (ctxAt s e).source ∨ l.accepted < max 1 (entryDelay en (ctxAt s e).source) →
        vget o.answers e = .nothing) ∧
      (entryDelay en (ctxAt s e).source ≤ l.fill → max 1 (entryDelay en (ctxAt s e).source) ≤ l.accepted →
        (∀ w, s.dst.writes.find? (fun w => w.cell == readCell s e en l) = some w → vget o.answers e = .data w.record) ∧
        ((∀ w ∈ s.dst.writes, w.cell ≠ readCell s e en l) → readCell s e en l ∈ s.dst.gapMarks →
          vget o.answers e = .gap)) ∧
      (GoesToDram s e en l → vget o.answers e = .waiting)) ∧
    (∀ e, (∀ en l, ¬ReadFor s e en l) → vget o.answers e = .unread) ∧
    (∀ x, x ∈ t.dst.reads ↔ ∃ en l, ReadFor s x.entry en l ∧ GoesToDram s x.entry en l ∧
      x.cell = readCell s x.entry en l ∧ x.width = en.width ∧ x.done = 0) ∧
    t.dst.reads.Pairwise (fun a b => a.entry < b.entry) ∧
    t.dst.writes = s.dst.writes ∧ t.dst.lines = s.dst.lines ∧ t.dst.gapMarks = s.dst.gapMarks ∧
    t.dst.dram = s.dst.dram ∧ t.dst.pageMap = s.dst.pageMap ∧
    t.txs = { s.txs with
      bias := s.txs.bias.map (· - 1), cool := s.txs.cool.map (· - 1), toSend := s.txs.formed, formed := none } ∧
    (∀ e n l, (ctxAt s e).state = .test n l → ctxAt t e = { ctxAt s e with state := .test (n - 1) l }) ∧
    (∀ e, (∀ n l, (ctxAt s e).state ≠ .test n l) → ctxAt t e = ctxAt s e) ∧
    t.ext = { s.ext with periodRows := s.ext.rows, periodGen := s.ext.gen } ∧
    t.pln = s.pln ∧ t.mon = s.mon ∧ t.svc = s.svc ∧ t.rtA = s.rtA ∧ t.rtB = s.rtB

/-! ### The combiner -/

/-- The composite level (R106) does not depend on the order in which the levels are given: it is that of the levels taken from
the strongest down, none of the empty set, and at least every level. -/
def Obligations.CompositeLevel : Prop :=
  composite [] = none ∧
  (∀ l m total, l.Perm m → CompositeIs l total → composite m = some total) ∧
  (∀ m, m ≠ [] → ∃ l total, l.Perm m ∧ CompositeIs l total) ∧
  ∀ m total, composite m = some total → ∀ a ∈ m, a ≤ total

/-- The power budget (R108 to R110, R112): the backoff is the larger of 0 and the excess of the contributors that remain; it
exceeds Bmax only when all of them are protected; those shed are sheddable, go before every contributor that remains, and the
last of them was needed; only a block that sheds nothing restores, and then the first to restore and only when its trial
composite lies H below. -/
def Obligations.BudgetLaws : Prop :=
  ∀ (keff : Int) (bmax hyst : Nat) (unshed shed : List Share),
    (unshed.map Share.entry).Nodup → (shed.map Share.entry).Nodup →
    let b := budget keff bmax hyst unshed shed
    (b.contributors ++ b.newlyShed).Perm unshed ∧
    b.composite = composite (b.contributors.map Share.level) ∧
    (∀ c, b.composite = some c → (b.backoff : Int) = max 0 (c - keff)) ∧ (b.composite = none → b.backoff = 0) ∧
    (b.excess = true ↔ ∃ c, b.composite = some c ∧ (bmax : Int) < c - keff) ∧
    (bmax < b.backoff → ∀ c ∈ b.contributors, 7 ≤ c.priority) ∧
    (∀ x ∈ b.newlyShed, x.priority < 7 ∧ ∀ c ∈ b.contributors, ShedBefore x c) ∧
    (∀ l x, b.newlyShed = l ++ [x] →
      ∃ c, composite ((x :: b.contributors).map Share.level) = some c ∧ (bmax : Int) < c - keff) ∧
    (b.newlyShed ≠ [] → b.restored = none) ∧
    (b.newlyShed = [] → ∀ x, b.restored = some x ↔ FirstToRestore shed x ∧
      ∃ c, composite ((x :: b.contributors).map Share.level) = some c ∧ c - keff ≤ (bmax : Int) - hyst)

/-- The assembly of the output block in course (R91, R99 to R105, R107 to R112, R118): levels, budget, late reads, shed flags
with their notices, the last block figures, the counts, the counter and the epoch count. Plan switches apart (see PlanSwitch),
the contexts change in their shed flags alone, and MON alone loses a dwell on a context that is shed (R142). An output block
that began before a warm restart has no contributors (R99). -/
def Obligations.BlockAssembled : Prop :=
  ∀ s o, s.inReset = false → s.cmb.course = some o → ¬Switches o s →
    ∃ u, exec .outputBlockAssembly s = .next u ∧
      let b := budgetAt o s
      u.cmb.figures = ⟨b.composite, s.pln.activeSettings.ceiling - o.foldback, o.foldback, b.backoff, b.excess,
        b.contributors.length, (u.ctx.toList.filter Ctx.shed).length⟩ ∧
      u.cmb.excess = (if b.excess = true then min 65535 (s.cmb.excess + 1) else s.cmb.excess) ∧
      (∀ e, (∃ x ∈ b.newlyShed, x.entry = e) →
        ctxAt u e = { ctxAt s e with shed := true } ∧ Notified e .shed u) ∧
      (∀ e x, b.restored = some x → x.entry = e →
        ctxAt u e = { ctxAt s e with shed := false } ∧ Notified e .restore u) ∧
      (∀ e, (∀ x ∈ b.newlyShed, x.entry ≠ e) → (∀ x, b.restored = some x → x.entry ≠ e) → ctxAt u e = ctxAt s e) ∧
      (∀ e d, s.mon.dwell = some d → d.visited = .entry e → NewlyShed o s e → u.mon = { s.mon with dwell := none }) ∧
      ((∀ e d, s.mon.dwell = some d → d.visited = .entry e → ¬NewlyShed o s e) → u.mon = s.mon) ∧
      (o.restarted = true → b.contributors = [] ∧ b.newlyShed = [] ∧ b.restored = none) ∧
      (∀ e, vget u.cmb.late e =
        if vget o.answers e = .waiting then min 65535 (vget s.cmb.late e + 1) else vget s.cmb.late e) ∧
      u.dst.reads = [] ∧ u.dst.writes = s.dst.writes ∧ u.dst.dram = s.dst.dram ∧ u.dst.lines = s.dst.lines ∧
      u.cmb.course = none ∧ (∀ e, vget u.cmb.held e = none) ∧ u.cmb.next = s.cmb.next ∧
      u.cmb.counter = (if o.restarted = true then s.cmb.counter else (s.cmb.counter + 1) % 64) ∧
      u.cmb.epochs = (if o.restarted = false ∧ o.number = 0 then (s.cmb.epochs + 1) % 65536 else s.cmb.epochs) ∧
      u.pln = s.pln ∧ u.ext = s.ext ∧ u.rtA = s.rtA ∧ u.rtB = s.rtB ∧ u.svc.queue = s.svc.queue

/-- The ramp and the forming of the drive samples (R115, R116, R120, R127, R128): at a completed output block the attenuation
steps in RAMP_UP and RAMP_DOWN, and the samples are formed under the state and attenuation that result: zeros and no applied
levels in a silent state; else the sum of the contributors' placed samples, each turned down by the backoff, clamped and
attenuated, with the applied level of every contributor its level less backoff and attenuation. Sample by sample, a record's
placed samples are its raised ones, and a tone's a constant amplitude at its level, moved to the centre of the output range
plus the fine offset (R113, R114); a raised sample is what the channel's lines make together, in parts of 2 ^ 16
(notes/assumptions/3.md and 4.md). The sample clip count goes up by one exactly when a summed sample lies above full scale
(R117). That placing comes first and attenuation last is notes/assumptions/20.md. A block without contributors is silent and
clips nothing. -/
def Obligations.RampAndDrive : Prop :=
  (∀ (n : Nat) (e : EntryIx) (en : Entry) (src : Source),
    (∀ level l, (placeOffer n e en src (.samples level l)).length = 48000 ∧ ∀ i < 48000, ∃ x,
      (placeOffer n e en src (.samples level l))[i]? = some x ∧
      PlacedBy n e (placedCentre en src) i (raisedSample l.length (rangeLines l.length l) i) x) ∧
    ∀ level, (placeOffer n e en src (.tone level)).length = 48000 ∧ ∀ i < 48000, ∃ x,
      (placeOffer n e en src (.tone level))[i]? = some x ∧
      PlacedBy n e (toneCentre en) i ⟨scaleComponent level (32767 * 2 ^ 16), 0⟩ x) ∧
  (∀ (total i : Nat) (lines : List Sample), 0 < total → ∀ part : Sample → Int, (part = Sample.re ∨ part = Sample.im) →
    let exact := part (ofLines lines 48000 i) * 2 ^ 16
    let raised := part (raisedSample total lines i) * (total * unitOne ^ 2)
    raised ≤ exact ∧ exact < raised + total * unitOne ^ 2) ∧
  ∀ s o, s.inReset = false → s.cmb.course = some o → ¬Switches o s →
    ∃ u d, exec .outputBlockAssembly s = .next u ∧ u.txs.formed = some d ∧
      let step := s.pln.activeSettings.rampStep
      let x := s.txs
      (x.state = .rampUp → x.atten ≤ step → u.txs.state = .onAir ∧ u.txs.atten = 0) ∧
      (x.state = .rampUp → step < x.atten → u.txs.state = .rampUp ∧ u.txs.atten = x.atten - step) ∧
      (x.state = .rampDown → x.atten + step < 300 → u.txs.state = .rampDown ∧ u.txs.atten = x.atten + step) ∧
      (x.state = .rampDown → 300 ≤ x.atten + step → u.txs.atten = 300 ∧
        (0 < s.pln.activeSettings.coolTime →
          u.txs.state = .cool ∧ u.txs.cool = some s.pln.activeSettings.coolTime) ∧
        (s.pln.activeSettings.coolTime = 0 → u.txs.state = .offAir ∧ u.txs.cool = none ∧ u.txs.foldback = 0 ∧
          u.txs.tripCount = 0)) ∧
      (x.state ≠ .rampUp → x.state ≠ .rampDown → u.txs = { x with formed := some d }) ∧
      (x.state ≠ u.txs.state → ⟨transmitContent u.txs, false, false⟩ ∈ u.svc.notices) ∧
      DriveFormed o s u.txs d ∧
      Clipped o s u ∧ ((budgetAt o s).contributors = [] → u.cmb.clips = s.cmb.clips)

/-! ### The transmit sequencer and the drive link -/

/-- A forward frame (R120): at the offsets of Table 11-3 the sync pattern, the frame number, the bias and drive-active lines
by the state at that moment, the 48000 samples formed for it or zeros, and the check. That only the state at the sending
decides which is notes/assumptions/38.md. The frame number goes up. A frame that is not measured leaves MON, the contexts and
the notices as they were (R139). -/
def Obligations.ForwardFrame : Prop :=
  (∀ (number : Nat) (bias active : Bool) (samples : List Sample),
    let b := forwardDriveBytes number bias active samples
    Framed b [0x5A, 0x3C, 0xC3, 0xA5] (7 + 4 * samples.length) ∧ u16 b 4 = min 65535 number ∧ FlagField b 6 [bias, active] ∧
    ∀ (k : Nat) z, samples[k]? = some z →
      s16 b (7 + 4 * k) = max (-32768) (min 32767 z.re) ∧ s16 b (9 + 4 * k) = max (-32768) (min 32767 z.im)) ∧
  ∀ s, s.inReset = false → ∃ t, exec .forwardDriveFrame s = .next t ∧
    t.txs = { s.txs with
      fwdNumber := (s.txs.fwdNumber + 1) % 1024
      lastForward := some (forwardDriveBytes s.txs.fwdNumber
        (decide (s.txs.state ≠ .offAir ∧ s.txs.state ≠ .tripped))
        (decide (s.txs.state = .rampUp ∨ s.txs.state = .onAir ∨ s.txs.state = .rampDown)) (heardWith s).samples) } ∧
    (¬Measured s → t.mon = s.mon ∧ t.ctx = s.ctx ∧ t.svc = s.svc) ∧
    t.rtA = s.rtA ∧ t.rtB = s.rtB ∧ t.ext = s.ext ∧ t.pln = s.pln ∧ t.dst = s.dst ∧ t.cmb = s.cmb ∧
    t.svc.queue = s.svc.queue ∧ t.svc.lost = s.svc.lost ∧ t.pending = s.pending

/-- Dwells of the monitor (R140, R141, R143, R144), at a measured frame. `power` is the mean power of the frame's samples
across the visited range: the powers of the range's lines together (notes/assumptions/5.md), 0 of a frame of zeros, whose
level is -900. The level of a mean power is rounded as that of a block (see LevelsAndScalingRound). Of the reference it is
-200 (R144), so that a self-test all of whose frames were counted passes. That a dwell begins only on an entry that is still
an unshed contributor when the frame is sent is the model's reading of R140 (notes/assumptions/23.md). A dwell in progress
counts the frame when the visited entry has an applied level; at its length it completes with the finding of Table 8-2, the
third strike in a row muting a contributor, or with the self-test's result and the return mode. The other fields of the
visited context stand. Without a dwell, SCAN, LOCK or SELFTEST begins one when it may. -/
def Obligations.MonitorDwell : Prop :=
  (∀ l start width,
    let moved := shiftBand 0 (-(Config.bandEdgeHz + rangeCentre start width)) l
    rangePower l start width =
      ((((List.range (500 * width)).map fun j : Nat => samplePower (lineOf moved ((j : Int) - 250 * width))).sum : Nat) : Rat) /
        ((l.length : Rat) * 2 ^ 96) ^ 2 ∧ 0 ≤ rangePower l start width ∧
    ((∀ z ∈ l, z = ⟨0, 0⟩) → rangePower l start width = 0 ∧ levelOfPower (rangePower l start width) = -900)) ∧
  (∀ p : Rat, 0 ≤ p → ∃ k : Nat, levelOfPower p = -(k : Int) ∧ k ≤ 900 ∧
    (0 < k → p ^ 200 * 10 ^ (2 * k - 1) < (32767 ^ 2) ^ 200) ∧
    (k < 900 → (32767 ^ 2) ^ 200 ≤ p ^ 200 * 10 ^ (2 * k + 1))) ∧
  ∀ s, s.inReset = false → Measured s → ∃ t, exec .forwardDriveFrame s = .next t ∧
    (∀ d e, s.mon.dwell = some d → d.visited = .entry e → (∀ a ∈ (heardWith s).applied, a.entry ≠ e) →
      t.mon = s.mon ∧ t.ctx = s.ctx ∧ t.svc = s.svc) ∧
    (∀ d e a, s.mon.dwell = some d → d.visited = .entry e →
      (heardWith s).applied.find? (fun a => a.entry == e) = some a →
      let power := rangePower (heardWith s).samples a.start a.width
      (d.count + 1 < d.length →
        t.mon = { s.mon with dwell := some { d with count := d.count + 1, power := d.power + power } } ∧ t.ctx = s.ctx ∧
          t.svc = s.svc) ∧
      (d.length ≤ d.count + 1 →
        let m := levelOfPower ((d.power + power) / ((d.count + 1 : Nat) : Rat))
        ∃ mutes : Prop, FindingIs m a.level s.pln.activeSettings.tolerance (ctxAt s e) (ctxAt t e).strikes
            ((ctxAt t e).lowOutput = true) mutes ∧
          t.mon = { s.mon with dwell := none } ∧ (∀ f, f ≠ e → ctxAt t f = ctxAt s f) ∧
          (mutes → isContributor (ctxAt s e).state = true →
            ctxAt t e = { settled (ctxAt s e) with
              state := .muted .overlevel, shed := false, strikes := (ctxAt t e).strikes, lowOutput := (ctxAt t e).lowOutput } ∧
            Notified e .monitor t) ∧
          (¬mutes ∨ isContributor (ctxAt s e).state = false →
            ctxAt t e = { ctxAt s e with strikes := (ctxAt t e).strikes, lowOutput := (ctxAt t e).lowOutput } ∧
            t.svc = s.svc))) ∧
    (∀ d, s.mon.dwell = some d → d.visited = .reference →
      let power : Rat := (32767 ^ 2 : Nat) / 100
      t.ctx = s.ctx ∧ t.svc = s.svc ∧
      (d.count + 1 < d.length →
        t.mon = { s.mon with dwell := some { d with count := d.count + 1, power := d.power + power } }) ∧
      (d.length ≤ d.count + 1 →
        let m := levelOfPower ((d.power + power) / ((d.count + 1 : Nat) : Rat))
        t.mon = { s.mon with
          dwell := none, returnMode := none, mode := s.mon.returnMode.getD .off
          selftest := if -200 - (s.pln.activeSettings.tolerance : Int) ≤ m ∧ m ≤ -200 + (s.pln.activeSettings.tolerance : Int)
            then .pass else .fail } ∧
        (d.power = d.count * power → t.mon.selftest = .pass))) ∧
    (s.mon.dwell = none → 2 ≤ s.pln.activeSettings.dwell → t.ctx = s.ctx ∧ t.svc = s.svc ∧
      (∀ e, s.mon.mode = .scan → ScanVisits s e →
        ∃ d, t.mon = { s.mon with scanPos := e, dwell := some d } ∧ d.visited = .entry e ∧ d.count = 1 ∧
          d.length = s.pln.activeSettings.dwell ∧ ∀ a, (heardWith s).applied.find? (fun a => a.entry == e) = some a →
            d.power = rangePower (heardWith s).samples a.start a.width) ∧
      (s.mon.mode = .scan → (∀ e, ¬Visitable s e) → t.mon = s.mon) ∧
      (∀ e, s.mon.mode = .lock e → Visitable s e →
        ∃ d, t.mon = { s.mon with dwell := some d } ∧ d.visited = .entry e ∧ d.count = 1 ∧
          d.length = s.pln.activeSettings.dwell ∧ ∀ a, (heardWith s).applied.find? (fun a => a.entry == e) = some a →
            d.power = rangePower (heardWith s).samples a.start a.width) ∧
      (∀ e, s.mon.mode = .lock e → ¬Visitable s e → t.mon = s.mon) ∧
      (s.mon.mode = .selftest → ∃ d, t.mon = { s.mon with dwell := some d } ∧ d.visited = .reference ∧ d.count = 1 ∧
        d.length = s.pln.activeSettings.dwell ∧ d.power = (32767 ^ 2 : Nat) / 100))

/-- SET-MONITOR (R145): FIELD; INDEX; OK without a change for the present mode; SELFTEST ends a dwell and keeps the present mode
as the return mode; any other mode ends a dwell and discards the return mode. -/
def Obligations.SetMonitor : Prop :=
  ∀ s r rest, Serves .setMonitor s r rest →
    (3 < u8 r.body 0 → exec .setMonitor s = .next (answered r rest .field [] s)) ∧
    (u8 r.body 0 = 2 → 15 < u8 r.body 1 → exec .setMonitor s = .next (answered r rest .index [] s)) ∧
    ∀ m : MonMode, u8 r.body 0 = m.code → (∀ e, m = .lock e → u8 r.body 1 = e.val) →
      (m = s.mon.mode → exec .setMonitor s = .next (answered r rest .ok [] s)) ∧
      (m ≠ s.mon.mode → m = .selftest → exec .setMonitor s = .next (answered r rest .ok []
        { s with mon := { s.mon with dwell := none, returnMode := some s.mon.mode, mode := .selftest } })) ∧
      (m ≠ s.mon.mode → m ≠ .selftest → exec .setMonitor s = .next (answered r rest .ok []
        { s with mon := { s.mon with dwell := none, returnMode := none, mode := m } }))

/-- An invalid reverse frame (R121, R132, R133): counted, the held readings kept; at a count of 8 the link becomes LOST, which
trips a bias-on state with cause LINK and is a further fault in TRIPPED. -/
def Obligations.ReverseInvalid : Prop :=
  ∀ w s, s.inReset = false → InvalidFrame w →
    let n := min 255 (s.txs.invalid + 1)
    let x := { s.txs with invalid := n, linkUp := s.txs.linkUp && decide (n < 8) }
    (¬(s.txs.linkUp = true ∧ 8 ≤ n) ∨ s.txs.state = .offAir →
      exec (.reverseDriveFrame w) s = .next { s with txs := x }) ∧
    (s.txs.linkUp = true → 8 ≤ n → s.txs.state = .tripped →
      exec (.reverseDriveFrame w) s = .next (furthered x s)) ∧
    (s.txs.linkUp = true → 8 ≤ n → s.txs.state ≠ .offAir → s.txs.state ≠ .tripped →
      ∃ t, exec (.reverseDriveFrame w) s = .next t ∧ TripTo .link x s t)

/-- A valid reverse frame (R121, R122, R126, R130 to R133). It is held and the link is UP. In TRIPPED a rising alarm is a further
fault. Elsewhere PA ready ends a bias wait; then in a bias-on state other than BIAS_WAIT an alarm, or PA not ready, trips with
cause PA; else in a driving state a reading with P at or above -200 is evaluated, and the trip count reaching its setting trips
with cause VSWR. -/
def Obligations.ReverseValid : Prop :=
  ∀ w s p r ready alarm, s.inReset = false → ValidFrame w p r ready alarm →
    let x := held p r ready alarm s.txs
    let y := if s.txs.state = .biasWait ∧ ready = true then readied x else x
    let set := s.pln.activeSettings
    let bad := y.state ≠ .offAir ∧ y.state ≠ .biasWait ∧ (alarm = true ∨ ready = false)
    let evaluates := (y.state = .rampUp ∨ y.state = .onAir ∨ y.state = .rampDown) ∧ -200 ≤ p
    let before := if s.txs.state = y.state then { s with txs := y } else sequenced y s
    (s.txs.state = .tripped → exec (.reverseDriveFrame w) s =
      .next (if alarm = true ∧ s.txs.paAlarm = false then furthered x s else { s with txs := x })) ∧
    (s.txs.state ≠ .tripped → bad → ∃ t, exec (.reverseDriveFrame w) s = .next t ∧ TripTo .pa y s t) ∧
    (s.txs.state ≠ .tripped → ¬bad → ¬evaluates → exec (.reverseDriveFrame w) s = .next before) ∧
    (s.txs.state ≠ .tripped → ¬bad → evaluates →
      (p - r < set.tripRL ∧ set.tripCount ≤ min 100 (y.tripCount + 1) →
        ∃ t, exec (.reverseDriveFrame w) s = .next t ∧ TripTo .vswr (judged set y) s t) ∧
      (¬(p - r < set.tripRL ∧ set.tripCount ≤ min 100 (y.tripCount + 1)) →
        exec (.reverseDriveFrame w) s = .next { before with txs := judged set y }))

/-- Reference qualification and the two timers of the sequencer (R123, R126, R128, R129). With lock the counter rises to the
setting, where ref_ok becomes true and HELD goes on to RAMP_UP when keyed; without lock both fall, and a driving state is
silenced into HELD when keyed and else COOL. An expiry acts in its state when its timer has run out; otherwise the command
comes to nothing, which is the model's choice (notes/assumptions/9.md). -/
def Obligations.ReferenceAndTimers : Prop :=
  (∀ s, s.inReset = false →
    let set := s.pln.activeSettings
    let n := min set.refQual (s.txs.qual + 1)
    let x := { s.txs with qual := n, refOk := true }
    (s.txs.refOk = false → n ≠ set.refQual →
      exec (.referenceLockSample true) s = .next { s with txs := { s.txs with qual := n } }) ∧
    (s.txs.refOk = true ∨ n = set.refQual ∧ ¬(s.txs.state = .held ∧ s.txs.keyed = true) →
      exec (.referenceLockSample true) s = .next { s with txs := x }) ∧
    (s.txs.refOk = false → n = set.refQual → s.txs.state = .held → s.txs.keyed = true →
      exec (.referenceLockSample true) s = .next (sequenced (readied x) s))) ∧
  (∀ s, s.inReset = false →
    let x := { s.txs with qual := 0, refOk := false }
    let drives := s.txs.state = .rampUp ∨ s.txs.state = .onAir ∨ s.txs.state = .rampDown
    (s.txs.refOk = false ∨ ¬drives → exec (.referenceLockSample false) s = .next { s with txs := x }) ∧
    (s.txs.refOk = true → drives → s.txs.keyed = true →
      exec (.referenceLockSample false) s = .next (sequenced (readied x) (airLeft s))) ∧
    (s.txs.refOk = true → drives → s.txs.keyed = false →
      exec (.referenceLockSample false) s = .next (sequenced (cooled s.pln.activeSettings.coolTime x) (airLeft s)))) ∧
  (∀ s, s.inReset = false →
    (s.txs.state = .biasWait → s.txs.bias = some 0 →
      ∃ t, exec .biasTimerExpiry s = .next t ∧ TripTo .biasTimeout s.txs s t) ∧
    (s.txs.state ≠ .biasWait ∨ s.txs.bias ≠ some 0 → exec .biasTimerExpiry s = .next s)) ∧
  ∀ s, s.inReset = false →
    (s.txs.state = .cool → s.txs.cool = some 0 → exec .coolTimerExpiry s = .next (sequenced
      { s.txs with state := .offAir, bias := none, cool := none, foldback := 0, tripCount := 0, lastRL := none } s)) ∧
    (s.txs.state ≠ .cool ∨ s.txs.cool ≠ some 0 → exec .coolTimerExpiry s = .next s)

/-- KEY and UNKEY (R124, R125). -/
def Obligations.KeyAndUnkey : Prop :=
  (∀ s r rest, Serves .key s r rest →
    let x := { s.txs with keyed := true }
    let deadline := s.pln.activeSettings.biasDeadline
    (s.txs.state = .tripped → exec .key s = .next (answered r rest .tripped [] s)) ∧
    (s.txs.state = .offAir → s.txs.linkUp = true → exec .key s = .next (answered r rest .ok []
      (sequenced { x with state := .biasWait, bias := some deadline, cool := none } s))) ∧
    (s.txs.state = .offAir → s.txs.linkUp = false →
      ∃ t, TripTo .link s.txs s t ∧ exec .key s = .next (answered r rest .tripped [] t)) ∧
    (s.txs.state = .cool → s.txs.paReady = true →
      exec .key s = .next (answered r rest .ok [] (sequenced (readied x) s))) ∧
    (s.txs.state = .cool → s.txs.paReady = false → exec .key s = .next (answered r rest .ok []
      (sequenced { x with state := .biasWait, bias := some deadline, cool := none } s))) ∧
    (s.txs.state = .rampDown → exec .key s = .next (answered r rest .ok [] (sequenced { x with state := .rampUp } s))) ∧
    (s.txs.state = .biasWait ∨ s.txs.state = .rampUp ∨ s.txs.state = .onAir ∨ s.txs.state = .held →
      exec .key s = .next (answered r rest .ok [] { s with txs := x }))) ∧
  ∀ s r rest, Serves .unkey s r rest →
    let x := { s.txs with keyed := false }
    (s.txs.state = .biasWait → exec .unkey s = .next (answered r rest .ok [] (sequenced
      { x with state := .offAir, bias := none, cool := none, foldback := 0, tripCount := 0, lastRL := none } s))) ∧
    (s.txs.state = .rampUp → exec .unkey s = .next (answered r rest .ok [] (sequenced { x with state := .rampDown } s))) ∧
    (s.txs.state = .onAir → exec .unkey s = .next (answered r rest .ok []
      (sequenced { x with state := .rampDown, atten := 0 } (airLeft s)))) ∧
    (s.txs.state = .held → exec .unkey s = .next (answered r rest .ok []
      (sequenced (cooled s.pln.activeSettings.coolTime x) s))) ∧
    (s.txs.state = .offAir ∨ s.txs.state = .rampDown ∨ s.txs.state = .cool ∨ s.txs.state = .tripped →
      exec .unkey s = .next (answered r rest .ok [] { s with txs := x }))

/-- SHUTDOWN and CLEAR-FAULT(transmit) (R134, R135). -/
def Obligations.ShutdownAndClear : Prop :=
  (∀ s r rest, Serves .shutdown s r rest →
    (s.txs.state ≠ .tripped → ∃ t, TripTo .command s.txs s t ∧ exec .shutdown s = .next (answered r rest .ok [] t)) ∧
    (s.txs.state = .tripped → exec .shutdown s = .next (answered r rest .ok [] (furthered s.txs s)))) ∧
  ∀ s r rest, Serves .clearFaultTransmit s r rest →
    (s.txs.state ≠ .tripped → exec .clearFaultTransmit s = .next (answered r rest .state [] s)) ∧
    (s.txs.state = .tripped → s.txs.paAlarm = true ∨ s.txs.linkUp = false →
      exec .clearFaultTransmit s = .next (answered r rest .active [] s)) ∧
    (s.txs.state = .tripped → s.txs.paAlarm = false → s.txs.linkUp = true →
      exec .clearFaultTransmit s = .next (answered r rest .ok [] (sequenced
        { s.txs with
          state := .offAir, cause := .none, further := false, bias := none, cool := none, foldback := 0, tripCount := 0,
          lastRL := none } s)))

/-! ### Timed test tones -/

/-- TEST-START, TEST-STOP and the expiry of a test (R148 to R153): the refusals in their order, a duration code of 0 stopping the
test, the level and the code clamped, the start with its report and the restart without one; the stop without and the expiry
with the done flag, under the test end action. An expiry of a test whose time has not run out comes to nothing, which is the
model's choice (notes/assumptions/9.md). -/
def Obligations.TestTones : Prop :=
  (∀ s r rest, Serves .testStart s r rest →
    (15 < u8 r.body 0 → exec .testStart s = .next (answered r rest .index [] s)) ∧
    ∀ e : EntryIx, u8 r.body 0 = e.val →
      let c := ctxAt s e
      let level := max (-400) (min 0 (s16 r.body 1))
      let code := min 9 (u8 r.body 3)
      let status := if level = s16 r.body 1 ∧ code = u8 r.body 3 then Status.ok else Status.clamped
      let body := field8 e.val ++ fieldS16 level ++ field8 code
      (u8 r.body 3 = 0 → (∀ n l, c.state ≠ .test n l) → exec .testStart s = .next (answered r rest .state [] s)) ∧
      (u8 r.body 3 = 0 → (∃ n l, c.state = .test n l) → exec .testStart s = .next (answered r rest .ok r.body
        (reported e { settled c with state := .acquire, shed := false } .test (dwellLeft e s)))) ∧
      (0 < u8 r.body 3 → c.state = .off ∨ c.state = .muted .overlevel →
        exec .testStart s = .next (answered r rest .state [] s)) ∧
      (0 < u8 r.body 3 → c.state ≠ .off → c.state ≠ .muted .overlevel → (∀ n l, c.state ≠ .test n l) →
        exec .testStart s = .next (answered r rest status body
          (reported e { settled c with state := .test (testDuration code) level, done := false } .test s))) ∧
      (0 < u8 r.body 3 → (∃ n l, c.state = .test n l) → exec .testStart s = .next (answered r rest status body
        { s with ctx := vput s.ctx e { c with state := .test (testDuration code) level } }))) ∧
  (∀ s r rest, Serves .testStop s r rest →
    (15 < u8 r.body 0 → exec .testStop s = .next (answered r rest .index [] s)) ∧
    ∀ e : EntryIx, u8 r.body 0 = e.val →
      ((∀ n l, (ctxAt s e).state ≠ .test n l) → exec .testStop s = .next (answered r rest .state [] s)) ∧
      ((∃ n l, (ctxAt s e).state = .test n l) → exec .testStop s = .next (answered r rest .ok []
        (reported e { settled (ctxAt s e) with state := .acquire, shed := false } .test (dwellLeft e s))))) ∧
  ∀ e s, s.inReset = false →
    (∀ l, (ctxAt s e).state = .test 0 l →
      (s.pln.activeSettings.testEnd = .ret → exec (.testExpiry e) s = .next
        (reported e { settled (ctxAt s e) with state := .acquire, shed := false, done := true } .test (dwellLeft e s))) ∧
      (s.pln.activeSettings.testEnd = .mute → exec (.testExpiry e) s = .next
        (reported e { settled (ctxAt s e) with state := .muted .testEnd, shed := false, done := true } .test
          (dwellLeft e s)))) ∧
    ((∀ l, (ctxAt s e).state ≠ .test 0 l) → exec (.testExpiry e) s = .next s)
end

