-- ==== Sys2Proof/Laws/Carrier.lean ====
section
/-! SUPPORT. What the frequency lines of a range depend on, and what silence makes of them. -/

namespace Sys2Proof.Machine

@[simp] theorem rangeLines_length (count : Nat) (l : List Sample) : (rangeLines count l).length = count := by
  simp [rangeLines]

/-- The lines of a range depend on nothing outside it. -/
theorem rangeLines_congr (width : Nat) {a b : List Sample}
    (h : ∀ k : Int, -(250 * width) ≤ k → k < 250 * width → lineOf a k = lineOf b k) :
    rangeLines (width * 500) a = rangeLines (width * 500) b := by
  refine List.map_congr_left fun j hj => ?_
  have := List.mem_range.mp hj
  apply h <;> simp only [lineNumber] <;> omega

theorem sumSamples_silent {l : List Sample} (h : ∀ z ∈ l, z = ⟨0, 0⟩) : sumSamples l = ⟨0, 0⟩ := by
  induction l with
  | nil => rfl
  | cons z rest ih =>
    have := ih fun x hx => h x (List.mem_cons_of_mem _ hx)
    simp only [sumSamples, List.foldr_cons] at *
    simp [this, h z (List.mem_cons_self ..), addSample]

/-- Silence moved sample by sample is silence. -/
theorem mapIdx_silent (u : Nat → Sample) {l : List Sample} (h : ∀ z ∈ l, z = ⟨0, 0⟩) :
    ∀ z ∈ l.mapIdx (fun i z => mulSample z (u i)), z = ⟨0, 0⟩ := by
  intro z hz
  obtain ⟨i, hi, rfl⟩ := List.mem_mapIdx.mp hz
  rw [h _ (List.getElem_mem hi)]
  simp [mulSample]

theorem rangeLines_silent (count : Nat) {l : List Sample} (h : ∀ z ∈ l, z = ⟨0, 0⟩) : ∀ z ∈ rangeLines count l, z = ⟨0, 0⟩ := by
  intro z hz
  obtain ⟨j, -, rfl⟩ := List.mem_map.mp hz
  exact sumSamples_silent (mapIdx_silent _ h)

/-- Of the two integers that a component may be brought to, each lies within one of it. -/
theorem roundEither_near (up : Bool) {one x : Int} (h : 0 < one) : |roundEither up one x * one - x| < one := by
  have h1 := Int.emod_add_mul_ediv x one
  have h2 := Int.emod_nonneg x h.ne'
  have h3 := Int.emod_lt_of_pos x h
  unfold roundEither
  rw [abs_lt]
  split
  · next hr =>
    simp only [Bool.and_eq_true, decide_eq_true_eq] at hr
    have : 0 < x % one := lt_of_le_of_ne h2 (Ne.symm hr.2)
    constructor <;> nlinarith
  · constructor <;> nlinarith

end Sys2Proof.Machine
end

