-- ==== Sys2Proof/Laws/State.lean ====
section
/-! SUPPORT. The small lemmas of the state: what each update of one place leaves in every place. -/

namespace Sys2Proof.Machine

/-! ### Places of sixteen -/

@[simp] theorem vget_vput_same {α : Type} (v : Vector α 16) (e : EntryIx) (a : α) : vget (vput v e a) e = a := by
  simp [vget, vput]

@[simp] theorem vget_vput_other {α : Type} (v : Vector α 16) {e f : EntryIx} (a : α) (h : f ≠ e) :
    vget (vput v e a) f = vget v f := by
  have : e.val ≠ f.val := fun hv => h (Fin.ext hv.symm)
  simp [vget, vput, this]

theorem vget_vput {α : Type} (v : Vector α 16) (e f : EntryIx) (a : α) :
    vget (vput v e a) f = if f = e then a else vget v f := by
  split
  · next h => subst h; simp
  · next h => simp [h]

@[simp] theorem vput_vget_same {α : Type} (v : Vector α 16) (e : EntryIx) : vput v e (vget v e) = v := by
  simp [vget, vput]

@[simp] theorem vput_vput_same {α : Type} (v : Vector α 16) (e : EntryIx) (a b : α) :
    vput (vput v e a) e b = vput v e b := by
  simp [vput]

@[simp] theorem vget_map {α β : Type} (f : α → β) (v : Vector α 16) (e : EntryIx) : vget (v.map f) e = f (vget v e) := by
  simp [vget]

@[simp] theorem vget_replicate {α : Type} (a : α) (e : EntryIx) : vget (Vector.replicate 16 a) e = a := by
  simp [vget]

@[simp] theorem vget_zipWith {α β γ : Type} (f : α → β → γ) (v : Vector α 16) (w : Vector β 16) (e : EntryIx) :
    vget (Vector.zipWith f v w) e = f (vget v e) (vget w e) := by
  simp [vget]

/-- Two vectors of sixteen that agree at every entry are equal. -/
theorem vget_ext {α : Type} {v w : Vector α 16} (h : ∀ e, vget v e = vget w e) : v = w := by
  apply Vector.ext
  intro i hi
  exact h ⟨i, hi⟩

theorem mem_entries (e : EntryIx) : e ∈ entries := List.mem_finRange e

/-! ### Updates of one field -/

@[simp] theorem setDst_pending (d : Dst) (s : State) : (setDst d s).pending = s.pending := rfl
@[simp] theorem setDst_inReset (d : Dst) (s : State) : (setDst d s).inReset = s.inReset := rfl
@[simp] theorem setDst_rtA (d : Dst) (s : State) : (setDst d s).rtA = s.rtA := rfl
@[simp] theorem setDst_rtB (d : Dst) (s : State) : (setDst d s).rtB = s.rtB := rfl
@[simp] theorem setDst_ext (d : Dst) (s : State) : (setDst d s).ext = s.ext := rfl
@[simp] theorem setDst_pln (d : Dst) (s : State) : (setDst d s).pln = s.pln := rfl
@[simp] theorem setDst_ctx (d : Dst) (s : State) : (setDst d s).ctx = s.ctx := rfl
@[simp] theorem setDst_dst (d : Dst) (s : State) : (setDst d s).dst = d := rfl
@[simp] theorem setDst_cmb (d : Dst) (s : State) : (setDst d s).cmb = s.cmb := rfl
@[simp] theorem setDst_txs (d : Dst) (s : State) : (setDst d s).txs = s.txs := rfl
@[simp] theorem setDst_mon (d : Dst) (s : State) : (setDst d s).mon = s.mon := rfl
@[simp] theorem setDst_svc (d : Dst) (s : State) : (setDst d s).svc = s.svc := rfl
@[simp] theorem setDst_free (d : Dst) (s : State) : (setDst d s).free = s.free := rfl
@[simp] theorem setDst_self (s : State) : setDst s.dst s = s := rfl

@[simp] theorem setCmb_pending (c : Cmb) (s : State) : (setCmb c s).pending = s.pending := rfl
@[simp] theorem setCmb_inReset (c : Cmb) (s : State) : (setCmb c s).inReset = s.inReset := rfl
@[simp] theorem setCmb_rtA (c : Cmb) (s : State) : (setCmb c s).rtA = s.rtA := rfl
@[simp] theorem setCmb_rtB (c : Cmb) (s : State) : (setCmb c s).rtB = s.rtB := rfl
@[simp] theorem setCmb_ext (c : Cmb) (s : State) : (setCmb c s).ext = s.ext := rfl
@[simp] theorem setCmb_pln (c : Cmb) (s : State) : (setCmb c s).pln = s.pln := rfl
@[simp] theorem setCmb_ctx (c : Cmb) (s : State) : (setCmb c s).ctx = s.ctx := rfl
@[simp] theorem setCmb_dst (c : Cmb) (s : State) : (setCmb c s).dst = s.dst := rfl
@[simp] theorem setCmb_cmb (c : Cmb) (s : State) : (setCmb c s).cmb = c := rfl
@[simp] theorem setCmb_txs (c : Cmb) (s : State) : (setCmb c s).txs = s.txs := rfl
@[simp] theorem setCmb_mon (c : Cmb) (s : State) : (setCmb c s).mon = s.mon := rfl
@[simp] theorem setCmb_svc (c : Cmb) (s : State) : (setCmb c s).svc = s.svc := rfl
@[simp] theorem setCmb_free (c : Cmb) (s : State) : (setCmb c s).free = s.free := rfl
@[simp] theorem setCmb_self (s : State) : setCmb s.cmb s = s := rfl

@[simp] theorem setMon_pending (m : Mon) (s : State) : (setMon m s).pending = s.pending := rfl
@[simp] theorem setMon_inReset (m : Mon) (s : State) : (setMon m s).inReset = s.inReset := rfl
@[simp] theorem setMon_rtA (m : Mon) (s : State) : (setMon m s).rtA = s.rtA := rfl
@[simp] theorem setMon_rtB (m : Mon) (s : State) : (setMon m s).rtB = s.rtB := rfl
@[simp] theorem setMon_ext (m : Mon) (s : State) : (setMon m s).ext = s.ext := rfl
@[simp] theorem setMon_pln (m : Mon) (s : State) : (setMon m s).pln = s.pln := rfl
@[simp] theorem setMon_ctx (m : Mon) (s : State) : (setMon m s).ctx = s.ctx := rfl
@[simp] theorem setMon_dst (m : Mon) (s : State) : (setMon m s).dst = s.dst := rfl
@[simp] theorem setMon_cmb (m : Mon) (s : State) : (setMon m s).cmb = s.cmb := rfl
@[simp] theorem setMon_txs (m : Mon) (s : State) : (setMon m s).txs = s.txs := rfl
@[simp] theorem setMon_mon (m : Mon) (s : State) : (setMon m s).mon = m := rfl
@[simp] theorem setMon_svc (m : Mon) (s : State) : (setMon m s).svc = s.svc := rfl
@[simp] theorem setMon_free (m : Mon) (s : State) : (setMon m s).free = s.free := rfl
@[simp] theorem setMon_self (s : State) : setMon s.mon s = s := rfl

@[simp] theorem setSvc_pending (v : Svc) (s : State) : (setSvc v s).pending = s.pending := rfl
@[simp] theorem setSvc_inReset (v : Svc) (s : State) : (setSvc v s).inReset = s.inReset := rfl
@[simp] theorem setSvc_rtA (v : Svc) (s : State) : (setSvc v s).rtA = s.rtA := rfl
@[simp] theorem setSvc_rtB (v : Svc) (s : State) : (setSvc v s).rtB = s.rtB := rfl
@[simp] theorem setSvc_ext (v : Svc) (s : State) : (setSvc v s).ext = s.ext := rfl
@[simp] theorem setSvc_pln (v : Svc) (s : State) : (setSvc v s).pln = s.pln := rfl
@[simp] theorem setSvc_ctx (v : Svc) (s : State) : (setSvc v s).ctx = s.ctx := rfl
@[simp] theorem setSvc_dst (v : Svc) (s : State) : (setSvc v s).dst = s.dst := rfl
@[simp] theorem setSvc_cmb (v : Svc) (s : State) : (setSvc v s).cmb = s.cmb := rfl
@[simp] theorem setSvc_txs (v : Svc) (s : State) : (setSvc v s).txs = s.txs := rfl
@[simp] theorem setSvc_mon (v : Svc) (s : State) : (setSvc v s).mon = s.mon := rfl
@[simp] theorem setSvc_svc (v : Svc) (s : State) : (setSvc v s).svc = v := rfl
@[simp] theorem setSvc_free (v : Svc) (s : State) : (setSvc v s).free = s.free := rfl
@[simp] theorem setSvc_self (s : State) : setSvc s.svc s = s := rfl

@[simp] theorem setExt_pending (x : Ext) (s : State) : (setExt x s).pending = s.pending := rfl
@[simp] theorem setExt_inReset (x : Ext) (s : State) : (setExt x s).inReset = s.inReset := rfl
@[simp] theorem setExt_rtA (x : Ext) (s : State) : (setExt x s).rtA = s.rtA := rfl
@[simp] theorem setExt_rtB (x : Ext) (s : State) : (setExt x s).rtB = s.rtB := rfl
@[simp] theorem setExt_ext (x : Ext) (s : State) : (setExt x s).ext = x := rfl
@[simp] theorem setExt_pln (x : Ext) (s : State) : (setExt x s).pln = s.pln := rfl
@[simp] theorem setExt_ctx (x : Ext) (s : State) : (setExt x s).ctx = s.ctx := rfl
@[simp] theorem setExt_dst (x : Ext) (s : State) : (setExt x s).dst = s.dst := rfl
@[simp] theorem setExt_cmb (x : Ext) (s : State) : (setExt x s).cmb = s.cmb := rfl
@[simp] theorem setExt_txs (x : Ext) (s : State) : (setExt x s).txs = s.txs := rfl
@[simp] theorem setExt_mon (x : Ext) (s : State) : (setExt x s).mon = s.mon := rfl
@[simp] theorem setExt_svc (x : Ext) (s : State) : (setExt x s).svc = s.svc := rfl
@[simp] theorem setExt_free (x : Ext) (s : State) : (setExt x s).free = s.free := rfl
@[simp] theorem setExt_self (s : State) : setExt s.ext s = s := rfl

@[simp] theorem setPln_pending (p : Pln) (s : State) : (setPln p s).pending = s.pending := rfl
@[simp] theorem setPln_inReset (p : Pln) (s : State) : (setPln p s).inReset = s.inReset := rfl
@[simp] theorem setPln_rtA (p : Pln) (s : State) : (setPln p s).rtA = s.rtA := rfl
@[simp] theorem setPln_rtB (p : Pln) (s : State) : (setPln p s).rtB = s.rtB := rfl
@[simp] theorem setPln_ext (p : Pln) (s : State) : (setPln p s).ext = s.ext := rfl
@[simp] theorem setPln_pln (p : Pln) (s : State) : (setPln p s).pln = p := rfl
@[simp] theorem setPln_ctx (p : Pln) (s : State) : (setPln p s).ctx = s.ctx := rfl
@[simp] theorem setPln_dst (p : Pln) (s : State) : (setPln p s).dst = s.dst := rfl
@[simp] theorem setPln_cmb (p : Pln) (s : State) : (setPln p s).cmb = s.cmb := rfl
@[simp] theorem setPln_txs (p : Pln) (s : State) : (setPln p s).txs = s.txs := rfl
@[simp] theorem setPln_mon (p : Pln) (s : State) : (setPln p s).mon = s.mon := rfl
@[simp] theorem setPln_svc (p : Pln) (s : State) : (setPln p s).svc = s.svc := rfl
@[simp] theorem setPln_free (p : Pln) (s : State) : (setPln p s).free = s.free := rfl
@[simp] theorem setPln_self (s : State) : setPln s.pln s = s := rfl

@[simp] theorem setTxs_pending (x : Txs) (s : State) : (setTxs x s).pending = s.pending := rfl
@[simp] theorem setTxs_inReset (x : Txs) (s : State) : (setTxs x s).inReset = s.inReset := rfl
@[simp] theorem setTxs_rtA (x : Txs) (s : State) : (setTxs x s).rtA = s.rtA := rfl
@[simp] theorem setTxs_rtB (x : Txs) (s : State) : (setTxs x s).rtB = s.rtB := rfl
@[simp] theorem setTxs_ext (x : Txs) (s : State) : (setTxs x s).ext = s.ext := rfl
@[simp] theorem setTxs_pln (x : Txs) (s : State) : (setTxs x s).pln = s.pln := rfl
@[simp] theorem setTxs_ctx (x : Txs) (s : State) : (setTxs x s).ctx = s.ctx := rfl
@[simp] theorem setTxs_dst (x : Txs) (s : State) : (setTxs x s).dst = s.dst := rfl
@[simp] theorem setTxs_cmb (x : Txs) (s : State) : (setTxs x s).cmb = s.cmb := rfl
@[simp] theorem setTxs_txs (x : Txs) (s : State) : (setTxs x s).txs = x := rfl
@[simp] theorem setTxs_mon (x : Txs) (s : State) : (setTxs x s).mon = s.mon := rfl
@[simp] theorem setTxs_svc (x : Txs) (s : State) : (setTxs x s).svc = s.svc := rfl
@[simp] theorem setTxs_free (x : Txs) (s : State) : (setTxs x s).free = s.free := rfl
@[simp] theorem setTxs_self (s : State) : setTxs s.txs s = s := rfl

@[simp] theorem setCtx_pending (e : EntryIx) (c : Ctx) (s : State) : (setCtx e c s).pending = s.pending := rfl
@[simp] theorem setCtx_inReset (e : EntryIx) (c : Ctx) (s : State) : (setCtx e c s).inReset = s.inReset := rfl
@[simp] theorem setCtx_rtA (e : EntryIx) (c : Ctx) (s : State) : (setCtx e c s).rtA = s.rtA := rfl
@[simp] theorem setCtx_rtB (e : EntryIx) (c : Ctx) (s : State) : (setCtx e c s).rtB = s.rtB := rfl
@[simp] theorem setCtx_ext (e : EntryIx) (c : Ctx) (s : State) : (setCtx e c s).ext = s.ext := rfl
@[simp] theorem setCtx_pln (e : EntryIx) (c : Ctx) (s : State) : (setCtx e c s).pln = s.pln := rfl
@[simp] theorem setCtx_ctx (e : EntryIx) (c : Ctx) (s : State) : (setCtx e c s).ctx = vput s.ctx e c := rfl
@[simp] theorem setCtx_dst (e : EntryIx) (c : Ctx) (s : State) : (setCtx e c s).dst = s.dst := rfl
@[simp] theorem setCtx_cmb (e : EntryIx) (c : Ctx) (s : State) : (setCtx e c s).cmb = s.cmb := rfl
@[simp] theorem setCtx_txs (e : EntryIx) (c : Ctx) (s : State) : (setCtx e c s).txs = s.txs := rfl
@[simp] theorem setCtx_mon (e : EntryIx) (c : Ctx) (s : State) : (setCtx e c s).mon = s.mon := rfl
@[simp] theorem setCtx_svc (e : EntryIx) (c : Ctx) (s : State) : (setCtx e c s).svc = s.svc := rfl
@[simp] theorem setCtx_free (e : EntryIx) (c : Ctx) (s : State) : (setCtx e c s).free = s.free := rfl

@[simp] theorem setCtxs_pending (v : Vector Ctx 16) (s : State) : (setCtxs v s).pending = s.pending := rfl
@[simp] theorem setCtxs_inReset (v : Vector Ctx 16) (s : State) : (setCtxs v s).inReset = s.inReset := rfl
@[simp] theorem setCtxs_rtA (v : Vector Ctx 16) (s : State) : (setCtxs v s).rtA = s.rtA := rfl
@[simp] theorem setCtxs_rtB (v : Vector Ctx 16) (s : State) : (setCtxs v s).rtB = s.rtB := rfl
@[simp] theorem setCtxs_ext (v : Vector Ctx 16) (s : State) : (setCtxs v s).ext = s.ext := rfl
@[simp] theorem setCtxs_pln (v : Vector Ctx 16) (s : State) : (setCtxs v s).pln = s.pln := rfl
@[simp] theorem setCtxs_ctx (v : Vector Ctx 16) (s : State) : (setCtxs v s).ctx = v := rfl
@[simp] theorem setCtxs_dst (v : Vector Ctx 16) (s : State) : (setCtxs v s).dst = s.dst := rfl
@[simp] theorem setCtxs_cmb (v : Vector Ctx 16) (s : State) : (setCtxs v s).cmb = s.cmb := rfl
@[simp] theorem setCtxs_txs (v : Vector Ctx 16) (s : State) : (setCtxs v s).txs = s.txs := rfl
@[simp] theorem setCtxs_mon (v : Vector Ctx 16) (s : State) : (setCtxs v s).mon = s.mon := rfl
@[simp] theorem setCtxs_svc (v : Vector Ctx 16) (s : State) : (setCtxs v s).svc = s.svc := rfl
@[simp] theorem setCtxs_free (v : Vector Ctx 16) (s : State) : (setCtxs v s).free = s.free := rfl

@[simp] theorem drawFree_pending (s : State) : (drawFree s).pending = s.pending := rfl
@[simp] theorem drawFree_inReset (s : State) : (drawFree s).inReset = s.inReset := rfl
@[simp] theorem drawFree_rtA (s : State) : (drawFree s).rtA = s.rtA := rfl
@[simp] theorem drawFree_rtB (s : State) : (drawFree s).rtB = s.rtB := rfl
@[simp] theorem drawFree_ext (s : State) : (drawFree s).ext = s.ext := rfl
@[simp] theorem drawFree_pln (s : State) : (drawFree s).pln = s.pln := rfl
@[simp] theorem drawFree_ctx (s : State) : (drawFree s).ctx = s.ctx := rfl
@[simp] theorem drawFree_dst (s : State) : (drawFree s).dst = s.dst := rfl
@[simp] theorem drawFree_cmb (s : State) : (drawFree s).cmb = s.cmb := rfl
@[simp] theorem drawFree_txs (s : State) : (drawFree s).txs = s.txs := rfl
@[simp] theorem drawFree_mon (s : State) : (drawFree s).mon = s.mon := rfl
@[simp] theorem drawFree_svc (s : State) : (drawFree s).svc = s.svc := rfl
@[simp] theorem drawFree_free (s : State) : (drawFree s).free = s.free + 1 := rfl

@[simp] theorem setPort_pending (t : Trunk) (p : Port) (s : State) : (setPort t p s).pending = s.pending := by cases t <;> rfl
@[simp] theorem setPort_inReset (t : Trunk) (p : Port) (s : State) : (setPort t p s).inReset = s.inReset := by cases t <;> rfl
@[simp] theorem setPort_ext (t : Trunk) (p : Port) (s : State) : (setPort t p s).ext = s.ext := by cases t <;> rfl
@[simp] theorem setPort_pln (t : Trunk) (p : Port) (s : State) : (setPort t p s).pln = s.pln := by cases t <;> rfl
@[simp] theorem setPort_ctx (t : Trunk) (p : Port) (s : State) : (setPort t p s).ctx = s.ctx := by cases t <;> rfl
@[simp] theorem setPort_dst (t : Trunk) (p : Port) (s : State) : (setPort t p s).dst = s.dst := by cases t <;> rfl
@[simp] theorem setPort_cmb (t : Trunk) (p : Port) (s : State) : (setPort t p s).cmb = s.cmb := by cases t <;> rfl
@[simp] theorem setPort_txs (t : Trunk) (p : Port) (s : State) : (setPort t p s).txs = s.txs := by cases t <;> rfl
@[simp] theorem setPort_mon (t : Trunk) (p : Port) (s : State) : (setPort t p s).mon = s.mon := by cases t <;> rfl
@[simp] theorem setPort_svc (t : Trunk) (p : Port) (s : State) : (setPort t p s).svc = s.svc := by cases t <;> rfl
@[simp] theorem setPort_free (t : Trunk) (p : Port) (s : State) : (setPort t p s).free = s.free := by cases t <;> rfl

/-! ### Ports, contexts, lines and entries through the updates -/

@[simp] theorem portOf_setPort_same (t : Trunk) (p : Port) (s : State) : portOf (setPort t p s) t = p := by cases t <;> rfl

@[simp] theorem portOf_setPort_other {t u : Trunk} (p : Port) (s : State) (h : u ≠ t) :
    portOf (setPort t p s) u = portOf s u := by
  cases t <;> cases u <;> first | rfl | exact absurd rfl h

@[simp] theorem setPort_self (t : Trunk) (s : State) : setPort t (portOf s t) s = s := by cases t <;> rfl

@[simp] theorem setPort_setPort_same (t : Trunk) (p q : Port) (s : State) : setPort t q (setPort t p s) = setPort t q s := by
  cases t <;> rfl

@[simp] theorem ctxAt_setCtx_same (e : EntryIx) (c : Ctx) (s : State) : ctxAt (setCtx e c s) e = c := by simp [ctxAt]

@[simp] theorem ctxAt_setCtx_other {e f : EntryIx} (c : Ctx) (s : State) (h : f ≠ e) :
    ctxAt (setCtx e c s) f = ctxAt s f := by simp [ctxAt, h]

@[simp] theorem ctxAt_setCtxs (v : Vector Ctx 16) (s : State) (e : EntryIx) : ctxAt (setCtxs v s) e = vget v e := rfl

@[simp] theorem setCtx_self (e : EntryIx) (s : State) : setCtx e (ctxAt s e) s = s := by
  simp [setCtx, ctxAt]

/-- A port is read from the two port fields alone. -/
theorem portOf_congr {s t : State} (hA : t.rtA = s.rtA) (hB : t.rtB = s.rtB) (u : Trunk) : portOf t u = portOf s u := by
  cases u <;> simp [portOf, hA, hB]

/-- A context is read from the context field alone. -/
theorem ctxAt_congr {s t : State} (h : t.ctx = s.ctx) (e : EntryIx) : ctxAt t e = ctxAt s e := by simp [ctxAt, h]

/-- An active entry is read from the plan store alone. -/
theorem activeAt_congr {s t : State} (h : t.pln = s.pln) (e : EntryIx) : activeAt t e = activeAt s e := by simp [activeAt, h]

/-- A line is read from the delay store alone. -/
theorem lineAt_congr {s t : State} (h : t.dst = s.dst) (e : EntryIx) : lineAt t e = lineAt s e := by simp [lineAt, h]

/-- The two ports as seen by trunk: equal at both trunks means equal fields. -/
theorem ports_eq {s t : State} (h : ∀ u, portOf t u = portOf s u) : t.rtA = s.rtA ∧ t.rtB = s.rtB := ⟨h .A, h .B⟩


@[simp] theorem portOf_setDst (d : Dst) (s : State) (u : Trunk) : portOf (setDst d s) u = portOf s u := by cases u <;> rfl
@[simp] theorem ctxAt_setDst (d : Dst) (s : State) (i : EntryIx) : ctxAt (setDst d s) i = ctxAt s i := rfl
@[simp] theorem activeAt_setDst (d : Dst) (s : State) (i : EntryIx) : activeAt (setDst d s) i = activeAt s i := rfl
@[simp] theorem portOf_setCmb (c : Cmb) (s : State) (u : Trunk) : portOf (setCmb c s) u = portOf s u := by cases u <;> rfl
@[simp] theorem ctxAt_setCmb (c : Cmb) (s : State) (i : EntryIx) : ctxAt (setCmb c s) i = ctxAt s i := rfl
@[simp] theorem activeAt_setCmb (c : Cmb) (s : State) (i : EntryIx) : activeAt (setCmb c s) i = activeAt s i := rfl
@[simp] theorem lineAt_setCmb (c : Cmb) (s : State) (i : EntryIx) : lineAt (setCmb c s) i = lineAt s i := rfl
@[simp] theorem portOf_setMon (m : Mon) (s : State) (u : Trunk) : portOf (setMon m s) u = portOf s u := by cases u <;> rfl
@[simp] theorem ctxAt_setMon (m : Mon) (s : State) (i : EntryIx) : ctxAt (setMon m s) i = ctxAt s i := rfl
@[simp] theorem activeAt_setMon (m : Mon) (s : State) (i : EntryIx) : activeAt (setMon m s) i = activeAt s i := rfl
@[simp] theorem lineAt_setMon (m : Mon) (s : State) (i : EntryIx) : lineAt (setMon m s) i = lineAt s i := rfl
@[simp] theorem portOf_setSvc (v : Svc) (s : State) (u : Trunk) : portOf (setSvc v s) u = portOf s u := by cases u <;> rfl
@[simp] theorem ctxAt_setSvc (v : Svc) (s : State) (i : EntryIx) : ctxAt (setSvc v s) i = ctxAt s i := rfl
@[simp] theorem activeAt_setSvc (v : Svc) (s : State) (i : EntryIx) : activeAt (setSvc v s) i = activeAt s i := rfl
@[simp] theorem lineAt_setSvc (v : Svc) (s : State) (i : EntryIx) : lineAt (setSvc v s) i = lineAt s i := rfl
@[simp] theorem portOf_setExt (x : Ext) (s : State) (u : Trunk) : portOf (setExt x s) u = portOf s u := by cases u <;> rfl
@[simp] theorem ctxAt_setExt (x : Ext) (s : State) (i : EntryIx) : ctxAt (setExt x s) i = ctxAt s i := rfl
@[simp] theorem activeAt_setExt (x : Ext) (s : State) (i : EntryIx) : activeAt (setExt x s) i = activeAt s i := rfl
@[simp] theorem lineAt_setExt (x : Ext) (s : State) (i : EntryIx) : lineAt (setExt x s) i = lineAt s i := rfl
@[simp] theorem portOf_setPln (p : Pln) (s : State) (u : Trunk) : portOf (setPln p s) u = portOf s u := by cases u <;> rfl
@[simp] theorem ctxAt_setPln (p : Pln) (s : State) (i : EntryIx) : ctxAt (setPln p s) i = ctxAt s i := rfl
@[simp] theorem lineAt_setPln (p : Pln) (s : State) (i : EntryIx) : lineAt (setPln p s) i = lineAt s i := rfl
@[simp] theorem portOf_setTxs (x : Txs) (s : State) (u : Trunk) : portOf (setTxs x s) u = portOf s u := by cases u <;> rfl
@[simp] theorem ctxAt_setTxs (x : Txs) (s : State) (i : EntryIx) : ctxAt (setTxs x s) i = ctxAt s i := rfl
@[simp] theorem activeAt_setTxs (x : Txs) (s : State) (i : EntryIx) : activeAt (setTxs x s) i = activeAt s i := rfl
@[simp] theorem lineAt_setTxs (x : Txs) (s : State) (i : EntryIx) : lineAt (setTxs x s) i = lineAt s i := rfl
@[simp] theorem portOf_setCtx (e : EntryIx) (c : Ctx) (s : State) (u : Trunk) : portOf (setCtx e c s) u = portOf s u := by cases u <;> rfl
@[simp] theorem activeAt_setCtx (e : EntryIx) (c : Ctx) (s : State) (i : EntryIx) : activeAt (setCtx e c s) i = activeAt s i := rfl
@[simp] theorem lineAt_setCtx (e : EntryIx) (c : Ctx) (s : State) (i : EntryIx) : lineAt (setCtx e c s) i = lineAt s i := rfl
@[simp] theorem portOf_setCtxs (v : Vector Ctx 16) (s : State) (u : Trunk) : portOf (setCtxs v s) u = portOf s u := by cases u <;> rfl
@[simp] theorem activeAt_setCtxs (v : Vector Ctx 16) (s : State) (i : EntryIx) : activeAt (setCtxs v s) i = activeAt s i := rfl
@[simp] theorem lineAt_setCtxs (v : Vector Ctx 16) (s : State) (i : EntryIx) : lineAt (setCtxs v s) i = lineAt s i := rfl
@[simp] theorem ctxAt_setPort (t : Trunk) (p : Port) (s : State) (i : EntryIx) : ctxAt (setPort t p s) i = ctxAt s i := by cases t <;> rfl
@[simp] theorem activeAt_setPort (t : Trunk) (p : Port) (s : State) (i : EntryIx) : activeAt (setPort t p s) i = activeAt s i := by cases t <;> rfl
@[simp] theorem lineAt_setPort (t : Trunk) (p : Port) (s : State) (i : EntryIx) : lineAt (setPort t p s) i = lineAt s i := by cases t <;> rfl
@[simp] theorem portOf_drawFree (s : State) (u : Trunk) : portOf (drawFree s) u = portOf s u := by cases u <;> rfl
@[simp] theorem ctxAt_drawFree (s : State) (i : EntryIx) : ctxAt (drawFree s) i = ctxAt s i := rfl
@[simp] theorem activeAt_drawFree (s : State) (i : EntryIx) : activeAt (drawFree s) i = activeAt s i := rfl
@[simp] theorem lineAt_drawFree (s : State) (i : EntryIx) : lineAt (drawFree s) i = lineAt s i := rfl

/-! ### Folding over the entries -/

/-- What every step of a fold leaves as it was, the fold leaves as it was. -/
theorem foldl_frame {α β γ : Type} (f : β → α → β) (g : β → γ) (h : ∀ b a, g (f b a) = g b) (l : List α) (b : β) :
    g (l.foldl f b) = g b := by
  induction l generalizing b with
  | nil => rfl
  | cons a rest ih => simp [ih, h]

/-- What every step of a fold keeps, the fold keeps. -/
theorem foldl_keeps {α β : Type} (f : β → α → β) (P : β → Prop) (h : ∀ b a, P b → P (f b a)) (l : List α) (b : β)
    (hb : P b) : P (l.foldl f b) := by
  induction l generalizing b with
  | nil => exact hb
  | cons a rest ih => exact ih _ (h b a hb)

end Sys2Proof.Machine
end

