-- ==== Sys2Proof/Laws/Frames.lean ====
section
/-! SUPPORT. The frame of each shared operation: the fields of the state that it never touches. -/

namespace Sys2Proof.Machine

/-! ### Folds -/

@[simp] theorem foldl_pending {α : Type} (f : State → α → State) (h : ∀ b a, (f b a).pending = b.pending) (l : List α) (b : State) :
    (l.foldl f b).pending = b.pending := foldl_frame f State.pending h l b

@[simp] theorem foldl_inReset {α : Type} (f : State → α → State) (h : ∀ b a, (f b a).inReset = b.inReset) (l : List α) (b : State) :
    (l.foldl f b).inReset = b.inReset := foldl_frame f State.inReset h l b

@[simp] theorem foldl_rtA {α : Type} (f : State → α → State) (h : ∀ b a, (f b a).rtA = b.rtA) (l : List α) (b : State) :
    (l.foldl f b).rtA = b.rtA := foldl_frame f State.rtA h l b

@[simp] theorem foldl_rtB {α : Type} (f : State → α → State) (h : ∀ b a, (f b a).rtB = b.rtB) (l : List α) (b : State) :
    (l.foldl f b).rtB = b.rtB := foldl_frame f State.rtB h l b

@[simp] theorem foldl_ext {α : Type} (f : State → α → State) (h : ∀ b a, (f b a).ext = b.ext) (l : List α) (b : State) :
    (l.foldl f b).ext = b.ext := foldl_frame f State.ext h l b

@[simp] theorem foldl_pln {α : Type} (f : State → α → State) (h : ∀ b a, (f b a).pln = b.pln) (l : List α) (b : State) :
    (l.foldl f b).pln = b.pln := foldl_frame f State.pln h l b

@[simp] theorem foldl_ctx {α : Type} (f : State → α → State) (h : ∀ b a, (f b a).ctx = b.ctx) (l : List α) (b : State) :
    (l.foldl f b).ctx = b.ctx := foldl_frame f State.ctx h l b

@[simp] theorem foldl_dst {α : Type} (f : State → α → State) (h : ∀ b a, (f b a).dst = b.dst) (l : List α) (b : State) :
    (l.foldl f b).dst = b.dst := foldl_frame f State.dst h l b

@[simp] theorem foldl_cmb {α : Type} (f : State → α → State) (h : ∀ b a, (f b a).cmb = b.cmb) (l : List α) (b : State) :
    (l.foldl f b).cmb = b.cmb := foldl_frame f State.cmb h l b

@[simp] theorem foldl_txs {α : Type} (f : State → α → State) (h : ∀ b a, (f b a).txs = b.txs) (l : List α) (b : State) :
    (l.foldl f b).txs = b.txs := foldl_frame f State.txs h l b

@[simp] theorem foldl_mon {α : Type} (f : State → α → State) (h : ∀ b a, (f b a).mon = b.mon) (l : List α) (b : State) :
    (l.foldl f b).mon = b.mon := foldl_frame f State.mon h l b

@[simp] theorem foldl_svc {α : Type} (f : State → α → State) (h : ∀ b a, (f b a).svc = b.svc) (l : List α) (b : State) :
    (l.foldl f b).svc = b.svc := foldl_frame f State.svc h l b

@[simp] theorem foldl_free {α : Type} (f : State → α → State) (h : ∀ b a, (f b a).free = b.free) (l : List α) (b : State) :
    (l.foldl f b).free = b.free := foldl_frame f State.free h l b

@[simp] theorem foldl_portOf {α : Type} (f : State → α → State) (h : ∀ b a u, portOf (f b a) u = portOf b u) (l : List α)
    (b : State) (u : Trunk) : portOf (l.foldl f b) u = portOf b u :=
  foldl_frame f (fun s => portOf s u) (fun b a => h b a u) l b

@[simp] theorem foldl_activeAt {α : Type} (f : State → α → State) (h : ∀ b a i, activeAt (f b a) i = activeAt b i) (l : List α)
    (b : State) (i : EntryIx) : activeAt (l.foldl f b) i = activeAt b i :=
  foldl_frame f (fun s => activeAt s i) (fun b a => h b a i) l b

@[simp] theorem foldl_ctxAt {α : Type} (f : State → α → State) (h : ∀ b a i, ctxAt (f b a) i = ctxAt b i) (l : List α)
    (b : State) (i : EntryIx) : ctxAt (l.foldl f b) i = ctxAt b i :=
  foldl_frame f (fun s => ctxAt s i) (fun b a => h b a i) l b

@[simp] theorem foldl_lineAt {α : Type} (f : State → α → State) (h : ∀ b a i, lineAt (f b a) i = lineAt b i) (l : List α)
    (b : State) (i : EntryIx) : lineAt (l.foldl f b) i = lineAt b i :=
  foldl_frame f (fun s => lineAt s i) (fun b a => h b a i) l b

/-! ### Ops -/

@[simp] theorem post_frame (c : Content) (s : State) :
    (post c s).pending = s.pending ∧ (post c s).inReset = s.inReset ∧ (post c s).rtA = s.rtA ∧
    (post c s).rtB = s.rtB ∧ (post c s).ext = s.ext ∧ (post c s).pln = s.pln ∧ (post c s).ctx = s.ctx ∧
    (post c s).dst = s.dst ∧ (post c s).cmb = s.cmb ∧ (post c s).txs = s.txs ∧ (post c s).mon = s.mon ∧
    (post c s).free = s.free ∧ (∀ u, portOf (post c s) u = portOf s u) ∧ (∀ i, ctxAt (post c s) i = ctxAt s i) ∧
    (∀ i, activeAt (post c s) i = activeAt s i) ∧ (∀ i, lineAt (post c s) i = lineAt s i) := by
  simp [post]

@[simp] theorem postChannel_frame (e : EntryIx) (r : Reason) (s : State) :
    (postChannel e r s).pending = s.pending ∧ (postChannel e r s).inReset = s.inReset ∧
    (postChannel e r s).rtA = s.rtA ∧ (postChannel e r s).rtB = s.rtB ∧ (postChannel e r s).ext = s.ext ∧
    (postChannel e r s).pln = s.pln ∧ (postChannel e r s).ctx = s.ctx ∧ (postChannel e r s).dst = s.dst ∧
    (postChannel e r s).cmb = s.cmb ∧ (postChannel e r s).txs = s.txs ∧ (postChannel e r s).mon = s.mon ∧
    (postChannel e r s).free = s.free ∧ (∀ u, portOf (postChannel e r s) u = portOf s u) ∧
    (∀ i, ctxAt (postChannel e r s) i = ctxAt s i) ∧ (∀ i, activeAt (postChannel e r s) i = activeAt s i) ∧
    (∀ i, lineAt (postChannel e r s) i = lineAt s i) := by
  simp [postChannel]

@[simp] theorem endDwell_frame (s : State) :
    (endDwell s).pending = s.pending ∧ (endDwell s).inReset = s.inReset ∧ (endDwell s).rtA = s.rtA ∧
    (endDwell s).rtB = s.rtB ∧ (endDwell s).ext = s.ext ∧ (endDwell s).pln = s.pln ∧ (endDwell s).ctx = s.ctx ∧
    (endDwell s).dst = s.dst ∧ (endDwell s).cmb = s.cmb ∧ (endDwell s).txs = s.txs ∧ (endDwell s).svc = s.svc ∧
    (endDwell s).free = s.free ∧ (∀ u, portOf (endDwell s) u = portOf s u) ∧ (∀ i, ctxAt (endDwell s) i = ctxAt s i) ∧
    (∀ i, activeAt (endDwell s) i = activeAt s i) ∧ (∀ i, lineAt (endDwell s) i = lineAt s i) := by
  simp [endDwell]

@[simp] theorem endDwellOn_frame (e : EntryIx) (s : State) :
    (endDwellOn e s).pending = s.pending ∧ (endDwellOn e s).inReset = s.inReset ∧ (endDwellOn e s).rtA = s.rtA ∧
    (endDwellOn e s).rtB = s.rtB ∧ (endDwellOn e s).ext = s.ext ∧ (endDwellOn e s).pln = s.pln ∧
    (endDwellOn e s).ctx = s.ctx ∧ (endDwellOn e s).dst = s.dst ∧ (endDwellOn e s).cmb = s.cmb ∧
    (endDwellOn e s).txs = s.txs ∧ (endDwellOn e s).svc = s.svc ∧ (endDwellOn e s).free = s.free ∧
    (∀ u, portOf (endDwellOn e s) u = portOf s u) ∧ (∀ i, ctxAt (endDwellOn e s) i = ctxAt s i) ∧
    (∀ i, activeAt (endDwellOn e s) i = activeAt s i) ∧ (∀ i, lineAt (endDwellOn e s) i = lineAt s i) := by
  simp only [endDwellOn]
  repeat' split
  all_goals simp

@[simp] theorem commitCtx_frame (e : EntryIx) (n : Ctx) (r : Reason) (s : State) :
    (commitCtx e n r s).pending = s.pending ∧ (commitCtx e n r s).inReset = s.inReset ∧
    (commitCtx e n r s).rtA = s.rtA ∧ (commitCtx e n r s).rtB = s.rtB ∧ (commitCtx e n r s).ext = s.ext ∧
    (commitCtx e n r s).pln = s.pln ∧ (commitCtx e n r s).dst = s.dst ∧ (commitCtx e n r s).cmb = s.cmb ∧
    (commitCtx e n r s).txs = s.txs ∧ (commitCtx e n r s).free = s.free ∧
    (∀ u, portOf (commitCtx e n r s) u = portOf s u) ∧ (∀ i, activeAt (commitCtx e n r s) i = activeAt s i) ∧
    (∀ i, lineAt (commitCtx e n r s) i = lineAt s i) := by
  simp only [commitCtx]
  repeat' split
  all_goals simp

@[simp] theorem stopTest_frame (e : EntryIx) (s : State) :
    (stopTest e s).pending = s.pending ∧ (stopTest e s).inReset = s.inReset ∧ (stopTest e s).rtA = s.rtA ∧
    (stopTest e s).rtB = s.rtB ∧ (stopTest e s).ext = s.ext ∧ (stopTest e s).pln = s.pln ∧
    (stopTest e s).dst = s.dst ∧ (stopTest e s).cmb = s.cmb ∧ (stopTest e s).txs = s.txs ∧
    (stopTest e s).free = s.free ∧ (∀ u, portOf (stopTest e s) u = portOf s u) ∧
    (∀ i, activeAt (stopTest e s) i = activeAt s i) ∧ (∀ i, lineAt (stopTest e s) i = lineAt s i) := by
  simp only [stopTest]
  repeat' split
  all_goals simp

@[simp] theorem endTestsOnTrip_frame (s : State) :
    (endTestsOnTrip s).pending = s.pending ∧ (endTestsOnTrip s).inReset = s.inReset ∧ (endTestsOnTrip s).rtA = s.rtA ∧
    (endTestsOnTrip s).rtB = s.rtB ∧ (endTestsOnTrip s).ext = s.ext ∧ (endTestsOnTrip s).pln = s.pln ∧
    (endTestsOnTrip s).dst = s.dst ∧ (endTestsOnTrip s).cmb = s.cmb ∧ (endTestsOnTrip s).txs = s.txs ∧
    (endTestsOnTrip s).free = s.free ∧ (∀ u, portOf (endTestsOnTrip s) u = portOf s u) ∧
    (∀ i, activeAt (endTestsOnTrip s) i = activeAt s i) ∧ (∀ i, lineAt (endTestsOnTrip s) i = lineAt s i) := by
  simp only [endTestsOnTrip]
  repeat' split
  all_goals simp

@[simp] theorem commitTxs_frame (x : Txs) (s : State) :
    (commitTxs x s).pending = s.pending ∧ (commitTxs x s).inReset = s.inReset ∧ (commitTxs x s).rtA = s.rtA ∧
    (commitTxs x s).rtB = s.rtB ∧ (commitTxs x s).ext = s.ext ∧ (commitTxs x s).pln = s.pln ∧
    (commitTxs x s).dst = s.dst ∧ (commitTxs x s).cmb = s.cmb ∧ (commitTxs x s).free = s.free ∧
    (∀ u, portOf (commitTxs x s) u = portOf s u) ∧ (∀ i, activeAt (commitTxs x s) i = activeAt s i) ∧
    (∀ i, lineAt (commitTxs x s) i = lineAt s i) := by
  simp only [commitTxs]
  repeat' split
  all_goals simp

@[simp] theorem tripOrFurther_frame (c : Trip) (s : State) :
    (tripOrFurther c s).pending = s.pending ∧ (tripOrFurther c s).inReset = s.inReset ∧
    (tripOrFurther c s).rtA = s.rtA ∧ (tripOrFurther c s).rtB = s.rtB ∧ (tripOrFurther c s).ext = s.ext ∧
    (tripOrFurther c s).pln = s.pln ∧ (tripOrFurther c s).dst = s.dst ∧ (tripOrFurther c s).cmb = s.cmb ∧
    (tripOrFurther c s).free = s.free ∧ (∀ u, portOf (tripOrFurther c s) u = portOf s u) ∧
    (∀ i, activeAt (tripOrFurther c s) i = activeAt s i) ∧ (∀ i, lineAt (tripOrFurther c s) i = lineAt s i) := by
  simp only [tripOrFurther]
  repeat' split
  all_goals simp

@[simp] theorem dropReads_frame (e : EntryIx) (s : State) :
    (dropReads e s).pending = s.pending ∧ (dropReads e s).inReset = s.inReset ∧ (dropReads e s).rtA = s.rtA ∧
    (dropReads e s).rtB = s.rtB ∧ (dropReads e s).ext = s.ext ∧ (dropReads e s).pln = s.pln ∧
    (dropReads e s).ctx = s.ctx ∧ (dropReads e s).txs = s.txs ∧ (dropReads e s).mon = s.mon ∧
    (dropReads e s).svc = s.svc ∧ (dropReads e s).free = s.free ∧ (∀ u, portOf (dropReads e s) u = portOf s u) ∧
    (∀ i, ctxAt (dropReads e s) i = ctxAt s i) ∧ (∀ i, activeAt (dropReads e s) i = activeAt s i) := by
  simp only [dropReads]
  repeat' split
  all_goals simp

@[simp] theorem flushLine_frame (e : EntryIx) (s : State) :
    (flushLine e s).pending = s.pending ∧ (flushLine e s).inReset = s.inReset ∧ (flushLine e s).rtA = s.rtA ∧
    (flushLine e s).rtB = s.rtB ∧ (flushLine e s).ext = s.ext ∧ (flushLine e s).pln = s.pln ∧
    (flushLine e s).ctx = s.ctx ∧ (flushLine e s).txs = s.txs ∧ (flushLine e s).mon = s.mon ∧
    (flushLine e s).svc = s.svc ∧ (flushLine e s).free = s.free ∧ (∀ u, portOf (flushLine e s) u = portOf s u) ∧
    (∀ i, ctxAt (flushLine e s) i = ctxAt s i) ∧ (∀ i, activeAt (flushLine e s) i = activeAt s i) := by
  simp only [flushLine]
  repeat' split
  all_goals simp

@[simp] theorem voidRead_frame (e : EntryIx) (s : State) :
    (voidRead e s).pending = s.pending ∧ (voidRead e s).inReset = s.inReset ∧ (voidRead e s).rtA = s.rtA ∧
    (voidRead e s).rtB = s.rtB ∧ (voidRead e s).ext = s.ext ∧ (voidRead e s).pln = s.pln ∧
    (voidRead e s).ctx = s.ctx ∧ (voidRead e s).dst = s.dst ∧ (voidRead e s).txs = s.txs ∧ (voidRead e s).mon = s.mon ∧
    (voidRead e s).svc = s.svc ∧ (voidRead e s).free = s.free ∧ (∀ u, portOf (voidRead e s) u = portOf s u) ∧
    (∀ i, ctxAt (voidRead e s) i = ctxAt s i) ∧ (∀ i, activeAt (voidRead e s) i = activeAt s i) ∧
    (∀ i, lineAt (voidRead e s) i = lineAt s i) := by
  simp only [voidRead]
  repeat' split
  all_goals simp

/-- What voiding a read makes of the output block in course (R102): a read that was queued for the entry is answered with
nothing, and all else of CMB stands. -/
theorem voidRead_cmb (e : EntryIx) (s : State) :
    (voidRead e s).cmb = s.cmb ∧ (∀ o, s.cmb.course = some o → vget o.answers e = .unread) ∨
    ∃ o, s.cmb.course = some o ∧ vget o.answers e ≠ .unread ∧
      (voidRead e s).cmb = { s.cmb with course := some { o with answers := vput o.answers e .nothing } } := by
  unfold voidRead
  split
  · next h => simp [h]
  · next o h =>
    split
    · next hu => exact .inl ⟨rfl, by simp [h, hu]⟩
    · next hu => exact .inr ⟨o, h, hu, by simp [answerRead, h]⟩

@[simp] theorem switchSource_frame (e : EntryIx) (f : Bool) (r : Reason) (c : Ctx) (s : State) :
    (switchSource e f r c s).pending = s.pending ∧ (switchSource e f r c s).inReset = s.inReset ∧
    (switchSource e f r c s).rtA = s.rtA ∧ (switchSource e f r c s).rtB = s.rtB ∧
    (switchSource e f r c s).ext = s.ext ∧ (switchSource e f r c s).pln = s.pln ∧
    (switchSource e f r c s).txs = s.txs ∧ (switchSource e f r c s).free = s.free ∧
    (∀ u, portOf (switchSource e f r c s) u = portOf s u) ∧
    (∀ i, ctxAt (switchSource e f r c s) i = ctxAt (commitCtx e (switched f c) r s) i) ∧
    (∀ i, activeAt (switchSource e f r c s) i = activeAt s i) ∧
    (switchSource e f r c s).svc = (commitCtx e (switched f c) r s).svc := by
  simp [switchSource]

@[simp] theorem flushAll_frame (s : State) :
    (flushAll s).pending = s.pending ∧ (flushAll s).inReset = s.inReset ∧ (flushAll s).rtA = s.rtA ∧
    (flushAll s).rtB = s.rtB ∧ (flushAll s).ext = s.ext ∧ (flushAll s).pln = s.pln ∧ (flushAll s).ctx = s.ctx ∧
    (flushAll s).txs = s.txs ∧ (flushAll s).mon = s.mon ∧ (flushAll s).svc = s.svc ∧ (flushAll s).free = s.free ∧
    (∀ u, portOf (flushAll s) u = portOf s u) ∧ (∀ i, ctxAt (flushAll s) i = ctxAt s i) ∧
    (∀ i, activeAt (flushAll s) i = activeAt s i) := by
  simp [flushAll]

@[simp] theorem respond_frame (r : Request) (st : Status) (b : List Byte) (s : State) :
    (respond r st b s).pending = s.pending ∧ (respond r st b s).inReset = s.inReset ∧ (respond r st b s).ext = s.ext ∧
    (respond r st b s).pln = s.pln ∧ (respond r st b s).ctx = s.ctx ∧ (respond r st b s).dst = s.dst ∧
    (respond r st b s).cmb = s.cmb ∧ (respond r st b s).txs = s.txs ∧ (respond r st b s).mon = s.mon ∧
    (respond r st b s).free = s.free ∧ (∀ i, ctxAt (respond r st b s) i = ctxAt s i) ∧
    (∀ i, activeAt (respond r st b s) i = activeAt s i) ∧ (∀ i, lineAt (respond r st b s) i = lineAt s i) := by
  simp [respond]

/-! ### Trunk -/

@[simp] theorem takeTrunkOutcome_frame (t : Trunk) (o : FrameOutcome) (s : State) :
    (takeTrunkOutcome t o s).pending = s.pending ∧ (takeTrunkOutcome t o s).inReset = s.inReset ∧
    (takeTrunkOutcome t o s).pln = s.pln ∧ (takeTrunkOutcome t o s).ctx = s.ctx ∧
    (takeTrunkOutcome t o s).dst = s.dst ∧ (takeTrunkOutcome t o s).cmb = s.cmb ∧
    (takeTrunkOutcome t o s).txs = s.txs ∧ (takeTrunkOutcome t o s).mon = s.mon ∧
    (∀ i, ctxAt (takeTrunkOutcome t o s) i = ctxAt s i) ∧ (∀ i, activeAt (takeTrunkOutcome t o s) i = activeAt s i) ∧
    (∀ i, lineAt (takeTrunkOutcome t o s) i = lineAt s i) := by
  simp [takeTrunkOutcome]

@[simp] theorem beginMessage_frame (t : Trunk) (s : State) :
    (beginMessage t s).pending = s.pending ∧ (beginMessage t s).inReset = s.inReset ∧ (beginMessage t s).ext = s.ext ∧
    (beginMessage t s).pln = s.pln ∧ (beginMessage t s).ctx = s.ctx ∧ (beginMessage t s).dst = s.dst ∧
    (beginMessage t s).cmb = s.cmb ∧ (beginMessage t s).txs = s.txs ∧ (beginMessage t s).mon = s.mon ∧
    (beginMessage t s).free = s.free ∧ (∀ i, ctxAt (beginMessage t s) i = ctxAt s i) ∧
    (∀ i, activeAt (beginMessage t s) i = activeAt s i) ∧ (∀ i, lineAt (beginMessage t s) i = lineAt s i) := by
  simp only [beginMessage]
  repeat' split
  all_goals simp

@[simp] theorem sendReverse_frame (t : Trunk) (s : State) :
    (sendReverse t s).pending = s.pending ∧ (sendReverse t s).inReset = s.inReset ∧ (sendReverse t s).ext = s.ext ∧
    (sendReverse t s).pln = s.pln ∧ (sendReverse t s).ctx = s.ctx ∧ (sendReverse t s).dst = s.dst ∧
    (sendReverse t s).cmb = s.cmb ∧ (sendReverse t s).txs = s.txs ∧ (sendReverse t s).mon = s.mon ∧
    (sendReverse t s).free = s.free ∧ (∀ i, ctxAt (sendReverse t s) i = ctxAt s i) ∧
    (∀ i, activeAt (sendReverse t s) i = activeAt s i) ∧ (∀ i, lineAt (sendReverse t s) i = lineAt s i) := by
  simp [sendReverse]

/-! ### Channel -/

@[simp] theorem handOn_frame (e : EntryIx) (en : Entry) (r : BlockRecord) (s : State) :
    (handOn e en r s).pending = s.pending ∧ (handOn e en r s).inReset = s.inReset ∧ (handOn e en r s).rtA = s.rtA ∧
    (handOn e en r s).rtB = s.rtB ∧ (handOn e en r s).ext = s.ext ∧ (handOn e en r s).pln = s.pln ∧
    (handOn e en r s).ctx = s.ctx ∧ (handOn e en r s).txs = s.txs ∧ (handOn e en r s).mon = s.mon ∧
    (handOn e en r s).svc = s.svc ∧ (handOn e en r s).free = s.free ∧ (∀ u, portOf (handOn e en r s) u = portOf s u) ∧
    (∀ i, ctxAt (handOn e en r s) i = ctxAt s i) ∧ (∀ i, activeAt (handOn e en r s) i = activeAt s i) := by
  simp only [handOn]
  repeat' split
  all_goals simp

@[simp] theorem finishBlock_frame (e : EntryIx) (en : Entry) (r : Source) (g : Bool) (b : BlockRecord) (c : Ctx) (s : State) :
    (finishBlock e en r g b c s).pending = s.pending ∧ (finishBlock e en r g b c s).inReset = s.inReset ∧
    (finishBlock e en r g b c s).rtA = s.rtA ∧ (finishBlock e en r g b c s).rtB = s.rtB ∧
    (finishBlock e en r g b c s).ext = s.ext ∧ (finishBlock e en r g b c s).pln = s.pln ∧
    (finishBlock e en r g b c s).txs = s.txs ∧ (finishBlock e en r g b c s).free = s.free ∧
    (∀ u, portOf (finishBlock e en r g b c s) u = portOf s u) ∧
    (∀ i, activeAt (finishBlock e en r g b c s) i = activeAt s i) := by
  simp only [finishBlock]
  repeat' split
  all_goals simp

@[simp] theorem takeBlock_frame (e : EntryIx) (en : Entry) (r : Source) (b : ChannelBlock) (s : State) :
    (takeBlock e en r b s).pending = s.pending ∧ (takeBlock e en r b s).inReset = s.inReset ∧
    (takeBlock e en r b s).rtA = s.rtA ∧ (takeBlock e en r b s).rtB = s.rtB ∧ (takeBlock e en r b s).ext = s.ext ∧
    (takeBlock e en r b s).pln = s.pln ∧ (takeBlock e en r b s).txs = s.txs ∧ (takeBlock e en r b s).free = s.free ∧
    (∀ u, portOf (takeBlock e en r b s) u = portOf s u) ∧ (∀ i, activeAt (takeBlock e en r b s) i = activeAt s i) := by
  simp only [takeBlock]
  repeat' split
  all_goals simp

@[simp] theorem deliverBlock_frame (e : EntryIx) (r : Source) (s : State) :
    (deliverBlock e r s).pending = s.pending ∧ (deliverBlock e r s).inReset = s.inReset ∧
    (deliverBlock e r s).rtA = s.rtA ∧ (deliverBlock e r s).rtB = s.rtB ∧ (deliverBlock e r s).pln = s.pln ∧
    (deliverBlock e r s).txs = s.txs ∧ (deliverBlock e r s).free = s.free ∧
    (∀ u, portOf (deliverBlock e r s) u = portOf s u) ∧ (∀ i, activeAt (deliverBlock e r s) i = activeAt s i) := by
  simp only [deliverBlock]
  repeat' split
  all_goals simp

/-! ### Memory -/

@[simp] theorem completeRead_frame (s : State) :
    (completeRead s).pending = s.pending ∧ (completeRead s).inReset = s.inReset ∧ (completeRead s).rtA = s.rtA ∧
    (completeRead s).rtB = s.rtB ∧ (completeRead s).ext = s.ext ∧ (completeRead s).pln = s.pln ∧
    (completeRead s).ctx = s.ctx ∧ (completeRead s).txs = s.txs ∧ (completeRead s).mon = s.mon ∧
    (completeRead s).svc = s.svc ∧ (completeRead s).free = s.free ∧ (∀ u, portOf (completeRead s) u = portOf s u) ∧
    (∀ i, ctxAt (completeRead s) i = ctxAt s i) ∧ (∀ i, activeAt (completeRead s) i = activeAt s i) := by
  simp only [completeRead]
  repeat' split
  all_goals simp

@[simp] theorem completeAccess_frame (s : State) :
    (completeAccess s).pending = s.pending ∧ (completeAccess s).inReset = s.inReset ∧ (completeAccess s).rtA = s.rtA ∧
    (completeAccess s).rtB = s.rtB ∧ (completeAccess s).ext = s.ext ∧ (completeAccess s).pln = s.pln ∧
    (completeAccess s).ctx = s.ctx ∧ (completeAccess s).txs = s.txs ∧ (completeAccess s).mon = s.mon ∧
    (completeAccess s).svc = s.svc ∧ (completeAccess s).free = s.free ∧
    (∀ u, portOf (completeAccess s) u = portOf s u) ∧ (∀ i, ctxAt (completeAccess s) i = ctxAt s i) ∧
    (∀ i, activeAt (completeAccess s) i = activeAt s i) := by
  simp only [completeAccess]
  repeat' split
  all_goals simp

@[simp] theorem overrunCtx_frame (e : EntryIx) (s : State) :
    (overrunCtx e s).pending = s.pending ∧ (overrunCtx e s).inReset = s.inReset ∧ (overrunCtx e s).rtA = s.rtA ∧
    (overrunCtx e s).rtB = s.rtB ∧ (overrunCtx e s).ext = s.ext ∧ (overrunCtx e s).pln = s.pln ∧
    (overrunCtx e s).dst = s.dst ∧ (overrunCtx e s).cmb = s.cmb ∧ (overrunCtx e s).txs = s.txs ∧
    (overrunCtx e s).free = s.free ∧ (∀ u, portOf (overrunCtx e s) u = portOf s u) ∧
    (∀ i, activeAt (overrunCtx e s) i = activeAt s i) ∧ (∀ i, lineAt (overrunCtx e s) i = lineAt s i) := by
  simp only [overrunCtx]
  repeat' split
  all_goals simp

@[simp] theorem tellOverrun_frame (s : State) :
    (tellOverrun s).pending = s.pending ∧ (tellOverrun s).inReset = s.inReset ∧ (tellOverrun s).rtA = s.rtA ∧
    (tellOverrun s).rtB = s.rtB ∧ (tellOverrun s).ext = s.ext ∧ (tellOverrun s).pln = s.pln ∧
    (tellOverrun s).dst = s.dst ∧ (tellOverrun s).cmb = s.cmb ∧ (tellOverrun s).txs = s.txs ∧
    (tellOverrun s).free = s.free ∧ (∀ u, portOf (tellOverrun s) u = portOf s u) ∧
    (∀ i, activeAt (tellOverrun s) i = activeAt s i) ∧ (∀ i, lineAt (tellOverrun s) i = lineAt s i) := by
  simp [tellOverrun]

@[simp] theorem overrun_frame (s : State) :
    (overrun s).pending = s.pending ∧ (overrun s).inReset = s.inReset ∧ (overrun s).rtA = s.rtA ∧
    (overrun s).rtB = s.rtB ∧ (overrun s).ext = s.ext ∧ (overrun s).pln = s.pln ∧ (overrun s).txs = s.txs ∧
    (overrun s).free = s.free ∧ (∀ u, portOf (overrun s) u = portOf s u) ∧
    (∀ i, activeAt (overrun s) i = activeAt s i) := by
  simp [overrun]

@[simp] theorem refreshExpiry_frame (s : State) :
    (refreshExpiry s).pending = s.pending ∧ (refreshExpiry s).inReset = s.inReset ∧ (refreshExpiry s).rtA = s.rtA ∧
    (refreshExpiry s).rtB = s.rtB ∧ (refreshExpiry s).ext = s.ext ∧ (refreshExpiry s).pln = s.pln ∧
    (refreshExpiry s).txs = s.txs ∧ (refreshExpiry s).free = s.free ∧ (∀ u, portOf (refreshExpiry s) u = portOf s u) ∧
    (∀ i, activeAt (refreshExpiry s) i = activeAt s i) := by
  simp only [refreshExpiry]
  repeat' split
  all_goals simp

/-! ### Switch -/

@[simp] theorem freeEntry_frame (e : EntryIx) (s : State) :
    (freeEntry e s).pending = s.pending ∧ (freeEntry e s).inReset = s.inReset ∧ (freeEntry e s).rtA = s.rtA ∧
    (freeEntry e s).rtB = s.rtB ∧ (freeEntry e s).ext = s.ext ∧ (freeEntry e s).pln = s.pln ∧
    (freeEntry e s).ctx = s.ctx ∧ (freeEntry e s).txs = s.txs ∧ (freeEntry e s).mon = s.mon ∧
    (freeEntry e s).svc = s.svc ∧ (freeEntry e s).free = s.free ∧ (∀ u, portOf (freeEntry e s) u = portOf s u) ∧
    (∀ i, ctxAt (freeEntry e s) i = ctxAt s i) ∧ (∀ i, activeAt (freeEntry e s) i = activeAt s i) := by
  simp [freeEntry]

@[simp] theorem allocEntry_frame (e : EntryIx) (en : Entry) (s : State) :
    (allocEntry e en s).pending = s.pending ∧ (allocEntry e en s).inReset = s.inReset ∧
    (allocEntry e en s).rtA = s.rtA ∧ (allocEntry e en s).rtB = s.rtB ∧ (allocEntry e en s).ext = s.ext ∧
    (allocEntry e en s).pln = s.pln ∧ (allocEntry e en s).ctx = s.ctx ∧ (allocEntry e en s).cmb = s.cmb ∧
    (allocEntry e en s).txs = s.txs ∧ (allocEntry e en s).mon = s.mon ∧ (allocEntry e en s).svc = s.svc ∧
    (allocEntry e en s).free = s.free ∧ (∀ u, portOf (allocEntry e en s) u = portOf s u) ∧
    (∀ i, ctxAt (allocEntry e en s) i = ctxAt s i) ∧ (∀ i, activeAt (allocEntry e en s) i = activeAt s i) := by
  simp only [allocEntry]
  repeat' split
  all_goals simp

@[simp] theorem clearCounts_frame (e : EntryIx) (s : State) :
    (clearCounts e s).pending = s.pending ∧ (clearCounts e s).inReset = s.inReset ∧ (clearCounts e s).rtA = s.rtA ∧
    (clearCounts e s).rtB = s.rtB ∧ (clearCounts e s).ext = s.ext ∧ (clearCounts e s).pln = s.pln ∧
    (clearCounts e s).ctx = s.ctx ∧ (clearCounts e s).txs = s.txs ∧ (clearCounts e s).mon = s.mon ∧
    (clearCounts e s).svc = s.svc ∧ (clearCounts e s).free = s.free ∧ (∀ u, portOf (clearCounts e s) u = portOf s u) ∧
    (∀ i, ctxAt (clearCounts e s) i = ctxAt s i) ∧ (∀ i, activeAt (clearCounts e s) i = activeAt s i) := by
  simp [clearCounts]

@[simp] theorem switchCtx_frame (e : EntryIx) (k : PosClass) (s : State) :
    (switchCtx e k s).pending = s.pending ∧ (switchCtx e k s).inReset = s.inReset ∧ (switchCtx e k s).rtA = s.rtA ∧
    (switchCtx e k s).rtB = s.rtB ∧ (switchCtx e k s).ext = s.ext ∧ (switchCtx e k s).pln = s.pln ∧
    (switchCtx e k s).dst = s.dst ∧ (switchCtx e k s).cmb = s.cmb ∧ (switchCtx e k s).txs = s.txs ∧
    (switchCtx e k s).free = s.free ∧ (∀ u, portOf (switchCtx e k s) u = portOf s u) ∧
    (∀ i, activeAt (switchCtx e k s) i = activeAt s i) ∧ (∀ i, lineAt (switchCtx e k s) i = lineAt s i) := by
  simp only [switchCtx]
  repeat' split
  all_goals simp

@[simp] theorem adoptPlan_frame (s : State) :
    (adoptPlan s).pending = s.pending ∧ (adoptPlan s).inReset = s.inReset ∧ (adoptPlan s).rtA = s.rtA ∧
    (adoptPlan s).rtB = s.rtB ∧ (adoptPlan s).ext = s.ext ∧ (adoptPlan s).ctx = s.ctx ∧ (adoptPlan s).dst = s.dst ∧
    (adoptPlan s).cmb = s.cmb ∧ (adoptPlan s).txs = s.txs ∧ (adoptPlan s).mon = s.mon ∧ (adoptPlan s).svc = s.svc ∧
    (adoptPlan s).free = s.free ∧ (∀ u, portOf (adoptPlan s) u = portOf s u) ∧
    (∀ i, ctxAt (adoptPlan s) i = ctxAt s i) ∧ (∀ i, lineAt (adoptPlan s) i = lineAt s i) := by
  simp [adoptPlan]

@[simp] theorem freePosition_frame (k : Classes) (e : EntryIx) (s : State) :
    (freePosition k e s).pending = s.pending ∧ (freePosition k e s).inReset = s.inReset ∧
    (freePosition k e s).rtA = s.rtA ∧ (freePosition k e s).rtB = s.rtB ∧ (freePosition k e s).ext = s.ext ∧
    (freePosition k e s).pln = s.pln ∧ (freePosition k e s).ctx = s.ctx ∧ (freePosition k e s).txs = s.txs ∧
    (freePosition k e s).mon = s.mon ∧ (freePosition k e s).svc = s.svc ∧ (freePosition k e s).free = s.free ∧
    (∀ u, portOf (freePosition k e s) u = portOf s u) ∧ (∀ i, ctxAt (freePosition k e s) i = ctxAt s i) ∧
    (∀ i, activeAt (freePosition k e s) i = activeAt s i) := by
  simp only [freePosition]
  repeat' split
  all_goals simp

@[simp] theorem clearPosition_frame (k : Classes) (e : EntryIx) (s : State) :
    (clearPosition k e s).pending = s.pending ∧ (clearPosition k e s).inReset = s.inReset ∧
    (clearPosition k e s).rtA = s.rtA ∧ (clearPosition k e s).rtB = s.rtB ∧ (clearPosition k e s).ext = s.ext ∧
    (clearPosition k e s).pln = s.pln ∧ (clearPosition k e s).ctx = s.ctx ∧ (clearPosition k e s).txs = s.txs ∧
    (clearPosition k e s).mon = s.mon ∧ (clearPosition k e s).svc = s.svc ∧ (clearPosition k e s).free = s.free ∧
    (∀ u, portOf (clearPosition k e s) u = portOf s u) ∧ (∀ i, ctxAt (clearPosition k e s) i = ctxAt s i) ∧
    (∀ i, activeAt (clearPosition k e s) i = activeAt s i) := by
  simp only [clearPosition]
  repeat' split
  all_goals simp

@[simp] theorem freePass_frame (k : Classes) (s : State) :
    (freePass k s).pending = s.pending ∧ (freePass k s).inReset = s.inReset ∧ (freePass k s).rtA = s.rtA ∧
    (freePass k s).rtB = s.rtB ∧ (freePass k s).ext = s.ext ∧ (freePass k s).pln = s.pln ∧
    (freePass k s).ctx = s.ctx ∧ (freePass k s).txs = s.txs ∧ (freePass k s).mon = s.mon ∧
    (freePass k s).svc = s.svc ∧ (freePass k s).free = s.free ∧ (∀ u, portOf (freePass k s) u = portOf s u) ∧
    (∀ i, ctxAt (freePass k s) i = ctxAt s i) ∧ (∀ i, activeAt (freePass k s) i = activeAt s i) := by
  simp [freePass]

@[simp] theorem allocPosition_frame (k : Classes) (e : EntryIx) (s : State) :
    (allocPosition k e s).pending = s.pending ∧ (allocPosition k e s).inReset = s.inReset ∧
    (allocPosition k e s).rtA = s.rtA ∧ (allocPosition k e s).rtB = s.rtB ∧ (allocPosition k e s).ext = s.ext ∧
    (allocPosition k e s).pln = s.pln ∧ (allocPosition k e s).ctx = s.ctx ∧ (allocPosition k e s).cmb = s.cmb ∧
    (allocPosition k e s).txs = s.txs ∧ (allocPosition k e s).mon = s.mon ∧ (allocPosition k e s).svc = s.svc ∧
    (allocPosition k e s).free = s.free ∧ (∀ u, portOf (allocPosition k e s) u = portOf s u) ∧
    (∀ i, ctxAt (allocPosition k e s) i = ctxAt s i) ∧ (∀ i, activeAt (allocPosition k e s) i = activeAt s i) := by
  simp only [allocPosition]
  repeat' split
  all_goals simp

@[simp] theorem allocPass_frame (k : Classes) (s : State) :
    (allocPass k s).pending = s.pending ∧ (allocPass k s).inReset = s.inReset ∧ (allocPass k s).rtA = s.rtA ∧
    (allocPass k s).rtB = s.rtB ∧ (allocPass k s).ext = s.ext ∧ (allocPass k s).pln = s.pln ∧
    (allocPass k s).ctx = s.ctx ∧ (allocPass k s).cmb = s.cmb ∧ (allocPass k s).txs = s.txs ∧
    (allocPass k s).mon = s.mon ∧ (allocPass k s).svc = s.svc ∧ (allocPass k s).free = s.free ∧
    (∀ u, portOf (allocPass k s) u = portOf s u) ∧ (∀ i, ctxAt (allocPass k s) i = ctxAt s i) ∧
    (∀ i, activeAt (allocPass k s) i = activeAt s i) := by
  simp [allocPass]

@[simp] theorem clearPass_frame (k : Classes) (s : State) :
    (clearPass k s).pending = s.pending ∧ (clearPass k s).inReset = s.inReset ∧ (clearPass k s).rtA = s.rtA ∧
    (clearPass k s).rtB = s.rtB ∧ (clearPass k s).ext = s.ext ∧ (clearPass k s).pln = s.pln ∧
    (clearPass k s).ctx = s.ctx ∧ (clearPass k s).txs = s.txs ∧ (clearPass k s).mon = s.mon ∧
    (clearPass k s).svc = s.svc ∧ (clearPass k s).free = s.free ∧ (∀ u, portOf (clearPass k s) u = portOf s u) ∧
    (∀ i, ctxAt (clearPass k s) i = ctxAt s i) ∧ (∀ i, activeAt (clearPass k s) i = activeAt s i) := by
  simp [clearPass]

@[simp] theorem rebuildTaps_frame (k : Classes) (s : State) :
    (rebuildTaps k s).pending = s.pending ∧ (rebuildTaps k s).inReset = s.inReset ∧ (rebuildTaps k s).rtA = s.rtA ∧
    (rebuildTaps k s).rtB = s.rtB ∧ (rebuildTaps k s).pln = s.pln ∧ (rebuildTaps k s).ctx = s.ctx ∧
    (rebuildTaps k s).dst = s.dst ∧ (rebuildTaps k s).cmb = s.cmb ∧ (rebuildTaps k s).txs = s.txs ∧
    (rebuildTaps k s).mon = s.mon ∧ (rebuildTaps k s).svc = s.svc ∧ (rebuildTaps k s).free = s.free ∧
    (∀ u, portOf (rebuildTaps k s) u = portOf s u) ∧ (∀ i, ctxAt (rebuildTaps k s) i = ctxAt s i) ∧
    (∀ i, activeAt (rebuildTaps k s) i = activeAt s i) ∧ (∀ i, lineAt (rebuildTaps k s) i = lineAt s i) := by
  simp [rebuildTaps]

@[simp] theorem contextPass_frame (k : Classes) (s : State) :
    (contextPass k s).pending = s.pending ∧ (contextPass k s).inReset = s.inReset ∧ (contextPass k s).rtA = s.rtA ∧
    (contextPass k s).rtB = s.rtB ∧ (contextPass k s).ext = s.ext ∧ (contextPass k s).pln = s.pln ∧
    (contextPass k s).dst = s.dst ∧ (contextPass k s).cmb = s.cmb ∧ (contextPass k s).txs = s.txs ∧
    (contextPass k s).free = s.free ∧ (∀ u, portOf (contextPass k s) u = portOf s u) ∧
    (∀ i, activeAt (contextPass k s) i = activeAt s i) ∧ (∀ i, lineAt (contextPass k s) i = lineAt s i) := by
  simp [contextPass]

@[simp] theorem disarm_frame (s : State) :
    (disarm s).pending = s.pending ∧ (disarm s).inReset = s.inReset ∧ (disarm s).rtA = s.rtA ∧
    (disarm s).rtB = s.rtB ∧ (disarm s).ext = s.ext ∧ (disarm s).ctx = s.ctx ∧ (disarm s).dst = s.dst ∧
    (disarm s).cmb = s.cmb ∧ (disarm s).txs = s.txs ∧ (disarm s).mon = s.mon ∧ (disarm s).svc = s.svc ∧
    (disarm s).free = s.free ∧ (∀ u, portOf (disarm s) u = portOf s u) ∧ (∀ i, ctxAt (disarm s) i = ctxAt s i) ∧
    (∀ i, lineAt (disarm s) i = lineAt s i) := by
  simp [disarm]

@[simp] theorem postSwitched_frame (k : Classes) (s : State) :
    (postSwitched k s).pending = s.pending ∧ (postSwitched k s).inReset = s.inReset ∧ (postSwitched k s).rtA = s.rtA ∧
    (postSwitched k s).rtB = s.rtB ∧ (postSwitched k s).ext = s.ext ∧ (postSwitched k s).pln = s.pln ∧
    (postSwitched k s).ctx = s.ctx ∧ (postSwitched k s).dst = s.dst ∧ (postSwitched k s).cmb = s.cmb ∧
    (postSwitched k s).txs = s.txs ∧ (postSwitched k s).mon = s.mon ∧ (postSwitched k s).free = s.free ∧
    (∀ u, portOf (postSwitched k s) u = portOf s u) ∧ (∀ i, ctxAt (postSwitched k s) i = ctxAt s i) ∧
    (∀ i, activeAt (postSwitched k s) i = activeAt s i) ∧ (∀ i, lineAt (postSwitched k s) i = lineAt s i) := by
  simp [postSwitched]

@[simp] theorem settleSettings_frame (s : State) :
    (settleSettings s).pending = s.pending ∧ (settleSettings s).inReset = s.inReset ∧ (settleSettings s).rtA = s.rtA ∧
    (settleSettings s).rtB = s.rtB ∧ (settleSettings s).ext = s.ext ∧ (settleSettings s).pln = s.pln ∧
    (settleSettings s).dst = s.dst ∧ (settleSettings s).cmb = s.cmb ∧ (settleSettings s).free = s.free ∧
    (∀ u, portOf (settleSettings s) u = portOf s u) ∧ (∀ i, activeAt (settleSettings s) i = activeAt s i) ∧
    (∀ i, lineAt (settleSettings s) i = lineAt s i) := by
  simp [settleSettings]

@[simp] theorem planSwitch_frame (s : State) :
    (planSwitch s).pending = s.pending ∧ (planSwitch s).inReset = s.inReset ∧ (planSwitch s).rtA = s.rtA ∧
    (planSwitch s).rtB = s.rtB ∧ (planSwitch s).free = s.free ∧ (∀ u, portOf (planSwitch s) u = portOf s u) := by
  simp [planSwitch]

/-! ### Combiner -/

@[simp] theorem queueRead_frame (e : EntryIx) (s : State) :
    (queueRead e s).pending = s.pending ∧ (queueRead e s).inReset = s.inReset ∧ (queueRead e s).rtA = s.rtA ∧
    (queueRead e s).rtB = s.rtB ∧ (queueRead e s).ext = s.ext ∧ (queueRead e s).pln = s.pln ∧
    (queueRead e s).ctx = s.ctx ∧ (queueRead e s).txs = s.txs ∧ (queueRead e s).mon = s.mon ∧
    (queueRead e s).svc = s.svc ∧ (queueRead e s).free = s.free ∧ (∀ u, portOf (queueRead e s) u = portOf s u) ∧
    (∀ i, ctxAt (queueRead e s) i = ctxAt s i) ∧ (∀ i, activeAt (queueRead e s) i = activeAt s i) := by
  simp only [queueRead]
  repeat' split
  all_goals simp

@[simp] theorem startPeriod_frame (s : State) :
    (startPeriod s).pending = s.pending ∧ (startPeriod s).inReset = s.inReset ∧ (startPeriod s).rtA = s.rtA ∧
    (startPeriod s).rtB = s.rtB ∧ (startPeriod s).pln = s.pln ∧ (startPeriod s).dst = s.dst ∧
    (startPeriod s).cmb = s.cmb ∧ (startPeriod s).mon = s.mon ∧ (startPeriod s).svc = s.svc ∧
    (startPeriod s).free = s.free ∧ (∀ u, portOf (startPeriod s) u = portOf s u) ∧
    (∀ i, activeAt (startPeriod s) i = activeAt s i) ∧ (∀ i, lineAt (startPeriod s) i = lineAt s i) := by
  simp [startPeriod]

@[simp] theorem beginOutBlock_frame (s : State) :
    (beginOutBlock s).pending = s.pending ∧ (beginOutBlock s).inReset = s.inReset ∧ (beginOutBlock s).rtA = s.rtA ∧
    (beginOutBlock s).rtB = s.rtB ∧ (beginOutBlock s).ext = s.ext ∧ (beginOutBlock s).pln = s.pln ∧
    (beginOutBlock s).ctx = s.ctx ∧ (beginOutBlock s).txs = s.txs ∧ (beginOutBlock s).mon = s.mon ∧
    (beginOutBlock s).svc = s.svc ∧ (beginOutBlock s).free = s.free ∧ (∀ u, portOf (beginOutBlock s) u = portOf s u) ∧
    (∀ i, ctxAt (beginOutBlock s) i = ctxAt s i) ∧ (∀ i, activeAt (beginOutBlock s) i = activeAt s i) := by
  simp [beginOutBlock]

@[simp] theorem queueReads_frame (s : State) :
    (queueReads s).pending = s.pending ∧ (queueReads s).inReset = s.inReset ∧ (queueReads s).rtA = s.rtA ∧
    (queueReads s).rtB = s.rtB ∧ (queueReads s).ext = s.ext ∧ (queueReads s).pln = s.pln ∧
    (queueReads s).ctx = s.ctx ∧ (queueReads s).txs = s.txs ∧ (queueReads s).mon = s.mon ∧
    (queueReads s).svc = s.svc ∧ (queueReads s).free = s.free ∧ (∀ u, portOf (queueReads s) u = portOf s u) ∧
    (∀ i, ctxAt (queueReads s) i = ctxAt s i) ∧ (∀ i, activeAt (queueReads s) i = activeAt s i) := by
  simp [queueReads]

@[simp] theorem startBlock_frame (s : State) :
    (startBlock s).pending = s.pending ∧ (startBlock s).inReset = s.inReset ∧ (startBlock s).rtA = s.rtA ∧
    (startBlock s).rtB = s.rtB ∧ (startBlock s).pln = s.pln ∧ (startBlock s).mon = s.mon ∧
    (startBlock s).svc = s.svc ∧ (startBlock s).free = s.free ∧ (∀ u, portOf (startBlock s) u = portOf s u) ∧
    (∀ i, activeAt (startBlock s) i = activeAt s i) := by
  simp [startBlock]

@[simp] theorem shedOne_frame (c : Share) (s : State) :
    (shedOne c s).pending = s.pending ∧ (shedOne c s).inReset = s.inReset ∧ (shedOne c s).rtA = s.rtA ∧
    (shedOne c s).rtB = s.rtB ∧ (shedOne c s).ext = s.ext ∧ (shedOne c s).pln = s.pln ∧ (shedOne c s).dst = s.dst ∧
    (shedOne c s).cmb = s.cmb ∧ (shedOne c s).txs = s.txs ∧ (shedOne c s).free = s.free ∧
    (∀ u, portOf (shedOne c s) u = portOf s u) ∧ (∀ i, activeAt (shedOne c s) i = activeAt s i) ∧
    (∀ i, lineAt (shedOne c s) i = lineAt s i) := by
  simp [shedOne]

@[simp] theorem shedAll_frame (l : List Share) (s : State) :
    (shedAll l s).pending = s.pending ∧ (shedAll l s).inReset = s.inReset ∧ (shedAll l s).rtA = s.rtA ∧
    (shedAll l s).rtB = s.rtB ∧ (shedAll l s).ext = s.ext ∧ (shedAll l s).pln = s.pln ∧ (shedAll l s).dst = s.dst ∧
    (shedAll l s).cmb = s.cmb ∧ (shedAll l s).txs = s.txs ∧ (shedAll l s).free = s.free ∧
    (∀ u, portOf (shedAll l s) u = portOf s u) ∧ (∀ i, activeAt (shedAll l s) i = activeAt s i) ∧
    (∀ i, lineAt (shedAll l s) i = lineAt s i) := by
  simp [shedAll]

@[simp] theorem restoreOne_frame (c : Option Share) (s : State) :
    (restoreOne c s).pending = s.pending ∧ (restoreOne c s).inReset = s.inReset ∧ (restoreOne c s).rtA = s.rtA ∧
    (restoreOne c s).rtB = s.rtB ∧ (restoreOne c s).ext = s.ext ∧ (restoreOne c s).pln = s.pln ∧
    (restoreOne c s).dst = s.dst ∧ (restoreOne c s).cmb = s.cmb ∧ (restoreOne c s).txs = s.txs ∧
    (restoreOne c s).mon = s.mon ∧ (restoreOne c s).free = s.free ∧ (∀ u, portOf (restoreOne c s) u = portOf s u) ∧
    (∀ i, activeAt (restoreOne c s) i = activeAt s i) ∧ (∀ i, lineAt (restoreOne c s) i = lineAt s i) := by
  simp only [restoreOne]
  repeat' split
  all_goals simp

@[simp] theorem takeOutputBlock_frame (l : List Sample) (p : List Applied) (s : State) :
    (takeOutputBlock l p s).pending = s.pending ∧ (takeOutputBlock l p s).inReset = s.inReset ∧
    (takeOutputBlock l p s).rtA = s.rtA ∧ (takeOutputBlock l p s).rtB = s.rtB ∧ (takeOutputBlock l p s).ext = s.ext ∧
    (takeOutputBlock l p s).pln = s.pln ∧ (takeOutputBlock l p s).dst = s.dst ∧ (takeOutputBlock l p s).cmb = s.cmb ∧
    (takeOutputBlock l p s).free = s.free ∧ (∀ u, portOf (takeOutputBlock l p s) u = portOf s u) ∧
    (∀ i, activeAt (takeOutputBlock l p s) i = activeAt s i) ∧ (∀ i, lineAt (takeOutputBlock l p s) i = lineAt s i) := by
  simp [takeOutputBlock]

@[simp] theorem completeBlock_frame (o : OutBlock) (s : State) :
    (completeBlock o s).pending = s.pending ∧ (completeBlock o s).inReset = s.inReset ∧
    (completeBlock o s).rtA = s.rtA ∧ (completeBlock o s).rtB = s.rtB ∧ (completeBlock o s).free = s.free ∧
    (∀ u, portOf (completeBlock o s) u = portOf s u) := by
  simp only [completeBlock]
  repeat' split
  all_goals simp

@[simp] theorem assemble_frame (o : OutBlock) (s : State) :
    (assemble o s).pending = s.pending ∧ (assemble o s).inReset = s.inReset ∧ (assemble o s).rtA = s.rtA ∧
    (assemble o s).rtB = s.rtB ∧ (∀ u, portOf (assemble o s) u = portOf s u) := by
  simp [assemble]

@[simp] theorem assembleBlock_frame (s : State) :
    (assembleBlock s).pending = s.pending ∧ (assembleBlock s).inReset = s.inReset ∧ (assembleBlock s).rtA = s.rtA ∧
    (assembleBlock s).rtB = s.rtB ∧ (∀ u, portOf (assembleBlock s) u = portOf s u) := by
  simp only [assembleBlock]
  repeat' split
  all_goals simp

/-! ### Monitor -/

@[simp] theorem overlevelMute_frame (e : EntryIx) (s : State) :
    (overlevelMute e s).pending = s.pending ∧ (overlevelMute e s).inReset = s.inReset ∧
    (overlevelMute e s).rtA = s.rtA ∧ (overlevelMute e s).rtB = s.rtB ∧ (overlevelMute e s).ext = s.ext ∧
    (overlevelMute e s).pln = s.pln ∧ (overlevelMute e s).dst = s.dst ∧ (overlevelMute e s).cmb = s.cmb ∧
    (overlevelMute e s).txs = s.txs ∧ (overlevelMute e s).free = s.free ∧
    (∀ u, portOf (overlevelMute e s) u = portOf s u) ∧ (∀ i, activeAt (overlevelMute e s) i = activeAt s i) ∧
    (∀ i, lineAt (overlevelMute e s) i = lineAt s i) := by
  simp only [overlevelMute]
  repeat' split
  all_goals simp

@[simp] theorem completeEntry_frame (d : Dwell) (e : EntryIx) (x : Int) (s : State) :
    (completeEntry d e x s).pending = s.pending ∧ (completeEntry d e x s).inReset = s.inReset ∧
    (completeEntry d e x s).rtA = s.rtA ∧ (completeEntry d e x s).rtB = s.rtB ∧ (completeEntry d e x s).ext = s.ext ∧
    (completeEntry d e x s).pln = s.pln ∧ (completeEntry d e x s).dst = s.dst ∧ (completeEntry d e x s).cmb = s.cmb ∧
    (completeEntry d e x s).txs = s.txs ∧ (completeEntry d e x s).free = s.free ∧
    (∀ u, portOf (completeEntry d e x s) u = portOf s u) ∧ (∀ i, activeAt (completeEntry d e x s) i = activeAt s i) ∧
    (∀ i, lineAt (completeEntry d e x s) i = lineAt s i) := by
  simp only [completeEntry]
  repeat' split
  all_goals simp

@[simp] theorem completeSelftest_frame (d : Dwell) (s : State) :
    (completeSelftest d s).pending = s.pending ∧ (completeSelftest d s).inReset = s.inReset ∧
    (completeSelftest d s).rtA = s.rtA ∧ (completeSelftest d s).rtB = s.rtB ∧ (completeSelftest d s).ext = s.ext ∧
    (completeSelftest d s).pln = s.pln ∧ (completeSelftest d s).ctx = s.ctx ∧ (completeSelftest d s).dst = s.dst ∧
    (completeSelftest d s).cmb = s.cmb ∧ (completeSelftest d s).txs = s.txs ∧ (completeSelftest d s).svc = s.svc ∧
    (completeSelftest d s).free = s.free ∧ (∀ u, portOf (completeSelftest d s) u = portOf s u) ∧
    (∀ i, ctxAt (completeSelftest d s) i = ctxAt s i) ∧ (∀ i, activeAt (completeSelftest d s) i = activeAt s i) ∧
    (∀ i, lineAt (completeSelftest d s) i = lineAt s i) := by
  simp only [completeSelftest]
  repeat' split
  all_goals simp

@[simp] theorem countFrame_frame (h : Heard) (d : Dwell) (s : State) :
    (countFrame h d s).pending = s.pending ∧ (countFrame h d s).inReset = s.inReset ∧
    (countFrame h d s).rtA = s.rtA ∧ (countFrame h d s).rtB = s.rtB ∧ (countFrame h d s).ext = s.ext ∧
    (countFrame h d s).pln = s.pln ∧ (countFrame h d s).dst = s.dst ∧ (countFrame h d s).cmb = s.cmb ∧
    (countFrame h d s).txs = s.txs ∧ (countFrame h d s).free = s.free ∧
    (∀ u, portOf (countFrame h d s) u = portOf s u) ∧ (∀ i, activeAt (countFrame h d s) i = activeAt s i) ∧
    (∀ i, lineAt (countFrame h d s) i = lineAt s i) := by
  simp only [countFrame]
  repeat' split
  all_goals simp

@[simp] theorem beginDwell_frame (h : Heard) (s : State) :
    (beginDwell h s).pending = s.pending ∧ (beginDwell h s).inReset = s.inReset ∧ (beginDwell h s).rtA = s.rtA ∧
    (beginDwell h s).rtB = s.rtB ∧ (beginDwell h s).ext = s.ext ∧ (beginDwell h s).pln = s.pln ∧
    (beginDwell h s).dst = s.dst ∧ (beginDwell h s).cmb = s.cmb ∧ (beginDwell h s).txs = s.txs ∧
    (beginDwell h s).free = s.free ∧ (∀ u, portOf (beginDwell h s) u = portOf s u) ∧
    (∀ i, activeAt (beginDwell h s) i = activeAt s i) ∧ (∀ i, lineAt (beginDwell h s) i = lineAt s i) := by
  simp only [beginDwell]
  repeat' split
  all_goals simp

@[simp] theorem monitorFrame_frame (h : Heard) (s : State) :
    (monitorFrame h s).pending = s.pending ∧ (monitorFrame h s).inReset = s.inReset ∧
    (monitorFrame h s).rtA = s.rtA ∧ (monitorFrame h s).rtB = s.rtB ∧ (monitorFrame h s).ext = s.ext ∧
    (monitorFrame h s).pln = s.pln ∧ (monitorFrame h s).dst = s.dst ∧ (monitorFrame h s).cmb = s.cmb ∧
    (monitorFrame h s).txs = s.txs ∧ (monitorFrame h s).free = s.free ∧
    (∀ u, portOf (monitorFrame h s) u = portOf s u) ∧ (∀ i, activeAt (monitorFrame h s) i = activeAt s i) ∧
    (∀ i, lineAt (monitorFrame h s) i = lineAt s i) := by
  simp only [monitorFrame]
  repeat' split
  all_goals simp

/-! ### Transmit -/

@[simp] theorem sendForward_frame (s : State) :
    (sendForward s).pending = s.pending ∧ (sendForward s).inReset = s.inReset ∧ (sendForward s).rtA = s.rtA ∧
    (sendForward s).rtB = s.rtB ∧ (sendForward s).ext = s.ext ∧ (sendForward s).pln = s.pln ∧
    (sendForward s).dst = s.dst ∧ (sendForward s).cmb = s.cmb ∧ (sendForward s).free = s.free ∧ (∀ u, portOf (sendForward s) u = portOf s u) ∧
    (∀ i, activeAt (sendForward s) i = activeAt s i) ∧ (∀ i, lineAt (sendForward s) i = lineAt s i) := by
  simp [sendForward]

@[simp] theorem takeInvalid_frame (s : State) :
    (takeInvalid s).pending = s.pending ∧ (takeInvalid s).inReset = s.inReset ∧ (takeInvalid s).rtA = s.rtA ∧
    (takeInvalid s).rtB = s.rtB ∧ (takeInvalid s).ext = s.ext ∧ (takeInvalid s).pln = s.pln ∧
    (takeInvalid s).dst = s.dst ∧ (takeInvalid s).cmb = s.cmb ∧ (takeInvalid s).free = s.free ∧
    (∀ u, portOf (takeInvalid s) u = portOf s u) ∧ (∀ i, activeAt (takeInvalid s) i = activeAt s i) ∧
    (∀ i, lineAt (takeInvalid s) i = lineAt s i) := by
  simp only [takeInvalid]
  repeat' split
  all_goals simp

@[simp] theorem stageReady_frame (s : State) :
    (stageReady s).pending = s.pending ∧ (stageReady s).inReset = s.inReset ∧ (stageReady s).rtA = s.rtA ∧
    (stageReady s).rtB = s.rtB ∧ (stageReady s).ext = s.ext ∧ (stageReady s).pln = s.pln ∧
    (stageReady s).dst = s.dst ∧ (stageReady s).cmb = s.cmb ∧ (stageReady s).free = s.free ∧
    (∀ u, portOf (stageReady s) u = portOf s u) ∧ (∀ i, activeAt (stageReady s) i = activeAt s i) ∧
    (∀ i, lineAt (stageReady s) i = lineAt s i) := by
  simp only [stageReady]
  repeat' split
  all_goals simp

@[simp] theorem stageTrip_frame (s : State) :
    (stageTrip s).pending = s.pending ∧ (stageTrip s).inReset = s.inReset ∧ (stageTrip s).rtA = s.rtA ∧
    (stageTrip s).rtB = s.rtB ∧ (stageTrip s).ext = s.ext ∧ (stageTrip s).pln = s.pln ∧ (stageTrip s).dst = s.dst ∧
    (stageTrip s).cmb = s.cmb ∧ (stageTrip s).free = s.free ∧ (∀ u, portOf (stageTrip s) u = portOf s u) ∧
    (∀ i, activeAt (stageTrip s) i = activeAt s i) ∧ (∀ i, lineAt (stageTrip s) i = lineAt s i) := by
  simp only [stageTrip]
  repeat' split
  all_goals simp

@[simp] theorem stageEvaluate_frame (s : State) :
    (stageEvaluate s).pending = s.pending ∧ (stageEvaluate s).inReset = s.inReset ∧ (stageEvaluate s).rtA = s.rtA ∧
    (stageEvaluate s).rtB = s.rtB ∧ (stageEvaluate s).ext = s.ext ∧ (stageEvaluate s).pln = s.pln ∧
    (stageEvaluate s).dst = s.dst ∧ (stageEvaluate s).cmb = s.cmb ∧ (stageEvaluate s).free = s.free ∧
    (∀ u, portOf (stageEvaluate s) u = portOf s u) ∧ (∀ i, activeAt (stageEvaluate s) i = activeAt s i) ∧
    (∀ i, lineAt (stageEvaluate s) i = lineAt s i) := by
  simp only [stageEvaluate]
  repeat' split
  all_goals simp

@[simp] theorem takeValid_frame (r : Reading) (s : State) :
    (takeValid r s).pending = s.pending ∧ (takeValid r s).inReset = s.inReset ∧ (takeValid r s).rtA = s.rtA ∧
    (takeValid r s).rtB = s.rtB ∧ (takeValid r s).ext = s.ext ∧ (takeValid r s).pln = s.pln ∧
    (takeValid r s).dst = s.dst ∧ (takeValid r s).cmb = s.cmb ∧ (takeValid r s).free = s.free ∧
    (∀ u, portOf (takeValid r s) u = portOf s u) ∧ (∀ i, activeAt (takeValid r s) i = activeAt s i) ∧
    (∀ i, lineAt (takeValid r s) i = lineAt s i) := by
  simp only [takeValid]
  repeat' split
  all_goals simp

@[simp] theorem takeReverse_frame (w : Window) (s : State) :
    (takeReverse w s).pending = s.pending ∧ (takeReverse w s).inReset = s.inReset ∧ (takeReverse w s).rtA = s.rtA ∧
    (takeReverse w s).rtB = s.rtB ∧ (takeReverse w s).ext = s.ext ∧ (takeReverse w s).pln = s.pln ∧
    (takeReverse w s).dst = s.dst ∧ (takeReverse w s).cmb = s.cmb ∧ (takeReverse w s).free = s.free ∧
    (∀ u, portOf (takeReverse w s) u = portOf s u) ∧ (∀ i, activeAt (takeReverse w s) i = activeAt s i) ∧
    (∀ i, lineAt (takeReverse w s) i = lineAt s i) := by
  simp only [takeReverse]
  repeat' split
  all_goals simp

@[simp] theorem sampleLock_frame (l : Bool) (s : State) :
    (sampleLock l s).pending = s.pending ∧ (sampleLock l s).inReset = s.inReset ∧ (sampleLock l s).rtA = s.rtA ∧
    (sampleLock l s).rtB = s.rtB ∧ (sampleLock l s).ext = s.ext ∧ (sampleLock l s).pln = s.pln ∧
    (sampleLock l s).dst = s.dst ∧ (sampleLock l s).cmb = s.cmb ∧ (sampleLock l s).free = s.free ∧
    (∀ u, portOf (sampleLock l s) u = portOf s u) ∧ (∀ i, activeAt (sampleLock l s) i = activeAt s i) ∧
    (∀ i, lineAt (sampleLock l s) i = lineAt s i) := by
  simp only [sampleLock]
  repeat' split
  all_goals simp

@[simp] theorem expireBias_frame (s : State) :
    (expireBias s).pending = s.pending ∧ (expireBias s).inReset = s.inReset ∧ (expireBias s).rtA = s.rtA ∧
    (expireBias s).rtB = s.rtB ∧ (expireBias s).ext = s.ext ∧ (expireBias s).pln = s.pln ∧
    (expireBias s).dst = s.dst ∧ (expireBias s).cmb = s.cmb ∧ (expireBias s).free = s.free ∧
    (∀ u, portOf (expireBias s) u = portOf s u) ∧ (∀ i, activeAt (expireBias s) i = activeAt s i) ∧
    (∀ i, lineAt (expireBias s) i = lineAt s i) := by
  simp only [expireBias]
  repeat' split
  all_goals simp

@[simp] theorem expireCool_frame (s : State) :
    (expireCool s).pending = s.pending ∧ (expireCool s).inReset = s.inReset ∧ (expireCool s).rtA = s.rtA ∧
    (expireCool s).rtB = s.rtB ∧ (expireCool s).ext = s.ext ∧ (expireCool s).pln = s.pln ∧
    (expireCool s).dst = s.dst ∧ (expireCool s).cmb = s.cmb ∧ (expireCool s).free = s.free ∧
    (∀ u, portOf (expireCool s) u = portOf s u) ∧ (∀ i, activeAt (expireCool s) i = activeAt s i) ∧
    (∀ i, lineAt (expireCool s) i = lineAt s i) := by
  simp only [expireCool]
  repeat' split
  all_goals simp

/-! ### TestTone -/

@[simp] theorem expireTest_frame (e : EntryIx) (s : State) :
    (expireTest e s).pending = s.pending ∧ (expireTest e s).inReset = s.inReset ∧ (expireTest e s).rtA = s.rtA ∧
    (expireTest e s).rtB = s.rtB ∧ (expireTest e s).ext = s.ext ∧ (expireTest e s).pln = s.pln ∧
    (expireTest e s).dst = s.dst ∧ (expireTest e s).cmb = s.cmb ∧ (expireTest e s).txs = s.txs ∧
    (expireTest e s).free = s.free ∧ (∀ u, portOf (expireTest e s) u = portOf s u) ∧
    (∀ i, activeAt (expireTest e s) i = activeAt s i) ∧ (∀ i, lineAt (expireTest e s) i = lineAt s i) := by
  simp only [expireTest]
  repeat' split
  all_goals simp

/-! ### Requests -/

@[simp] theorem actMute_frame (b : List Byte) (s : State) :
    (actMute b s).state.pending = s.pending ∧ (actMute b s).state.inReset = s.inReset ∧
    (actMute b s).state.rtA = s.rtA ∧ (actMute b s).state.rtB = s.rtB ∧ (actMute b s).state.ext = s.ext ∧
    (actMute b s).state.pln = s.pln ∧ (actMute b s).state.dst = s.dst ∧ (actMute b s).state.cmb = s.cmb ∧
    (actMute b s).state.txs = s.txs ∧ (actMute b s).state.free = s.free ∧
    (∀ u, portOf (actMute b s).state u = portOf s u) ∧ (∀ i, activeAt (actMute b s).state i = activeAt s i) ∧
    (∀ i, lineAt (actMute b s).state i = lineAt s i) := by
  simp only [actMute, onEntry]
  repeat' split
  all_goals simp

@[simp] theorem actUnmute_frame (b : List Byte) (s : State) :
    (actUnmute b s).state.pending = s.pending ∧ (actUnmute b s).state.inReset = s.inReset ∧
    (actUnmute b s).state.rtA = s.rtA ∧ (actUnmute b s).state.rtB = s.rtB ∧ (actUnmute b s).state.ext = s.ext ∧
    (actUnmute b s).state.pln = s.pln ∧ (actUnmute b s).state.dst = s.dst ∧ (actUnmute b s).state.cmb = s.cmb ∧
    (actUnmute b s).state.txs = s.txs ∧ (actUnmute b s).state.free = s.free ∧
    (∀ u, portOf (actUnmute b s).state u = portOf s u) ∧ (∀ i, activeAt (actUnmute b s).state i = activeAt s i) ∧
    (∀ i, lineAt (actUnmute b s).state i = lineAt s i) := by
  simp only [actUnmute, onEntry]
  repeat' split
  all_goals simp

@[simp] theorem actForceSource_frame (b : List Byte) (s : State) :
    (actForceSource b s).state.pending = s.pending ∧ (actForceSource b s).state.inReset = s.inReset ∧
    (actForceSource b s).state.rtA = s.rtA ∧ (actForceSource b s).state.rtB = s.rtB ∧
    (actForceSource b s).state.ext = s.ext ∧ (actForceSource b s).state.pln = s.pln ∧
    (actForceSource b s).state.txs = s.txs ∧ (actForceSource b s).state.free = s.free ∧
    (∀ u, portOf (actForceSource b s).state u = portOf s u) ∧
    (∀ i, activeAt (actForceSource b s).state i = activeAt s i) := by
  simp only [actForceSource, onEntry]
  repeat' split
  all_goals simp

@[simp] theorem actClearFaultEntry_frame (b : List Byte) (s : State) :
    (actClearFaultEntry b s).state.pending = s.pending ∧ (actClearFaultEntry b s).state.inReset = s.inReset ∧
    (actClearFaultEntry b s).state.rtA = s.rtA ∧ (actClearFaultEntry b s).state.rtB = s.rtB ∧
    (actClearFaultEntry b s).state.ext = s.ext ∧ (actClearFaultEntry b s).state.pln = s.pln ∧
    (actClearFaultEntry b s).state.dst = s.dst ∧ (actClearFaultEntry b s).state.cmb = s.cmb ∧
    (actClearFaultEntry b s).state.txs = s.txs ∧ (actClearFaultEntry b s).state.free = s.free ∧
    (∀ u, portOf (actClearFaultEntry b s).state u = portOf s u) ∧
    (∀ i, activeAt (actClearFaultEntry b s).state i = activeAt s i) ∧
    (∀ i, lineAt (actClearFaultEntry b s).state i = lineAt s i) := by
  simp only [actClearFaultEntry, onEntry]
  repeat' split
  all_goals simp

@[simp] theorem actTestStart_frame (b : List Byte) (s : State) :
    (actTestStart b s).state.pending = s.pending ∧ (actTestStart b s).state.inReset = s.inReset ∧
    (actTestStart b s).state.rtA = s.rtA ∧ (actTestStart b s).state.rtB = s.rtB ∧
    (actTestStart b s).state.ext = s.ext ∧ (actTestStart b s).state.pln = s.pln ∧
    (actTestStart b s).state.dst = s.dst ∧ (actTestStart b s).state.cmb = s.cmb ∧
    (actTestStart b s).state.txs = s.txs ∧ (actTestStart b s).state.free = s.free ∧
    (∀ u, portOf (actTestStart b s).state u = portOf s u) ∧
    (∀ i, activeAt (actTestStart b s).state i = activeAt s i) ∧ (∀ i, lineAt (actTestStart b s).state i = lineAt s i) := by
  simp only [actTestStart, onEntry, stopReply]
  repeat' split
  all_goals simp

@[simp] theorem actTestStop_frame (b : List Byte) (s : State) :
    (actTestStop b s).state.pending = s.pending ∧ (actTestStop b s).state.inReset = s.inReset ∧
    (actTestStop b s).state.rtA = s.rtA ∧ (actTestStop b s).state.rtB = s.rtB ∧ (actTestStop b s).state.ext = s.ext ∧
    (actTestStop b s).state.pln = s.pln ∧ (actTestStop b s).state.dst = s.dst ∧ (actTestStop b s).state.cmb = s.cmb ∧
    (actTestStop b s).state.txs = s.txs ∧ (actTestStop b s).state.free = s.free ∧
    (∀ u, portOf (actTestStop b s).state u = portOf s u) ∧ (∀ i, activeAt (actTestStop b s).state i = activeAt s i) ∧
    (∀ i, lineAt (actTestStop b s).state i = lineAt s i) := by
  simp only [actTestStop, onEntry, stopReply]
  repeat' split
  all_goals simp

@[simp] theorem actKey_frame (b : List Byte) (s : State) :
    (actKey b s).state.pending = s.pending ∧ (actKey b s).state.inReset = s.inReset ∧ (actKey b s).state.rtA = s.rtA ∧
    (actKey b s).state.rtB = s.rtB ∧ (actKey b s).state.ext = s.ext ∧ (actKey b s).state.pln = s.pln ∧
    (actKey b s).state.dst = s.dst ∧ (actKey b s).state.cmb = s.cmb ∧ (actKey b s).state.free = s.free ∧
    (∀ u, portOf (actKey b s).state u = portOf s u) ∧ (∀ i, activeAt (actKey b s).state i = activeAt s i) ∧
    (∀ i, lineAt (actKey b s).state i = lineAt s i) := by
  simp only [actKey]
  repeat' split
  all_goals simp

@[simp] theorem actUnkey_frame (b : List Byte) (s : State) :
    (actUnkey b s).state.pending = s.pending ∧ (actUnkey b s).state.inReset = s.inReset ∧
    (actUnkey b s).state.rtA = s.rtA ∧ (actUnkey b s).state.rtB = s.rtB ∧ (actUnkey b s).state.ext = s.ext ∧
    (actUnkey b s).state.pln = s.pln ∧ (actUnkey b s).state.dst = s.dst ∧ (actUnkey b s).state.cmb = s.cmb ∧
    (actUnkey b s).state.free = s.free ∧ (∀ u, portOf (actUnkey b s).state u = portOf s u) ∧
    (∀ i, activeAt (actUnkey b s).state i = activeAt s i) ∧ (∀ i, lineAt (actUnkey b s).state i = lineAt s i) := by
  simp [actUnkey]

@[simp] theorem actShutdown_frame (b : List Byte) (s : State) :
    (actShutdown b s).state.pending = s.pending ∧ (actShutdown b s).state.inReset = s.inReset ∧
    (actShutdown b s).state.rtA = s.rtA ∧ (actShutdown b s).state.rtB = s.rtB ∧ (actShutdown b s).state.ext = s.ext ∧
    (actShutdown b s).state.pln = s.pln ∧ (actShutdown b s).state.dst = s.dst ∧ (actShutdown b s).state.cmb = s.cmb ∧
    (actShutdown b s).state.free = s.free ∧ (∀ u, portOf (actShutdown b s).state u = portOf s u) ∧
    (∀ i, activeAt (actShutdown b s).state i = activeAt s i) ∧ (∀ i, lineAt (actShutdown b s).state i = lineAt s i) := by
  simp [actShutdown]

@[simp] theorem actClearFaultTransmit_frame (b : List Byte) (s : State) :
    (actClearFaultTransmit b s).state.pending = s.pending ∧ (actClearFaultTransmit b s).state.inReset = s.inReset ∧
    (actClearFaultTransmit b s).state.rtA = s.rtA ∧ (actClearFaultTransmit b s).state.rtB = s.rtB ∧
    (actClearFaultTransmit b s).state.ext = s.ext ∧ (actClearFaultTransmit b s).state.pln = s.pln ∧
    (actClearFaultTransmit b s).state.dst = s.dst ∧ (actClearFaultTransmit b s).state.cmb = s.cmb ∧
    (actClearFaultTransmit b s).state.free = s.free ∧ (∀ u, portOf (actClearFaultTransmit b s).state u = portOf s u) ∧
    (∀ i, activeAt (actClearFaultTransmit b s).state i = activeAt s i) ∧
    (∀ i, lineAt (actClearFaultTransmit b s).state i = lineAt s i) := by
  simp only [actClearFaultTransmit]
  repeat' split
  all_goals simp

@[simp] theorem actSetMonitor_frame (b : List Byte) (s : State) :
    (actSetMonitor b s).state.pending = s.pending ∧ (actSetMonitor b s).state.inReset = s.inReset ∧
    (actSetMonitor b s).state.rtA = s.rtA ∧ (actSetMonitor b s).state.rtB = s.rtB ∧
    (actSetMonitor b s).state.ext = s.ext ∧ (actSetMonitor b s).state.pln = s.pln ∧
    (actSetMonitor b s).state.ctx = s.ctx ∧ (actSetMonitor b s).state.dst = s.dst ∧
    (actSetMonitor b s).state.cmb = s.cmb ∧ (actSetMonitor b s).state.txs = s.txs ∧
    (actSetMonitor b s).state.svc = s.svc ∧ (actSetMonitor b s).state.free = s.free ∧
    (∀ u, portOf (actSetMonitor b s).state u = portOf s u) ∧ (∀ i, ctxAt (actSetMonitor b s).state i = ctxAt s i) ∧
    (∀ i, activeAt (actSetMonitor b s).state i = activeAt s i) ∧
    (∀ i, lineAt (actSetMonitor b s).state i = lineAt s i) := by
  simp only [actSetMonitor]
  repeat' split
  all_goals simp

@[simp] theorem actPutEntry_frame (b : List Byte) (s : State) :
    (actPutEntry b s).state.pending = s.pending ∧ (actPutEntry b s).state.inReset = s.inReset ∧
    (actPutEntry b s).state.rtA = s.rtA ∧ (actPutEntry b s).state.rtB = s.rtB ∧ (actPutEntry b s).state.ext = s.ext ∧
    (actPutEntry b s).state.ctx = s.ctx ∧ (actPutEntry b s).state.dst = s.dst ∧ (actPutEntry b s).state.cmb = s.cmb ∧
    (actPutEntry b s).state.txs = s.txs ∧ (actPutEntry b s).state.mon = s.mon ∧ (actPutEntry b s).state.svc = s.svc ∧
    (actPutEntry b s).state.free = s.free ∧ (∀ u, portOf (actPutEntry b s).state u = portOf s u) ∧
    (∀ i, ctxAt (actPutEntry b s).state i = ctxAt s i) ∧ (∀ i, lineAt (actPutEntry b s).state i = lineAt s i) := by
  simp only [actPutEntry, stageAt]
  repeat' split
  all_goals simp

@[simp] theorem actDropEntry_frame (b : List Byte) (s : State) :
    (actDropEntry b s).state.pending = s.pending ∧ (actDropEntry b s).state.inReset = s.inReset ∧
    (actDropEntry b s).state.rtA = s.rtA ∧ (actDropEntry b s).state.rtB = s.rtB ∧
    (actDropEntry b s).state.ext = s.ext ∧ (actDropEntry b s).state.ctx = s.ctx ∧
    (actDropEntry b s).state.dst = s.dst ∧ (actDropEntry b s).state.cmb = s.cmb ∧
    (actDropEntry b s).state.txs = s.txs ∧ (actDropEntry b s).state.mon = s.mon ∧
    (actDropEntry b s).state.svc = s.svc ∧ (actDropEntry b s).state.free = s.free ∧
    (∀ u, portOf (actDropEntry b s).state u = portOf s u) ∧ (∀ i, ctxAt (actDropEntry b s).state i = ctxAt s i) ∧
    (∀ i, lineAt (actDropEntry b s).state i = lineAt s i) := by
  simp only [actDropEntry, stageAt]
  repeat' split
  all_goals simp

@[simp] theorem actPutSettings_frame (b : List Byte) (s : State) :
    (actPutSettings b s).state.pending = s.pending ∧ (actPutSettings b s).state.inReset = s.inReset ∧
    (actPutSettings b s).state.rtA = s.rtA ∧ (actPutSettings b s).state.rtB = s.rtB ∧
    (actPutSettings b s).state.ext = s.ext ∧ (actPutSettings b s).state.ctx = s.ctx ∧
    (actPutSettings b s).state.dst = s.dst ∧ (actPutSettings b s).state.cmb = s.cmb ∧
    (actPutSettings b s).state.txs = s.txs ∧ (actPutSettings b s).state.mon = s.mon ∧
    (actPutSettings b s).state.svc = s.svc ∧ (actPutSettings b s).state.free = s.free ∧
    (∀ u, portOf (actPutSettings b s).state u = portOf s u) ∧ (∀ i, ctxAt (actPutSettings b s).state i = ctxAt s i) ∧
    (∀ i, lineAt (actPutSettings b s).state i = lineAt s i) := by
  simp only [actPutSettings]
  repeat' split
  all_goals simp

@[simp] theorem actCopyActive_frame (b : List Byte) (s : State) :
    (actCopyActive b s).state.pending = s.pending ∧ (actCopyActive b s).state.inReset = s.inReset ∧
    (actCopyActive b s).state.rtA = s.rtA ∧ (actCopyActive b s).state.rtB = s.rtB ∧
    (actCopyActive b s).state.ext = s.ext ∧ (actCopyActive b s).state.ctx = s.ctx ∧
    (actCopyActive b s).state.dst = s.dst ∧ (actCopyActive b s).state.cmb = s.cmb ∧
    (actCopyActive b s).state.txs = s.txs ∧ (actCopyActive b s).state.mon = s.mon ∧
    (actCopyActive b s).state.svc = s.svc ∧ (actCopyActive b s).state.free = s.free ∧
    (∀ u, portOf (actCopyActive b s).state u = portOf s u) ∧ (∀ i, ctxAt (actCopyActive b s).state i = ctxAt s i) ∧
    (∀ i, lineAt (actCopyActive b s).state i = lineAt s i) := by
  simp only [actCopyActive]
  repeat' split
  all_goals simp

@[simp] theorem actApply_frame (b : List Byte) (s : State) :
    (actApply b s).state.pending = s.pending ∧ (actApply b s).state.inReset = s.inReset ∧
    (actApply b s).state.rtA = s.rtA ∧ (actApply b s).state.rtB = s.rtB ∧ (actApply b s).state.ext = s.ext ∧
    (actApply b s).state.ctx = s.ctx ∧ (actApply b s).state.dst = s.dst ∧ (actApply b s).state.cmb = s.cmb ∧
    (actApply b s).state.txs = s.txs ∧ (actApply b s).state.mon = s.mon ∧ (actApply b s).state.svc = s.svc ∧
    (actApply b s).state.free = s.free ∧ (∀ u, portOf (actApply b s).state u = portOf s u) ∧
    (∀ i, ctxAt (actApply b s).state i = ctxAt s i) ∧ (∀ i, lineAt (actApply b s).state i = lineAt s i) := by
  simp only [actApply]
  repeat' split
  all_goals simp

@[simp] theorem actCancel_frame (b : List Byte) (s : State) :
    (actCancel b s).state.pending = s.pending ∧ (actCancel b s).state.inReset = s.inReset ∧
    (actCancel b s).state.rtA = s.rtA ∧ (actCancel b s).state.rtB = s.rtB ∧ (actCancel b s).state.ext = s.ext ∧
    (actCancel b s).state.ctx = s.ctx ∧ (actCancel b s).state.dst = s.dst ∧ (actCancel b s).state.cmb = s.cmb ∧
    (actCancel b s).state.txs = s.txs ∧ (actCancel b s).state.mon = s.mon ∧ (actCancel b s).state.svc = s.svc ∧
    (actCancel b s).state.free = s.free ∧ (∀ u, portOf (actCancel b s).state u = portOf s u) ∧
    (∀ i, ctxAt (actCancel b s).state i = ctxAt s i) ∧ (∀ i, lineAt (actCancel b s).state i = lineAt s i) := by
  simp only [actCancel]
  repeat' split
  all_goals simp

end Sys2Proof.Machine
end

