-- ==== Sys2Proof/Laws/Commands.lean ====
section
/-! SUPPORT. What a command can do, said once: its effect as a function of the state, the answer of `exec` in terms of it, and
how a property is kept by a request, by a command, and by a step. -/

namespace Sys2Proof.Machine

/-- The effect of a command on a part that is not held in power-on reset. -/
def effect : Instr → State → State
  | .powerOnReset => fun s => { State.reset with pending := s.pending, free := s.free }
  | .trunkFrame t w => takeTrunkOutcome t (sortWindow t w)
  | .channelBlock e r => deliverBlock e r
  | .memoryAccessComplete => completeAccess
  | .refreshTimerExpiry => refreshExpiry
  | .outputBlockStart => startBlock
  | .outputBlockAssembly => assembleBlock
  | .forwardDriveFrame => sendForward
  | .reverseDriveFrame w => takeReverse w
  | .referenceLockSample l => sampleLock l
  | .biasTimerExpiry => expireBias
  | .coolTimerExpiry => expireCool
  | .testExpiry e => expireTest e
  | .reverseTrunkFrame t => sendReverse t
  | .unknownKind => unknownRequest
  | .identify => execRequest .identify actIdentify
  | .restart => restartRequest
  | .putEntry => execRequest .putEntry actPutEntry
  | .dropEntry => execRequest .dropEntry actDropEntry
  | .putSettings => execRequest .putSettings actPutSettings
  | .copyActive => execRequest .copyActive actCopyActive
  | .apply => execRequest .apply actApply
  | .cancel => execRequest .cancel actCancel
  | .getEntry => execRequest .getEntry actGetEntry
  | .getSettings => execRequest .getSettings actGetSettings
  | .getChannel => execRequest .getChannel actGetChannel
  | .mute => execRequest .mute actMute
  | .unmute => execRequest .unmute actUnmute
  | .forceSource => execRequest .forceSource actForceSource
  | .clearFaultEntry => execRequest .clearFaultEntry actClearFaultEntry
  | .getTransmit => execRequest .getTransmit actGetTransmit
  | .key => execRequest .key actKey
  | .unkey => execRequest .unkey actUnkey
  | .shutdown => execRequest .shutdown actShutdown
  | .clearFaultTransmit => execRequest .clearFaultTransmit actClearFaultTransmit
  | .setMonitor => execRequest .setMonitor actSetMonitor
  | .getSupervision => execRequest .getSupervision actGetSupervision
  | .testStart => execRequest .testStart actTestStart
  | .testStop => execRequest .testStop actTestStop
  | .powerOnResetLineLow => fun s => { s with inReset := true }

/-- `exec` always answers a next state: the command's effect, or, for a command other than the two of the reset line while
the part is held in reset, the state as it was. -/
theorem exec_eq (c : Instr) (s : State) :
    exec c s = .next (effect c s) ∨ (s.inReset = true ∧ exec c s = .next s) := by
  cases c <;> first
    | exact Or.inl rfl
    | (by_cases h : s.inReset = true
       · right
         exact ⟨h, by simp only [exec]; exact if_pos h⟩
       · left
         simp only [exec]
         exact if_neg h)

/-- Outside power-on reset a command has its effect. -/
theorem exec_released {s : State} (h : s.inReset = false) (c : Instr) : exec c s = .next (effect c s) := by
  rcases exec_eq c s with hc | ⟨hr, -⟩
  · exact hc
  · simp [h] at hr

/-- A property that no command's effect breaks, that a reset brings, and that does not look at the queue of commands, is
kept by every step. -/
theorem step_keeps {P : State → Prop} (hpending : ∀ s l, P s → P { s with pending := l })
    (heffect : ∀ c s, P s → P (effect c s)) {s t : State} (hs : P s) (h : step s = .next t) : P t := by
  unfold step at h
  split at h
  · injection h with h
    exact h ▸ hs
  · next c rest _ =>
    have hs' := hpending s rest hs
    rcases exec_eq c { s with pending := rest } with hc | ⟨-, hc⟩
    · rw [hc] at h
      injection h with h
      exact h ▸ heffect c _ hs'
    · rw [hc] at h
      injection h with h
      exact h ▸ hs'

/-! ### Requests -/

/-- What SVC takes to execute: the oldest item, when the outbox of its trunk is empty. -/
theorem takeRequest_eq_some {s s' : State} {r : Request} (h : takeRequest s = some (r, s')) :
    ∃ rest, s.svc.queue = r :: rest ∧ (portOf s r.trunk).outbox = none ∧ s' = setSvc { s.svc with queue := rest } s := by
  unfold takeRequest at h
  split at h
  · cases h
  · next r0 rest hq =>
    split at h
    · next ho =>
      cases h
      exact ⟨rest, hq, by simpa using ho, rfl⟩
    · cases h

theorem takeRequest_of_front {s : State} {r : Request} {rest : List Request} (hq : s.svc.queue = r :: rest)
    (ho : (portOf s r.trunk).outbox = none) : takeRequest s = some (r, setSvc { s.svc with queue := rest } s) := by
  simp [takeRequest, hq, ho]

/-- All that the execution of a request of a kind can do: nothing, answer LENGTH, or answer what the owning block says. -/
theorem execRequest_cases (k : Kind) (act : List Byte → State → Reply) (s : State) :
    execRequest k act s = s ∨
    ∃ r rest, s.svc.queue = r :: rest ∧ (portOf s r.trunk).outbox = none ∧ r.kind.toNat = k.code ∧
      ((r.body.length ≠ k.bodyLength ∧
        execRequest k act s = respond r .length [] (setSvc { s.svc with queue := rest } s)) ∨
       (r.body.length = k.bodyLength ∧
        execRequest k act s =
          respond r (act r.body (setSvc { s.svc with queue := rest } s)).status
            (act r.body (setSvc { s.svc with queue := rest } s)).body
            (act r.body (setSvc { s.svc with queue := rest } s)).state)) := by
  unfold execRequest
  split
  · exact Or.inl rfl
  · next r s' h =>
    obtain ⟨rest, hq, ho, rfl⟩ := takeRequest_eq_some h
    split
    · exact Or.inl rfl
    · next hk =>
      split
      · next hl => exact Or.inr ⟨r, rest, hq, ho, not_not.mp hk, Or.inl ⟨hl, rfl⟩⟩
      · next hl => exact Or.inr ⟨r, rest, hq, ho, not_not.mp hk, Or.inr ⟨not_not.mp hl, rfl⟩⟩

/-- A property that taking an item, acting and responding keep is kept by the execution of a request. -/
theorem execRequest_keeps {P : State → Prop} {k : Kind} {act : List Byte → State → Reply} {s : State}
    (htake : ∀ s r rest, s.svc.queue = r :: rest → P s → P (setSvc { s.svc with queue := rest } s))
    (hact : ∀ b s, P s → P (act b s).state)
    (hrespond : ∀ r st b s, P s → P (respond r st b s)) (hs : P s) : P (execRequest k act s) := by
  rcases execRequest_cases k act s with h | ⟨r, rest, hq, -, -, ⟨-, h⟩ | ⟨-, h⟩⟩ <;> rw [h]
  · exact hs
  · exact hrespond _ _ _ _ (htake s r rest hq hs)
  · exact hrespond _ _ _ _ (hact _ _ (htake s r rest hq hs))

/-- The answer to a request that SVC executes, whose owning block acts. -/
theorem execRequest_serves {k : Kind} {act : List Byte → State → Reply} {s : State} {r : Request} {rest : List Request}
    (hq : s.svc.queue = r :: rest) (ho : (portOf s r.trunk).outbox = none) (hk : r.kind.toNat = k.code)
    (hl : r.body.length = k.bodyLength) :
    execRequest k act s =
      respond r (act r.body (setSvc { s.svc with queue := rest } s)).status
        (act r.body (setSvc { s.svc with queue := rest } s)).body
        (act r.body (setSvc { s.svc with queue := rest } s)).state := by
  simp [execRequest, takeRequest_of_front hq ho, hk, hl]

/-- All that an UNKNOWN_KIND command can do: nothing, or answer UNKNOWN. -/
theorem unknownRequest_cases (s : State) :
    unknownRequest s = s ∨
    ∃ r rest, s.svc.queue = r :: rest ∧ (portOf s r.trunk).outbox = none ∧
      unknownRequest s = respond r .unknown [] (setSvc { s.svc with queue := rest } s) := by
  unfold unknownRequest
  split
  · exact Or.inl rfl
  · next r s' h =>
    obtain ⟨rest, hq, ho, rfl⟩ := takeRequest_eq_some h
    split
    · exact Or.inl rfl
    · exact Or.inr ⟨r, rest, hq, ho, rfl⟩

/-- All that a RESTART command can do: nothing, answer LENGTH, or answer OK and restart. -/
theorem restartRequest_cases (s : State) :
    restartRequest s = s ∨
    ∃ r rest, s.svc.queue = r :: rest ∧ (portOf s r.trunk).outbox = none ∧
      (restartRequest s = respond r .length [] (setSvc { s.svc with queue := rest } s) ∨
       restartRequest s = warmRestart (respond r .ok [] (setSvc { s.svc with queue := rest } s))) := by
  unfold restartRequest
  split
  · exact Or.inl rfl
  · next r s' h =>
    obtain ⟨rest, hq, ho, rfl⟩ := takeRequest_eq_some h
    split
    · exact Or.inl rfl
    · split
      · exact Or.inr ⟨r, rest, hq, ho, Or.inl rfl⟩
      · exact Or.inr ⟨r, rest, hq, ho, Or.inr rfl⟩

/-- The requests whose owning block only reports leave the state as it was. -/
@[simp] theorem reports_state (b : List Byte) (s : State) :
    (actIdentify b s).state = s ∧ (actGetEntry b s).state = s ∧ (actGetSettings b s).state = s ∧
    (actGetChannel b s).state = s ∧ (actGetTransmit b s).state = s ∧ (actGetSupervision b s).state = s := by
  refine ⟨rfl, ?_, ?_, ?_, rfl, rfl⟩
  · simp only [actGetEntry]
    split
    · rfl
    · split <;> rfl
  · simp only [actGetSettings]
    split <;> rfl
  · simp only [actGetChannel, onEntry]
    split <;> rfl

end Sys2Proof.Machine
end

