-- ==== Sys2Proof/Laws/Contexts.lean ====
section
/-! SUPPORT. What a command can do to a channel context, said once: a condition on the core of a context (source in use, gain,
shed flag, contributing or not) that the elementary changes keep is kept by every command. -/

namespace Sys2Proof.Machine

@[simp] theorem Source.other_other (r : Source) : r.other.other = r := by cases r <;> rfl

@[simp] theorem Source.other_ne (r : Source) : r.other ≠ r := by cases r <;> decide

/-! ### Committing a context -/

@[simp] theorem ctxAt_post (c : Content) (s : State) (i : EntryIx) : ctxAt (post c s) i = ctxAt s i := rfl

/-- After a commit the context is the committed one, and every other context stands as it was. -/
theorem ctxAt_commitCtx (e : EntryIx) (n : Ctx) (r : Reason) (s : State) (i : EntryIx) :
    ctxAt (commitCtx e n r s) i = if i = e then committed (ctxAt s e) n else ctxAt s i := by
  unfold commitCtx
  by_cases h : i = e
  · subst h
    simp only [if_pos]
    split <;> split <;> simp
  · simp only [h, if_false]
    split <;> split <;> simp [h]

@[simp] theorem committed_state (o n : Ctx) : (committed o n).state = n.state := by
  unfold committed; split <;> rfl

@[simp] theorem committed_source (o n : Ctx) : (committed o n).source = n.source := by
  unfold committed; split <;> rfl

@[simp] theorem committed_gain (o n : Ctx) : (committed o n).gain = n.gain := by
  unfold committed; split <;> rfl

theorem committed_shed (o n : Ctx) : (committed o n).shed = (n.shed && !leavesAir o n) := by
  unfold committed
  split
  · next h => simp [h]
  · next h => simp [h]

/-! ### Conditions on the core of a context -/

/-- A gain that the level loop may hold (R75). -/
def gainInRange (g : Option Int) : Prop := ∀ x, g = some x → -200 ≤ x ∧ x ≤ 600

/-- A condition on a context, given its entry, that looks only at the context's core and that every elementary change of the
core keeps. -/
structure CoreClosed (Q : Option Entry → Ctx → Prop) : Prop where
  core    : ∀ o c d, d.source = c.source → d.gain = c.gain → d.shed = c.shed →
    isContributor d.state = isContributor c.state → Q o c → Q o d
  powerOn : ∀ o, Q o Ctx.powerOn
  gain    : ∀ o c g, gainInRange g → Q o c → Q o { c with gain := g }
  unshed  : ∀ o c, Q o c → Q o { c with shed := false }
  shed    : ∀ o c, isContributor c.state = true → Q o c → Q o { c with shed := true }
  state   : ∀ o c st, (isContributor c.state = true → isContributor st = false → c.shed = false) → Q o c →
    Q o { c with state := st }
  primary : ∀ o c, Q o c → Q o { c with source := .primary }
  source  : ∀ en c r, en.alternate.isSome = true → Q (some en) c → Q (some en) { c with source := r }
  retune  : ∀ a b c, samePath a b = true → Q (some a) c → Q (some b) c

variable {Q : Option Entry → Ctx → Prop}

/-- Every context meets a condition against the entries of a plan. -/
def AllFor (Q : Option Entry → Ctx → Prop) (A : EntryIx → Option Entry) (s : State) : Prop := ∀ e, Q (A e) (ctxAt s e)

/-- Every context meets a condition against the active plan. -/
abbrev AllCtx (Q : Option Entry → Ctx → Prop) (s : State) : Prop := AllFor Q (activeAt s) s

/-- A commit of a context whose source and gain are as they were, or as the closure allows, and whose shed flag is. -/
theorem CoreClosed.commit (h : CoreClosed Q) {o : Option Entry} {c d : Ctx} (hq : Q o c) (hs : d.shed = c.shed)
    (hg : d.gain = c.gain ∨ gainInRange d.gain)
    (hr : d.source = c.source ∨ d.source = .primary ∨ ∃ en, o = some en ∧ en.alternate.isSome = true) :
    Q o (committed c d) := by
  have h1 : Q o { c with shed := (committed c d).shed } := by
    rw [committed_shed, hs]
    cases hl : leavesAir c d
    · exact h.core o c _ rfl rfl (by simp) rfl hq
    · simpa using h.unshed o c hq
  have h2 := h.state o _ d.state (fun hc hd => by
    have : leavesAir c d = true := by simp [leavesAir, hd]; exact hc
    simp [committed_shed, this]) h1
  have h3 : Q o { c with shed := (committed c d).shed, state := d.state, gain := d.gain } := by
    rcases hg with hg | hg
    · refine h.core o _ _ ?_ ?_ ?_ ?_ h2 <;> simp [hg]
    · exact h.gain o _ _ hg h2
  have h4 : Q o { c with shed := (committed c d).shed, state := d.state, gain := d.gain, source := d.source } := by
    rcases hr with hr | hr | ⟨en, rfl, hr⟩
    · refine h.core o _ _ ?_ ?_ ?_ ?_ h3 <;> simp [hr]
    · rw [hr]
      exact h.primary _ _ h3
    · exact h.source en _ _ hr h3
  refine h.core o _ _ ?_ ?_ ?_ ?_ h4 <;> simp

variable {A : EntryIx → Option Entry}

/-- A commit keeps a condition on every context when the committed context meets it. -/
theorem AllFor.commitCtx_keeps {e : EntryIx} {n : Ctx} {r : Reason} {s : State} (hs : AllFor Q A s)
    (hn : Q (A e) (committed (ctxAt s e) n)) : AllFor Q A (commitCtx e n r s) := by
  intro i
  rw [ctxAt_commitCtx]
  split
  · next h => exact h ▸ hn
  · exact hs i

/-- A commit of a context that differs from the one it replaces in state and counts only. -/
theorem AllFor.move_keeps (h : CoreClosed Q) {e : EntryIx} {n : Ctx} {r : Reason} {s : State} (hs : AllFor Q A s)
    (h1 : n.shed = (ctxAt s e).shed) (h2 : n.gain = (ctxAt s e).gain) (h3 : n.source = (ctxAt s e).source) :
    AllFor Q A (commitCtx e n r s) :=
  hs.commitCtx_keeps (h.commit (hs e) h1 (Or.inl h2) (Or.inl h3))

/-- The condition looks at the contexts alone. -/
theorem AllFor.congr {s t : State} (hs : AllFor Q A s) (hc : ∀ i, ctxAt t i = ctxAt s i) : AllFor Q A t :=
  fun e => by rw [hc]; exact hs e

theorem AllFor.setCtx_keeps {e : EntryIx} {c : Ctx} {s : State} (hs : AllFor Q A s) (hc : Q (A e) c) :
    AllFor Q A (setCtx e c s) := by
  intro i
  by_cases h : i = e
  · subst h; simpa using hc
  · simpa [h] using hs i

theorem AllFor.stopTest_keeps (h : CoreClosed Q) {e : EntryIx} {s : State} (hs : AllFor Q A s) :
    AllFor Q A (stopTest e s) := by
  unfold stopTest
  split
  · exact hs.move_keeps h rfl rfl rfl
  · exact hs

theorem AllFor.endTestsOnTrip_keeps (h : CoreClosed Q) {s : State} (hs : AllFor Q A s) : AllFor Q A (endTestsOnTrip s) := by
  unfold endTestsOnTrip
  split
  · exact foldl_keeps _ (AllFor Q A) (fun _ _ hb => hb.stopTest_keeps h) _ _ hs
  · exact hs

theorem AllFor.commitTxs_keeps (h : CoreClosed Q) {x : Txs} {s : State} (hs : AllFor Q A s) : AllFor Q A (commitTxs x s) := by
  unfold commitTxs
  have key : ∀ u : State, (∀ i, ctxAt u i = ctxAt s i) →
      AllFor Q A (if x.state = .tripped ∧ s.txs.state ≠ .tripped then endTestsOnTrip u else u) := by
    intro u hc
    have hu := hs.congr hc
    split
    · exact hu.endTestsOnTrip_keeps h
    · exact hu
  apply key
  intro i
  split <;> split <;> simp

theorem AllFor.tripOrFurther_keeps (h : CoreClosed Q) {c : Trip} {s : State} (hs : AllFor Q A s) :
    AllFor Q A (tripOrFurther c s) := by
  unfold tripOrFurther
  split <;> exact hs.commitTxs_keeps h

/-- An operation that leaves the active plan and keeps the condition against any plan keeps it against the active plan. -/
theorem AllCtx.of_for {s t : State} (ha : ∀ i, activeAt t i = activeAt s i) (ht : AllFor Q (activeAt s) t) : AllCtx Q t := by
  intro e
  rw [ha]
  exact ht e

/-- The condition looks at the contexts and the active plan alone. -/
theorem AllCtx.congr_keeps {s t : State} (hs : AllCtx Q s) (hc : ∀ i, ctxAt t i = ctxAt s i)
    (ha : ∀ i, activeAt t i = activeAt s i) : AllCtx Q t := .of_for ha (hs.congr hc)

/-! ### CHANNEL_BLOCK -/

/-- A source switch that a block causes is made only where the alternate is present (R52, R55, R56). -/
theorem blockSwitch_alternate {en : Entry} {q : Nat} {c : Ctx} {r : Source} {good : Bool} {x : Bool × Reason}
    (h : blockSwitch en q c r good = some x) : en.alternate.isSome = true := by
  unfold blockSwitch at h
  split at h
  · next hf =>
    simp [isFailover, failoverActs] at hf
    exact hf.2.1.2.2
  · split at h
    · next hr =>
      by_cases hfa : failoverActs en = true
      · simp [failoverActs] at hfa
        exact hfa.2
      · exfalso
        simp only [beq_iff_eq] at hr
        unfold recoverySource at hr
        split at hr
        · simp only [hfa, Bool.false_eq_true, if_false] at hr
          split at hr
          · simp only [Option.some.injEq] at hr
            exact Source.other_ne _ hr.symm
          · cases hr
        · cases hr
    · split at h
      · next hv =>
        simp [isRevert, revertActs, failoverActs] at hv
        exact hv.1.1.1.1.2.1.2
      · cases h

/-- The gain that the loop leaves is the one it held or lies in range (R75, R76). -/
theorem runLoop_gain (en : Entry) (g : Option Int) (b : ChannelBlock) :
    (runLoop en g b).gain = g ∨ gainInRange (runLoop en g b).gain := by
  have heval : ∀ lin, gainInRange (some (evalGain en g lin)) := by
    intro lin x hx
    cases hx
    unfold evalGain
    cases g <;> simp [desiredGain, clampInt]
  have hscale : ∀ g' lin l, (scaleBlock g' lin l).gain = some g' := by
    intro g' lin l
    unfold scaleBlock
    split <;> rfl
  unfold runLoop
  split
  · split
    · right
      rw [hscale]
      exact heval _
    · split
      · left
        rw [hscale]
      · left; rfl
  · left; rfl

@[simp] theorem updateReady_core (q : Nat) (r : Source) (g : Bool) (c : Ctx) :
    (updateReady q r g c).source = c.source ∧ (updateReady q r g c).gain = c.gain ∧ (updateReady q r g c).shed = c.shed ∧
    (updateReady q r g c).state = c.state := by
  cases r <;> exact ⟨rfl, rfl, rfl, rfl⟩

@[simp] theorem recordLoop_core (g : Bool) (b : ChannelBlock) (l : LoopResult) (c : Ctx) :
    (recordLoop g b l c).source = c.source ∧ (recordLoop g b l c).gain = l.gain ∧ (recordLoop g b l c).shed = c.shed ∧
    (recordLoop g b l c).state = c.state := ⟨rfl, rfl, rfl, rfl⟩

theorem badInRun_core (en : Entry) (c : Ctx) :
    (badInRun en c).source = c.source ∧ (badInRun en c).gain = c.gain ∧ (badInRun en c).shed = c.shed := by
  unfold badInRun
  split
  · simp
  · split
    · cases en.expiry <;> simp [toMuted]
    · simp

theorem inUseRule_core (en : Entry) (q : Nat) (g : Bool) (l : Option Line) (c : Ctx) :
    (inUseRule en q g l c).source = c.source ∧ (inUseRule en q g l c).gain = c.gain ∧
    (inUseRule en q g l c).shed = c.shed := by
  have hb := badInRun_core en c
  unfold inUseRule
  cases c.state <;> cases g <;> simp [hb]
  split <;> simp

theorem AllCtx.finishBlock_keeps (h : CoreClosed Q) {e : EntryIx} {en : Entry} {r : Source} {g : Bool} {b : BlockRecord} {c : Ctx}
    {s : State} (hs : AllCtx Q s) (hen : activeAt s e = some en) (h1 : c.shed = (ctxAt s e).shed)
    (h2 : c.gain = (ctxAt s e).gain ∨ gainInRange c.gain) (h3 : c.source = (ctxAt s e).source) :
    AllCtx Q (finishBlock e en r g b c s) := by
  have commit : ∀ (u : State) (d : Ctx) (why : Reason), (∀ i, ctxAt u i = ctxAt s i) → (∀ i, activeAt u i = activeAt s i) →
      d.shed = c.shed → (d.gain = c.gain ∨ gainInRange d.gain) →
      (d.source = c.source ∨ en.alternate.isSome = true) → AllCtx Q (commitCtx e d why u) := by
    intro u d why hc ha hd1 hd2 hd3
    refine .of_for (s := s) (by simpa using ha) ((hs.congr hc).commitCtx_keeps ?_)
    rw [hc]
    refine h.commit (hs e) (hd1.trans h1) ?_ ?_
    · rcases hd2 with hd2 | hd2
      · rw [hd2]; exact h2
      · exact Or.inr hd2
    · rcases hd3 with hd3 | hd3
      · exact Or.inl (hd3.trans h3)
      · exact Or.inr (Or.inr ⟨en, hen, hd3⟩)
  simp only [finishBlock]
  split
  · next f why hsw =>
    have hgain : gainInRange (switched f { c with revert := nextRevert en c r g }).gain := fun x hx => by cases hx
    have hc := commit s (switched f { c with revert := nextRevert en c r g }) why (fun _ => rfl) (fun _ => rfl) rfl
      (Or.inr hgain) (Or.inr (blockSwitch_alternate hsw))
    exact hc.congr_keeps (by simp) (by simp)
  · have hand : ∀ (p : Bool) (u : State), u = (if p = true then handOn e en b s else s) →
        (∀ i, ctxAt u i = ctxAt s i) ∧ (∀ i, activeAt u i = activeAt s i) := by
      rintro p u rfl
      cases p <;> simp
    generalize hu : (if (r == c.source) = true then handOn e en b s else s) = u
    have hu := hand _ u hu.symm
    have hc := inUseRule_core en s.pln.activeSettings.acquire g (lineAt u e) { c with revert := nextRevert en c r g }
    split
    · exact commit _ _ _ hu.1 hu.2 rfl (Or.inl rfl) (Or.inl rfl)
    · split
      · exact commit _ _ _ hu.1 hu.2 hc.2.2 (Or.inl hc.2.1) (Or.inl hc.1)
      · exact commit _ _ _ hu.1 hu.2 rfl (Or.inl rfl) (Or.inl rfl)

theorem AllCtx.deliverBlock_keeps (h : CoreClosed Q) {e : EntryIx} {r : Source} {s : State} (hs : AllCtx Q s) :
    AllCtx Q (deliverBlock e r s) := by
  unfold deliverBlock
  split
  · exact hs
  · next w rest _ =>
    have hx : AllCtx Q (setExt { s.ext with waiting := rest } s) := hs.congr_keeps (by simp) (by simp)
    simp only
    split
    · exact hx
    · next en hen =>
      split
      · exact hx
      · unfold takeBlock
        simp only
        split
        · refine hx.finishBlock_keeps h (by simpa using hen) (by simp) ?_ (by simp)
          simpa using runLoop_gain en (ctxAt s e).gain w.block
        · exact hx.finishBlock_keeps h (by simpa using hen) (by simp) (by simp) (by simp)

/-! ### Memory, tests, requests, monitor -/

theorem AllFor.overrun_keeps (h : CoreClosed Q) {s : State} (hs : AllFor Q A s) : AllFor Q A (overrun s) := by
  have htell : AllFor Q A (tellOverrun (flushAll s)) := by
    refine foldl_keeps _ (AllFor Q A) ?_ _ _ (hs.congr (by simp))
    intro b e hb
    unfold overrunCtx
    split
    · exact hb
    · split
      · exact hb.move_keeps h rfl rfl rfl
      · exact hb
  exact htell.congr (by simp [overrun])

theorem AllFor.expireTest_keeps (h : CoreClosed Q) {e : EntryIx} {s : State} (hs : AllFor Q A s) :
    AllFor Q A (expireTest e s) := by
  unfold expireTest
  simp only
  split
  · split <;> exact hs.move_keeps h rfl rfl rfl
  · exact hs

/-- A request to an entry acts on the context of the entry it names, or is refused without effect. -/
theorem AllFor.onEntry_keeps {b : List Byte} {s : State} {f : EntryIx → Ctx → Reply} (hs : AllFor Q A s)
    (hf : ∀ e, AllFor Q A (f e (ctxAt s e)).state) : AllFor Q A (onEntry b s f).state := by
  unfold onEntry
  split
  · exact hs
  · exact hf _

theorem AllFor.actMute_keeps (h : CoreClosed Q) (b : List Byte) {s : State} (hs : AllFor Q A s) :
    AllFor Q A (actMute b s).state := by
  refine hs.onEntry_keeps fun e => ?_
  split
  · exact hs
  · exact hs
  · exact hs.move_keeps h rfl rfl rfl

theorem AllFor.actUnmute_keeps (h : CoreClosed Q) (b : List Byte) {s : State} (hs : AllFor Q A s) :
    AllFor Q A (actUnmute b s).state := by
  refine hs.onEntry_keeps fun e => ?_
  split
  · exact hs.move_keeps h rfl rfl rfl
  · exact hs.move_keeps h rfl rfl rfl
  · exact hs

theorem AllCtx.actForceSource_keeps (h : CoreClosed Q) (b : List Byte) {s : State} (hs : AllCtx Q s) :
    AllFor Q (activeAt s) (actForceSource b s).state := by
  refine AllFor.onEntry_keeps hs fun e => ?_
  split
  · exact hs
  · next r _ =>
    split
    · exact hs
    · split
      · exact hs
      · next hna =>
        split
        · exact hs
        · next hne =>
          have hq : Q (activeAt s e) (committed (ctxAt s e) (switched false (ctxAt s e))) := by
            refine h.commit (hs e) rfl (Or.inr (by intro x hx; cases hx)) (Or.inr ?_)
            cases hsrc : (ctxAt s e).source
            · right
              have hr : r = .alternate := by cases r <;> simp_all
              cases ha : activeAt s e with
              | none => simp [hr, ha] at hna
              | some en =>
                refine ⟨en, rfl, ?_⟩
                simpa [hr, ha, Option.isSome_iff_ne_none] using hna
            · left
              simp [switched, hsrc, Source.other]
          exact (AllFor.commitCtx_keeps (r := .request) hs hq).congr (by simp)

theorem AllFor.actClearFaultEntry_keeps (h : CoreClosed Q) (b : List Byte) {s : State} (hs : AllFor Q A s) :
    AllFor Q A (actClearFaultEntry b s).state := by
  refine hs.onEntry_keeps fun e => ?_
  simp only
  split
  · exact hs
  · exact hs.move_keeps h rfl rfl rfl
  · exact hs.setCtx_keeps (h.core _ (ctxAt s e) _ rfl rfl rfl rfl (hs e))

theorem AllFor.stopReply_keeps (h : CoreClosed Q) (e : EntryIx) (c : Ctx) (b : List Byte) {s : State} (hs : AllFor Q A s) :
    AllFor Q A (stopReply e c b s).state := by
  unfold stopReply
  split
  · exact hs.stopTest_keeps h
  · exact hs

theorem AllFor.actTestStart_keeps (h : CoreClosed Q) (b : List Byte) {s : State} (hs : AllFor Q A s) :
    AllFor Q A (actTestStart b s).state := by
  refine hs.onEntry_keeps fun e => ?_
  simp only
  split
  · exact hs.stopReply_keeps h _ _ _
  · split
    · exact hs
    · refine hs.move_keeps h ?_ ?_ ?_ <;> split <;> rfl

theorem AllFor.actTestStop_keeps (h : CoreClosed Q) (b : List Byte) {s : State} (hs : AllFor Q A s) :
    AllFor Q A (actTestStop b s).state := hs.onEntry_keeps fun _ => hs.stopReply_keeps h _ _ _

theorem AllFor.actTxs_keeps (h : CoreClosed Q) (b : List Byte) {s : State} (hs : AllFor Q A s) :
    AllFor Q A (actKey b s).state ∧ AllFor Q A (actUnkey b s).state ∧ AllFor Q A (actShutdown b s).state ∧
    AllFor Q A (actClearFaultTransmit b s).state := by
  refine ⟨?_, hs.commitTxs_keeps h, hs.tripOrFurther_keeps h, ?_⟩
  · unfold actKey
    split
    · exact hs
    · exact hs.commitTxs_keeps h
  · unfold actClearFaultTransmit
    split
    · exact hs
    · split
      · exact hs
      · exact hs.commitTxs_keeps h

/-- A finding changes strikes and mark alone. -/
theorem finding_core (m x : Int) (t : Nat) (c : Ctx) :
    (finding m x t c).1.source = c.source ∧ (finding m x t c).1.gain = c.gain ∧ (finding m x t c).1.shed = c.shed ∧
    (finding m x t c).1.state = c.state := by
  unfold finding
  split
  · split <;> simp
  · split <;> simp

theorem AllFor.completeEntry_keeps (h : CoreClosed Q) (d : Dwell) (e : EntryIx) (x : Int) {s : State} (hs : AllFor Q A s) :
    AllFor Q A (completeEntry d e x s) := by
  have hf := finding_core (measuredLevel d) x s.pln.activeSettings.tolerance (ctxAt s e)
  have h1 : AllFor Q A (setCtx e (finding (measuredLevel d) x s.pln.activeSettings.tolerance (ctxAt s e)).1 (endDwell s)) :=
    AllFor.setCtx_keeps (hs.congr (by simp)) (h.core _ _ _ hf.1 hf.2.1 hf.2.2.1 (by rw [hf.2.2.2]) (hs e))
  simp only [completeEntry]
  split
  · unfold overlevelMute
    split
    · exact h1.move_keeps h rfl rfl rfl
    · exact h1
  · exact h1

theorem AllFor.countFrame_keeps (h : CoreClosed Q) (f : Heard) (d : Dwell) {s : State} (hs : AllFor Q A s) :
    AllFor Q A (countFrame f d s) := by
  simp only [countFrame]
  split
  · exact hs
  · split
    · exact hs.congr (by simp)
    · split
      · exact hs.congr (by simp)
      · split
        · exact hs.completeEntry_keeps h _ _ _
        · exact hs

theorem AllFor.monitorFrame_keeps (h : CoreClosed Q) (f : Heard) {s : State} (hs : AllFor Q A s) :
    AllFor Q A (monitorFrame f s) := by
  simp only [monitorFrame]
  split
  · exact hs
  · split
    · exact hs.countFrame_keeps h _ _
    · unfold beginDwell
      split
      · exact hs
      · exact AllFor.countFrame_keeps h _ _ (hs.congr (by simp))

/-! ### The transmit sequencer -/

theorem AllFor.takeReverse_keeps (h : CoreClosed Q) (w : Window) {s : State} (hs : AllFor Q A s) :
    AllFor Q A (takeReverse w s) := by
  have hready : ∀ u, AllFor Q A u → AllFor Q A (stageReady u) := by
    intro u hu
    unfold stageReady
    split
    · exact hu.commitTxs_keeps h
    · exact hu
  have htrip : ∀ u, AllFor Q A u → AllFor Q A (stageTrip u) := by
    intro u hu
    unfold stageTrip
    split
    · exact hu.tripOrFurther_keeps h
    · exact hu
  have heval : ∀ u, AllFor Q A u → AllFor Q A (stageEvaluate u) := by
    intro u hu
    simp only [stageEvaluate]
    split
    · split
      · exact AllFor.tripOrFurther_keeps h (hu.congr (by simp))
      · exact hu.congr (by simp)
    · exact hu
  unfold takeReverse
  split
  · simp only [takeInvalid]
    split
    · exact AllFor.tripOrFurther_keeps h (hs.congr (by simp))
    · exact hs.congr (by simp)
  · next r _ =>
    have hr : AllFor Q A (setTxs (holdReading r s.txs) s) := hs.congr (by simp)
    simp only [takeValid]
    split
    · split
      · exact hr.tripOrFurther_keeps h
      · exact hr
    · exact heval _ (htrip _ (hready _ hr))

theorem AllFor.sequencer_keeps (h : CoreClosed Q) {s : State} (hs : AllFor Q A s) :
    (∀ l, AllFor Q A (sampleLock l s)) ∧ AllFor Q A (expireBias s) ∧ AllFor Q A (expireCool s) := by
  refine ⟨fun l => ?_, ?_, ?_⟩
  · simp only [sampleLock]
    generalize (if l = true then _ else 0 : Nat) = q
    split
    · exact hs.congr (by simp)
    · exact hs.commitTxs_keeps h
  · unfold expireBias
    split
    · exact hs.tripOrFurther_keeps h
    · exact hs
  · unfold expireCool
    split
    · exact hs.commitTxs_keeps h
    · exact hs

/-! ### The plan switch -/

/-- A fold over positions of an operation that sets one context each by a rule of its own. -/
theorem ctxAt_foldl_positions {op : EntryIx → State → State} {F : EntryIx → Ctx → Ctx} {a : EntryIx → Option Entry}
    (hop : ∀ e s i, (∀ j, activeAt s j = a j) → ctxAt (op e s) i = if i = e then F e (ctxAt s e) else ctxAt s i)
    (hpln : ∀ e s i, activeAt (op e s) i = activeAt s i) :
    ∀ (l : List EntryIx) (s : State), l.Nodup → (∀ j, activeAt s j = a j) → ∀ i,
      ctxAt (l.foldl (fun s e => op e s) s) i = if i ∈ l then F i (ctxAt s i) else ctxAt s i
  | [], s, _, _, i => by simp
  | e :: rest, s, hn, ha, i => by
    have ih := ctxAt_foldl_positions hop hpln rest (op e s) (List.nodup_cons.mp hn).2 (fun j => by rw [hpln, ha]) i
    rw [List.foldl_cons, ih, hop e s i ha]
    by_cases h : i = e
    · subst h
      simp [(List.nodup_cons.mp hn).1]
    · simp [h]

theorem ctxAt_switchCtx (e : EntryIx) (k : PosClass) (s : State) (i : EntryIx) :
    ctxAt (switchCtx e k s) i = if i = e then switchedCtx k (activeAt s e) (ctxAt s e) else ctxAt s i := by
  simp only [switchCtx]
  by_cases h : i = e
  · subst h
    split <;> split <;> simp [postChannel]
  · split <;> split <;> simp [postChannel, h]

/-- After the context pass every context stands as its class and its new entry say. -/
theorem ctxAt_contextPass (k : Classes) (s : State) (i : EntryIx) :
    ctxAt (contextPass k s) i = switchedCtx (vget k i) (activeAt s i) (ctxAt s i) := by
  unfold contextPass
  rw [ctxAt_foldl_positions (F := fun e c => switchedCtx (vget k e) (activeAt s e) c) (a := activeAt s)]
  · simp [mem_entries]
  · intro e u j hu
    rw [ctxAt_switchCtx, hu]
  · simp
  · exact List.nodup_finRange 16
  · exact fun _ => rfl

/-- A condition met against the old entry is met, after the switch of the position, against the new one. -/
theorem CoreClosed.switched_keeps (h : CoreClosed Q) {a b : Option Entry} {c : Ctx} (hq : Q a c) :
    Q b (switchedCtx (classify a b) b c) := by
  have hstart : ∀ o, Q o startedCtx := fun o => h.state o Ctx.powerOn .acquire (fun _ _ => rfl) (h.powerOn o)
  unfold classify
  cases a with
  | none =>
    cases b with
    | none => exact hq
    | some b => exact hstart _
  | some a =>
    cases b with
    | none => exact h.powerOn _
    | some b =>
      simp only
      split
      · exact hstart _
      · next hp =>
        have hb : Q (some b) c := h.retune a b c (by simpa using hp) hq
        split
        · exact hb
        · have h1 : ∀ d, d.source = c.source → d.gain = c.gain → d.shed = c.shed → d.state = c.state → Q (some b) d :=
            fun d e1 e2 e3 e4 => h.core _ c d e1 e2 e3 (by rw [e4]) hb
          simp only [switchedCtx, retunedCtx]
          split
          · refine h.unshed _ _ (h1 _ ?_ ?_ ?_ ?_) <;> split <;> split <;> rfl
          · refine h1 _ ?_ ?_ ?_ ?_ <;> split <;> split <;> rfl

theorem AllCtx.planSwitch_keeps (h : CoreClosed Q) {s : State} (hs : AllCtx Q s) : AllCtx Q (planSwitch s) := by
  have hset : AllFor Q (activeAt s) (settleSettings (adoptPlan s)) := by
    have h0 : AllFor Q (activeAt s) (setCtxs (s.ctx.map (clampReady s.pln.stagedSettings.acquire)) s) := by
      intro e
      simp only [ctxAt_setCtxs, vget_map]
      exact h.core _ (ctxAt s e) _ rfl rfl rfl rfl (hs e)
    refine AllFor.commitTxs_keeps h (h0.congr ?_)
    intro i
    simp [adoptPlan]
  intro e
  have hpln : activeAt (planSwitch s) e = vget s.pln.staged e := by
    simp [planSwitch, postSwitched, disarm, activeAt, adoptPlan]
  have hctx : ctxAt (planSwitch s) e =
      switchedCtx (classify (activeAt s e) (vget s.pln.staged e)) (vget s.pln.staged e)
        (ctxAt (settleSettings (adoptPlan s)) e) := by
    simp only [planSwitch, postSwitched, disarm, ctxAt_post, ctxAt_setPln, ctxAt_contextPass, rebuildTaps, ctxAt_setExt,
      clearPass_frame, allocPass_frame, freePass_frame, activeAt_setExt, settleSettings_frame, switchClasses, vget_zipWith]
    rfl
  rw [hpln, hctx]
  exact h.switched_keeps (hset e)

/-! ### Output blocks -/

theorem AllFor.startBlock_keeps (h : CoreClosed Q) {s : State} (hs : AllFor Q A s) : AllFor Q A (startBlock s) := by
  intro e
  have : ctxAt (startBlock s) e = tickTest (ctxAt s e) := by
    simp [startBlock, startPeriod, ctxAt]
  rw [this]
  unfold tickTest
  split
  · next hst => exact h.core _ (ctxAt s e) _ rfl rfl rfl (by simp [hst, isContributor]) (hs e)
  · exact hs e

/-- A position that offers something is in a contributor state (R104). -/
theorem offerOf_contributor {o : OutBlock} {s : State} {e : EntryIx} {f : Offer} (h : offerOf o s e = some f) :
    isContributor (ctxAt s e).state = true := by
  unfold offerOf at h
  split at h
  · cases h
  · split at h <;> simp_all [isContributor]

theorem shares_contributor {o : OutBlock} {s : State} {b : Bool} {c : Share} (h : c ∈ shares o s b) :
    isContributor (ctxAt s c.entry).state = true := by
  unfold shares at h
  simp only [List.mem_filterMap] at h
  obtain ⟨e, -, he⟩ := h
  split at he
  · next f _ hf =>
    split at he
    · cases he
      exact offerOf_contributor hf
    · cases he
  · cases he

theorem pickShed_mem {l : List Share} {c : Share} (h : pickShed l = some c) : c ∈ l ∧ c.priority < 7 := by
  unfold pickShed at h
  have key : ∀ (m : List Share) (best : Option Share), (∀ b, best = some b → b ∈ l ∧ b.priority < 7) →
      (∀ x ∈ m, x ∈ l ∧ x.priority < 7) →
      ∀ c, m.foldl (fun best c => match best with
        | none => some c
        | some b => if shedsBefore c b then some c else some b) best = some c → c ∈ l ∧ c.priority < 7 := by
    intro m
    induction m with
    | nil => intro best hb _ c hc; exact hb c hc
    | cons a rest ih =>
      intro best hb hm c hc
      refine ih _ ?_ (fun x hx => hm x (List.mem_cons_of_mem _ hx)) c hc
      intro b hb'
      have ha := hm a List.mem_cons_self
      cases best with
      | none => cases hb'; exact ha
      | some b0 =>
        simp only at hb'
        split at hb'
        · cases hb'; exact ha
        · cases hb'; exact hb _ rfl
  refine key _ none (by simp) ?_ c h
  intro x hx
  simpa using hx

/-- What is shed was a contributor, and what remains was one (R109). -/
theorem shedLoop_mem (keff : Int) (bmax : Nat) : ∀ (n : Nat) (l : List Share) (c : Share),
    (c ∈ (shedLoop keff bmax n l).2 → c ∈ l) ∧ (c ∈ (shedLoop keff bmax n l).1 → c ∈ l)
  | 0, l, c => by simp [shedLoop]
  | n + 1, l, c => by
    unfold shedLoop
    split
    · simp
    · split
      · simp
      · next d hd =>
        have ih := shedLoop_mem keff bmax n (l.filter (fun x => x.entry != d.entry)) c
        constructor
        · intro h
          rcases List.mem_cons.mp h with rfl | h
          · exact (pickShed_mem hd).1
          · exact List.mem_of_mem_filter (ih.1 h)
        · intro h
          exact List.mem_of_mem_filter (ih.2 h)

theorem ctxAt_shedOne (c : Share) (s : State) (i : EntryIx) :
    ctxAt (shedOne c s) i = if i = c.entry then { ctxAt s c.entry with shed := true } else ctxAt s i := by
  unfold shedOne postChannel
  split
  · next h => subst h; simp
  · next h => simp [h]

theorem AllFor.shedAll_keeps (h : CoreClosed Q) : ∀ {l : List Share} {s : State}, AllFor Q A s →
    (∀ c ∈ l, isContributor (ctxAt s c.entry).state = true) → AllFor Q A (shedAll l s)
  | [], _, hs, _ => hs
  | c :: rest, s, hs, hl => by
    have hone : AllFor Q A (shedOne c s) := by
      intro i
      rw [ctxAt_shedOne]
      split
      · next hi =>
        subst hi
        exact h.shed _ _ (hl c List.mem_cons_self) (hs _)
      · exact hs i
    refine AllFor.shedAll_keeps h (l := rest) hone ?_
    intro d hd
    have := hl d (List.mem_cons_of_mem _ hd)
    rw [ctxAt_shedOne]
    split
    · next hi => rwa [← hi]
    · exact this

theorem AllFor.restoreOne_keeps (h : CoreClosed Q) (c : Option Share) {s : State} (hs : AllFor Q A s) :
    AllFor Q A (restoreOne c s) := by
  unfold restoreOne
  split
  · exact hs
  · next c =>
    have h1 := hs.setCtx_keeps (e := c.entry) (h.unshed _ _ (hs c.entry))
    exact h1.congr (by simp [postChannel])

theorem AllFor.takeOutputBlock_keeps (h : CoreClosed Q) (l : List Sample) (p : List Applied) {s : State}
    (hs : AllFor Q A s) : AllFor Q A (takeOutputBlock l p s) :=
  AllFor.congr (hs.commitTxs_keeps h (x := rampStep s.pln.activeSettings s.txs)) (by simp [takeOutputBlock])

theorem AllCtx.completeBlock_keeps (h : CoreClosed Q) (o : OutBlock) {s : State} (hs : AllCtx Q s) :
    AllCtx Q (completeBlock o s) := by
  have hc : ∀ c, AllCtx Q (setCmb c s) := fun c => hs.congr_keeps (by simp) (by simp)
  have hc2 : ∀ c d, AllCtx Q (setCmb c (setCmb d s)) := fun c d => hs.congr_keeps (by simp) (by simp)
  simp only [completeBlock]
  split
  · exact hc _
  · split
    · split
      · exact AllCtx.planSwitch_keeps h (hc2 _ _)
      · exact hc2 _ _
    · exact hc _

theorem AllCtx.assembleBlock_keeps (h : CoreClosed Q) {s : State} (hs : AllCtx Q s) : AllCtx Q (assembleBlock s) := by
  unfold assembleBlock
  split
  · exact hs
  · next o _ =>
    simp only [assemble]
    have hshed : ∀ (u : State) (keff : Int) (bmax n : Nat) (b : Bool), AllFor Q (activeAt s) u →
        AllFor Q (activeAt s) (shedAll (shedLoop keff bmax n (shares (markLate o) u b)).2 u) := fun u _ _ _ _ hu =>
      AllFor.shedAll_keeps h hu fun c hc => shares_contributor ((shedLoop_mem _ _ _ _ c).1 hc)
    generalize hu : setDst _ (setCmb { s.cmb with late := _ } s) = u
    have hu' : AllFor Q (activeAt s) u := hs.congr (by simp [← hu])
    have ha : ∀ i, activeAt u i = activeAt s i := by simp [← hu]
    refine AllCtx.completeBlock_keeps h _ (.of_for (s := s) (by simp [ha]) ?_)
    refine AllFor.takeOutputBlock_keeps h _ _ ?_
    exact AllFor.congr (AllFor.restoreOne_keeps h _ (hshed u _ _ _ _ hu')) fun i => by
      simp only [ctxAt_drawFree, ctxAt_setCmb]
      rfl

/-! ### The staging requests -/

/-- No staging request touches the active plan (R19 to R30). -/
theorem staging_active (b : List Byte) (s : State) (i : EntryIx) :
    activeAt (actPutEntry b s).state i = activeAt s i ∧ activeAt (actDropEntry b s).state i = activeAt s i ∧
    activeAt (actPutSettings b s).state i = activeAt s i ∧ activeAt (actCopyActive b s).state i = activeAt s i ∧
    activeAt (actApply b s).state i = activeAt s i ∧ activeAt (actCancel b s).state i = activeAt s i := by
  refine ⟨?_, ?_, ?_, ?_, ?_, ?_⟩
  · simp only [actPutEntry, stageAt]
    repeat' split
    all_goals rfl
  · simp only [actDropEntry, stageAt]
    repeat' split
    all_goals rfl
  · simp only [actPutSettings]
    repeat' split
    all_goals rfl
  · simp only [actCopyActive]
    split <;> rfl
  · simp only [actApply]
    repeat' split
    all_goals rfl
  · simp only [actCancel]
    split <;> rfl

/-! ### The warm restart -/

theorem AllCtx.warmRestart_keeps (h : CoreClosed Q) (s : State) : AllCtx Q (warmRestart s) := by
  intro e
  have hstart : ∀ o, Q o startedCtx := fun o => h.state o Ctx.powerOn .acquire (fun _ _ => rfl) (h.powerOn o)
  have hc : ctxAt (warmRestart s) e = restartCtx (activeAt s e) := by
    simp [warmRestart, restartDst, ctxAt, activeAt]
  rw [hc]
  unfold restartCtx
  split
  · exact h.powerOn _
  · exact hstart _

/-! ### Every command -/

/-- A condition on the core of the contexts that the elementary changes keep is kept by every command. -/
theorem AllCtx.effect_keeps (h : CoreClosed Q) (c : Instr) {s : State} (hs : AllCtx Q s) : AllCtx Q (effect c s) := by
  have request : ∀ (k : Kind) (act : List Byte → State → Reply),
      (∀ b u, AllCtx Q u → AllCtx Q (act b u).state) → AllCtx Q (execRequest k act s) := by
    intro k act hact
    refine execRequest_keeps (P := AllCtx Q) ?_ hact ?_ hs
    · intro u r rest _ hu
      exact hu.congr_keeps (by simp) (by simp)
    · intro r st b u hu
      exact hu.congr_keeps (by simp) (by simp)
  have same : ∀ t : State, (∀ i, ctxAt t i = ctxAt s i) → (∀ i, activeAt t i = activeAt s i) → AllCtx Q t :=
    fun t hc ha => hs.congr_keeps hc ha
  have takeout : ∀ rest, AllCtx Q (setSvc { s.svc with queue := rest } s) := fun rest => same _ (by simp) (by simp)
  cases c with
  | powerOnReset =>
    intro e
    have hc : ctxAt (effect .powerOnReset s) e = Ctx.powerOn := by simp [effect, ctxAt, State.reset]
    rw [hc]
    exact h.powerOn _
  | powerOnResetLineLow => exact same _ (fun _ => rfl) (fun _ => rfl)
  | trunkFrame t w => exact same _ (by simp [effect]) (by simp [effect])
  | channelBlock e r => exact hs.deliverBlock_keeps h
  | memoryAccessComplete => exact same _ (by simp [effect]) (by simp [effect])
  | refreshTimerExpiry =>
    simp only [effect, refreshExpiry]
    split
    · exact .of_for (s := s) (by simp) (AllFor.overrun_keeps h (hs.congr (by simp)))
    · exact same _ (by simp) (by simp)
  | outputBlockStart => exact .of_for (s := s) (by simp [effect]) (AllFor.startBlock_keeps h hs)
  | outputBlockAssembly => exact hs.assembleBlock_keeps h
  | forwardDriveFrame =>
    have h1 : AllFor Q (activeAt s) (setTxs (sentForward s.txs) s) := hs.congr (by simp)
    exact .of_for (s := s) (by simp [effect]) (h1.monitorFrame_keeps h (heardFrame s.txs))
  | reverseDriveFrame w => exact .of_for (s := s) (by simp [effect]) (AllFor.takeReverse_keeps h w hs)
  | referenceLockSample l => exact .of_for (s := s) (by simp [effect]) ((AllFor.sequencer_keeps h hs).1 l)
  | biasTimerExpiry => exact .of_for (s := s) (by simp [effect]) (AllFor.sequencer_keeps h hs).2.1
  | coolTimerExpiry => exact .of_for (s := s) (by simp [effect]) (AllFor.sequencer_keeps h hs).2.2
  | testExpiry e => exact .of_for (s := s) (by simp [effect]) (AllFor.expireTest_keeps h hs)
  | reverseTrunkFrame t => exact same _ (by simp [effect]) (by simp [effect])
  | unknownKind =>
    simp only [effect]
    rcases unknownRequest_cases s with hu | ⟨r, rest, -, -, hu⟩ <;> rw [hu]
    · exact hs
    · exact same _ (by simp) (by simp)
  | restart =>
    simp only [effect]
    rcases restartRequest_cases s with hu | ⟨r, rest, -, -, hu | hu⟩ <;> rw [hu]
    · exact hs
    · exact same _ (by simp) (by simp)
    · exact AllCtx.warmRestart_keeps h _
  | identify => exact request _ _ fun b u hu => by simpa using hu
  | getEntry => exact request _ _ fun b u hu => by simpa using hu
  | getSettings => exact request _ _ fun b u hu => by simpa using hu
  | getChannel => exact request _ _ fun b u hu => by simpa using hu
  | getTransmit => exact request _ _ fun b u hu => by simpa using hu
  | getSupervision => exact request _ _ fun b u hu => by simpa using hu
  | setMonitor => exact request _ _ fun b u hu => hu.congr_keeps (by simp) (by simp)
  | putEntry => exact request _ _ fun b u hu => hu.congr_keeps (by simp) (fun i => (staging_active b u i).1)
  | dropEntry => exact request _ _ fun b u hu => hu.congr_keeps (by simp) (fun i => (staging_active b u i).2.1)
  | putSettings => exact request _ _ fun b u hu => hu.congr_keeps (by simp) (fun i => (staging_active b u i).2.2.1)
  | copyActive => exact request _ _ fun b u hu => hu.congr_keeps (by simp) (fun i => (staging_active b u i).2.2.2.1)
  | apply => exact request _ _ fun b u hu => hu.congr_keeps (by simp) (fun i => (staging_active b u i).2.2.2.2.1)
  | cancel => exact request _ _ fun b u hu => hu.congr_keeps (by simp) (fun i => (staging_active b u i).2.2.2.2.2)
  | mute => exact request _ _ fun b u hu => .of_for (s := u) (by simp) (AllFor.actMute_keeps h b hu)
  | unmute => exact request _ _ fun b u hu => .of_for (s := u) (by simp) (AllFor.actUnmute_keeps h b hu)
  | forceSource => exact request _ _ fun b u hu => .of_for (s := u) (by simp) (AllCtx.actForceSource_keeps h b hu)
  | clearFaultEntry => exact request _ _ fun b u hu => .of_for (s := u) (by simp) (AllFor.actClearFaultEntry_keeps h b hu)
  | key => exact request _ _ fun b u hu => .of_for (s := u) (by simp) (AllFor.actTxs_keeps h b hu).1
  | unkey => exact request _ _ fun b u hu => .of_for (s := u) (by simp) (AllFor.actTxs_keeps h b hu).2.1
  | shutdown => exact request _ _ fun b u hu => .of_for (s := u) (by simp) (AllFor.actTxs_keeps h b hu).2.2.1
  | clearFaultTransmit => exact request _ _ fun b u hu => .of_for (s := u) (by simp) (AllFor.actTxs_keeps h b hu).2.2.2
  | testStart => exact request _ _ fun b u hu => .of_for (s := u) (by simp) (AllFor.actTestStart_keeps h b hu)
  | testStop => exact request _ _ fun b u hu => .of_for (s := u) (by simp) (AllFor.actTestStop_keeps h b hu)

end Sys2Proof.Machine
end

