-- ==== Sys2Proof/Laws/Parts.lean ====
section
/-! SUPPORT. The frame of each shared operation inside a block: an operation that posts notices leaves the request queue and
the lost-request count, and one that moves records leaves what it does not name of the delay store. -/

namespace Sys2Proof.Machine

@[simp] theorem foldl_svc_queue {α : Type} (f : State → α → State) (h : ∀ s a, (f s a).svc.queue = s.svc.queue) (l : List α)
    (s : State) : (l.foldl f s).svc.queue = s.svc.queue := foldl_frame f (fun s => s.svc.queue) h l s

@[simp] theorem foldl_svc_lost {α : Type} (f : State → α → State) (h : ∀ s a, (f s a).svc.lost = s.svc.lost) (l : List α)
    (s : State) : (l.foldl f s).svc.lost = s.svc.lost := foldl_frame f (fun s => s.svc.lost) h l s

@[simp] theorem foldl_dst_pageMap {α : Type} (f : State → α → State) (h : ∀ s a, (f s a).dst.pageMap = s.dst.pageMap) (l : List α)
    (s : State) : (l.foldl f s).dst.pageMap = s.dst.pageMap := foldl_frame f (fun s => s.dst.pageMap) h l s

@[simp] theorem foldl_dst_dram {α : Type} (f : State → α → State) (h : ∀ s a, (f s a).dst.dram = s.dst.dram) (l : List α)
    (s : State) : (l.foldl f s).dst.dram = s.dst.dram := foldl_frame f (fun s => s.dst.dram) h l s

@[simp] theorem foldl_dst_gapMarks {α : Type} (f : State → α → State) (h : ∀ s a, (f s a).dst.gapMarks = s.dst.gapMarks) (l : List α)
    (s : State) : (l.foldl f s).dst.gapMarks = s.dst.gapMarks := foldl_frame f (fun s => s.dst.gapMarks) h l s

@[simp] theorem foldl_dst_gapCounts {α : Type} (f : State → α → State) (h : ∀ s a, (f s a).dst.gapCounts = s.dst.gapCounts) (l : List α)
    (s : State) : (l.foldl f s).dst.gapCounts = s.dst.gapCounts := foldl_frame f (fun s => s.dst.gapCounts) h l s

@[simp] theorem foldl_dst_overruns {α : Type} (f : State → α → State) (h : ∀ s a, (f s a).dst.overruns = s.dst.overruns) (l : List α)
    (s : State) : (l.foldl f s).dst.overruns = s.dst.overruns := foldl_frame f (fun s => s.dst.overruns) h l s

@[simp] theorem foldl_dst_refreshPeriod {α : Type} (f : State → α → State) (h : ∀ s a, (f s a).dst.refreshPeriod = s.dst.refreshPeriod) (l : List α)
    (s : State) : (l.foldl f s).dst.refreshPeriod = s.dst.refreshPeriod := foldl_frame f (fun s => s.dst.refreshPeriod) h l s

@[simp] theorem foldl_dst_refreshPending {α : Type} (f : State → α → State) (h : ∀ s a, (f s a).dst.refreshPending = s.dst.refreshPending) (l : List α)
    (s : State) : (l.foldl f s).dst.refreshPending = s.dst.refreshPending := foldl_frame f (fun s => s.dst.refreshPending) h l s

@[simp] theorem post_svc (c : Content) (s : State) :
    (post c s).svc.queue = s.svc.queue ∧ (post c s).svc.lost = s.svc.lost := by
  simp [post]

@[simp] theorem postChannel_svc (e : EntryIx) (r : Reason) (s : State) :
    (postChannel e r s).svc.queue = s.svc.queue ∧ (postChannel e r s).svc.lost = s.svc.lost := by
  simp [postChannel]

@[simp] theorem commitCtx_svc (e : EntryIx) (n : Ctx) (r : Reason) (s : State) :
    (commitCtx e n r s).svc.queue = s.svc.queue ∧ (commitCtx e n r s).svc.lost = s.svc.lost := by
  simp only [commitCtx]
  repeat' split
  all_goals simp

@[simp] theorem stopTest_svc (e : EntryIx) (s : State) :
    (stopTest e s).svc.queue = s.svc.queue ∧ (stopTest e s).svc.lost = s.svc.lost := by
  simp only [stopTest]
  repeat' split
  all_goals simp

@[simp] theorem endTestsOnTrip_svc (s : State) :
    (endTestsOnTrip s).svc.queue = s.svc.queue ∧ (endTestsOnTrip s).svc.lost = s.svc.lost := by
  simp only [endTestsOnTrip]
  repeat' split
  all_goals simp

@[simp] theorem commitTxs_svc (x : Txs) (s : State) :
    (commitTxs x s).svc.queue = s.svc.queue ∧ (commitTxs x s).svc.lost = s.svc.lost := by
  simp only [commitTxs]
  repeat' split
  all_goals simp

@[simp] theorem tripOrFurther_svc (c : Trip) (s : State) :
    (tripOrFurther c s).svc.queue = s.svc.queue ∧ (tripOrFurther c s).svc.lost = s.svc.lost := by
  simp only [tripOrFurther]
  repeat' split
  all_goals simp

@[simp] theorem beginMessage_svc (t : Trunk) (s : State) :
    (beginMessage t s).svc.queue = s.svc.queue ∧ (beginMessage t s).svc.lost = s.svc.lost := by
  simp only [beginMessage]
  repeat' split
  all_goals simp

@[simp] theorem sendReverse_svc (t : Trunk) (s : State) :
    (sendReverse t s).svc.queue = s.svc.queue ∧ (sendReverse t s).svc.lost = s.svc.lost := by
  simp [sendReverse]

@[simp] theorem finishBlock_svc (e : EntryIx) (en : Entry) (r : Source) (g : Bool) (b : BlockRecord) (c : Ctx) (s : State) :
    (finishBlock e en r g b c s).svc.queue = s.svc.queue ∧ (finishBlock e en r g b c s).svc.lost = s.svc.lost := by
  simp only [finishBlock]
  repeat' split
  all_goals simp

@[simp] theorem takeBlock_svc (e : EntryIx) (en : Entry) (r : Source) (b : ChannelBlock) (s : State) :
    (takeBlock e en r b s).svc.queue = s.svc.queue ∧ (takeBlock e en r b s).svc.lost = s.svc.lost := by
  simp only [takeBlock]
  repeat' split
  all_goals simp

@[simp] theorem deliverBlock_svc (e : EntryIx) (r : Source) (s : State) :
    (deliverBlock e r s).svc.queue = s.svc.queue ∧ (deliverBlock e r s).svc.lost = s.svc.lost := by
  simp only [deliverBlock]
  repeat' split
  all_goals simp

@[simp] theorem overrunCtx_svc (e : EntryIx) (s : State) :
    (overrunCtx e s).svc.queue = s.svc.queue ∧ (overrunCtx e s).svc.lost = s.svc.lost := by
  simp only [overrunCtx]
  repeat' split
  all_goals simp

@[simp] theorem tellOverrun_svc (s : State) :
    (tellOverrun s).svc.queue = s.svc.queue ∧ (tellOverrun s).svc.lost = s.svc.lost := by
  simp [tellOverrun]

@[simp] theorem overrun_svc (s : State) :
    (overrun s).svc.queue = s.svc.queue ∧ (overrun s).svc.lost = s.svc.lost := by
  simp [overrun]

@[simp] theorem refreshExpiry_svc (s : State) :
    (refreshExpiry s).svc.queue = s.svc.queue ∧ (refreshExpiry s).svc.lost = s.svc.lost := by
  simp only [refreshExpiry]
  repeat' split
  all_goals simp

@[simp] theorem switchCtx_svc (e : EntryIx) (k : PosClass) (s : State) :
    (switchCtx e k s).svc.queue = s.svc.queue ∧ (switchCtx e k s).svc.lost = s.svc.lost := by
  simp only [switchCtx]
  repeat' split
  all_goals simp

@[simp] theorem contextPass_svc (k : Classes) (s : State) :
    (contextPass k s).svc.queue = s.svc.queue ∧ (contextPass k s).svc.lost = s.svc.lost := by
  simp [contextPass]

@[simp] theorem postSwitched_svc (k : Classes) (s : State) :
    (postSwitched k s).svc.queue = s.svc.queue ∧ (postSwitched k s).svc.lost = s.svc.lost := by
  simp [postSwitched]

@[simp] theorem settleSettings_svc (s : State) :
    (settleSettings s).svc.queue = s.svc.queue ∧ (settleSettings s).svc.lost = s.svc.lost := by
  simp [settleSettings]

@[simp] theorem planSwitch_svc (s : State) :
    (planSwitch s).svc.queue = s.svc.queue ∧ (planSwitch s).svc.lost = s.svc.lost := by
  simp [planSwitch]

@[simp] theorem shedOne_svc (c : Share) (s : State) :
    (shedOne c s).svc.queue = s.svc.queue ∧ (shedOne c s).svc.lost = s.svc.lost := by
  simp [shedOne]

@[simp] theorem shedAll_svc (l : List Share) (s : State) :
    (shedAll l s).svc.queue = s.svc.queue ∧ (shedAll l s).svc.lost = s.svc.lost := by
  simp [shedAll]

@[simp] theorem restoreOne_svc (c : Option Share) (s : State) :
    (restoreOne c s).svc.queue = s.svc.queue ∧ (restoreOne c s).svc.lost = s.svc.lost := by
  simp only [restoreOne]
  repeat' split
  all_goals simp

@[simp] theorem takeOutputBlock_svc (l : List Sample) (p : List Applied) (s : State) :
    (takeOutputBlock l p s).svc.queue = s.svc.queue ∧ (takeOutputBlock l p s).svc.lost = s.svc.lost := by
  simp [takeOutputBlock]

@[simp] theorem completeBlock_svc (o : OutBlock) (s : State) :
    (completeBlock o s).svc.queue = s.svc.queue ∧ (completeBlock o s).svc.lost = s.svc.lost := by
  simp only [completeBlock]
  repeat' split
  all_goals simp

@[simp] theorem assemble_svc (o : OutBlock) (s : State) :
    (assemble o s).svc.queue = s.svc.queue ∧ (assemble o s).svc.lost = s.svc.lost := by
  simp [assemble]

@[simp] theorem assembleBlock_svc (s : State) :
    (assembleBlock s).svc.queue = s.svc.queue ∧ (assembleBlock s).svc.lost = s.svc.lost := by
  simp only [assembleBlock]
  repeat' split
  all_goals simp

@[simp] theorem overlevelMute_svc (e : EntryIx) (s : State) :
    (overlevelMute e s).svc.queue = s.svc.queue ∧ (overlevelMute e s).svc.lost = s.svc.lost := by
  simp only [overlevelMute]
  repeat' split
  all_goals simp

@[simp] theorem completeEntry_svc (d : Dwell) (e : EntryIx) (x : Int) (s : State) :
    (completeEntry d e x s).svc.queue = s.svc.queue ∧ (completeEntry d e x s).svc.lost = s.svc.lost := by
  simp only [completeEntry]
  repeat' split
  all_goals simp

@[simp] theorem countFrame_svc (h : Heard) (d : Dwell) (s : State) :
    (countFrame h d s).svc.queue = s.svc.queue ∧ (countFrame h d s).svc.lost = s.svc.lost := by
  simp only [countFrame]
  repeat' split
  all_goals simp

@[simp] theorem beginDwell_svc (h : Heard) (s : State) :
    (beginDwell h s).svc.queue = s.svc.queue ∧ (beginDwell h s).svc.lost = s.svc.lost := by
  simp only [beginDwell]
  repeat' split
  all_goals simp

@[simp] theorem monitorFrame_svc (h : Heard) (s : State) :
    (monitorFrame h s).svc.queue = s.svc.queue ∧ (monitorFrame h s).svc.lost = s.svc.lost := by
  simp only [monitorFrame]
  repeat' split
  all_goals simp

@[simp] theorem sendForward_svc (s : State) :
    (sendForward s).svc.queue = s.svc.queue ∧ (sendForward s).svc.lost = s.svc.lost := by
  simp [sendForward]

@[simp] theorem takeInvalid_svc (s : State) :
    (takeInvalid s).svc.queue = s.svc.queue ∧ (takeInvalid s).svc.lost = s.svc.lost := by
  simp only [takeInvalid]
  repeat' split
  all_goals simp

@[simp] theorem stageReady_svc (s : State) :
    (stageReady s).svc.queue = s.svc.queue ∧ (stageReady s).svc.lost = s.svc.lost := by
  simp only [stageReady]
  repeat' split
  all_goals simp

@[simp] theorem stageTrip_svc (s : State) :
    (stageTrip s).svc.queue = s.svc.queue ∧ (stageTrip s).svc.lost = s.svc.lost := by
  simp only [stageTrip]
  repeat' split
  all_goals simp

@[simp] theorem stageEvaluate_svc (s : State) :
    (stageEvaluate s).svc.queue = s.svc.queue ∧ (stageEvaluate s).svc.lost = s.svc.lost := by
  simp only [stageEvaluate]
  repeat' split
  all_goals simp

@[simp] theorem takeValid_svc (r : Reading) (s : State) :
    (takeValid r s).svc.queue = s.svc.queue ∧ (takeValid r s).svc.lost = s.svc.lost := by
  simp only [takeValid]
  repeat' split
  all_goals simp

@[simp] theorem takeReverse_svc (w : Window) (s : State) :
    (takeReverse w s).svc.queue = s.svc.queue ∧ (takeReverse w s).svc.lost = s.svc.lost := by
  simp only [takeReverse]
  repeat' split
  all_goals simp

@[simp] theorem sampleLock_svc (l : Bool) (s : State) :
    (sampleLock l s).svc.queue = s.svc.queue ∧ (sampleLock l s).svc.lost = s.svc.lost := by
  simp only [sampleLock]
  repeat' split
  all_goals simp

@[simp] theorem expireBias_svc (s : State) :
    (expireBias s).svc.queue = s.svc.queue ∧ (expireBias s).svc.lost = s.svc.lost := by
  simp only [expireBias]
  repeat' split
  all_goals simp

@[simp] theorem expireCool_svc (s : State) :
    (expireCool s).svc.queue = s.svc.queue ∧ (expireCool s).svc.lost = s.svc.lost := by
  simp only [expireCool]
  repeat' split
  all_goals simp

@[simp] theorem expireTest_svc (e : EntryIx) (s : State) :
    (expireTest e s).svc.queue = s.svc.queue ∧ (expireTest e s).svc.lost = s.svc.lost := by
  simp only [expireTest]
  repeat' split
  all_goals simp

@[simp] theorem actMute_svc (b : List Byte) (s : State) :
    (actMute b s).state.svc.queue = s.svc.queue ∧ (actMute b s).state.svc.lost = s.svc.lost := by
  simp only [actMute, onEntry]
  repeat' split
  all_goals simp

@[simp] theorem actUnmute_svc (b : List Byte) (s : State) :
    (actUnmute b s).state.svc.queue = s.svc.queue ∧ (actUnmute b s).state.svc.lost = s.svc.lost := by
  simp only [actUnmute, onEntry]
  repeat' split
  all_goals simp

@[simp] theorem actForceSource_svc (b : List Byte) (s : State) :
    (actForceSource b s).state.svc.queue = s.svc.queue ∧ (actForceSource b s).state.svc.lost = s.svc.lost := by
  simp only [actForceSource, onEntry]
  repeat' split
  all_goals simp

@[simp] theorem actClearFaultEntry_svc (b : List Byte) (s : State) :
    (actClearFaultEntry b s).state.svc.queue = s.svc.queue ∧ (actClearFaultEntry b s).state.svc.lost = s.svc.lost := by
  simp only [actClearFaultEntry, onEntry]
  repeat' split
  all_goals simp

@[simp] theorem actTestStart_svc (b : List Byte) (s : State) :
    (actTestStart b s).state.svc.queue = s.svc.queue ∧ (actTestStart b s).state.svc.lost = s.svc.lost := by
  simp only [actTestStart, onEntry, stopReply]
  repeat' split
  all_goals simp

@[simp] theorem actTestStop_svc (b : List Byte) (s : State) :
    (actTestStop b s).state.svc.queue = s.svc.queue ∧ (actTestStop b s).state.svc.lost = s.svc.lost := by
  simp only [actTestStop, onEntry, stopReply]
  repeat' split
  all_goals simp

@[simp] theorem actKey_svc (b : List Byte) (s : State) :
    (actKey b s).state.svc.queue = s.svc.queue ∧ (actKey b s).state.svc.lost = s.svc.lost := by
  simp only [actKey]
  repeat' split
  all_goals simp

@[simp] theorem actUnkey_svc (b : List Byte) (s : State) :
    (actUnkey b s).state.svc.queue = s.svc.queue ∧ (actUnkey b s).state.svc.lost = s.svc.lost := by
  simp [actUnkey]

@[simp] theorem actShutdown_svc (b : List Byte) (s : State) :
    (actShutdown b s).state.svc.queue = s.svc.queue ∧ (actShutdown b s).state.svc.lost = s.svc.lost := by
  simp [actShutdown]

@[simp] theorem actClearFaultTransmit_svc (b : List Byte) (s : State) :
    (actClearFaultTransmit b s).state.svc.queue = s.svc.queue ∧
    (actClearFaultTransmit b s).state.svc.lost = s.svc.lost := by
  simp only [actClearFaultTransmit]
  repeat' split
  all_goals simp

@[simp] theorem setLine_store (e : EntryIx) (l : Option Line) (d : Dst) :
    (setLine e l d).pageMap = d.pageMap ∧ (setLine e l d).dram = d.dram ∧ (setLine e l d).gapMarks = d.gapMarks ∧
    (setLine e l d).gapCounts = d.gapCounts ∧ (setLine e l d).overruns = d.overruns ∧ (setLine e l d).refreshPeriod = d.refreshPeriod ∧
    (setLine e l d).refreshPending = d.refreshPending := ⟨rfl, rfl, rfl, rfl, rfl, rfl, rfl⟩

@[simp] theorem removeWrites_store (p : WriteReq → Bool) (d : Dst) :
    (removeWrites p d).pageMap = d.pageMap ∧ (removeWrites p d).dram = d.dram ∧ (removeWrites p d).gapMarks = d.gapMarks ∧
    (removeWrites p d).gapCounts = d.gapCounts ∧ (removeWrites p d).overruns = d.overruns ∧ (removeWrites p d).refreshPeriod = d.refreshPeriod ∧
    (removeWrites p d).refreshPending = d.refreshPending := ⟨rfl, rfl, rfl, rfl, rfl, rfl, rfl⟩

@[simp] theorem removeReads_store (p : ReadReq → Bool) (d : Dst) :
    (removeReads p d).pageMap = d.pageMap ∧ (removeReads p d).dram = d.dram ∧ (removeReads p d).gapMarks = d.gapMarks ∧
    (removeReads p d).gapCounts = d.gapCounts ∧ (removeReads p d).overruns = d.overruns ∧ (removeReads p d).refreshPeriod = d.refreshPeriod ∧
    (removeReads p d).refreshPending = d.refreshPending := ⟨rfl, rfl, rfl, rfl, rfl, rfl, rfl⟩

@[simp] theorem grant_store (d : Dst) :
    (grant d).pageMap = d.pageMap ∧ (grant d).dram = d.dram ∧ (grant d).gapMarks = d.gapMarks ∧
    (grant d).gapCounts = d.gapCounts ∧ (grant d).overruns = d.overruns ∧ (grant d).refreshPeriod = d.refreshPeriod ∧
    (grant d).lines = d.lines ∧ (grant d).reads = d.reads ∧ (grant d).writes = d.writes := by
  unfold grant
  repeat' split
  all_goals simp

@[simp] theorem acceptRecord_store (e : EntryIx) (l : Line) (w : Nat) (r : BlockRecord) (d : Dst) :
    (acceptRecord e l w r d).pageMap = d.pageMap ∧ (acceptRecord e l w r d).dram = d.dram ∧
    (acceptRecord e l w r d).overruns = d.overruns ∧ (acceptRecord e l w r d).refreshPeriod = d.refreshPeriod ∧
    (acceptRecord e l w r d).reads = d.reads := by
  simp only [acceptRecord]
  split <;> simp [joinWrites, setLine, removeWrites, setGapMark]

@[simp] theorem dropReads_dst (e : EntryIx) (s : State) :
    (dropReads e s).dst.pageMap = s.dst.pageMap ∧ (dropReads e s).dst.dram = s.dst.dram ∧
    (dropReads e s).dst.gapMarks = s.dst.gapMarks ∧ (dropReads e s).dst.gapCounts = s.dst.gapCounts ∧
    (dropReads e s).dst.overruns = s.dst.overruns ∧ (dropReads e s).dst.refreshPeriod = s.dst.refreshPeriod ∧
    (dropReads e s).dst.refreshPending = s.dst.refreshPending := by
  simp only [dropReads]
  repeat' split
  all_goals simp

@[simp] theorem flushLine_dst (e : EntryIx) (s : State) :
    (flushLine e s).dst.pageMap = s.dst.pageMap ∧ (flushLine e s).dst.dram = s.dst.dram ∧
    (flushLine e s).dst.gapMarks = s.dst.gapMarks ∧ (flushLine e s).dst.gapCounts = s.dst.gapCounts ∧
    (flushLine e s).dst.overruns = s.dst.overruns ∧ (flushLine e s).dst.refreshPeriod = s.dst.refreshPeriod ∧
    (flushLine e s).dst.refreshPending = s.dst.refreshPending := by
  simp only [flushLine]
  repeat' split
  all_goals simp

@[simp] theorem switchSource_dst (e : EntryIx) (f : Bool) (r : Reason) (c : Ctx) (s : State) :
    (switchSource e f r c s).dst.pageMap = s.dst.pageMap ∧ (switchSource e f r c s).dst.dram = s.dst.dram ∧
    (switchSource e f r c s).dst.gapMarks = s.dst.gapMarks ∧ (switchSource e f r c s).dst.gapCounts = s.dst.gapCounts ∧
    (switchSource e f r c s).dst.overruns = s.dst.overruns ∧
    (switchSource e f r c s).dst.refreshPeriod = s.dst.refreshPeriod ∧
    (switchSource e f r c s).dst.refreshPending = s.dst.refreshPending := by
  simp [switchSource]

@[simp] theorem flushAll_dst (s : State) :
    (flushAll s).dst.pageMap = s.dst.pageMap ∧ (flushAll s).dst.dram = s.dst.dram ∧
    (flushAll s).dst.gapMarks = s.dst.gapMarks ∧ (flushAll s).dst.gapCounts = s.dst.gapCounts ∧
    (flushAll s).dst.overruns = s.dst.overruns ∧ (flushAll s).dst.refreshPeriod = s.dst.refreshPeriod ∧
    (flushAll s).dst.refreshPending = s.dst.refreshPending := by
  simp [flushAll]

@[simp] theorem handOn_dst (e : EntryIx) (en : Entry) (r : BlockRecord) (s : State) :
    (handOn e en r s).dst.pageMap = s.dst.pageMap ∧ (handOn e en r s).dst.dram = s.dst.dram ∧
    (handOn e en r s).dst.overruns = s.dst.overruns ∧ (handOn e en r s).dst.refreshPeriod = s.dst.refreshPeriod := by
  simp only [handOn]
  repeat' split
  all_goals simp

@[simp] theorem finishBlock_dst (e : EntryIx) (en : Entry) (r : Source) (g : Bool) (b : BlockRecord) (c : Ctx) (s : State) :
    (finishBlock e en r g b c s).dst.pageMap = s.dst.pageMap ∧ (finishBlock e en r g b c s).dst.dram = s.dst.dram ∧
    (finishBlock e en r g b c s).dst.overruns = s.dst.overruns ∧
    (finishBlock e en r g b c s).dst.refreshPeriod = s.dst.refreshPeriod := by
  simp only [finishBlock]
  repeat' split
  all_goals simp

@[simp] theorem takeBlock_dst (e : EntryIx) (en : Entry) (r : Source) (b : ChannelBlock) (s : State) :
    (takeBlock e en r b s).dst.pageMap = s.dst.pageMap ∧ (takeBlock e en r b s).dst.dram = s.dst.dram ∧
    (takeBlock e en r b s).dst.overruns = s.dst.overruns ∧
    (takeBlock e en r b s).dst.refreshPeriod = s.dst.refreshPeriod := by
  simp only [takeBlock]
  repeat' split
  all_goals simp

@[simp] theorem deliverBlock_dst (e : EntryIx) (r : Source) (s : State) :
    (deliverBlock e r s).dst.pageMap = s.dst.pageMap ∧ (deliverBlock e r s).dst.dram = s.dst.dram ∧
    (deliverBlock e r s).dst.overruns = s.dst.overruns ∧ (deliverBlock e r s).dst.refreshPeriod = s.dst.refreshPeriod := by
  simp only [deliverBlock]
  repeat' split
  all_goals simp

@[simp] theorem queueRead_dst (e : EntryIx) (s : State) :
    (queueRead e s).dst.pageMap = s.dst.pageMap ∧ (queueRead e s).dst.dram = s.dst.dram ∧
    (queueRead e s).dst.gapMarks = s.dst.gapMarks ∧ (queueRead e s).dst.gapCounts = s.dst.gapCounts ∧
    (queueRead e s).dst.overruns = s.dst.overruns ∧ (queueRead e s).dst.refreshPeriod = s.dst.refreshPeriod := by
  simp only [queueRead, joinReads]
  repeat' split
  all_goals simp

@[simp] theorem queueReads_dst (s : State) :
    (queueReads s).dst.pageMap = s.dst.pageMap ∧ (queueReads s).dst.dram = s.dst.dram ∧
    (queueReads s).dst.gapMarks = s.dst.gapMarks ∧ (queueReads s).dst.gapCounts = s.dst.gapCounts ∧
    (queueReads s).dst.overruns = s.dst.overruns ∧ (queueReads s).dst.refreshPeriod = s.dst.refreshPeriod := by
  simp [queueReads]

@[simp] theorem beginOutBlock_dst (s : State) :
    (beginOutBlock s).dst.pageMap = s.dst.pageMap ∧ (beginOutBlock s).dst.dram = s.dst.dram ∧
    (beginOutBlock s).dst.gapMarks = s.dst.gapMarks ∧ (beginOutBlock s).dst.gapCounts = s.dst.gapCounts ∧
    (beginOutBlock s).dst.overruns = s.dst.overruns ∧ (beginOutBlock s).dst.refreshPeriod = s.dst.refreshPeriod := by
  simp [beginOutBlock]

@[simp] theorem startBlock_dst (s : State) :
    (startBlock s).dst.pageMap = s.dst.pageMap ∧ (startBlock s).dst.dram = s.dst.dram ∧
    (startBlock s).dst.gapMarks = s.dst.gapMarks ∧ (startBlock s).dst.gapCounts = s.dst.gapCounts ∧
    (startBlock s).dst.overruns = s.dst.overruns ∧ (startBlock s).dst.refreshPeriod = s.dst.refreshPeriod := by
  simp [startBlock]

end Sys2Proof.Machine
end

