-- ==== Sys2Proof/Laws/Service.lean ====
section
/-! SUPPORT. The service engine: what a posting does to the notice queue, which conditions on the notice queue every command
keeps, what the bytes of a segment do to the request queue, and how a message is gathered. -/

namespace Sys2Proof.Machine

/-! ### Sources and postings (R164) -/

@[simp] theorem sameSource_self (c : Content) : sameSource c c = true := by simp [sameSource]

theorem sameSource_symm (a b : Content) : sameSource a b = sameSource b a := Bool.beq_comm

theorem sameSource_trans {a b c : Content} (h : sameSource a b = true) : sameSource a c = sameSource b c := by
  simp only [sameSource, beq_iff_eq] at h ⊢
  rw [h]

/-- At most one pending notice per source. -/
def Distinct (q : List Notice) : Prop := q.Pairwise (fun a b => sameSource a.content b.content = false)

theorem Distinct.sublist {p q : List Notice} (h : Distinct q) (hs : p.Sublist q) : Distinct p := List.Pairwise.sublist hs h

/-- Changing notices without changing their sources keeps them distinct. -/
theorem Distinct.map_source {q : List Notice} (h : Distinct q) {f : Notice → Notice}
    (hf : ∀ n, sameSource (f n).content n.content = true) : Distinct (q.map f) := by
  refine List.Pairwise.map f ?_ h
  intro a b hab
  rw [sameSource_trans (hf a), sameSource_symm, sameSource_trans (hf b), sameSource_symm]
  exact hab

/-- A posting keeps the notices distinct (R164). -/
theorem postNotice_distinct (c : Content) {q : List Notice} (h : Distinct q) : Distinct (postNotice c q) := by
  unfold postNotice
  split
  · refine h.map_source fun n => ?_
    split
    · next hn => rw [sameSource_symm]; exact hn
    · simp
  · next hn =>
    refine List.pairwise_append.mpr ⟨h, by simp, ?_⟩
    intro a ha b hb
    simp only [List.mem_singleton] at hb
    subst hb
    simp only [List.any_eq_true, not_exists, not_and, Bool.not_eq_true] at hn
    exact hn a ha

/-- A posting leaves the content pending, due on every trunk. -/
theorem postNotice_mem (c : Content) (q : List Notice) : ⟨c, false, false⟩ ∈ postNotice c q := by
  unfold postNotice
  split
  · next h =>
    simp only [List.any_eq_true] at h
    obtain ⟨n, hn, hs⟩ := h
    exact List.mem_map.mpr ⟨n, hn, by simp [hs]⟩
  · simp

/-- Sending a notice keeps the notices distinct. -/
theorem sendNotice_distinct (set : NoticeTrunk) (t : Trunk) (c : Content) {q : List Notice} (h : Distinct q) :
    Distinct (sendNotice set t c q) := by
  unfold sendNotice
  refine (h.map_source fun n => ?_).sublist List.filter_sublist
  split
  · cases t <;> simp [markSent]
  · simp

/-! ### Conditions on the notice queue -/

/-- A condition on the notice queue that posting, sending and settling keep, and that a reset brings. -/
structure NoticesClosed (N : List Notice → Prop) : Prop where
  post   : ∀ c q, N q → N (postNotice c q)
  send   : ∀ set t c q, N q → N (sendNotice set t c q)
  settle : ∀ set q, N q → N (settleNotices set q)
  reset  : ∀ w, N [⟨.reset w, false, false⟩]

theorem distinct_closed : NoticesClosed Distinct where
  post c _ h := postNotice_distinct c h
  send set t c _ h := sendNotice_distinct set t c h
  settle _ _ h := h.sublist List.filter_sublist
  reset _ := by simp [Distinct]

variable {N : List Notice → Prop}

/-- The notice queue of a state meets a condition. -/
def AllNotices (N : List Notice → Prop) (s : State) : Prop := N s.svc.notices

theorem AllNotices.congr {s t : State} (h : AllNotices N s) (hs : t.svc.notices = s.svc.notices) : AllNotices N t := by
  unfold AllNotices
  rw [hs]
  exact h

theorem AllNotices.post (hN : NoticesClosed N) {c : Content} {s : State} (h : AllNotices N s) : AllNotices N (post c s) :=
  hN.post _ _ h

theorem AllNotices.postChannel (hN : NoticesClosed N) {e : EntryIx} {r : Reason} {s : State} (h : AllNotices N s) :
    AllNotices N (postChannel e r s) := hN.post _ _ h

theorem AllNotices.commitCtx (hN : NoticesClosed N) {e : EntryIx} {n : Ctx} {r : Reason} {s : State} (h : AllNotices N s) :
    AllNotices N (commitCtx e n r s) := by
  unfold Machine.commitCtx
  have h1 : ∀ p : Bool, AllNotices N (if p = true then endDwellOn e (setCtx e (committed (ctxAt s e) n) s)
      else setCtx e (committed (ctxAt s e) n) s) := by
    intro p
    exact h.congr (by cases p <;> simp)
  simp only
  split
  · exact (h1 _).postChannel hN
  · exact h1 _

theorem AllNotices.switchSource (hN : NoticesClosed N) {e : EntryIx} {f : Bool} {r : Reason} {c : Ctx} {s : State}
    (h : AllNotices N s) : AllNotices N (switchSource e f r c s) :=
  AllNotices.congr (h.commitCtx hN (e := e) (n := switched f c) (r := r)) (by simp)

theorem AllNotices.commitTxs (hN : NoticesClosed N) {x : Txs} {s : State} (h : AllNotices N s) :
    AllNotices N (commitTxs x s) := by
  have hend : ∀ u : State, AllNotices N u → AllNotices N (endTestsOnTrip u) := by
    intro u hu
    unfold endTestsOnTrip
    split
    · refine foldl_keeps _ (AllNotices N) ?_ _ _ hu
      intro b e hb
      unfold stopTest
      split
      · exact hb.commitCtx hN
      · exact hb
    · exact hu
  have h1 : ∀ p : Prop, [Decidable p] → AllNotices N (if p then endDwell (setTxs x s) else setTxs x s) := by
    intro p _
    exact h.congr (by split <;> simp)
  simp only [Machine.commitTxs]
  split
  · refine hend _ ?_
    split
    · exact (h1 _).post hN
    · exact h1 _
  · split
    · exact (h1 _).post hN
    · exact h1 _

theorem AllNotices.tripOrFurther (hN : NoticesClosed N) {c : Trip} {s : State} (h : AllNotices N s) :
    AllNotices N (tripOrFurther c s) := by
  unfold Machine.tripOrFurther
  split <;> exact h.commitTxs hN

theorem AllNotices.deliverBlock (hN : NoticesClosed N) {e : EntryIx} {r : Source} {s : State} (h : AllNotices N s) :
    AllNotices N (deliverBlock e r s) := by
  have hfin : ∀ (en : Entry) (g : Bool) (b : BlockRecord) (c : Ctx) (u : State), AllNotices N u →
      AllNotices N (finishBlock e en r g b c u) := by
    intro en g b c u hu
    simp only [finishBlock]
    split
    · exact hu.switchSource hN
    · have hand : ∀ (p : Bool) (x : State), (if p = true then handOn e en b u else u) = x → AllNotices N x := by
        rintro p x rfl
        exact hu.congr (by cases p <;> simp)
      generalize hx : (if (r == c.source) = true then handOn e en b u else u) = x
      have hx := hand _ _ hx
      split
      · exact hx.commitCtx hN
      · split <;> exact hx.commitCtx hN
  unfold Machine.deliverBlock
  split
  · exact h
  · next rest _ =>
    have hx : AllNotices N (setExt { s.ext with waiting := rest } s) := h.congr (by simp)
    simp only
    split
    · exact hx
    · split
      · exact hx
      · simp only [takeBlock]
        split <;> exact hfin _ _ _ _ _ hx

theorem AllNotices.overrun (hN : NoticesClosed N) {s : State} (h : AllNotices N s) : AllNotices N (overrun s) := by
  have htell : AllNotices N (tellOverrun (flushAll s)) := by
    refine foldl_keeps _ (AllNotices N) ?_ _ _ (h.congr (by simp))
    intro b e hb
    unfold overrunCtx
    split
    · exact hb
    · split
      · exact hb.commitCtx hN
      · exact hb
  exact AllNotices.post hN (htell.congr (by simp))

theorem AllNotices.planSwitch (hN : NoticesClosed N) {s : State} (h : AllNotices N s) : AllNotices N (planSwitch s) := by
  have hset : AllNotices N (settleSettings (adoptPlan s)) := by
    refine AllNotices.commitTxs hN ?_
    exact hN.settle _ _ (h.congr (t := adoptPlan s) (by simp))
  have hpass : AllNotices N (contextPass (switchClasses s) (rebuildTaps (switchClasses s)
      (clearPass (switchClasses s) (allocPass (switchClasses s) (freePass (switchClasses s)
        (settleSettings (adoptPlan s))))))) := by
    refine foldl_keeps _ (AllNotices N) ?_ _ _ (hset.congr (by simp))
    intro b e hb
    simp only [switchCtx]
    have h1 : ∀ p : Bool, AllNotices N (if p = true then endDwellOn e (setCtx e (switchedCtx (vget (switchClasses s) e)
        (activeAt b e) (ctxAt b e)) b) else setCtx e (switchedCtx (vget (switchClasses s) e) (activeAt b e) (ctxAt b e)) b) := by
      intro p
      exact hb.congr (by cases p <;> simp)
    split
    · exact (h1 _).postChannel hN
    · exact h1 _
  exact AllNotices.post hN (hpass.congr (by simp))

theorem AllNotices.assembleBlock (hN : NoticesClosed N) {s : State} (h : AllNotices N s) : AllNotices N (assembleBlock s) := by
  have hshed : ∀ (l : List Share) (u : State), AllNotices N u → AllNotices N (shedAll l u) := by
    intro l u hu
    refine foldl_keeps _ (AllNotices N) ?_ _ _ hu
    intro b c hb
    exact AllNotices.postChannel hN (hb.congr (by simp))
  have hrestore : ∀ (c : Option Share) (u : State), AllNotices N u → AllNotices N (restoreOne c u) := by
    intro c u hu
    unfold restoreOne
    split
    · exact hu
    · exact AllNotices.postChannel hN (hu.congr (by simp))
  have hcomplete : ∀ (o : OutBlock) (u : State), AllNotices N u → AllNotices N (completeBlock o u) := by
    intro o u hu
    simp only [completeBlock]
    split
    · exact hu.congr (by simp)
    · split
      · split
        · exact AllNotices.planSwitch hN (hu.congr (by simp))
        · exact hu.congr (by simp)
      · exact hu.congr (by simp)
  unfold Machine.assembleBlock
  split
  · exact h
  · simp only [assemble]
    refine hcomplete _ _ ?_
    refine AllNotices.congr (AllNotices.commitTxs hN ?_) rfl
    refine AllNotices.congr (hrestore _ _ (hshed _ _ ?_)) rfl
    exact h.congr (by simp)

theorem AllNotices.monitorFrame (hN : NoticesClosed N) (f : Heard) {s : State} (h : AllNotices N s) :
    AllNotices N (monitorFrame f s) := by
  have hcount : ∀ (d : Dwell) (u : State), AllNotices N u → AllNotices N (countFrame f d u) := by
    intro d u hu
    simp only [countFrame]
    split
    · exact hu
    · split
      · exact hu.congr (by simp)
      · split
        · exact hu.congr (by simp)
        · split
          · next e _ _ a _ =>
            simp only [completeEntry]
            split
            · unfold overlevelMute
              split
              · exact AllNotices.commitCtx hN (hu.congr (by simp))
              · exact hu.congr (by simp)
            · exact hu.congr (by simp)
          · exact hu
  simp only [Machine.monitorFrame]
  split
  · exact h
  · split
    · exact hcount _ _ h
    · unfold beginDwell
      split
      · exact h
      · exact hcount _ _ (h.congr (by simp))

theorem AllNotices.takeReverse (hN : NoticesClosed N) (w : Window) {s : State} (h : AllNotices N s) :
    AllNotices N (takeReverse w s) := by
  have hready : ∀ u, AllNotices N u → AllNotices N (stageReady u) := by
    intro u hu
    unfold stageReady
    split
    · exact hu.commitTxs hN
    · exact hu
  have htrip : ∀ u, AllNotices N u → AllNotices N (stageTrip u) := by
    intro u hu
    unfold stageTrip
    split
    · exact hu.tripOrFurther hN
    · exact hu
  have heval : ∀ u, AllNotices N u → AllNotices N (stageEvaluate u) := by
    intro u hu
    simp only [stageEvaluate]
    split
    · split
      · exact AllNotices.tripOrFurther hN (hu.congr (by simp))
      · exact hu.congr (by simp)
    · exact hu
  unfold Machine.takeReverse
  split
  · simp only [takeInvalid]
    split
    · exact AllNotices.tripOrFurther hN (h.congr (by simp))
    · exact h.congr (by simp)
  · next r _ =>
    have hr : AllNotices N (setTxs (holdReading r s.txs) s) := h.congr (by simp)
    simp only [takeValid]
    split
    · split
      · exact hr.tripOrFurther hN
      · exact hr
    · exact heval _ (htrip _ (hready _ hr))

theorem AllNotices.sendReverse (hN : NoticesClosed N) (t : Trunk) {s : State} (h : AllNotices N s) :
    AllNotices N (sendReverse t s) := by
  have hb : AllNotices N (beginMessage t s) := by
    simp only [beginMessage]
    split
    · exact h
    · exact h.congr (by simp)
    · split
      · split
        · exact h
        · exact hN.send _ _ _ _ h
      · exact h
  exact hb.congr (by simp [Machine.sendReverse])

/-! ### The bytes of a segment (R156 to R160) -/

@[simp] theorem takeAsmEvent_notices (t : Trunk) (ev : AsmEvent) (v : Svc) :
    (takeAsmEvent t ev v).notices = v.notices := by
  cases ev with
  | none => rfl
  | discard => rfl
  | complete m =>
    simp only [takeAsmEvent]
    split
    · simp only [offer]
      split <;> rfl
    · rfl

@[simp] theorem takeBytes_notices (t : Trunk) : ∀ (l : List Byte) (a : Assembler) (v : Svc),
    (takeBytes t l a v).2.notices = v.notices
  | [], _, _ => rfl
  | b :: rest, a, v => by simp [takeBytes, takeBytes_notices t rest]

@[simp] theorem segmentLost_notices (a : Assembler) (v : Svc) : (segmentLost a v).2.notices = v.notices := by
  unfold segmentLost
  split <;> rfl

@[simp] theorem feedAssembler_notices (t : Trunk) (p q : Port) (o : FrameOutcome) (v : Svc) :
    (feedAssembler t p q o v).2.notices = v.notices := by
  unfold feedAssembler
  split
  · split
    · split
      · simp
      · simp
    · simp
  · simp

/-- The request queue stays at 8 or below (R160). -/
theorem takeAsmEvent_queue (t : Trunk) (ev : AsmEvent) {v : Svc} (h : v.queue.length ≤ 8) :
    (takeAsmEvent t ev v).queue.length ≤ 8 := by
  cases ev with
  | none => exact h
  | discard => exact h
  | complete m =>
    simp only [takeAsmEvent]
    split
    · simp only [offer]
      split
      · simp; omega
      · exact h
    · exact h

theorem takeBytes_queue (t : Trunk) : ∀ (l : List Byte) (a : Assembler) {v : Svc}, v.queue.length ≤ 8 →
    (takeBytes t l a v).2.queue.length ≤ 8
  | [], _, _, h => h
  | b :: rest, a, v, h => by
    simp only [takeBytes]
    exact takeBytes_queue t rest _ (takeAsmEvent_queue t _ h)

theorem segmentLost_queue (a : Assembler) (v : Svc) : (segmentLost a v).2.queue = v.queue := by
  unfold segmentLost
  split <;> rfl

theorem feedAssembler_queue (t : Trunk) (p q : Port) (o : FrameOutcome) {v : Svc} (h : v.queue.length ≤ 8) :
    (feedAssembler t p q o v).2.queue.length ≤ 8 := by
  unfold feedAssembler
  split
  · split
    · split
      · exact takeBytes_queue _ _ _ (by rw [segmentLost_queue]; exact h)
      · exact takeBytes_queue _ _ _ h
    · rw [segmentLost_queue]; exact h
  · rw [segmentLost_queue]; exact h

/-- The bytes of two stretches one after the other. -/
theorem takeBytes_append (t : Trunk) : ∀ (l m : List Byte) (a : Assembler) (v : Svc),
    takeBytes t (l ++ m) a v = takeBytes t m (takeBytes t l a v).1 (takeBytes t l a v).2
  | [], _, _, _ => rfl
  | b :: rest, m, a, v => by simp [takeBytes, takeBytes_append t rest]

/-- In COLLECT, bytes that do not reach the expected length are gathered. -/
theorem takeBytes_collect (t : Trunk) (n : Nat) (v : Svc) : ∀ (l g : List Byte), g.length + l.length < n →
    takeBytes t l ⟨.collect, g, some n⟩ v = (⟨.collect, g ++ l, some n⟩, v)
  | [], g, _ => by simp [takeBytes]
  | b :: rest, g, h => by
    have hb : g.length + 1 < n := by simp at h; omega
    simp only [takeBytes, asmByte, List.length_append, List.length_singleton, Option.getD_some, hb, if_true, takeAsmEvent]
    rw [takeBytes_collect t n v rest (g ++ [b]) (by simp at h ⊢; omega)]
    simp

/-- In COLLECT, bytes that reach the expected length complete the message. -/
theorem takeBytes_complete (t : Trunk) (n : Nat) (v : Svc) (l g : List Byte) (hl : l ≠ []) (h : g.length + l.length = n) :
    takeBytes t l ⟨.collect, g, some n⟩ v = (searching, takeAsmEvent t (.complete (g ++ l)) v) := by
  obtain ⟨m, b, rfl⟩ := List.eq_nil_or_concat l |>.resolve_left hl
  simp only [List.concat_eq_append] at h ⊢
  rw [takeBytes_append, takeBytes_collect t n v m g (by simp at h; omega)]
  have hn : ¬(g.length + (m.length + 1) < n) := by simp at h; omega
  simp [takeBytes, asmByte, hn]

/-! ### Every command -/

/-- A condition on the notice queue that posting, sending and settling keep is kept by every command. -/
theorem AllNotices.effect (hN : NoticesClosed N) (c : Instr) {s : State} (h : AllNotices N s) : AllNotices N (effect c s) := by
  have request : ∀ (k : Kind) (act : List Byte → State → Reply),
      (∀ b u, AllNotices N u → AllNotices N (act b u).state) → AllNotices N (execRequest k act s) := by
    intro k act hact
    refine execRequest_keeps (P := AllNotices N) ?_ hact ?_ h
    · intro u r rest _ hu
      exact hu.congr (by simp)
    · intro r st b u hu
      exact hu.congr (by simp [respond])
  have same : ∀ t : State, t.svc.notices = s.svc.notices → AllNotices N t := fun t ht => h.congr ht
  have onE : ∀ (b : List Byte) (u : State) (f : EntryIx → Ctx → Reply), AllNotices N u →
      (∀ e, AllNotices N (f e (ctxAt u e)).state) → AllNotices N (onEntry b u f).state := by
    intro b u f hu hf
    unfold onEntry
    split
    · exact hu
    · exact hf _
  have stop : ∀ (e : EntryIx) (u : State), AllNotices N u → AllNotices N (stopTest e u) := by
    intro e u hu
    unfold stopTest
    split
    · exact hu.commitCtx hN
    · exact hu
  have stopR : ∀ (e : EntryIx) (c : Ctx) (b : List Byte) (u : State), AllNotices N u →
      AllNotices N (stopReply e c b u).state := by
    intro e c b u hu
    unfold stopReply
    split
    · exact stop _ _ hu
    · exact hu
  cases c with
  | powerOnReset => exact hN.reset false
  | powerOnResetLineLow => exact same _ rfl
  | trunkFrame t w => exact same _ (by simp [Machine.effect, takeTrunkOutcome])
  | channelBlock e r => exact h.deliverBlock hN
  | memoryAccessComplete => exact same _ (by simp [Machine.effect])
  | refreshTimerExpiry =>
    simp only [Machine.effect, refreshExpiry]
    split
    · exact AllNotices.overrun hN (h.congr (by simp))
    · exact same _ (by simp)
  | outputBlockStart => exact same _ (by simp [Machine.effect])
  | outputBlockAssembly => exact h.assembleBlock hN
  | forwardDriveFrame =>
    have h1 : AllNotices N (setTxs (sentForward s.txs) s) := h.congr (by simp)
    exact h1.monitorFrame hN (heardFrame s.txs)
  | reverseDriveFrame w => exact h.takeReverse hN w
  | referenceLockSample l =>
    simp only [Machine.effect, sampleLock]
    generalize (if l = true then _ else 0 : Nat) = q
    split
    · exact same _ (by simp)
    · exact h.commitTxs hN
  | biasTimerExpiry =>
    simp only [Machine.effect, expireBias]
    split
    · exact h.tripOrFurther hN
    · exact h
  | coolTimerExpiry =>
    simp only [Machine.effect, expireCool]
    split
    · exact h.commitTxs hN
    · exact h
  | testExpiry e =>
    simp only [Machine.effect, expireTest]
    split
    · split <;> exact h.commitCtx hN
    · exact h
  | reverseTrunkFrame t => exact h.sendReverse hN t
  | unknownKind =>
    simp only [Machine.effect]
    rcases unknownRequest_cases s with hu | ⟨r, rest, -, -, hu⟩ <;> rw [hu]
    · exact h
    · exact same _ (by simp [respond])
  | restart =>
    simp only [Machine.effect]
    rcases restartRequest_cases s with hu | ⟨r, rest, -, -, hu | hu⟩ <;> rw [hu]
    · exact h
    · exact same _ (by simp [respond])
    · exact hN.reset true
  | identify => exact request _ _ fun b u hu => by simpa using hu
  | getEntry => exact request _ _ fun b u hu => by simpa using hu
  | getSettings => exact request _ _ fun b u hu => by simpa using hu
  | getChannel => exact request _ _ fun b u hu => by simpa using hu
  | getTransmit => exact request _ _ fun b u hu => by simpa using hu
  | getSupervision => exact request _ _ fun b u hu => by simpa using hu
  | setMonitor => exact request _ _ fun b u hu => hu.congr (by simp)
  | putEntry => exact request _ _ fun b u hu => hu.congr (by simp)
  | dropEntry => exact request _ _ fun b u hu => hu.congr (by simp)
  | putSettings => exact request _ _ fun b u hu => hu.congr (by simp)
  | copyActive => exact request _ _ fun b u hu => hu.congr (by simp)
  | apply => exact request _ _ fun b u hu => hu.congr (by simp)
  | cancel => exact request _ _ fun b u hu => hu.congr (by simp)
  | mute =>
    refine request _ _ fun b u hu => onE b u _ hu fun e => ?_
    split
    · exact hu
    · exact hu
    · exact hu.commitCtx hN
  | unmute =>
    refine request _ _ fun b u hu => onE b u _ hu fun e => ?_
    split
    · exact hu.commitCtx hN
    · exact hu.commitCtx hN
    · exact hu
  | forceSource =>
    refine request _ _ fun b u hu => onE b u _ hu fun e => ?_
    split
    · exact hu
    · split
      · exact hu
      · split
        · exact hu
        · split
          · exact hu
          · exact hu.switchSource hN
  | clearFaultEntry =>
    refine request _ _ fun b u hu => onE b u _ hu fun e => ?_
    simp only
    split
    · exact hu
    · exact hu.commitCtx hN
    · exact hu.congr (by simp)
  | key =>
    refine request _ _ fun b u hu => ?_
    unfold actKey
    split
    · exact hu
    · exact hu.commitTxs hN
  | unkey => exact request _ _ fun b u hu => hu.commitTxs hN
  | shutdown => exact request _ _ fun b u hu => hu.tripOrFurther hN
  | clearFaultTransmit =>
    refine request _ _ fun b u hu => ?_
    unfold actClearFaultTransmit
    split
    · exact hu
    · split
      · exact hu
      · exact hu.commitTxs hN
  | testStart =>
    refine request _ _ fun b u hu => onE b u _ hu fun e => ?_
    simp only
    split
    · exact stopR _ _ _ _ hu
    · split
      · exact hu
      · exact hu.commitCtx hN
  | testStop => exact request _ _ fun b u hu => onE b u _ hu fun e => stopR _ _ _ _ hu

end Sys2Proof.Machine
end

