-- ==== Sys2Proof/Laws/Commits.lean ====
section
/-! SUPPORT. What committing a changed context or a changed sequencer does, said once: the whole state after a reported
change, after a quiet one, and after a trip with the tests it stops. -/

namespace Sys2Proof.Machine

open Sys2Proof.Safety

/-! ### Contexts -/

theorem leavesAir_left {o n : Ctx} (h : isContributor n.state = false) : leavesAir o n = isContributor o.state := by
  simp [leavesAir, h]

/-- A reported change into a state that does not contribute: the context with its shed flag cleared if it contributed, a dwell
on it ended, the notice posted. -/
theorem commitCtx_left {e : EntryIx} {n : Ctx} {r : Reason} {s : State} (h1 : reportChanged (ctxAt s e) n = true)
    (h2 : isContributor n.state = false) :
    commitCtx e n r s = reported e { n with shed := n.shed && !isContributor (ctxAt s e).state } r (dwellLeft e s) := by
  have hc : committed (ctxAt s e) n = { n with shed := n.shed && !isContributor (ctxAt s e).state } := by
    unfold committed
    rw [leavesAir_left h2]
    cases h : isContributor (ctxAt s e).state <;> simp
  have hpost : ∀ (u : State) (c : Ctx), postChannel e r (setCtx e c u) = reported e c r u := by
    intro u c
    simp [reported, postChannel, post, setSvc, setCtx, ctxAt, vget, vput]
  unfold commitCtx
  simp only [h1, if_true, hc, leavesAir_left h2]
  by_cases hi : isContributor (ctxAt s e).state = true
  · simp only [hi, if_true]
    have hend : ∀ c, endDwellOn e (setCtx e c s) = setCtx e c (dwellLeft e s) := by
      intro c
      have hm : (setCtx e c s).mon = s.mon := rfl
      unfold endDwellOn dwellLeft
      rw [hm]
      cases s.mon.dwell with
      | none => rfl
      | some d =>
        by_cases hv : d.visited = .entry e
        · simp only [hv, hi, and_self, if_true]
          rfl
        · simp only [hv, false_and, if_false]
    rw [hend, hpost]
  · have hd : dwellLeft e s = s := by
      unfold dwellLeft
      split
      · simp [hi]
      · rfl
    simp only [hi, hd, Bool.false_eq_true, if_false]
    exact hpost _ _

/-- A reported change that keeps a contributor a contributor, or into a contributor state: nothing but the context and the
notice changes. -/
theorem commitCtx_stays {e : EntryIx} {n : Ctx} {r : Reason} {s : State} (h1 : reportChanged (ctxAt s e) n = true)
    (h2 : leavesAir (ctxAt s e) n = false) : commitCtx e n r s = reported e n r s := by
  unfold commitCtx committed
  simp only [h1, h2, if_true, Bool.false_eq_true, if_false]
  simp [reported, postChannel, post, channelContent, setSvc, setCtx, ctxAt, vget, vput]

/-- A change that is not reported and leaves no contributor state: the context alone changes. -/
theorem commitCtx_quiet {e : EntryIx} {n : Ctx} {r : Reason} {s : State} (h1 : reportChanged (ctxAt s e) n = false)
    (h2 : leavesAir (ctxAt s e) n = false) : commitCtx e n r s = { s with ctx := vput s.ctx e n } := by
  unfold commitCtx committed
  simp [h1, h2, setCtx]

/-- Every commit: the context, and of the rest only the dwell and, by a posting of the entry's own notice, the notices. -/
theorem commitCtx_cases (e : EntryIx) (n : Ctx) (r : Reason) (s : State) :
    ∃ m q, commitCtx e n r s =
        setSvc { s.svc with notices := q } (setMon m (setCtx e (committed (ctxAt s e) n) s)) ∧
      (m = s.mon ∨ m = { s.mon with dwell := none }) ∧
      (q = s.svc.notices ∨ q = postNotice (channelContent e (committed (ctxAt s e) n) r) s.svc.notices) ∧
      (reportChanged (ctxAt s e) n = true → q = postNotice (channelContent e (committed (ctxAt s e) n) r) s.svc.notices) := by
  unfold commitCtx
  by_cases hl : leavesAir (ctxAt s e) n = true
  · have hd : endDwellOn e (setCtx e (committed (ctxAt s e) n) s) = setCtx e (committed (ctxAt s e) n) s ∨
        endDwellOn e (setCtx e (committed (ctxAt s e) n) s) = endDwell (setCtx e (committed (ctxAt s e) n) s) := by
      unfold endDwellOn
      split
      · split
        · exact Or.inr rfl
        · exact Or.inl rfl
      · exact Or.inl rfl
    simp only [hl, if_true]
    rcases hd with hd | hd <;> rw [hd] <;> split
    · exact ⟨_, _, rfl, Or.inl rfl, Or.inr (by simp [channelContent, ctxAt, vget, vput, setCtx]),
        fun _ => by simp [channelContent, ctxAt, vget, vput, setCtx]⟩
    · next h => exact ⟨_, _, rfl, Or.inl rfl, Or.inl rfl, fun h' => absurd h' h⟩
    · exact ⟨_, _, rfl, Or.inr rfl, Or.inr (by simp [channelContent, ctxAt, vget, vput, setCtx, endDwell, setMon]),
        fun _ => by simp [channelContent, ctxAt, vget, vput, setCtx, endDwell, setMon]⟩
    · next h => exact ⟨_, _, rfl, Or.inr rfl, Or.inl rfl, fun h' => absurd h' h⟩
  · simp only [hl, Bool.false_eq_true, if_false]
    split
    · exact ⟨_, _, rfl, Or.inl rfl, Or.inr (by simp [channelContent, ctxAt, vget, vput, setCtx]),
        fun _ => by simp [channelContent, ctxAt, vget, vput, setCtx]⟩
    · next h => exact ⟨_, _, rfl, Or.inl rfl, Or.inl rfl, fun h' => absurd h' h⟩

/-- What a dwell on an entry loses when the entry's context leaves the contributor states (R142), by cases. -/
theorem dwellLeft_cases (e : EntryIx) (s : State) :
    (∀ d, s.mon.dwell = some d → d.visited = .entry e → isContributor (ctxAt s e).state = true →
      (dwellLeft e s).mon = { s.mon with dwell := none }) ∧
    ((∀ d, s.mon.dwell = some d → d.visited ≠ .entry e ∨ isContributor (ctxAt s e).state = false) →
      (dwellLeft e s).mon = s.mon) := by
  constructor
  · intro d hd hv hc
    simp [dwellLeft, hd, hv, hc]
  · intro h
    unfold dwellLeft
    split
    · next d hd => rcases h d hd with h | h <;> simp [h]
    · rfl

/-- The monitor after a commit (R142): a dwell on the entry ends exactly when its context leaves the contributor states. -/
theorem commitCtx_mon (e : EntryIx) (n : Ctx) (r : Reason) (s : State) :
    (commitCtx e n r s).mon = if isContributor n.state = true then s.mon else (dwellLeft e s).mon := by
  have hend : (endDwellOn e (setCtx e (committed (ctxAt s e) n) s)).mon =
      if ∃ d, s.mon.dwell = some d ∧ d.visited = .entry e then { s.mon with dwell := none } else s.mon := by
    have hm : (setCtx e (committed (ctxAt s e) n) s).mon = s.mon := rfl
    unfold endDwellOn
    rw [hm]
    cases hd : s.mon.dwell with
    | none => simp
    | some d => by_cases hv : d.visited = .entry e <;> simp [hv, endDwell]
  unfold commitCtx
  cases hn : isContributor n.state <;> cases hc : isContributor (ctxAt s e).state <;>
    simp [leavesAir, hn, hc] <;> split <;> simp only [postChannel_frame, hend, setCtx_mon]
  all_goals
    simp only [dwellLeft, hc]
    cases s.mon.dwell with
    | none => simp
    | some d => by_cases hv : d.visited = .entry e <;> simp [hv]

theorem dwellLeft_congr (e : EntryIx) {s u : State} (hm : u.mon = s.mon) (hc : ctxAt u e = ctxAt s e) :
    (dwellLeft e u).mon = (dwellLeft e s).mon := by
  simp only [dwellLeft, hm, hc]
  cases s.mon.dwell with
  | none => exact hm
  | some d => dsimp only; split <;> simp [hm]

/-- The monitor after a block (R142): a dwell on the entry ends exactly when its context leaves the contributor states. -/
theorem finishBlock_mon (e : EntryIx) (en : Entry) (r : Source) (good : Bool) (b : BlockRecord) (c : Ctx) (s : State) :
    (finishBlock e en r good b c s).mon =
      if isContributor (ctxAt (finishBlock e en r good b c s) e).state = true then s.mon else (dwellLeft e s).mon := by
  have key : ∀ (u : State) (n : Ctx) (rs : Reason), u.mon = s.mon → ctxAt u e = ctxAt s e →
      (commitCtx e n rs u).mon =
        if isContributor (ctxAt (commitCtx e n rs u) e).state = true then s.mon else (dwellLeft e s).mon := by
    intro u n rs hm hc
    obtain ⟨m, q, h, -⟩ := commitCtx_cases e n rs u
    rw [commitCtx_mon, hm, dwellLeft_congr e hm hc, h, ctxAt_setSvc, ctxAt_setMon, ctxAt_setCtx_same, committed_state]
  have hand : (handOn e en b s).mon = s.mon ∧ ctxAt (handOn e en b s) e = ctxAt s e := by simp [ctxAt]
  generalize ht : finishBlock e en r good b c s = t
  unfold finishBlock at ht
  dsimp only at ht
  split at ht
  · have hc : ∀ u : State, ctxAt (voidRead e (flushLine e u)) e = ctxAt u e := by intro u; simp [ctxAt]
    subst ht
    simp only [switchSource, voidRead_frame, flushLine_frame, hc]
    exact key s _ _ rfl rfl
  · split at ht
    · subst ht
      exact key _ _ _ (by split <;> simp) (by split <;> simp [hand])
    · split at ht <;> subst ht
      · exact key _ _ _ hand.1 hand.2
      · exact key _ _ _ rfl rfl

/-- A pending notice of another source than the one posted stays pending. -/
theorem postNotice_other {c : Content} {n : Notice} {q : List Notice} (hn : n ∈ q) (hs : sameSource n.content c = false) :
    n ∈ postNotice c q := by
  unfold postNotice
  split
  · exact List.mem_map.mpr ⟨n, hn, by simp [hs]⟩
  · exact List.mem_append_left _ hn

/-! ### Sequencer -/

theorem airLeft_of_ne {s : State} (h : s.txs.state ≠ .onAir) : airLeft s = s := by simp [airLeft, h]

/-- A change of the sequencer's fields that changes neither its state nor sets the further-faults mark. -/
theorem commitTxs_quiet {x : Txs} {s : State} (h1 : x.state = s.txs.state) (h2 : x.further = true → s.txs.further = true) :
    commitTxs x s = { s with txs := x } := by
  unfold commitTxs
  have : (x.further && !s.txs.further) = false := by
    cases hx : x.further
    · rfl
    · simp [h2 hx]
  simp [h1, this, setTxs]

/-- A newly set further-faults mark (R133, R137). -/
theorem commitTxs_further {x : Txs} {s : State} (h1 : x.state = s.txs.state) (h2 : x.further = true)
    (h3 : s.txs.further = false) : commitTxs x s = sequenced x s := by
  unfold commitTxs
  simp only [h1, h2, h3]
  simp [sequenced, post, setTxs, setSvc]

/-- A change of the sequencer's state other than a trip: a dwell ends with ON_AIR, and TRANSMIT-CHANGED is posted. -/
theorem commitTxs_move {x : Txs} {s : State} (h1 : x.state ≠ s.txs.state) (h2 : x.state ≠ .tripped) :
    commitTxs x s = sequenced x (airLeft s) := by
  unfold commitTxs
  simp only [h2, false_and, if_false]
  rw [if_pos (Or.inl h1.symm)]
  by_cases ho : s.txs.state = .onAir
  · have : x.state ≠ .onAir := ho ▸ h1
    simp only [ho, this, ne_eq, not_false_eq_true, and_self, if_true]
    simp only [sequenced, airLeft, ho, if_true]
    rfl
  · simp only [ho, false_and, if_false, sequenced, airLeft]
    rfl

/-- What the stopping of tests in a list of entries leaves (R153, R155). -/
structure Stopped (l : List EntryIx) (s t : State) : Prop where
  stopped : ∀ e ∈ l, inTest (ctxAt s e).state = true →
    ctxAt t e = { settled (ctxAt s e) with state := .acquire, shed := false } ∧ Notified e .test t
  others  : ∀ e, (e ∉ l ∨ inTest (ctxAt s e).state = false) → ctxAt t e = ctxAt s e
  notices : ∀ n ∈ s.svc.notices, (∀ e ∈ l, sourceOf n.content ≠ .channel e) → n ∈ t.svc.notices
  monitor : t.mon = s.mon ∨ t.mon = { s.mon with dwell := none }
  ended   : ∀ d e, s.mon.dwell = some d → d.visited = .entry e → e ∈ l → inTest (ctxAt s e).state = true → t.mon.dwell = none
  kept    : (∀ d e, s.mon.dwell = some d → d.visited = .entry e → e ∉ l ∨ inTest (ctxAt s e).state = false) → t.mon = s.mon
  frame   : t.pending = s.pending ∧ t.inReset = s.inReset ∧ t.rtA = s.rtA ∧ t.rtB = s.rtB ∧ t.ext = s.ext ∧ t.pln = s.pln ∧
    t.dst = s.dst ∧ t.cmb = s.cmb ∧ t.txs = s.txs ∧ t.free = s.free
  queue   : t.svc.queue = s.svc.queue ∧ t.svc.lost = s.svc.lost

theorem stopTest_stopped (e : EntryIx) (s : State) : Stopped [e] s (stopTest e s) := by
  unfold stopTest
  split
  · next h =>
    obtain ⟨m, q, hc, hm, -, hq⟩ := commitCtx_cases e (toAcquire (ctxAt s e)) .test s
    have hcon : isContributor (ctxAt s e).state = true := by
      revert h
      cases (ctxAt s e).state <;> simp [inTest, isContributor]
    have hcom : committed (ctxAt s e) (toAcquire (ctxAt s e)) =
        { settled (ctxAt s e) with state := .acquire, shed := false } := by
      have : leavesAir (ctxAt s e) (toAcquire (ctxAt s e)) = true := by
        rw [leavesAir_left rfl, hcon]
      unfold committed
      rw [if_pos this]
      rfl
    have hrep : reportChanged (ctxAt s e) (toAcquire (ctxAt s e)) = true := by
      revert h
      cases hs : (ctxAt s e).state <;> simp [inTest, reportChanged, stateName, toAcquire, hs]
    have hq := hq hrep
    have hmon := commitCtx_mon e (toAcquire (ctxAt s e)) .test s
    rw [hc] at hmon
    have hmon : m = (dwellLeft e s).mon := hmon
    rw [hc, hcom]
    rw [hcom] at hq
    subst hq
    refine ⟨?_, ?_, ?_, ?_, ?_, ?_, by simp, rfl, rfl⟩
    · intro f hf _
      obtain rfl : f = e := by simpa using hf
      refine ⟨by rw [ctxAt_setSvc, ctxAt_setMon, ctxAt_setCtx_same], ?_⟩
      unfold Notified
      rw [ctxAt_setSvc, ctxAt_setMon, ctxAt_setCtx_same]
      exact postNotice_mem _ _
    · intro f hf
      have : f ≠ e := by
        rintro rfl
        rcases hf with hf | hf
        · simp at hf
        · simp [h] at hf
      have hne : e.val ≠ f.val := fun hv => this (Fin.ext hv.symm)
      simp [ctxAt, vget, vput, hne]
    · intro n hn hs
      exact postNotice_other hn (by simpa [sameSource, sourceOf, channelContent] using hs e (by simp))
    · exact hm
    · intro d f hd hv hf _
      obtain rfl : f = e := by simpa using hf
      have := congrArg Mon.dwell ((dwellLeft_cases f s).1 d hd hv hcon)
      exact (congrArg Mon.dwell hmon).trans this
    · intro hk
      refine hmon.trans ((dwellLeft_cases e s).2 fun d hd => ?_)
      by_cases hv : d.visited = .entry e
      · rcases hk d e hd hv with h' | h'
        · simp at h'
        · simp [h] at h'
      · exact Or.inl hv
  · next h =>
    refine ⟨?_, fun _ _ => rfl, fun _ hn _ => hn, Or.inl rfl, ?_, fun _ => rfl, by simp, rfl, rfl⟩
    · intro f hf ht
      obtain rfl : f = e := by simpa using hf
      exact absurd ht h
    · intro d f _ _ hf ht
      obtain rfl : f = e := by simpa using hf
      exact absurd ht h

theorem foldl_stopTest_stopped : ∀ (l : List EntryIx), l.Nodup → ∀ s : State,
    Stopped l s (l.foldl (fun s e => stopTest e s) s)
  | [], _, s => ⟨by simp, fun _ _ => rfl, fun _ hn _ => hn, Or.inl rfl, by simp, fun _ => rfl, by simp, rfl, rfl⟩
  | e :: rest, hd, s => by
    obtain ⟨he, hrest⟩ := List.nodup_cons.mp hd
    have h1 := stopTest_stopped e s
    have h2 := foldl_stopTest_stopped rest hrest (stopTest e s)
    simp only [List.foldl_cons]
    have hsame : ∀ f, f ≠ e → ctxAt (stopTest e s) f = ctxAt s f := fun f hf => h1.others f (Or.inl (by simpa using hf))
    refine ⟨?_, ?_, ?_, ?_, ?_, ?_, ?_, h2.queue.1.trans h1.queue.1, h2.queue.2.trans h1.queue.2⟩
    · intro f hf ht
      rcases List.mem_cons.mp hf with rfl | hf
      · obtain ⟨hc, hn⟩ := h1.stopped f (by simp) ht
        have hstay := h2.others f (Or.inl he)
        refine ⟨hstay.trans hc, ?_⟩
        unfold Notified at hn ⊢
        rw [hstay]
        refine h2.notices _ hn fun g hg hs => ?_
        have : f = g := by simpa [sourceOf, channelContent] using hs
        exact he (this ▸ hg)
      · have hne : f ≠ e := fun h => he (h ▸ hf)
        have := h2.stopped f hf (by rw [hsame f hne]; exact ht)
        rw [hsame f hne] at this
        exact this
    · intro f hf
      by_cases hfe : f = e
      · subst hfe
        rw [h2.others f (Or.inl he)]
        refine h1.others f ?_
        rcases hf with hf | hf
        · exact absurd (List.mem_cons_self) hf
        · exact Or.inr hf
      · have := hsame f hfe
        rw [h2.others f ?_, this]
        rcases hf with hf | hf
        · exact Or.inl fun h => hf (List.mem_cons_of_mem _ h)
        · exact Or.inr (this ▸ hf)
    · intro n hn hs
      exact h2.notices _ (h1.notices n hn fun f hf => hs f (by simpa using Or.inl (by simpa using hf)))
        fun f hf => hs f (List.mem_cons_of_mem _ hf)
    · rcases h1.monitor with h | h <;> rcases h2.monitor with h' | h' <;> rw [h', h] <;> simp
    · intro d f hw hv hf ht
      by_cases hfe : f = e
      · subst hfe
        have h := h1.ended d f hw hv (by simp) ht
        rcases h2.monitor with h' | h' <;> rw [h']
        exact h
      · have hmem : f ∈ rest := (List.mem_cons.mp hf).resolve_left hfe
        rcases h1.monitor with h | h
        · exact h2.ended d f (by rw [h]; exact hw) hv hmem (by rw [hsame f hfe]; exact ht)
        · rcases h2.monitor with h' | h' <;> rw [h', h]
    · intro hk
      have h := h1.kept fun d f hw hv => by
        rcases hk d f hw hv with h | h
        · exact Or.inl fun hm => h (by simp at hm; simp [hm])
        · exact Or.inr h
      refine (h2.kept fun d f hw hv => ?_).trans h
      rw [h] at hw
      by_cases hfe : f = e
      · exact Or.inl (hfe ▸ he)
      · rw [hsame f hfe]
        rcases hk d f hw hv with h' | h'
        · exact Or.inl fun hm => h' (List.mem_cons_of_mem _ hm)
        · exact Or.inr h'
    · have a := h1.frame
      have b := h2.frame
      simp only [b, a, and_self]

/-- A trip (R132, R137, R139, R155): the sequencer, its notice, the end of a dwell, and the tests stopped. -/
theorem commitTxs_trip {x : Txs} {s : State} (h1 : x.state = .tripped) (h2 : s.txs.state ≠ .tripped) :
    ∃ u, Stopped (if s.pln.activeSettings.testStops = true then entries else []) u (commitTxs x s) ∧
      u = sequenced x (airLeft s) := by
  have hne : s.txs.state ≠ x.state := by rw [h1]; exact h2
  refine ⟨_, ?_, rfl⟩
  have hu : ∀ u : State, u = sequenced x (airLeft s) → u.pln = s.pln →
      Stopped (if s.pln.activeSettings.testStops = true then entries else []) u (endTestsOnTrip u) := by
    intro u _ hp
    unfold endTestsOnTrip
    rw [hp]
    split
    · exact foldl_stopTest_stopped _ (List.nodup_finRange 16) u
    · exact foldl_stopTest_stopped [] List.nodup_nil u
  have hs : commitTxs x s = endTestsOnTrip (sequenced x (airLeft s)) := by
    unfold commitTxs
    simp only [h1, h2, ne_eq, not_false_eq_true, true_or, if_true, and_self, reduceCtorEq, and_true]
    by_cases ho : s.txs.state = .onAir
    · simp only [ho, if_true]
      simp only [sequenced, airLeft, ho, if_true]
      rfl
    · simp only [ho, if_false, sequenced, airLeft]
      rfl
  rw [hs]
  refine hu _ rfl ?_
  simp only [sequenced, airLeft]
  split <;> rfl

/-- A trip in the words of the claims. -/
theorem commitTxs_tripTo {c : Trip} {x : Txs} {s : State} (h : s.txs.state ≠ .tripped) :
    TripTo c x s (commitTxs (toTripped c x) s) := by
  obtain ⟨u, hu, rfl⟩ := commitTxs_trip (x := toTripped c x) (s := s) rfl h
  have hc : ∀ e, ctxAt (sequenced (toTripped c x) (airLeft s)) e = ctxAt s e := by
    intro e
    simp only [sequenced, airLeft]
    split <;> rfl
  have hf := hu.frame
  have htxs : (commitTxs (toTripped c x) s).txs = trippedTxs c x := hf.2.2.2.2.2.2.2.2.1.trans rfl
  have hmem : ∀ (e : EntryIx) (b : Bool), e ∈ (if b = true then entries else []) ↔ b = true := by
    intro e b
    cases b <;> simp [entries]
  have htest : ∀ c : CtxState, inTest c = true ↔ ∃ n l, c = .test n l := by
    intro c
    cases c <;> simp [inTest]
  have hmon : (sequenced (toTripped c x) (airLeft s)).mon = (airLeft s).mon := rfl
  refine ⟨htxs, ?_, ?_, ?_, ?_, ?_, ?_, ?_, ?_⟩
  · rw [htxs]
    refine hu.notices _ ?_ fun e _ => by simp [transmitContent, sourceOf]
    exact postNotice_mem _ _
  · intro ho
    rcases hu.monitor with h' | h' <;> rw [h']
    simp [sequenced, airLeft, ho]
  · have : (sequenced (toTripped c x) (airLeft s)).mon = s.mon ∨
        (sequenced (toTripped c x) (airLeft s)).mon = { s.mon with dwell := none } := by
      simp only [sequenced, airLeft]
      split
      · exact Or.inr rfl
      · exact Or.inl rfl
    rcases hu.monitor with h' | h' <;> rcases this with h'' | h'' <;> rw [h', h'']
  · intro d e hd hv ht hi
    by_cases ho : s.txs.state = .onAir
    · rcases hu.monitor with h' | h' <;> rw [h']
      simp [sequenced, airLeft, ho]
    · refine hu.ended d e ?_ hv ((hmem e _).mpr ht) (by rw [hc]; exact (htest _).mpr hi)
      rw [hmon, airLeft_of_ne ho]
      exact hd
  · intro ho hk
    refine (hu.kept fun d e hd hv => ?_).trans (hmon.trans (congrArg State.mon (airLeft_of_ne ho)))
    rw [hmon, airLeft_of_ne ho] at hd
    rcases hk d e hd hv with h | h
    · exact Or.inl fun hm => by simp [(hmem e _).mp hm] at h
    · right
      rw [hc]
      cases hi : inTest (ctxAt s e).state
      · rfl
      · obtain ⟨n, l, hn⟩ := (htest _).mp hi
        exact absurd hn (h n l)
  · intro e ht hi
    have := hu.stopped e ((hmem e _).mpr ht) (by rw [hc]; exact (htest _).mpr hi)
    rw [hc] at this
    exact this
  · intro e ho
    rw [hu.others e, hc]
    rcases ho with ho | ho
    · left
      rw [hmem, ho]
      simp
    · right
      rw [hc]
      cases hi : inTest (ctxAt s e).state
      · rfl
      · obtain ⟨n, l, hn⟩ := (htest _).mp hi
        exact absurd hn (ho n l)
  · have ha : (airLeft s) = { s with mon := (airLeft s).mon } := by
      simp only [airLeft]
      split <;> rfl
    rw [hu.queue.1, hu.queue.2, hf.1, hf.2.1, hf.2.2.1, hf.2.2.2.1, hf.2.2.2.2.1, hf.2.2.2.2.2.1, hf.2.2.2.2.2.2.1,
      hf.2.2.2.2.2.2.2.1, hf.2.2.2.2.2.2.2.2.2, ha]
    simp [sequenced]

end Sys2Proof.Machine
end

