-- ==== Sys2Proof/Laws/Fields.lean ====
section
/-! SUPPORT. Fields of bytes: a field read at an offset, and the value that a field written reads back with. -/

namespace Sys2Proof.Machine

/-! ### Reading at an offset -/

theorem byteAt_zero (x : Byte) (l : List Byte) : byteAt (x :: l) 0 = x := rfl

theorem byteAt_succ (x : Byte) (l : List Byte) (i : Nat) : byteAt (x :: l) (i + 1) = byteAt l i := by simp [byteAt]

theorem u8_zero (x : Byte) (l : List Byte) : u8 (x :: l) 0 = x.toNat := rfl

theorem u8_succ (x : Byte) (l : List Byte) (i : Nat) : u8 (x :: l) (i + 1) = u8 l i := by simp [u8, byteAt]

theorem byteAt_drop (b : List Byte) (n i : Nat) : byteAt (b.drop n) i = byteAt b (n + i) := by
  simp [byteAt, List.getD, List.getElem?_drop]

theorem u8_drop (b : List Byte) (n i : Nat) : u8 (b.drop n) i = u8 b (n + i) := congrArg BitVec.toNat (byteAt_drop b n i)

theorem s16_drop (b : List Byte) (n i : Nat) : s16 (b.drop n) i = s16 b (n + i) := by
  simp [s16, u16, u8_drop, Nat.add_assoc]

/-! ### Reading back what a field holds (R171) -/

theorem u8_field8 (n : Nat) (l : List Byte) : u8 (field8 n ++ l) 0 = min n 255 := by simp [field8, u8_zero]

theorem u16_field16 (n : Nat) (l : List Byte) : u16 (field16 n ++ l) 0 = min n 65535 := by
  simp only [field16, List.cons_append, List.nil_append, u16, u8_zero, u8_succ, BitVec.toNat_ofNat]
  omega

theorem signed_field (i : Int) :
    signed 16 (min 65535 ((max (-32768) (min i 32767)) % 65536).toNat) = max (-32768) (min 32767 i) := by
  simp only [signed]
  split <;> omega

theorem s16_fieldS16 (i : Int) (l : List Byte) : s16 (fieldS16 i ++ l) 0 = max (-32768) (min 32767 i) := by
  rw [s16, fieldS16, u16_field16, Nat.min_comm, signed_field]

/-! ### Samples -/

theorem readSamples_length (n : Nat) (b : List Byte) : (readSamples n b).length = n := by
  induction n generalizing b with
  | zero => rfl
  | succ n ih => simp [readSamples, ih]

/-- Sample `k` of a byte list stands at offset `4 * k`. -/
theorem readSamples_getElem? (n : Nat) (b : List Byte) (k : Nat) (h : k < n) :
    (readSamples n b)[k]? = some ⟨s16 b (4 * k), s16 b (4 * k + 2)⟩ := by
  induction n generalizing b k with
  | zero => omega
  | succ n ih =>
    cases k with
    | zero => simp [readSamples, sampleAt]
    | succ k =>
      simp only [readSamples, List.getElem?_cons_succ]
      rw [ih _ _ (by omega), s16_drop, s16_drop]
      congr 3 <;> omega

end Sys2Proof.Machine
end

