-- ==== Sys2Proof/Laws/Requests.lean ====
section
/-! SUPPORT. Requests in the words of the claims: what an owning block does does not depend on the request queue, so the answer
to a request is the answer to it in the state as it stood. -/

namespace Sys2Proof.Machine

open Sys2Proof.Safety

/-- A state with its request queue replaced. -/
def withQueue (l : List Request) (s : State) : State := setSvc { s.svc with queue := l } s

@[simp] theorem withQueue_inReset (l : List Request) (s : State) : (withQueue l s).inReset = s.inReset := rfl
@[simp] theorem withQueue_rtA (l : List Request) (s : State) : (withQueue l s).rtA = s.rtA := rfl
@[simp] theorem withQueue_rtB (l : List Request) (s : State) : (withQueue l s).rtB = s.rtB := rfl
@[simp] theorem withQueue_ext (l : List Request) (s : State) : (withQueue l s).ext = s.ext := rfl
@[simp] theorem withQueue_pln (l : List Request) (s : State) : (withQueue l s).pln = s.pln := rfl
@[simp] theorem withQueue_ctx (l : List Request) (s : State) : (withQueue l s).ctx = s.ctx := rfl
@[simp] theorem withQueue_dst (l : List Request) (s : State) : (withQueue l s).dst = s.dst := rfl
@[simp] theorem withQueue_cmb (l : List Request) (s : State) : (withQueue l s).cmb = s.cmb := rfl
@[simp] theorem withQueue_txs (l : List Request) (s : State) : (withQueue l s).txs = s.txs := rfl
@[simp] theorem withQueue_mon (l : List Request) (s : State) : (withQueue l s).mon = s.mon := rfl
@[simp] theorem withQueue_pending (l : List Request) (s : State) : (withQueue l s).pending = s.pending := rfl
@[simp] theorem withQueue_free (l : List Request) (s : State) : (withQueue l s).free = s.free := rfl
@[simp] theorem withQueue_queue (l : List Request) (s : State) : (withQueue l s).svc.queue = l := rfl
@[simp] theorem withQueue_lost (l : List Request) (s : State) : (withQueue l s).svc.lost = s.svc.lost := rfl
@[simp] theorem withQueue_notices (l : List Request) (s : State) : (withQueue l s).svc.notices = s.svc.notices := rfl
@[simp] theorem withQueue_ctxAt (l : List Request) (s : State) (e : EntryIx) : ctxAt (withQueue l s) e = ctxAt s e := rfl
@[simp] theorem withQueue_activeAt (l : List Request) (s : State) (e : EntryIx) : activeAt (withQueue l s) e = activeAt s e := rfl
@[simp] theorem withQueue_lineAt (l : List Request) (s : State) (e : EntryIx) : lineAt (withQueue l s) e = lineAt s e := rfl
@[simp] theorem withQueue_portOf (l : List Request) (s : State) (t : Trunk) : portOf (withQueue l s) t = portOf s t := by
  cases t <;> rfl

/-! ### Operations and the queue -/

theorem endDwellOn_withQueue (e : EntryIx) (l : List Request) (s : State) :
    endDwellOn e (withQueue l s) = withQueue l (endDwellOn e s) := by
  have hm : (withQueue l s).mon = s.mon := rfl
  unfold endDwellOn
  rw [hm]
  cases s.mon.dwell with
  | none => rfl
  | some d =>
    by_cases h : d.visited = .entry e
    · simp only [h, if_true]
      rfl
    · simp only [h, if_false]

theorem commitCtx_withQueue (e : EntryIx) (n : Ctx) (r : Reason) (l : List Request) (s : State) :
    commitCtx e n r (withQueue l s) = withQueue l (commitCtx e n r s) := by
  have hc : ctxAt (withQueue l s) e = ctxAt s e := rfl
  unfold commitCtx
  simp only [hc]
  have hs : setCtx e (committed (ctxAt s e) n) (withQueue l s) = withQueue l (setCtx e (committed (ctxAt s e) n) s) := rfl
  rw [hs, endDwellOn_withQueue]
  have hp : ∀ u, postChannel e r (withQueue l u) = withQueue l (postChannel e r u) := fun _ => rfl
  split <;> split <;> simp only [hp]

theorem stopTest_withQueue (e : EntryIx) (l : List Request) (s : State) :
    stopTest e (withQueue l s) = withQueue l (stopTest e s) := by
  have hc : ctxAt (withQueue l s) e = ctxAt s e := rfl
  unfold stopTest
  rw [hc]
  split
  · exact commitCtx_withQueue _ _ _ _ _
  · rfl

theorem endTestsOnTrip_withQueue (l : List Request) (s : State) :
    endTestsOnTrip (withQueue l s) = withQueue l (endTestsOnTrip s) := by
  have hfold : ∀ (es : List EntryIx) (u : State), es.foldl (fun s e => stopTest e s) (withQueue l u) =
      withQueue l (es.foldl (fun s e => stopTest e s) u) := by
    intro es
    induction es with
    | nil => exact fun _ => rfl
    | cons e es ih =>
      intro u
      simp only [List.foldl_cons]
      rw [stopTest_withQueue, ih]
  have hp : (withQueue l s).pln = s.pln := rfl
  unfold endTestsOnTrip
  rw [hp]
  split
  · exact hfold _ _
  · rfl

theorem commitTxs_withQueue (x : Txs) (l : List Request) (s : State) :
    commitTxs x (withQueue l s) = withQueue l (commitTxs x s) := by
  have ht : (withQueue l s).txs = s.txs := rfl
  have h1 : setTxs x (withQueue l s) = withQueue l (setTxs x s) := rfl
  have h2 : ∀ u, endDwell (withQueue l u) = withQueue l (endDwell u) := fun _ => rfl
  have h3 : ∀ u, post (transmitContent x) (withQueue l u) = withQueue l (post (transmitContent x) u) := fun _ => rfl
  unfold commitTxs
  simp only [ht, h1]
  split <;> split <;> split <;> simp only [h2, h3, endTestsOnTrip_withQueue]

theorem flushLine_withQueue (e : EntryIx) (l : List Request) (s : State) :
    flushLine e (withQueue l s) = withQueue l (flushLine e s) := by
  have hd : ∀ (u : State), dropReads e (withQueue l u) = withQueue l (dropReads e u) := by
    intro u
    have : (withQueue l u).dst = u.dst := rfl
    unfold dropReads
    rw [this]
    split <;> rfl
  have hl : lineAt (withQueue l s) e = lineAt s e := rfl
  unfold flushLine
  rw [hl]
  cases lineAt s e with
  | none => rfl
  | some x => exact hd (setDst (removeWrites (fun w => w.entry == e) (setLine e (some (lineFlush x)) s.dst)) s)

theorem voidRead_withQueue (e : EntryIx) (l : List Request) (s : State) :
    voidRead e (withQueue l s) = withQueue l (voidRead e s) := by
  have hc : (withQueue l s).cmb = s.cmb := rfl
  unfold voidRead
  rw [hc]
  cases s.cmb.course with
  | none => rfl
  | some o =>
    by_cases h : vget o.answers e = .unread
    · simp [h]
    · simp [h]; rfl

/-! ### The answer -/

theorem answered_eq (r : Request) (rest : List Request) (st : Status) (b : List Byte) (s : State) :
    answered r rest st b s = respond r st b (withQueue rest s) := by
  unfold answered respond responseTo
  cases r.trunk <;> rfl

/-- A request that SVC executes is answered as its owning block acts on the state as it stood. -/
theorem exec_serves {k : Kind} {s : State} {r : Request} {rest : List Request} (h : Serves k s r rest) {c : Instr}
    {act : List Byte → State → Reply} (hc : effect c = execRequest k act) {st : Status} {b : List Byte} {u : State}
    (hu : act r.body (withQueue rest s) = ⟨st, b, withQueue rest u⟩) : exec c s = .next (answered r rest st b u) := by
  rw [exec_released h.released, hc, execRequest_serves h.front h.outbox h.kind h.length, answered_eq]
  have : setSvc { s.svc with queue := rest } s = withQueue rest s := rfl
  rw [this, hu]

end Sys2Proof.Machine
end

