-- ==== Sys2Proof/Laws/Store.lean ====
section
/-! SUPPORT. The delay store: the basic laws of the DRAM and of the gap marks, that every operation keeps their canonical form,
and which conditions on the store every command keeps. -/

namespace Sys2Proof.Machine

/-! ### The DRAM: a read after a write (R86, R90) -/

theorem find_insertCell_same (a : Nat) (r : BlockRecord) (l : List (Nat × BlockRecord)) :
    (insertCell a r l).find? (fun p => p.1 == a) = some (a, r) := by
  induction l with
  | nil => simp [insertCell]
  | cons p rest ih =>
    obtain ⟨b, x⟩ := p
    unfold insertCell
    split
    · simp
    · split
      · simp
      · next h => simp [Ne.symm h, ih]

theorem find_insertCell_other {a b : Nat} (r : BlockRecord) (l : List (Nat × BlockRecord)) (h : b ≠ a) :
    (insertCell a r l).find? (fun p => p.1 == b) = l.find? (fun p => p.1 == b) := by
  induction l with
  | nil => simp [insertCell, Ne.symm h]
  | cons p rest ih =>
    obtain ⟨c, x⟩ := p
    unfold insertCell
    split
    · simp [Ne.symm h]
    · split
      · next hc => subst hc; simp [Ne.symm h]
      · by_cases hcb : c = b
        · simp [hcb]
        · simp [hcb, ih]

/-- A read after a write to the same record position gives the record written. -/
@[simp] theorem dramRead_dramWrite_same (a : Nat) (r : BlockRecord) (d : Dst) : dramRead (dramWrite a r d) a = r := by
  simp [dramRead, dramWrite, find_insertCell_same]

/-- A write leaves every other record position as it was. -/
@[simp] theorem dramRead_dramWrite_other {a b : Nat} (r : BlockRecord) (d : Dst) (h : b ≠ a) :
    dramRead (dramWrite a r d) b = dramRead d b := by
  simp [dramRead, dramWrite, find_insertCell_other r d.dram h]

/-- What the DRAM reads depends on its contents alone. -/
theorem dramRead_congr {c d : Dst} (h : c.dram = d.dram) (a : Nat) : dramRead c a = dramRead d a := by
  simp [dramRead, h]

theorem mem_insertMark (m n : Nat) (l : List Nat) : n ∈ insertMark m l ↔ n = m ∨ n ∈ l := by
  induction l with
  | nil => simp [insertMark]
  | cons a rest ih =>
    unfold insertMark
    split
    · simp
    · split
      · next h => subst h; simp
      · simp only [List.mem_cons, ih]; tauto

theorem mem_clearGapMark (m n : Nat) (d : Dst) : n ∈ (clearGapMark m d).gapMarks ↔ n ≠ m ∧ n ∈ d.gapMarks := by
  simp [clearGapMark, and_comm]

/-! ### The canonical form -/

theorem insertMark_sorted {m : Nat} {l : List Nat} (h : l.Pairwise (· < ·)) : (insertMark m l).Pairwise (· < ·) := by
  induction l with
  | nil => simp [insertMark]
  | cons a rest ih =>
    obtain ⟨ha, hr⟩ := List.pairwise_cons.mp h
    unfold insertMark
    split
    · next hlt =>
      refine List.pairwise_cons.mpr ⟨fun b hb => ?_, h⟩
      rcases List.mem_cons.mp hb with rfl | hb
      · exact hlt
      · exact hlt.trans (ha b hb)
    · split
      · exact h
      · next hlt hne =>
        refine List.pairwise_cons.mpr ⟨fun b hb => ?_, ih hr⟩
        rcases (mem_insertMark m b rest).mp hb with rfl | hb
        · omega
        · exact ha b hb

theorem insertCell_keys (a : Nat) (r : BlockRecord) (l : List (Nat × BlockRecord)) :
    (insertCell a r l).map Prod.fst = insertMark a (l.map Prod.fst) := by
  induction l with
  | nil => rfl
  | cons p rest ih =>
    obtain ⟨b, x⟩ := p
    simp only [insertCell, List.map_cons, insertMark]
    split
    · rfl
    · split
      · next h => subst h; rfl
      · simp [ih]

theorem dramWf_iff (d : Dst) :
    dramWf d = true ↔ (d.dram.map Prod.fst).Pairwise (· < ·) ∧ d.gapMarks.Pairwise (· < ·) := by
  simp [dramWf]

/-- The form holds of what has the same contents. -/
theorem dramWf_congr {c d : Dst} (h1 : c.dram = d.dram) (h2 : c.gapMarks = d.gapMarks) : dramWf c = dramWf d := by
  simp [dramWf, h1, h2]

theorem dramWrite_wf {a : Nat} {r : BlockRecord} {d : Dst} (h : dramWf d = true) : dramWf (dramWrite a r d) = true := by
  rw [dramWf_iff] at h ⊢
  exact ⟨by rw [dramWrite, insertCell_keys]; exact insertMark_sorted h.1, h.2⟩

theorem setGapMark_wf {a : Nat} {d : Dst} (h : dramWf d = true) : dramWf (setGapMark a d) = true := by
  rw [dramWf_iff] at h ⊢
  exact ⟨h.1, insertMark_sorted h.2⟩

theorem clearGapMark_wf {a : Nat} {d : Dst} (h : dramWf d = true) : dramWf (clearGapMark a d) = true := by
  rw [dramWf_iff] at h ⊢
  exact ⟨h.1, h.2.sublist List.filter_sublist⟩

/-- The memory of the part right after reset is in canonical form. -/
theorem reset_dramWf : dramWf State.reset.dst = true := by decide

/-! ### Conditions on the store -/

/-- A condition on the delay store that the elementary changes keep. -/
structure StoreClosed (D : Dst → Prop) : Prop where
  book   : ∀ d p b n g o m, D d →
    D { d with port := p, refreshPending := b, refreshPeriod := n, gapCounts := g, overruns := o, pageMap := m }
  writes : ∀ d w, (w.length ≤ 32 ∨ w.length ≤ d.writes.length) → D d → D { d with writes := w }
  reads  : ∀ d r, (r.length ≤ 16 ∨ r.length ≤ d.reads.length) → D d → D { d with reads := r }
  line   : ∀ d e l, (∀ x, l = some x → x.fill ≤ lineCapacity x ∨
      ∃ y, vget d.lines e = some y ∧ x.fill ≤ y.fill ∧ y.pages = x.pages) → D d → D (setLine e l d)
  memory : ∀ d a r, D d → D (dramWrite a r d)
  mark   : ∀ d a, D d → D (setGapMark a d)
  clear  : ∀ d a, D d → D (clearGapMark a d)
  start  : D Dst.powerOn

variable {D : Dst → Prop}

theorem StoreClosed.port (h : StoreClosed D) {d : Dst} (p : PortUse) (b : Bool) (hd : D d) :
    D { d with port := p, refreshPending := b } := h.book d p b d.refreshPeriod d.gapCounts d.overruns d.pageMap hd

theorem StoreClosed.grant (h : StoreClosed D) {d : Dst} (hd : D d) : D (grant d) := by
  unfold Machine.grant
  split
  · split
    · exact h.port _ _ hd
    · split
      · exact h.port _ d.refreshPending hd
      · split
        · exact h.port _ d.refreshPending hd
        · exact hd
  · exact hd

theorem StoreClosed.removeWrites (h : StoreClosed D) {d : Dst} (p : WriteReq → Bool) (hd : D d) : D (removeWrites p d) :=
  h.port _ d.refreshPending (h.writes d _ (Or.inr (List.length_filter_le _ _)) hd)

theorem StoreClosed.removeReads (h : StoreClosed D) {d : Dst} (p : ReadReq → Bool) (hd : D d) : D (removeReads p d) :=
  h.port _ d.refreshPending (h.reads d _ (Or.inr (List.length_filter_le _ _)) hd)

theorem StoreClosed.dropReads (h : StoreClosed D) {s : State} (e : EntryIx) (hs : D s.dst) : D (dropReads e s).dst := by
  unfold Machine.dropReads
  split
  · exact h.removeReads _ hs
  · exact hs

theorem StoreClosed.flushLine (h : StoreClosed D) {s : State} (e : EntryIx) (hs : D s.dst) : D (flushLine e s).dst := by
  unfold Machine.flushLine
  split
  · exact hs
  · next l hl =>
    refine h.dropReads e (h.removeWrites _ (h.line _ _ _ ?_ hs))
    rintro x hx
    cases hx
    left
    simp [lineFlush]

theorem StoreClosed.switchSource (h : StoreClosed D) {s : State} (e : EntryIx) (f : Bool) (r : Reason) (c : Ctx)
    (hs : D s.dst) : D (switchSource e f r c s).dst := by
  simpa [Machine.switchSource] using h.flushLine e (s := commitCtx e (switched f c) r s) (by simpa using hs)

theorem StoreClosed.flushAll (h : StoreClosed D) {s : State} (hs : D s.dst) : D (flushAll s).dst :=
  h.removeWrites _ (foldl_keeps (fun s e => Machine.dropReads e (Machine.flushLine e s)) (fun s : State => D s.dst)
    (fun _ e hb => h.dropReads e (h.flushLine e hb)) entries s hs)

theorem StoreClosed.acceptRecord (h : StoreClosed D) {d : Dst} {e : EntryIx} {l : Line} (w : Nat) (r : BlockRecord)
    (hl : vget d.lines e = some l) (hd : D d) : D (acceptRecord e l w r d) := by
  simp only [Machine.acceptRecord]
  have hrem : ∀ p, D (Machine.removeWrites p d) := fun p => h.removeWrites p hd
  split
  · next hlt =>
    refine h.grant (h.writes _ _ (Or.inl ?_) (h.line _ _ _ ?_ (hrem _)))
    · simp only [setLine, Machine.removeWrites, List.length_append, List.length_singleton]
      have := List.length_filter_le (fun x => !(x.entry == e && x.cell == lineCell l l.writePos)) d.writes
      omega
    · rintro x hx
      cases hx
      exact Or.inr ⟨l, hl, le_refl _, rfl⟩
  · refine h.book _ _ _ _ _ _ _ (h.mark _ _ (h.line _ _ _ ?_ (hrem _)))
    rintro x hx
    cases hx
    left
    simp [lineFill, lineAccept, lineCapacity]

theorem StoreClosed.handOn (h : StoreClosed D) {s : State} (e : EntryIx) (en : Entry) (r : BlockRecord) (hs : D s.dst) :
    D (handOn e en r s).dst := by
  unfold Machine.handOn
  split
  · exact hs
  · split
    · next l hl => exact h.acceptRecord _ _ hl hs
    · exact hs

theorem StoreClosed.deliverBlock (h : StoreClosed D) {s : State} (e : EntryIx) (r : Source) (hs : D s.dst) :
    D (deliverBlock e r s).dst := by
  have hfin : ∀ (en : Entry) (g : Bool) (b : BlockRecord) (c : Ctx) (u : State), D u.dst → D (finishBlock e en r g b c u).dst := by
    intro en g b c u hu
    simp only [finishBlock]
    split
    · exact h.switchSource e _ _ _ hu
    · have hand : ∀ (p : Bool) (x : State), (if p = true then Machine.handOn e en b u else u) = x → D x.dst := by
        rintro p x rfl
        cases p
        · exact hu
        · exact h.handOn e en b hu
      generalize hx : (if (r == c.source) = true then Machine.handOn e en b u else u) = x
      have hx := hand _ _ hx
      split
      · simpa using hx
      · split <;> simpa using hx
  unfold Machine.deliverBlock
  split
  · exact hs
  · simp only
    split
    · exact hs
    · split
      · exact hs
      · simp only [takeBlock]
        split <;> exact hfin _ _ _ _ _ hs

theorem StoreClosed.completeWrite (h : StoreClosed D) {d : Dst} (hd : D d) : D (completeWrite d) := by
  unfold Machine.completeWrite
  split
  · exact hd
  · next w rest hw =>
    split
    · exact h.writes _ _ (Or.inr (by simp [hw])) hd
    · have h1 : D (clearGapMark w.cell (dramWrite w.cell w.record { d with writes := rest })) :=
        h.clear _ _ (h.memory _ _ _ (h.writes _ _ (Or.inr (by simp [hw])) hd))
      simp only
      split
      · next l hl =>
        refine h.line _ _ _ ?_ h1
        rintro x hx
        cases hx
        left
        simp [lineFill, lineCapacity]
      · exact h1

theorem StoreClosed.completeAccess (h : StoreClosed D) {s : State} (hs : D s.dst) : D (completeAccess s).dst := by
  have hread : D (completeRead s).dst := by
    unfold completeRead
    split
    · exact hs
    · next r rest hr =>
      split
      · exact h.reads _ _ (Or.inr (by simp [hr])) hs
      · exact h.reads _ _ (Or.inr (by simp [hr])) hs
  have key : ∀ u : State, D u.dst → D (Machine.grant { u.dst with port := .idle }) := fun u hu =>
    h.grant (h.port .idle u.dst.refreshPending hu)
  simp only [Machine.completeAccess]
  refine key _ ?_
  split
  · exact hs
  · exact hs
  · exact hs
  · exact hread
  · exact h.completeWrite hs

theorem StoreClosed.refreshExpiry (h : StoreClosed D) {s : State} (hs : D s.dst) : D (refreshExpiry s).dst := by
  have h1 : D { s.dst with refreshPeriod := s.pln.activeSettings.refresh } :=
    h.book _ s.dst.port s.dst.refreshPending _ s.dst.gapCounts s.dst.overruns s.dst.pageMap hs
  simp only [Machine.refreshExpiry]
  split
  · have h2 : D (Machine.flushAll (setDst { s.dst with refreshPeriod := s.pln.activeSettings.refresh } s)).dst := h.flushAll h1
    exact h.book _ _ _ _ _ _ _ (by simpa using h2)
  · exact h.grant (h.port s.dst.port true h1)

/-! ### The reads of an output block (R88, R89) -/

theorem queueRead_reads (e : EntryIx) (s : State) :
    (queueRead e s).dst.reads = s.dst.reads ∨ ∃ r, (queueRead e s).dst.reads = s.dst.reads ++ [r] := by
  unfold queueRead
  split
  · exact Or.inl rfl
  · simp only
    split
    · exact Or.inr ⟨_, (grant_store _).2.2.2.2.2.2.2.1⟩
    · exact Or.inl rfl

theorem queueReads_length : ∀ (l : List EntryIx) (s : State),
    (l.foldl (fun s e => queueRead e s) s).dst.reads.length ≤ s.dst.reads.length + l.length
  | [], s => by simp
  | e :: rest, s => by
    have ih := queueReads_length rest (queueRead e s)
    have he : (queueRead e s).dst.reads.length ≤ s.dst.reads.length + 1 := by
      rcases queueRead_reads e s with h | ⟨r, h⟩ <;> rw [h] <;> simp
    simp only [List.foldl_cons, List.length_cons]
    omega

theorem StoreClosed.queueReads (h : StoreClosed D) : ∀ (l : List EntryIx) {s : State},
    s.dst.reads.length + l.length ≤ 16 → D s.dst → D (l.foldl (fun s e => queueRead e s) s).dst
  | [], _, _, hs => hs
  | e :: rest, s, hl, hs => by
    simp only [List.length_cons] at hl
    have hone : D (queueRead e s).dst := by
      unfold queueRead
      split
      · exact hs
      · simp only
        split
        · refine h.grant (h.reads _ _ (Or.inl ?_) (by simpa using hs))
          simp
          omega
        · simpa using hs
    refine StoreClosed.queueReads h rest ?_ hone
    rcases queueRead_reads e s with hr | ⟨r, hr⟩
    · rw [hr]
      omega
    · rw [hr]
      simp
      omega

theorem removeAllReads (d : Dst) : (removeReads (fun _ => true) d).reads = [] := by simp [removeReads]

theorem removeAllWrites (d : Dst) : (removeWrites (fun _ => true) d).writes = [] := by simp [removeWrites]

theorem startBlock_eq (s : State) :
    startBlock s = entries.foldl (fun s e => queueRead e s) (beginOutBlock (startPeriod s)) := rfl

theorem StoreClosed.startBlock (h : StoreClosed D) {s : State} (hs : D s.dst) :
    D (Machine.startBlock s).dst := by
  have h1 : D (beginOutBlock (startPeriod s)).dst := h.removeReads _ (by simpa using hs)
  have h2 : (beginOutBlock (startPeriod s)).dst.reads = [] := removeAllReads _
  rw [startBlock_eq]
  generalize beginOutBlock (startPeriod s) = u at h1 h2
  have hl : u.dst.reads.length + entries.length ≤ 16 := by simp [h2, entries]
  exact h.queueReads entries hl h1

/-! ### The plan switch (R39, R98) -/

theorem StoreClosed.planSwitch (h : StoreClosed D) {s : State} (hs : D s.dst) : D (planSwitch s).dst := by
  have hfree : ∀ k (u : State), D u.dst → D (freePass k u).dst := by
    intro k u hu
    refine foldl_keeps _ (fun s : State => D s.dst) ?_ _ _ hu
    intro b e hb
    unfold freePosition
    split
    · exact h.book _ _ _ _ _ _ _ (h.line _ _ _ (by simp) (h.flushLine e hb))
    · exact hb
  have halloc : ∀ k (u : State), D u.dst → D (allocPass k u).dst := by
    intro k u hu
    refine foldl_keeps _ (fun s : State => D s.dst) ?_ _ _ hu
    intro b e hb
    unfold allocPosition
    split
    · split
      · unfold allocEntry
        split
        · exact hb
        · refine h.book _ _ _ _ _ _ _ (h.line _ _ _ ?_ hb)
          rintro x hx
          cases hx
          left
          simp
      · exact hb
    · exact hb
  have hclear : ∀ k (u : State), D u.dst → D (clearPass k u).dst := by
    intro k u hu
    refine foldl_keeps _ (fun s : State => D s.dst) ?_ _ _ hu
    intro b e hb
    unfold clearPosition
    split
    · exact h.book _ _ _ _ _ _ _ hb
    · exact hb
  have hd : (Machine.planSwitch s).dst =
      (clearPass (switchClasses s) (allocPass (switchClasses s) (freePass (switchClasses s)
        (settleSettings (adoptPlan s))))).dst := by simp [Machine.planSwitch]
  rw [hd]
  exact hclear _ _ (halloc _ _ (hfree _ _ (by simpa using hs)))

theorem StoreClosed.assembleBlock (h : StoreClosed D) {s : State} (hs : D s.dst) : D (assembleBlock s).dst := by
  have hcomplete : ∀ (o : OutBlock) (u : State), D u.dst → D (completeBlock o u).dst := by
    intro o u hu
    simp only [completeBlock]
    split
    · exact hu
    · split
      · split
        · exact h.planSwitch hu
        · exact hu
      · exact hu
  unfold Machine.assembleBlock
  split
  · exact hs
  · simp only [assemble]
    refine hcomplete _ _ ?_
    simp only [takeOutputBlock_frame, drawFree_dst, setCmb_dst, restoreOne_frame, shedAll_frame, setDst_dst]
    exact h.removeReads _ hs

/-! ### Every command -/

/-- A condition on the delay store that the elementary changes keep is kept by every command. -/
theorem StoreClosed.effect (h : StoreClosed D) (c : Instr) {s : State} (hs : D s.dst) : D (effect c s).dst := by
  have request : ∀ (k : Kind) (act : List Byte → State → Reply),
      (∀ b u, D u.dst → D (act b u).state.dst) → D (execRequest k act s).dst := by
    intro k act hact
    refine execRequest_keeps (P := fun s => D s.dst) ?_ hact ?_ hs
    · intro u r rest _ hu
      exact hu
    · intro r st b u hu
      simpa using hu
  have same : ∀ t : State, t.dst = s.dst → D t.dst := fun t ht => ht ▸ hs
  cases c with
  | powerOnReset => exact h.start
  | powerOnResetLineLow => exact hs
  | trunkFrame t w => exact same _ (by simp [Machine.effect])
  | channelBlock e r => exact h.deliverBlock e r hs
  | memoryAccessComplete => exact h.completeAccess hs
  | refreshTimerExpiry => exact h.refreshExpiry hs
  | outputBlockStart => exact h.startBlock hs
  | outputBlockAssembly => exact h.assembleBlock hs
  | forwardDriveFrame => exact same _ (by simp [Machine.effect])
  | reverseDriveFrame w => exact same _ (by simp [Machine.effect])
  | referenceLockSample l => exact same _ (by simp [Machine.effect])
  | biasTimerExpiry => exact same _ (by simp [Machine.effect])
  | coolTimerExpiry => exact same _ (by simp [Machine.effect])
  | testExpiry e => exact same _ (by simp [Machine.effect])
  | reverseTrunkFrame t => exact same _ (by simp [Machine.effect])
  | unknownKind =>
    simp only [Machine.effect]
    rcases unknownRequest_cases s with hu | ⟨r, rest, -, -, hu⟩ <;> rw [hu]
    · exact hs
    · exact same _ (by simp)
  | restart =>
    simp only [Machine.effect]
    rcases restartRequest_cases s with hu | ⟨r, rest, -, -, hu | hu⟩ <;> rw [hu]
    · exact hs
    · exact same _ (by simp)
    · have hf : D (Machine.flushAll (respond r .ok [] (setSvc { s.svc with queue := rest } s))).dst := h.flushAll (by simpa using hs)
      exact h.book _ _ _ _ _ _ _ hf
  | identify => exact request _ _ fun b u hu => by simpa using hu
  | getEntry => exact request _ _ fun b u hu => by simpa using hu
  | getSettings => exact request _ _ fun b u hu => by simpa using hu
  | getChannel => exact request _ _ fun b u hu => by simpa using hu
  | getTransmit => exact request _ _ fun b u hu => by simpa using hu
  | getSupervision => exact request _ _ fun b u hu => by simpa using hu
  | setMonitor => exact request _ _ fun b u hu => by simpa using hu
  | putEntry => exact request _ _ fun b u hu => by simpa using hu
  | dropEntry => exact request _ _ fun b u hu => by simpa using hu
  | putSettings => exact request _ _ fun b u hu => by simpa using hu
  | copyActive => exact request _ _ fun b u hu => by simpa using hu
  | apply => exact request _ _ fun b u hu => by simpa using hu
  | cancel => exact request _ _ fun b u hu => by simpa using hu
  | mute => exact request _ _ fun b u hu => by simpa using hu
  | unmute => exact request _ _ fun b u hu => by simpa using hu
  | forceSource =>
    refine request _ _ fun b u hu => ?_
    simp only [actForceSource, onEntry]
    repeat' split
    all_goals first
      | exact hu
      | exact h.switchSource _ _ _ _ hu
  | clearFaultEntry => exact request _ _ fun b u hu => by simpa using hu
  | key => exact request _ _ fun b u hu => by simpa using hu
  | unkey => exact request _ _ fun b u hu => by simpa using hu
  | shutdown => exact request _ _ fun b u hu => by simpa using hu
  | clearFaultTransmit => exact request _ _ fun b u hu => by simpa using hu
  | testStart => exact request _ _ fun b u hu => by simpa using hu
  | testStop => exact request _ _ fun b u hu => by simpa using hu

end Sys2Proof.Machine
end

