-- ==== Sys2Proof/WellFormed.lean ====
section
/-! DEFINITION. Which commands are well formed: a frame signal in a window has the length of its frame. -/

namespace Sys2Proof

/-- Length of a receive trunk frame in bytes (Table 11-1). -/
def trunkFrameBytes : Nat := 192042

/-- Length of a reverse drive link frame in bytes (Table 11-3). -/
def reverseDriveBytes : Nat := 11

/-- A window holds no frame signal, or a frame signal of `n` bytes. -/
def Window.wf (n : Nat) (w : Window) : Bool :=
  match w with
  | none => true
  | some bytes => bytes.length == n

/-- A command is well formed when the window it carries, if any, is. -/
def Instr.wf : Instr → Bool
  | .powerOnReset => true
  | .trunkFrame _ w => w.wf trunkFrameBytes
  | .channelBlock _ _ => true
  | .memoryAccessComplete => true
  | .refreshTimerExpiry => true
  | .outputBlockStart => true
  | .outputBlockAssembly => true
  | .forwardDriveFrame => true
  | .reverseDriveFrame w => w.wf reverseDriveBytes
  | .referenceLockSample _ => true
  | .biasTimerExpiry => true
  | .coolTimerExpiry => true
  | .testExpiry _ => true
  | .reverseTrunkFrame _ => true
  | .unknownKind => true
  | .identify => true
  | .restart => true
  | .putEntry => true
  | .dropEntry => true
  | .putSettings => true
  | .copyActive => true
  | .apply => true
  | .cancel => true
  | .getEntry => true
  | .getSettings => true
  | .getChannel => true
  | .mute => true
  | .unmute => true
  | .forceSource => true
  | .clearFaultEntry => true
  | .getTransmit => true
  | .key => true
  | .unkey => true
  | .shutdown => true
  | .clearFaultTransmit => true
  | .setMonitor => true
  | .getSupervision => true
  | .testStart => true
  | .testStop => true
  | .powerOnResetLineLow => true

end Sys2Proof
end

