-- ==== Sys2Proof/Tests/Slice0.lean ====
section
/-! SUPPORT. The model's own tests. Expected values come from the tables and worked examples of the spec, named in each
docstring, or from hand calculation by the rule named. The witnesses for the statements stand in
Tests/Witness.lean. -/

namespace Sys2Proof.Tests

-- One theorem at a time: the many kernel evaluations below would otherwise wait on each other, each in a thread of its own.
set_option Elab.async false

open Sys2Proof.Machine Sys2Proof.Safety

/-- Does a command answer a next state with a property? -/
def after (o : Host.Outcome State Fault Refusal) (p : State → Bool) : Bool :=
  match o with
  | .next t => p t
  | .fault _ => false
  | .refused _ => false

/-- Entry 5 of Table 3-6. -/
def entryFive : Entry where
  primary := ⟨.A, 40⟩
  alternate := some ⟨.B, 40⟩
  width := 6
  outStart := 10
  expiry := .failover
  revert := true
  fine := 0
  target := -150
  loss := -600
  attack := 1
  decay := 3
  bridgeCode := 0
  revertCode := 0
  pages := 2
  primaryDelay := 20
  alternateDelay := 8
  priority := 2

/-- The plan that holds an entry at position 5 alone. -/
def planWith (en : Entry) : Plan := vput Plan.empty 5 (some en)

/-- Entry `en` alone in the active plan, at position 5, with its taps, and with its context as given. Of its pages the first
two are taken when it has pages. -/
def station (en : Entry) (c : Ctx) : State :=
  { State.reset with
    pln := { Pln.powerOn with active := planWith en }
    ext := { Ext.powerOn with rows := buildRows (planWith en), periodRows := buildRows (planWith en) }
    ctx := vput State.reset.ctx 5 c
    dst := if en.pages = 0 then State.reset.dst else
      { State.reset.dst with
        lines := vput State.reset.dst.lines 5 (some ⟨[0, 1], 0, 32, 32⟩)
        pageMap := (State.reset.dst.pageMap.set 0 (some 5)).set 1 (some 5) } }

/-- A context in a state, with both sources READY at the power-on Q of 50. -/
def context (st : CtxState) : Ctx := { Ctx.powerOn with state := st, readyP := 50, readyA := 50 }

/-- A block of entry 5 that waits. -/
def waiting (r : Source) (q : Quality) (l : Option Int) : Waiting := ⟨5, r, 0, ⟨[], q, l⟩⟩

/-- A state in which one block waits. -/
def withBlock (w : Waiting) (s : State) : State := { s with ext := { s.ext with waiting := [w] } }

/-- A state in which one request of a kind waits alone, from trunk A with tag 7. -/
def ask (k : Kind) (body : List Byte) (s : State) : State :=
  { s with svc := ⟨[⟨.A, 7, BitVec.ofNat 8 k.code, body⟩], 0, []⟩ }

/-- The status and the further body of a response message in the outbox of trunk A. -/
def answer (t : State) : List Byte := ((t.rtA.outbox.getD []).drop 6).take ((t.rtA.outbox.getD []).length - 8)

/-- A sequencer state. -/
def airState (q : Seq) : Txs :=
  { State.reset.txs with
    state := q, keyed := wantsAir q, linkUp := true, refOk := true, paReady := true
    atten := if q = .onAir then 0 else 300
    bias := if q = .biasWait then some 0 else none
    cool := if q = .cool then some 0 else none
    cause := if q = .tripped then .pa else .none }

/-- The reset state with a sequencer. -/
def onTxs (x : Txs) : State := { State.reset with txs := x }

/-- A reverse drive frame with its check. -/
def driveFrame (p r : Int) (flags : Byte) : List Byte :=
  driveSync ++ (fieldS16 p ++ fieldS16 r ++ [flags]) ++ checkField (fieldS16 p ++ fieldS16 r ++ [flags])

/-! ### Well-formed commands -/

/-- A trunk frame signal of another length than Table 11-1 gives is no well-formed operand. -/
theorem test_wf_refuses_short_trunk_frame : (Instr.trunkFrame .A (some [0x3C, 0xA6])).wf = false := by decide

/-- A reverse drive frame signal has 11 bytes (Table 11-3). -/
theorem test_wf_refuses_long_drive_frame : (Instr.reverseDriveFrame (some (List.replicate 12 0))).wf = false := by decide

/-- An empty window, and a drive frame of 11 bytes, are well formed. -/
theorem test_wf_accepts :
    (Instr.trunkFrame .B none).wf = true ∧ (Instr.reverseDriveFrame (some (List.replicate 11 0))).wf = true := by decide

/-! ### Arithmetic of the rules -/

/-- The CRC of "123456789" with this polynomial and preset is 29B1, the published check value. -/
theorem test_crc : crc [0x31, 0x32, 0x33, 0x34, 0x35, 0x36, 0x37, 0x38, 0x39] = 0x29B1#16 := by decide +kernel

/-- Table 1-7: ratios 1/2, 1/1000, 0.0015849, and silence. -/
theorem test_levels : levelOfRatio 1 2 = -30 ∧ levelOfRatio 1 1000 = -300 ∧ levelOfRatio 15849 10000000 = -280 ∧
    levelOfRatio 0 1 = -900 := by decide +kernel

/-- R16: a level above full scale is reported as 0, one of -93.0 dB as -900. -/
theorem test_level_clamps : levelOfRatio 2 1 = 0 ∧ levelOfRatio 1 (10 ^ 10) = -900 := by decide +kernel

/-- R113: a shift of 12 MHz is a quarter turn at each sample of a band of 48 MHz: a sample of 3 parts stands, is turned by a
quarter, by a half, and by three quarters. -/
theorem test_placement :
    (List.range 4).map (fun i => moveSample ⟨0, 0⟩ ⟨3 * fineOne, 0⟩ (turnAt 0 12000000 i)) = [⟨3, 0⟩, ⟨0, 3⟩, ⟨-3, 0⟩, ⟨0, -3⟩] := by
  decide +kernel

/-- R114: a carrier of mean power -200 has a tenth of full scale as its amplitude, at an eighth of a turn too. -/
theorem test_carrier :
    moveSample ⟨0, 0⟩ (carrierAmplitude (-200)) (turnAt 0 6000000 0) = ⟨3277, 0⟩ ∧
    moveSample ⟨0, 0⟩ (carrierAmplitude (-200)) (turnAt 0 6000000 1) = ⟨2317, 2317⟩ := by decide +kernel

/-- R113: entry 5 of Table 3-6 goes to the centre of slots 10 to 15, 6.5 MHz above the band edge, from either source. -/
theorem test_centre : placedCentre entryFive .primary = 6500000 ∧ placedCentre entryFive .alternate = 6500000 ∧
    toneCentre { entryFive with fine := -25 } = 6499975 := by decide

/-- R15: a range is moved down: a carrier of 12 MHz moved by -12 MHz stands still at every sample; a whole component stands however
it is rounded. -/
theorem test_baseband :
    shiftBand 0 (-12000000) [⟨5, 0⟩, ⟨0, 5⟩, ⟨-5, 0⟩, ⟨0, -5⟩] = List.replicate 4 ⟨5 * unitOne, 0⟩ ∧
    roundEither true 4 8 = 2 ∧ roundEither true 4 9 = 3 ∧ roundEither false 4 (-9) = -3 := by decide +kernel

/-- R15: of 96 samples over 96 slots a range of two slots has the lines -1 and 0. A steady 7 lies at line 0 and passes; a carrier of
24 turns lies outside the range and is filtered away. -/
theorem test_filtered_away :
    let band := (List.replicate 24 [⟨107, 0⟩, ⟨7, 100⟩, ⟨-93, 0⟩, ⟨7, -100⟩]).flatten
    ∀ i ∈ [0, 1], let z := ofLines (rangeLines 2 band) 2 i
      (z.re - 7 * 96 * unitOne ^ 2).natAbs * 2 ^ 20 < 96 * (unitOne ^ 2).natAbs ∧ z.im.natAbs * 2 ^ 20 < 96 * (unitOne ^ 2).natAbs := by
  decide +kernel

/-- R113: raised, two samples of a block stand at its beginning and its middle as they were, and a steady channel stays steady. -/
theorem test_raised :
    let at_ (l : List Sample) := raisedSample l.length (rangeLines l.length l)
    at_ [⟨3, 1⟩, ⟨-5, 2⟩] 0 = ⟨3 * fineOne, 1 * fineOne⟩ ∧ at_ [⟨3, 1⟩, ⟨-5, 2⟩] 24000 = ⟨-5 * fineOne, 2 * fineOne⟩ ∧
    at_ [⟨3, 1⟩, ⟨3, 1⟩] 6000 = ⟨3 * fineOne, 1 * fineOne⟩ := by decide +kernel

/-- R117: the sample at (30000, 25000) becomes (25172, 20976); one at full scale stands. -/
theorem test_sample_clamp : clampSample ⟨30000, 25000⟩ = ⟨25172, 20976⟩ ∧ clampSample ⟨-32767, 0⟩ = ⟨-32767, 0⟩ := by
  decide +kernel

/-- R77: +200 (20.0 dB) is ten times the component, -200 a tenth with halves away from zero. -/
theorem test_scaling : scaleComponent 200 123 = 1230 ∧ scaleComponent (-200) 15 = 2 ∧ scaleComponent (-200) (-15) = -2 ∧
    scaleComponent (-200) 14 = 1 := by decide +kernel

/-- Tables 4-7 to 4-10: the truncated quotient, and one where it is 0. -/
theorem test_gain_steps : gainStep 30 8 = 3 ∧ gainStep (-155) 2 = -77 ∧ gainStep (-39) 2 = -19 ∧ gainStep 5 8 = 1 ∧
    gainStep (-1) 2 = -1 ∧ gainStep 0 8 = 0 ∧ gainStep 300 128 = 2 := by decide +kernel

/-- Table 4-8: the first good block sets the gain to the desired gain, clamped. -/
theorem test_first_gains : desiredGain (-150) (-420) = 270 ∧ desiredGain (-400) (-50) = -200 ∧ desiredGain 0 (-700) = 600 := by
  decide +kernel

/-- R20: the fine offset goes to the nearest multiple of 25. -/
theorem test_fine_rounding : roundTo 25 12 = 0 ∧ roundTo 25 13 = 25 ∧ roundTo 25 (-37) = -25 ∧ roundTo 25 (-38) = -50 := by
  decide +kernel

/-- Table 6-4: three at -200 and one at -420 make -152. -/
theorem test_composite : composite [-420, -200, -200, -200] = some (-152) := by decide +kernel

/-- Table 6-5, block 2: entry 1 is shed, and the backoff is 30. -/
theorem test_budget_sheds : budget (-100) 30 10 [⟨0, -100, 5⟩, ⟨1, -120, 3⟩, ⟨2, -105, 7⟩] [] =
    ⟨[⟨0, -100, 5⟩, ⟨2, -105, 7⟩], [⟨1, -120, 3⟩], none, some (-70), 30, false⟩ := by decide +kernel

/-- Table 6-6, blocks 1 and 3: entry 6 goes before entry 5, and entry 5 comes back first. -/
theorem test_budget_restores :
    (budget (-160) 30 10 [⟨3, -120, 7⟩, ⟨4, -130, 7⟩, ⟨5, -160, 2⟩, ⟨6, -160, 2⟩] []).newlyShed = [⟨6, -160, 2⟩, ⟨5, -160, 2⟩] ∧
    (budget (-100) 30 10 [⟨3, -120, 7⟩, ⟨4, -130, 7⟩] [⟨5, -160, 2⟩, ⟨6, -160, 2⟩]).restored = some ⟨5, -160, 2⟩ := by
  decide +kernel

/-- Tables 2-4, 2-5 and 9-2 at their ends. -/
theorem test_times : bridgeTime 0 = 10 ∧ bridgeTime 7 = 2000 ∧ revertHold 0 = 1000 ∧ revertHold 7 = 300000 ∧
    testDuration 1 = 5000 ∧ testDuration 9 = 3600000 := by decide

/-- R19: the first structural test that fails gives its number: width 17 is field 3, start 91 with width 6 is field 4. -/
theorem test_entry_fields : entryFieldError [0, 91, 0, 0, 0, 17] = some 3 ∧ entryFieldError [0, 91, 0, 0, 0, 6] = some 4 := by
  decide +kernel

/-! ### Trunk ports -/

/-- A port in SYNC at number 421. -/
def portSync : Port := { Port.powerOn with align := .sync, reference := some 421, damage := 1 }

/-- Table 1-5, block periods 7 and 8: a missing frame brings FLYWHEEL with reference 422, the next failure 423 and count 2. -/
theorem test_trunk_frame_failures :
    after (exec (.trunkFrame .A none) { State.reset with rtA := portSync })
      (fun t => t.rtA.align == .flywheel && t.rtA.reference == some 422 && t.rtA.failures == 1) = true ∧
    after (exec (.trunkFrame .A (some [0, 0, 0, 0])) { State.reset with
        rtA := { portSync with align := .flywheel, reference := some 422, failures := 1 } })
      (fun t => t.rtA.align == .flywheel && t.rtA.reference == some 423 && t.rtA.failures == 2) = true := by decide +kernel

/-- Table 1-5, block period 11: good frame 430 where 426 is expected keeps SYNC and counts a slip. -/
theorem test_trunk_slip : (takeGood ⟨430, false, false, [], []⟩ { portSync with reference := some 425 }).slips = 1 ∧
    (takeGood ⟨430, false, false, [], []⟩ { portSync with reference := some 425 }).reference = some 430 := by decide +kernel

/-- Table 11-2: a reverse frame has 40 bytes, begins with the sync pattern and its number, and the number goes up. -/
theorem test_reverse_trunk_frame :
    after (exec (.reverseTrunkFrame .B) { State.reset with rtB := { Port.powerOn with revNumber := 1023 } })
      (fun t => t.rtB.revNumber == 0 && (t.rtB.lastReverse.getD []).length == 40 &&
        (t.rtB.lastReverse.getD []).take 8 == [0x3C, 0xA6, 0x59, 0xC3, 0x03, 0xFF, 0, 0]) = true := by decide +kernel

/-! ### Channel contexts -/

/-- Table 3-6, period 120: the tenth bad block in FADE with the alternate READY is a failover. -/
theorem test_channel_block_failover :
    after (exec (.channelBlock 5 .primary) (withBlock (waiting .primary .impaired none)
        (station entryFive { context .fade with loss := 9, badBlocks := 18 })))
      (fun t => (ctxAt t 5).state == .acquire && (ctxAt t 5).source == .alternate && (ctxAt t 5).failovers == 1 &&
        (ctxAt t 5).badBlocks == 19 && (lineAt t 5).elim 99 Line.fill == 0 && t.dst.writes.isEmpty) = true := by decide +kernel

/-- Table 3-6, period 1127: the thousandth good primary block reverts. -/
theorem test_channel_block_revert :
    after (exec (.channelBlock 5 .primary) (withBlock (waiting .primary .good (some (-420)))
        (station entryFive { context .live with source := .alternate, revert := 999 })))
      (fun t => (ctxAt t 5).state == .acquire && (ctxAt t 5).source == .primary && (ctxAt t 5).failovers == 0 &&
        (ctxAt t 5).revert == 0) = true := by decide +kernel

/-- R60 and R61: MUTE of a LIVE channel, and UNMUTE of a channel the operator muted. -/
theorem test_mute_and_unmute :
    after (exec .mute (ask .mute [5] (station entryFive (context .live))))
      (fun t => (ctxAt t 5).state == .muted .operator && answer t == [0, 0]) = true ∧
    after (exec .unmute (ask .unmute [5] (station entryFive (context (.muted .operator)))))
      (fun t => (ctxAt t 5).state == .acquire && answer t == [0, 0]) = true := by decide +kernel

/-- R62: FORCE-SOURCE onto the alternate, and NO_ALTERNATE without one. -/
theorem test_force_source :
    after (exec .forceSource (ask .forceSource [5, 1] (station entryFive (context .live))))
      (fun t => (ctxAt t 5).source == .alternate && (ctxAt t 5).failovers == 0 && answer t == [0, 0]) = true ∧
    after (exec .forceSource (ask .forceSource [5, 1] (station { entryFive with alternate := none } (context .live))))
      (fun t => (ctxAt t 5).source == .primary && answer t == [0x33, 0]) = true := by decide +kernel

/-- R102: a read of the old source that has been answered with its record is answered with nothing at the source switch. -/
theorem test_force_source_read :
    after (exec .forceSource (ask .forceSource [5, 1]
        (let s := station entryFive (context .live)
         { s with cmb := { s.cmb with
             course := some ⟨1, 0, vput (Vector.replicate 16 .unread) 5 (.data ⟨[], some (-100), .data⟩), false⟩ } })))
      (fun t => t.cmb.course.elim false fun o => vget o.answers 5 == .nothing && vget o.answers 4 == .unread) = true := by
  decide +kernel

/-- R63: CLEAR-FAULT(entry) brings MUTED(OVERLEVEL) back into ACQUIRE, and is refused with STATE in OFF. -/
theorem test_clear_fault_entry :
    after (exec .clearFaultEntry (ask .clearFaultEntry [5] (station entryFive (context (.muted .overlevel)))))
      (fun t => (ctxAt t 5).state == .acquire) = true ∧
    after (exec .clearFaultEntry (ask .clearFaultEntry [4] (station entryFive (context .live))))
      (fun t => answer t == [0x30, 0]) = true := by decide +kernel

/-- R64: GET-CHANNEL of an index above 15 is refused with INDEX. -/
theorem test_get_channel_index :
    after (exec .getChannel (ask .getChannel [16] State.reset)) (fun t => answer t == [0x12, 0]) = true := by decide +kernel

/-! ### The delay store -/

/-- R86: at the last burst of a write the record is in the DRAM, the mark is gone and the fill goes up. -/
theorem test_write_completes :
    after (exec .memoryAccessComplete
        (let s := station entryFive (context .live)
         { s with dst := { setLine 5 (some ⟨[0, 1], 1, 3, 4⟩) s.dst with
             writes := [⟨5, 0, ⟨[], some (-150), .data⟩, 6, 5⟩], port := .write, gapMarks := [0, 7] } }))
      (fun t => (dramRead t.dst 0).lout == some (-150) && t.dst.gapMarks == [7] && (lineAt t 5).elim 0 Line.fill == 4 &&
        t.dst.port == .idle) = true := by decide +kernel

/-- R93 and R94: an expiry with the request pending is an overrun: the line is flushed and the context acquires again. -/
theorem test_memory_overrun :
    after (exec .refreshTimerExpiry
        (let s := station entryFive (context .live)
         { s with dst := { s.dst with refreshPending := true, port := .write } }))
      (fun t => (lineAt t 5).elim 99 Line.fill == 0 && (ctxAt t 5).state == .acquire && t.dst.overruns == 1 &&
        t.dst.refreshPending) = true := by decide +kernel

/-! ### Output blocks -/

/-- R88 and R89: at delay 20 of a full line written from position 0, the read names record 12 of the first page; it waits, and the
idle port takes it. -/
theorem test_output_block_start :
    after (exec .outputBlockStart (station entryFive (context .live)))
      (fun t => t.dst.reads == [⟨5, 12, 6, 0⟩] && t.dst.port == .read &&
        t.cmb.course.elim false (fun o => vget o.answers 5 == .waiting)) = true := by decide +kernel

/-- R99: a test tone is a contributor of an output block, but not of one that began before a warm restart. -/
theorem test_restarted_block :
    let o : OutBlock := ⟨0, 0, Vector.replicate 16 .unread, false⟩
    let s := station entryFive (context (.test 9 (-250)))
    offerOf o s 5 = some (.tone (-250)) ∧ offerOf { o with restarted := true } s 5 = none := by decide +kernel

/-- R91 and R105: a read not answered at assembly is late, and block 0 steps the epoch count. -/
theorem test_output_block_assembly :
    after (exec .outputBlockAssembly
        (let s := station entryFive (context .live)
         { s with
           dst := { s.dst with reads := [⟨5, 12, 6, 0⟩], port := .read }
           cmb := { s.cmb with course := some ⟨0, 0, vput (Vector.replicate 16 .unread) 5 .waiting, false⟩ } }))
      (fun t => vget t.cmb.late 5 == 1 && t.dst.reads.isEmpty && t.dst.port == .orphan && t.cmb.epochs == 1 &&
        t.cmb.counter == 1) = true := by decide +kernel

/-- Table 7-5, periods 2001 and 2030: a ramp step of 10 from 300, and from 10 into ON_AIR. -/
theorem test_ramp : (rampStep Settings.powerOn (airState .rampUp)).atten = 290 ∧
    (rampStep Settings.powerOn { airState .rampUp with atten := 10 }).state = .onAir := by decide +kernel

/-! ### The sequencer and the monitor -/

/-- R120: the forward frame number wraps from 1023 to 0. -/
theorem test_forward_frame_number :
    after (exec .forwardDriveFrame (onTxs { airState .offAir with fwdNumber := 1023 })) (fun t => t.txs.fwdNumber == 0) = true := by
  decide +kernel

/-- Table 7-5, periods 5000 and 5005: foldback 40 at a return loss of 120; the fifth reading of 70 trips. -/
theorem test_reverse_drive_frame :
    after (exec (.reverseDriveFrame (some (driveFrame 0 (-120) 1))) (onTxs (airState .onAir)))
      (fun t => t.txs.foldback == 40 && t.txs.state == .onAir && t.txs.tripCount == 0) = true ∧
    after (exec (.reverseDriveFrame (some (driveFrame 0 (-70) 1))) (onTxs { airState .onAir with tripCount := 4 }))
      (fun t => t.txs.state == .tripped && t.txs.cause == .vswr && t.txs.foldback == 0) = true := by decide +kernel

/-- R121: the eighth invalid frame in a row loses the link, and with bias on trips. -/
theorem test_link_lost :
    after (exec (.reverseDriveFrame none) (onTxs { airState .biasWait with invalid := 7 }))
      (fun t => t.txs.linkUp == false && t.txs.cause == .link && t.txs.state == .tripped) = true := by decide +kernel

/-- Table 7-5, period 2000: the qualification counter reaching 2000 brings HELD to RAMP_UP. -/
theorem test_reference_lock_sample :
    after (exec (.referenceLockSample true) (onTxs { airState .held with refOk := false, qual := 1999 }))
      (fun t => t.txs.state == .rampUp && t.txs.refOk && t.txs.qual == 2000) = true ∧
    after (exec (.referenceLockSample false) (onTxs (airState .onAir)))
      (fun t => t.txs.state == .held && t.txs.atten == 300 && t.txs.qual == 0) = true := by decide +kernel

/-- R126 and R128: the two timers at their end. -/
theorem test_timer_expiries :
    after (exec .biasTimerExpiry (onTxs (airState .biasWait))) (fun t => t.txs.cause == .biasTimeout) = true ∧
    after (exec .coolTimerExpiry (onTxs (airState .cool))) (fun t => t.txs.state == .offAir) = true := by decide +kernel

/-- Table 7-5, periods 1500 and 6000: KEY from OFF_AIR, and KEY refused in TRIPPED. -/
theorem test_key :
    after (exec .key (ask .key [] (onTxs (airState .offAir))))
      (fun t => t.txs.state == .biasWait && t.txs.bias == some 2000 && t.txs.keyed) = true ∧
    after (exec .key (ask .key [] (onTxs (airState .tripped)))) (fun t => answer t == [0x31, 0]) = true := by decide +kernel

/-- R125 and R134: UNKEY from ON_AIR, and SHUTDOWN in OFF_AIR. -/
theorem test_unkey_and_shutdown :
    after (exec .unkey (ask .unkey [] (onTxs (airState .onAir)))) (fun t => t.txs.state == .rampDown && t.txs.atten == 0) = true ∧
    after (exec .shutdown (ask .shutdown [] (onTxs (airState .offAir))))
      (fun t => t.txs.state == .tripped && t.txs.cause == .command) = true := by decide +kernel

/-- Table 7-5, period 6010, and R135 with the alarm set. -/
theorem test_clear_fault_transmit :
    after (exec .clearFaultTransmit (ask .clearFaultTransmit [] (onTxs (airState .tripped)))) (fun t => t.txs.state == .offAir) = true ∧
    after (exec .clearFaultTransmit (ask .clearFaultTransmit [] (onTxs { airState .tripped with paAlarm := true })))
      (fun t => t.txs.state == .tripped && answer t == [0x32, 0]) = true := by decide +kernel

/-- R143: the third strike in a row asks for the mute, and the count starts again. -/
theorem test_third_strike :
    finding (-170) (-200) 20 { Ctx.powerOn with strikes := 2 } = ({ Ctx.powerOn with strikes := 0 }, true) ∧
    finding (-180) (-200) 20 { Ctx.powerOn with strikes := 2 } = ({ Ctx.powerOn with strikes := 0 }, false) := by decide +kernel

/-- R145: LOCK of an index above 15 is refused with INDEX, and a mode above 3 with FIELD. -/
theorem test_set_monitor :
    after (exec .setMonitor (ask .setMonitor [2, 16] State.reset)) (fun t => answer t == [0x12, 0] && t.mon.mode == .off) = true ∧
    after (exec .setMonitor (ask .setMonitor [4, 0] State.reset)) (fun t => answer t == [0x13, 0]) = true := by decide +kernel

/-! ### Requests of the plan store and of the part -/

/-- R166: the part code CT16, revision 3 and the five capacities. -/
theorem test_identify : after (exec .identify (ask .identify [] State.reset))
    (fun t => answer t == [0, 0, 0x43, 0x54, 0x31, 0x36, 3, 16, 24, 1, 0, 96, 8]) = true := by decide +kernel

/-- R161: an unknown kind is answered UNKNOWN, a body of the wrong length LENGTH. -/
theorem test_unknown_and_length :
    after (exec .unknownKind { State.reset with svc := ⟨[⟨.A, 7, 0x60, []⟩], 3, []⟩ })
      (fun t => answer t == [0x10, 3] && t.svc.lost == 0) = true ∧
    after (exec .mute (ask .mute [] State.reset)) (fun t => answer t == [0x11, 0]) = true := by decide +kernel

/-- R19 and R20: an entry is staged and answered; a target of 100 is clamped to 0. -/
theorem test_put_entry :
    after (exec .putEntry (ask .putEntry (5 :: entryRecord entryFive) State.reset))
      (fun t => vget t.pln.staged 5 == some entryFive && (answer t).take 3 == [0, 0, 5]) = true ∧
    after (exec .putEntry (ask .putEntry (5 :: entryRecord { entryFive with target := 100 }) State.reset))
      (fun t => vget t.pln.staged 5 == some { entryFive with target := 0 } && (answer t).take 1 == [1]) = true := by
  decide +kernel

/-- R24 and R25: a dropped position is empty, and a copied plan is the active one. -/
theorem test_drop_and_copy :
    after (exec .dropEntry (ask .dropEntry [5] { State.reset with pln := { Pln.powerOn with staged := planWith entryFive } }))
      (fun t => vget t.pln.staged 5 == none && answer t == [0, 0, 1]) = true ∧
    after (exec .copyActive (ask .copyActive [] (station entryFive (context .live))))
      (fun t => vget t.pln.staged 5 == some entryFive) = true := by decide +kernel

/-- R22: RLtrip above the RLfold sent is clamped to it. -/
theorem test_put_settings :
    after (exec .putSettings (ask .putSettings
        (settingsRecord { Settings.powerOn with foldStart := 100, tripRL := 120 }) State.reset))
      (fun t => t.pln.stagedSettings.tripRL == 100 && (answer t).take 1 == [1]) = true := by decide +kernel

/-- R28 and R30: APPLY of one entry with an alternate needs 2 taps and its 2 pages; CANCEL without an arm is NOT_ARMED. -/
theorem test_apply_and_cancel :
    after (exec .apply (ask .apply [] { State.reset with pln := { Pln.powerOn with staged := planWith entryFive } }))
      (fun t => t.pln.armed && answer t == [2, 0, 2, 0, 2]) = true ∧
    after (exec .cancel (ask .cancel [] State.reset)) (fun t => answer t == [0x21, 0]) = true := by decide +kernel

/-- R26 and R27: the record of an empty position is zeros; a copy code above 1 is refused with FIELD. -/
theorem test_get_entry_and_settings :
    after (exec .getEntry (ask .getEntry [3, 1] State.reset)) (fun t => answer t == [0, 0, 3, 1, 0] ++ List.replicate 27 0) = true ∧
    after (exec .getSettings (ask .getSettings [2] State.reset)) (fun t => answer t == [0x13, 0]) = true := by decide +kernel

/-- R136 and R146: the bodies of GET-TRANSMIT and GET-SUPERVISION have the lengths of Table 11-5. -/
theorem test_report_lengths :
    after (exec .getTransmit (ask .getTransmit [] State.reset)) (fun t => (answer t).length == 22) = true ∧
    after (exec .getSupervision (ask .getSupervision [] State.reset)) (fun t => (answer t).length == 61) = true := by
  decide +kernel

/-- R148 and R149: TEST-START of 15 s at -250; R153: TEST-STOP brings ACQUIRE. -/
theorem test_test_tones :
    after (exec .testStart (ask .testStart [5, 0xFF, 0x06, 2] (station entryFive (context .live))))
      (fun t => (ctxAt t 5).state == .test 15000 (-250) && (answer t).take 1 == [0]) = true ∧
    after (exec .testStop (ask .testStop [5] (station entryFive (context (.test 9 (-250))))))
      (fun t => (ctxAt t 5).state == .acquire && (ctxAt t 5).done == false) = true := by decide +kernel

/-- R152: the expiry of a test sets the done flag; with time left nothing expires. -/
theorem test_test_expiry :
    after (exec (.testExpiry 5) (station entryFive (context (.test 0 (-250)))))
      (fun t => (ctxAt t 5).state == .acquire && (ctxAt t 5).done) = true ∧
    after (exec (.testExpiry 5) (station entryFive (context (.test 1 (-250))))) (fun t => (ctxAt t 5).state == .test 1 (-250)) = true := by
  decide +kernel

/-- R167: a warm restart answers OK, keeps the active plan, and starts its contexts. -/
theorem test_restart :
    after (exec .restart (ask .restart [] (station entryFive (context (.muted .operator)))))
      (fun t => (ctxAt t 5).state == .acquire && (ctxAt t 4).state == .off && activeAt t 5 == some entryFive &&
        t.svc == ⟨[], 0, [⟨.reset true, false, false⟩]⟩ && answer t == [0, 0]) = true := by decide +kernel

/-- R1: a power-on reset keeps only what waits outside the part; with the line low nothing else acts. -/
theorem test_power_on_reset :
    after (exec .powerOnReset { station entryFive (context .live) with inReset := true, pending := [.key] })
      (fun t => t.inReset == false && (ctxAt t 5).state == .off && t.pending == [.key]) = true ∧
    after (exec .powerOnResetLineLow State.reset) (fun t => t.inReset) = true := by decide +kernel

end Sys2Proof.Tests
end

