-- ==== Sys2Proof/Tests/Witness.lean ====
section
/-! SUPPORT. For every statement that has hypotheses, a concrete state and operands that meet them, each clause at a boundary of
its range. `witness_<Name>` belongs to the statement of that name. -/

namespace Sys2Proof.Tests

-- One theorem at a time: the many kernel evaluations below would otherwise wait on each other, each in a thread of its own.
set_option Elab.async false

open Sys2Proof.Machine Sys2Proof.Safety

/-! ### Helpers -/

/-- What holds of whatever an option holds. -/
theorem of_all {α : Type} (f : EntryIx → Option α) (p : α → Bool) (h : ∀ e, (f e).all p = true) {e : EntryIx} {x : α}
    (hx : f e = some x) : p x = true := by
  have := h e
  rw [hx] at this
  exact this

/-- A request of `ask` is served in a released state whose outbox on trunk A is empty. -/
theorem serves_ask (k : Kind) (body : List Byte) (s : State) (hl : body.length = k.bodyLength) (hr : s.inReset = false)
    (ho : s.rtA.outbox = none) : Serves k (ask k body s) ⟨.A, 7, BitVec.ofNat 8 k.code, body⟩ [] :=
  ⟨hr, rfl, ho, by cases k <;> rfl, hl⟩

/-- Some request of a kind is served, and the state and the request meet a condition. -/
def Asked (k : Kind) (p : State → List Byte → Prop) : Prop := ∃ s r rest, Serves k s r rest ∧ p s r.body

/-- `ask` on a released state meets a condition of its own. -/
theorem asked (k : Kind) (body : List Byte) (s : State) {p : State → List Byte → Prop}
    (hp : p (ask k body s) body) (hl : body.length = k.bodyLength := by decide) (hr : s.inReset = false := by decide)
    (ho : s.rtA.outbox = none := by decide) : Asked k p :=
  ⟨_, _, _, serves_ask k body s hl hr ho, hp⟩

/-- A step from a state runs into a next state. -/
def Steps (s : State) : Prop := ∃ t, step s = .next t

/-- A step whose command is taken in a released state answers a next state. -/
theorem steps_of {s : State} (h : after (step s) (fun _ => true) = true) : Steps s := by
  unfold after at h
  unfold Steps
  split at h
  · exact ⟨_, by assumption⟩
  · cases h
  · cases h

/-- The station of Table 3-6 with a context. -/
abbrev five (c : Ctx) : State := station entryFive c

/-- The station with a plan staged. -/
def staging (p : Plan) (armed : Bool) : State := { State.reset with pln := { Pln.powerOn with staged := p, armed := armed } }

/-! ### The machine -/

theorem witness_StepTakesFront : State.reset.pending = [] := rfl

theorem witness_ResetLine : ∃ s : State, s.inReset = true ∧ Instr.key ≠ .powerOnReset ∧ Instr.key ≠ .powerOnResetLineLow :=
  ⟨{ State.reset with inReset := true }, rfl, by decide, by decide⟩

/-! ### Laws that every step keeps -/

theorem witness_QueuesStayBounded : ∃ s, QueuesBounded s ∧ Steps s :=
  ⟨{ State.reset with
      pending := [.identify], svc := ⟨List.replicate 8 ⟨.A, 1, 1, []⟩, 0, []⟩
      dst := { State.reset.dst with
        writes := List.replicate 32 ⟨5, 0, ⟨[], none, .data⟩, 1, 0⟩, reads := List.replicate 16 ⟨5, 0, 1, 0⟩ } },
    by unfold QueuesBounded; decide, steps_of (by decide +kernel)⟩

theorem witness_NoticesStayDistinct : ∃ s, NoticesDistinct s ∧ s.svc.notices.length = 2 ∧ Steps s :=
  ⟨{ State.reset with
      pending := [.reverseDriveFrame none]
      svc := ⟨[], 0, [⟨.memory 1 1, true, false⟩, ⟨.reset true, false, false⟩]⟩ },
    by unfold NoticesDistinct; decide, rfl, steps_of (by decide +kernel)⟩

theorem witness_SequencerStaysLawful : ∀ q, ∃ s, s.txs.state = q ∧ SequencerLaw s.txs ∧ Steps s := by
  intro q
  refine ⟨{ onTxs (airState q) with pending := [.biasTimerExpiry] }, rfl, ?_, ?_⟩
  · cases q <;> constructor <;> decide
  · exact steps_of (by cases q <;> decide +kernel)

/-- A LIVE context on the alternate with the greatest gain, shed. -/
def loudShed : State :=
  { five { context .live with gain := some 600, shed := true, source := .alternate } with pending := [.refreshTimerExpiry] }

/-- MON dwells on entry 5, and its second frame is due. -/
def dwellingFive (c : Ctx) : State := { five c with mon := ⟨.scan, none, 5, some ⟨.entry 5, 8, 1, 0⟩, .none⟩ }

/-- The greatest gain, a shed flag, the alternate in use; and a dwell on a LIVE context. -/
theorem witness_ContextsStayLawful : (GainLaw loudShed ∧ ShedLaw loudShed ∧ SourceLaw loudShed ∧ Steps loudShed) ∧
    ∃ s, PositionLaw s ∧ DwellLaw s ∧ s.mon.dwell = some ⟨.entry 5, 8, 1, 0⟩ ∧ Steps s := by
  refine ⟨⟨fun e g h => ?_, by unfold ShedLaw; decide +kernel, fun e en h hn => ?_, steps_of (by decide +kernel)⟩,
    { dwellingFive (context .live) with pending := [.refreshTimerExpiry] }, ⟨by decide +kernel, by decide +kernel⟩, ?_, rfl,
    steps_of (by decide +kernel)⟩
  · have := of_all (fun e => (ctxAt loudShed e).gain) (fun g => decide (-200 ≤ g ∧ g ≤ 600)) (by decide +kernel) h
    simpa using this
  · have := of_all (activeAt loudShed) (fun en => en.alternate.isSome) (by decide +kernel) h
    simp [hn] at this
  · rintro d e h hv
    cases h
    cases hv
    exact ⟨rfl, rfl⟩

theorem witness_PositionsStayLawful : ∃ s, PositionLaw s ∧ (ctxAt s 5).state = .muted .loss ∧ Steps s :=
  ⟨{ five (context (.muted .loss)) with pending := [.refreshTimerExpiry] }, ⟨by decide +kernel, by decide +kernel⟩, rfl,
    steps_of (by decide +kernel)⟩

/-- A full line, with the last record position written and marked. -/
def fullLine : State :=
  let s := five (context .live)
  { s with
    pending := [.refreshTimerExpiry]
    dst := { s.dst with gapMarks := [1, 4095], dram := [(0, ⟨[], none, .data⟩), (4095, ⟨[], none, .data⟩)] } }

theorem witness_StoreStaysLawful :
    FillLaw fullLine ∧ dramWf fullLine.dst = true ∧ (lineAt fullLine 5).map Line.fill = some 32 ∧ Steps fullLine := by
  refine ⟨fun e l h => ?_, by decide +kernel, rfl, steps_of (by decide +kernel)⟩
  have := of_all (lineAt fullLine) (fun l => decide (l.fill ≤ 16 * l.pages.length)) (by decide +kernel) h
  simpa using this

theorem witness_FiguresStayLawful : ∃ s, FiguresLaw s.cmb.figures ∧ s.cmb.figures.composite = some (-20) ∧ Steps s :=
  ⟨{ State.reset with
      pending := [.outputBlockAssembly]
      cmb := { State.reset.cmb with figures := ⟨some (-20), -60, 0, 40, true, 1, 0⟩ } },
    by intro c h; cases h; decide, rfl, steps_of (by decide +kernel)⟩

theorem entryFive_sound : EntrySound entryFive where
  width := by decide
  primary := by unfold RangeSound; decide
  alternate := by intro a h; cases h; unfold RangeSound; decide
  output := by unfold RangeSound; decide
  fine := by decide
  target := by decide
  loss := by decide
  exponents := by decide
  codes := by decide
  pages := by decide
  primaryDelay := by decide
  alternateDelay := by decide
  priority := by decide

theorem powerOn_sound : SettingsSound Settings.powerOn := by constructor <;> decide

theorem planWith_at (en : Entry) (e : EntryIx) (x : Entry) (h : vget (planWith en) e = some x) : e = 5 ∧ x = en := by
  by_cases he : e = 5
  · subst he
    simp only [planWith, vget_vput_same, Option.some.injEq] at h
    exact ⟨rfl, h.symm⟩
  · simp [planWith, he, Plan.empty] at h

theorem five_plan : PlanLaw (five (context .live)) where
  staged := fun e en h => by simp [five, station, Pln.powerOn, Plan.empty] at h
  active := fun e en h => by obtain ⟨-, rfl⟩ := planWith_at _ e en h; exact entryFive_sound
  stagedSettings := powerOn_sound
  activeSettings := powerOn_sound
  activeFits := {
    outputs := fun i j a b hij ha hb => by
      obtain ⟨rfl, -⟩ := planWith_at _ i a ha
      obtain ⟨rfl, -⟩ := planWith_at _ j b hb
      exact absurd rfl hij
    taps := by decide +kernel
    pages := by decide +kernel }
  armedFits := by intro h; cases h
  taps := rfl

theorem witness_PlanStaysLawful : ∃ s, PlanLaw s ∧ activeAt s 5 = some entryFive ∧ Steps s :=
  ⟨{ five (context .live) with pending := [.refreshTimerExpiry] },
    let h := five_plan
    ⟨h.staged, h.active, h.stagedSettings, h.activeSettings, h.activeFits, h.armedFits, h.taps⟩, rfl,
    steps_of (by decide +kernel)⟩

theorem five_pages : PagesLaw (five (context .live)) where
  owned := by decide +kernel
  line := by
    intro e
    by_cases he : e = 5
    · subst he
      exact ⟨fun _ => ⟨entryFive, rfl, by decide⟩, fun _ => rfl⟩
    · constructor
      · intro h
        simp [lineAt, five, station, entryFive, he, State.reset, Dst.powerOn] at h
      · rintro ⟨en, h, -⟩
        exact absurd (planWith_at _ e en h).1 he
  list := by
    intro e l h
    by_cases he : e = 5
    · subst he
      cases (show some _ = some l from h)
      refine ⟨by decide, fun p => ?_⟩
      simp only [five, station, entryFive, State.reset, Dst.powerOn]
      by_cases h1 : 1 = p
      · simp [← h1]
      · by_cases h0 : 0 = p
        · simp [← h0]
        · have : p ≠ 0 ∧ p ≠ 1 := by omega
          simp [Vector.getElem?_replicate, h1, h0, this]
    · simp [lineAt, five, station, entryFive, he, State.reset, Dst.powerOn] at h

theorem witness_PagesStayLawful : ∃ s, PlanLaw s ∧ PagesLaw s ∧ (lineAt s 5).isSome = true ∧ Steps s :=
  ⟨{ five (context .live) with pending := [.refreshTimerExpiry] },
    let h := five_plan
    ⟨h.staged, h.active, h.stagedSettings, h.activeSettings, h.activeFits, h.armedFits, h.taps⟩,
    ⟨five_pages.owned, five_pages.line, five_pages.list⟩, rfl, steps_of (by decide +kernel)⟩

/-! ### Trunk ports and the service lane -/

/-- The bytes of a trunk frame that the check covers, its samples and service segment all zero. -/
def covered (t : Trunk) (hi lo flags : Byte) : List Byte := trunkIdentity t :: hi :: lo :: flags :: List.replicate 192032 0

/-- A whole trunk frame with its check. -/
def trunkFrame (t : Trunk) (hi lo flags : Byte) : List Byte :=
  trunkSync ++ covered t hi lo flags ++ checkField (covered t hi lo flags)

theorem length_four_more {α : Type} (a b c d : α) (l : List α) : (a :: b :: c :: d :: l).length = l.length + 4 := rfl

theorem covered_length (t : Trunk) (hi lo flags : Byte) : (covered t hi lo flags).length = 192036 := by
  unfold covered
  rw [length_four_more, List.length_replicate]

theorem checkField_length (b : List Byte) : (checkField b).length = 2 := rfl

/-- Every check has two bytes that it is not. -/
theorem exists_wrong_check (b : List Byte) : ∃ check : List Byte, check.length = 2 ∧ check ≠ checkField b := by
  by_cases h : checkField b = [0, 0]
  · exact ⟨[1, 0], rfl, by rw [h]; decide⟩
  · exact ⟨[0, 0], rfl, Ne.symm h⟩

/-- The parts of a frame of covered bytes with two more for its check. -/
theorem frame_parts (c check : List Byte) (hc : c.length = 192036) (hk : check.length = 2) :
    (trunkSync ++ c ++ check).length = 192042 ∧ (trunkSync ++ c ++ check).drop 192040 = check ∧
    ((trunkSync ++ c ++ check).take 192040).drop 4 = c := by
  have hs : trunkSync.length = 4 := rfl
  have hl : (trunkSync ++ c).length = 192040 := by rw [List.length_append, hs, hc]
  refine ⟨by rw [List.length_append, hl, hk], List.drop_left' hl, ?_⟩
  rw [List.take_left' hl]
  exact List.drop_left' hs

theorem trunkFrame_holds (t : Trunk) (hi lo flags : Byte) : TrunkCheckHolds (trunkFrame t hi lo flags) := by
  obtain ⟨hl, hd, ht⟩ := frame_parts _ _ (covered_length t hi lo flags) (checkField_length _)
  exact ⟨hl, hd.trans (congrArg checkField ht.symm)⟩

/-- A frame of the whole length whose check is not that of its covered bytes. -/
theorem exists_wrong_frame : ∃ b : List Byte, b.take 4 = trunkSync ∧ byteAt b 4 = trunkIdentity .A ∧ b.length = 192042 ∧
    ¬TrunkCheckHolds b := by
  obtain ⟨check, hk, hne⟩ := exists_wrong_check (covered .A 0 0 0)
  obtain ⟨hl, hd, ht⟩ := frame_parts _ _ (covered_length .A 0 0 0) hk
  exact ⟨trunkSync ++ covered .A 0 0 0 ++ check, rfl, rfl, hl, fun h => hne (hd.symm.trans (h.2.trans (congrArg checkField ht)))⟩

theorem trunkFrame_checks (t : Trunk) (hi lo flags : Byte) : checkMatches (trunkFrame t hi lo flags) 192040 = true := by
  obtain ⟨hl, hd⟩ := trunkFrame_holds t hi lo flags
  simp only [checkMatches, hl, hd, beq_self_eq_true, Bool.and_true]
  exact rfl

theorem sort_trunkFrame (t : Trunk) (hi lo flags : Byte) :
    sortWindow t (some (trunkFrame t hi lo flags)) = .good (readTrunkFrame (trunkFrame t hi lo flags)) := by
  have h1 : (trunkFrame t hi lo flags).take 4 = trunkSync := rfl
  have h2 : byteAt (trunkFrame t hi lo flags) 4 = trunkIdentity t := rfl
  simp only [sortWindow, h1, h2, trunkFrame_checks, ne_eq, not_true_eq_false, if_false, Bool.true_eq_false]

theorem trunkFrame_number (t : Trunk) (hi lo flags : Byte) :
    (readTrunkFrame (trunkFrame t hi lo flags)).number = (hi.toNat * 256 + lo.toNat) % 1024 := rfl

theorem trunkFrame_flags (t : Trunk) (hi lo flags : Byte) :
    (readTrunkFrame (trunkFrame t hi lo flags)).overload = flags.getLsbD 0 ∧
    (readTrunkFrame (trunkFrame t hi lo flags)).alarm = flags.getLsbD 1 := ⟨rfl, rfl⟩

theorem byteAt_zeros (n i : Nat) (l : List Byte) (h : i < n) : byteAt (List.replicate n 0 ++ l) i = 0 := by
  simp [byteAt, List.getD, List.getElem?_append_left, h]

theorem s16_zeros (n i : Nat) (l : List Byte) (h : i + 1 < n) : s16 (List.replicate n 0 ++ l) i = 0 := by
  have low : u8 (List.replicate n 0 ++ l) i = 0 := congrArg BitVec.toNat (byteAt_zeros n i l (Nat.lt_of_succ_lt h))
  have high : u8 (List.replicate n 0 ++ l) (i + 1) = 0 := congrArg BitVec.toNat (byteAt_zeros n (i + 1) l h)
  simp only [s16, u16, low, high]
  decide

/-- The samples of such a frame are all zero. -/
theorem trunkFrame_band (t : Trunk) (hi lo flags : Byte) :
    ∀ z ∈ (readTrunkFrame (trunkFrame t hi lo flags)).band, z = ⟨0, 0⟩ := by
  have hb : (readTrunkFrame (trunkFrame t hi lo flags)).band =
      readSamples 48000 (List.replicate 192032 0 ++ checkField (covered t hi lo flags)) := rfl
  intro z hz
  rw [hb] at hz
  obtain ⟨k, hk⟩ := List.getElem?_of_mem hz
  have hlt : k < 48000 := by
    have := (List.getElem?_eq_some_iff.mp hk).1
    rwa [readSamples_length] at this
  rw [readSamples_getElem? _ _ _ hlt] at hk
  cases hk
  rw [s16_zeros _ _ _ (by omega), s16_zeros _ _ _ (by omega)]

/-- A port in SYNC with reference number 1023, so that 0 is expected, and its counts at their greatest. -/
def portEdge : Port :=
  { Port.powerOn with align := .sync, reference := some 1023, damage := 65535, slips := 65535 }

/-- A station whose port of trunk A is in SYNC, with the tap table of its plan. -/
def tuned : State := { five (context .live) with rtA := portEdge }

theorem good_frame_at_zero : ∃ f, sortWindow .A (some (trunkFrame .A 0 0 0)) = .good f ∧ f.number = 0 ∧
    f.overload = false ∧ f.alarm = false :=
  ⟨_, sort_trunkFrame .A 0 0 0, trunkFrame_number .A 0 0 0, trunkFrame_flags .A 0 0 0⟩

theorem good_frame_at_one : ∃ f, sortWindow .A (some (trunkFrame .A 0 1 0)) = .good f ∧ f.number = 1 :=
  ⟨_, sort_trunkFrame .A 0 1 0, trunkFrame_number .A 0 1 0⟩

/-- Frames whose sync pattern, identity and check fail, each at its last byte, and one whose check holds; a good frame of the
expected number, one that slips, a damaged one and a missing one, at counts that saturate. -/
theorem witness_TrunkFrameAlignment : tuned.inReset = false ∧
    (∃ w f, sortWindow .A w = .good f ∧ ¬Slips (portOf tuned .A) (sortWindow .A w)) ∧
    (∃ w, Slips (portOf tuned .A) (sortWindow .A w)) ∧
    ((∃ b : List Byte, ¬b.take 4 = trunkSync) ∧ (∃ b : List Byte, b.take 4 = trunkSync ∧ byteAt b 4 ≠ 0x0A) ∧
      (∃ b : List Byte, b.take 4 = trunkSync ∧ byteAt b 4 = 0x0A ∧ b.length = 192042 ∧ ¬TrunkCheckHolds b) ∧
      (∃ b : List Byte, b.take 4 = trunkSync ∧ byteAt b 4 = 0x0A ∧ TrunkCheckHolds b) ∧
      ∃ w, sortWindow .A w = .damaged) ∧
    ∃ w, ∀ f, sortWindow .A w ≠ .good f := by
  obtain ⟨f, hf, hn, -⟩ := good_frame_at_zero
  obtain ⟨g, hg, hm⟩ := good_frame_at_one
  refine ⟨rfl, ⟨_, f, hf, ?_⟩, ⟨some (trunkFrame .A 0 1 0), ?_⟩, 
    ⟨⟨[0x3C, 0xA6, 0x59, 0xC2], by decide⟩, ⟨[0x3C, 0xA6, 0x59, 0xC3, 0x0B], rfl, by decide⟩, exists_wrong_frame,
      ⟨_, rfl, rfl, trunkFrame_holds .A 0 0 0⟩, some [0x3C, 0xA6, 0x59, 0xC3, 0x0A], by decide +kernel⟩, none,
    fun f h => by cases h⟩
  · rw [hf]
    rintro ⟨x, hx, -, hne⟩
    cases hx
    exact hne hn
  · rw [hg]
    exact ⟨g, rfl, .inl rfl, by rw [hm]; decide⟩

/-- A tap table in whose first and last row two taps have one range. -/
def pairRows : Vector (Option Tap) 24 :=
  Vector.ofFn fun i => if i = 0 then some ⟨.A, 40, 6, 5, .primary⟩ else if i = 23 then some ⟨.A, 40, 6, 6, .primary⟩ else none

/-- The taps of trunk A in the period are those of entry 5; a tap beside it may have the same range. A good frame of the expected
number brings GOOD. -/
theorem witness_TrunkFrameBlocks : tuned.inReset = false ∧ tapsOf .A tuned.ext = [⟨.A, 40, 6, 5, .primary⟩] ∧
    tapsOf .B tuned.ext = [⟨.B, 40, 6, 5, .alternate⟩] ∧
    tapsOf .A { Ext.powerOn with periodRows := pairRows } = [⟨.A, 40, 6, 5, .primary⟩, ⟨.A, 40, 6, 6, .primary⟩] ∧
    (∃ w f, sortWindow .A w = .good f ∧ ∀ z ∈ f.band, z = ⟨0, 0⟩) ∧
    ∃ w f, sortWindow .A w = .good f ∧ QualityIs (portOf tuned .A) (sortWindow .A w) .sync .good := by
  refine ⟨rfl, by decide +kernel, by decide +kernel, by decide +kernel,
    ⟨_, _, sort_trunkFrame .A 0 0 0, trunkFrame_band .A 0 0 0⟩, ?_⟩
  obtain ⟨f, hf, hn, ho, ha⟩ := good_frame_at_zero
  refine ⟨_, f, hf, rfl, f, hf, ?_, ho, ha⟩
  rw [hf]
  rintro ⟨x, hx, -, hne⟩
  cases hx
  exact hne hn

/-- Samples at full scale, at a half and at none of its power; and samples at and above full scale. -/
theorem witness_LevelsAndScalingRound :
    levelOfSamples [⟨32767, 0⟩] = 0 ∧ levelOfSamples [⟨32767, 0⟩, ⟨0, 0⟩] = -30 ∧ levelOfSamples [⟨0, 0⟩] = -900 ∧
    scaleComponent 600 0 = 0 ∧ scaleComponent (-200) 5 = 1 ∧
    samplePower ⟨0, -32767⟩ ≤ 32767 ^ 2 ∧ 32767 ^ 2 < samplePower ⟨1, -32767⟩ ∧ [(⟨5, 0⟩ : Sample)] ≠ [] ∧
    (0 < 500 * 1 ∧ 499 < 500 * 1) := by decide +kernel

theorem witness_MessageRoundTrip : (List.replicate 504 (0xC5 : Byte)).length ≤ 504 :=
  Nat.le_of_eq List.length_replicate

/-- A good frame taken in order and one that slips, a segment lost, lengths 7 and 513, and a check that fails at the shortest
and at the longest message. -/
theorem witness_ServiceSegment : tuned.inReset = false ∧
    (∃ w f, sortWindow .A w = .good f ∧ ¬Slips (portOf tuned .A) (sortWindow .A w)) ∧
    (∃ w, Slips (portOf tuned .A) (sortWindow .A w)) ∧ (∃ w, ∀ f, sortWindow .A w ≠ .good f) ∧
    ((0 : Byte).toNat * 256 + (7 : Byte).toNat < 8) ∧ (512 < (2 : Byte).toNat * 256 + (1 : Byte).toNat) ∧
    ((0 : Byte).toNat * 256 + (8 : Byte).toNat = [0, (0 : Byte)].length + 6 ∧
      ∃ check : List Byte, check.length = 2 ∧ check ≠ checkField [0, 8, 0, 0]) ∧
    (2 : Byte).toNat * 256 + (0 : Byte).toNat = (List.replicate 506 (0 : Byte)).length + 6 ∧
      ∃ check : List Byte, check.length = 2 ∧ check ≠ checkField (2 :: 0 :: List.replicate 506 0) := by
  obtain ⟨h, hg, hs, -, hm⟩ := witness_TrunkFrameAlignment
  exact ⟨h, hg, hs, hm, by decide, by decide, ⟨by decide, exists_wrong_check _⟩,
    by rw [List.length_replicate]; decide, exists_wrong_check _⟩

theorem witness_ReverseFrame : State.reset.inReset = false ∧ (List.replicate 32 (0xC5 : Byte)).length = 32 := ⟨rfl, rfl⟩

/-- A port in SYNC on a notice trunk with the notice of the reset due behind one already sent; and each ground for sending
none. -/
theorem witness_NoticeSending :
    let due : State := { State.reset with
      rtA := portEdge, svc := ⟨[], 0, [⟨.memory 1 0, true, false⟩, ⟨.reset false, false, false⟩]⟩ }
    (NoticesDistinct due ∧ (portOf due .A).course = none ∧ (portOf due .A).outbox = none ∧
      namesTrunk due.pln.activeSettings.noticeTrunk .A = true ∧ (portOf due .A).align = .sync ∧
      due.svc.notices = [⟨.memory 1 0, true, false⟩] ++ ⟨.reset false, false, false⟩ :: [] ∧
      (∀ x ∈ [(⟨.memory 1 0, true, false⟩ : Notice)], sentMark x .A = true) ∧
      sentMark ⟨.reset false, false, false⟩ .A = false) ∧
    namesTrunk due.pln.activeSettings.noticeTrunk .B = false ∧ (portOf State.reset .A).align ≠ .sync ∧
    (∃ s, (portOf s .A).course ≠ none) ∧ (∃ s, (portOf s .A).outbox ≠ none) ∧
    (List.replicate 16 PosClass.unchanged).length = 16 ∧ ∃ s : State, s.inReset = false ∧ ∀ x ∈ s.svc.notices, sentMark x .A = true := by
  refine ⟨⟨by unfold NoticesDistinct; decide, rfl, rfl, rfl, rfl, rfl, by decide, rfl⟩, rfl, by decide,
    ⟨{ State.reset with rtA := { portEdge with course := some ⟨[0], true⟩ } }, by simp [portOf]⟩,
    ⟨{ State.reset with rtA := { portEdge with outbox := some [] } }, by simp [portOf]⟩, rfl,
    { State.reset with svc := ⟨[], 0, []⟩ }, rfl, by simp⟩

/-! ### The plan store -/

theorem witness_PutEntry :
    Asked .putEntry (fun s _ => s.pln.armed = true) ∧
    Asked .putEntry (fun s b => s.pln.armed = false ∧ u8 b 0 = 16) ∧
    Asked .putEntry (fun s b => s.pln.armed = false ∧ u8 b 0 = 15 ∧ entryFieldError (b.drop 1) = some 1) ∧
    Asked .putEntry (fun s b => s.pln.armed = false ∧ u8 b 0 = (15 : EntryIx).val ∧ entryFieldError (b.drop 1) = none) :=
  ⟨asked .putEntry (List.replicate 28 0) (staging Plan.empty true) rfl,
    asked .putEntry (16 :: List.replicate 27 0) (staging Plan.empty false) ⟨rfl, by decide⟩,
    asked .putEntry (15 :: 2 :: List.replicate 26 0) (staging Plan.empty false) ⟨rfl, by decide, by decide⟩,
    asked .putEntry (15 :: entryRecord entryFive) (staging Plan.empty false) ⟨rfl, by decide, by decide +kernel⟩⟩

theorem witness_RecordsRoundTrip : EntrySound entryFive ∧ SettingsSound Settings.powerOn := ⟨entryFive_sound, powerOn_sound⟩

/-- The power-on record with the three enumerated settings as given. -/
def settingsBody (a b c : Byte) : List Byte := (settingsRecord Settings.powerOn).take 20 ++ [a, b, 20, 8, c]

theorem witness_PutSettings :
    Asked .putSettings (fun s _ => s.pln.armed = true) ∧
    Asked .putSettings (fun s b => s.pln.armed = false ∧ u8 b 20 = 2) ∧
    Asked .putSettings (fun s b => s.pln.armed = false ∧ u8 b 20 = 1 ∧ u8 b 21 = 2) ∧
    Asked .putSettings (fun s b => s.pln.armed = false ∧ u8 b 20 = 1 ∧ u8 b 21 = 1 ∧ u8 b 24 = 3) ∧
    Asked .putSettings (fun s b => s.pln.armed = false ∧ u8 b 20 = 1 ∧ u8 b 21 = 1 ∧ u8 b 24 = 2) :=
  ⟨asked .putSettings (settingsBody 0 0 0) (staging Plan.empty true) rfl,
    asked .putSettings (settingsBody 2 0 0) (staging Plan.empty false) ⟨rfl, by decide⟩,
    asked .putSettings (settingsBody 1 2 0) (staging Plan.empty false) ⟨rfl, by decide, by decide⟩,
    asked .putSettings (settingsBody 1 1 3) (staging Plan.empty false) ⟨rfl, by decide, by decide, by decide⟩,
    asked .putSettings (settingsBody 1 1 2) (staging Plan.empty false) ⟨rfl, by decide, by decide, by decide⟩⟩

theorem witness_DropAndCopy :
    Asked .dropEntry (fun s _ => s.pln.armed = true) ∧
    Asked .dropEntry (fun s b => s.pln.armed = false ∧ u8 b 0 = 16) ∧
    Asked .dropEntry (fun s b => s.pln.armed = false ∧ u8 b 0 = (15 : EntryIx).val) ∧
    Asked .copyActive (fun s _ => s.pln.armed = true) ∧ Asked .copyActive (fun s _ => s.pln.armed = false) :=
  ⟨asked .dropEntry [0] (staging Plan.empty true) rfl,
    asked .dropEntry [16] (staging Plan.empty false) ⟨rfl, by decide⟩,
    asked .dropEntry [15] (staging Plan.empty false) ⟨rfl, by decide⟩,
    asked .copyActive [] (staging Plan.empty true) rfl, asked .copyActive [] (staging Plan.empty false) rfl⟩

/-- A plan of two entries at positions 5 and 6. -/
def planOfTwo (a b : Entry) : Plan := vput (planWith a) 6 (some b)

/-- A plan with an entry at every position from 0 to `n`, each one slot further up. -/
def planUpTo (n : Nat) (en : Entry) : Plan :=
  Vector.ofFn fun i : Fin 16 => if i.val ≤ n then some { en with outStart := i.val * 6 } else none

/-- The plans at which APPLY decides: two outputs that share one slot; 26 taps where 24 may stand; 24 taps with 257 pages, and
with 256. -/
theorem witness_ApplyAndCancel :
    Asked .apply (fun s _ => s.pln.armed = true) ∧
    Asked .apply (fun s _ => s.pln.armed = false ∧ FirstOverlap s.pln.staged 5 6) ∧
    Asked .apply (fun s _ => s.pln.armed = false ∧ (∀ i j, i ≠ j → ¬Overlap s.pln.staged i j) ∧
      planTapCount s.pln.staged = 26) ∧
    Asked .apply (fun s _ => s.pln.armed = false ∧ (∀ i j, i ≠ j → ¬Overlap s.pln.staged i j) ∧
      planTapCount s.pln.staged = 9 ∧ planPages s.pln.staged = 288) ∧
    Asked .apply (fun s _ => s.pln.armed = false ∧ PlanFits s.pln.staged ∧ planPages s.pln.staged = 256) ∧
    Asked .cancel (fun s _ => s.pln.armed = true) ∧ Asked .cancel (fun s _ => s.pln.armed = false) := by
  have over_iff (p : Plan) (i j : EntryIx) : Overlap p i j ↔ positionsOverlap p i j = true := by
    unfold Overlap positionsOverlap outputsOverlap
    constructor
    · rintro ⟨a, b, ha, hb, h⟩
      rw [ha, hb]
      simpa using h
    · intro h
      split at h
      · rename_i a b ha hb
        exact ⟨a, b, ha, hb, by simpa using h⟩
      · cases h
  refine ⟨asked .apply [] (staging Plan.empty true) rfl,
    asked .apply [] (staging (planOfTwo entryFive { entryFive with outStart := 15 }) false) ⟨rfl, by decide, ?_, ?_⟩,
    asked .apply [] (staging (planUpTo 12 entryFive) false) ⟨rfl, ?_, by decide +kernel⟩,
    asked .apply [] (staging (planUpTo 8 { entryFive with alternate := none, pages := 32 }) false)
      ⟨rfl, ?_, by decide +kernel, by decide +kernel⟩,
    asked .apply [] (staging (planUpTo 7 { entryFive with alternate := none, pages := 32 }) false)
      ⟨rfl, ⟨?_, by decide +kernel, by decide +kernel⟩, by decide +kernel⟩,
    asked .cancel [] (staging Plan.empty true) rfl, asked .cancel [] (staging Plan.empty false) rfl⟩
  · rw [over_iff]
    decide +kernel
  · simp only [over_iff]
    decide +kernel
  · simp only [over_iff]
    decide +kernel
  · simp only [over_iff]
    decide +kernel
  · intro i j a b hij ha hb
    have := (by decide +kernel : ∀ i j : EntryIx, i ≠ j →
      positionsOverlap (planUpTo 7 { entryFive with alternate := none, pages := 32 }) i j = false) i j hij
    have hn : ¬Overlap (planUpTo 7 { entryFive with alternate := none, pages := 32 }) i j := by
      rw [over_iff, this]
      decide
    by_contra hc
    exact hn ⟨a, b, ha, hb, by omega⟩

/-- A station at its switch: entry 3 stands and entry 5 is retuned to priority 7 with its mark set; entry 4, on whom MON dwells,
is removed, entry 6 is added, and the path of entry 7 changes. The budget of the block sheds nothing. -/
def switching (armed : Bool) : State :=
  let s := five { context .fade with loss := 10, expired := true }
  let at_ (slot : Nat) : Option Entry := some { entryFive with outStart := slot, pages := 1, primaryDelay := 16 }
  { s with
    pln := { s.pln with
      active := vput (vput (vput s.pln.active 3 (at_ 20)) 4 (at_ 30)) 7 (at_ 50)
      staged := vput (vput (planOfTwo { entryFive with priority := 7, expiry := .notify } { entryFive with outStart := 40 }) 3
        (at_ 20)) 7 (some { entryFive with outStart := 50 })
      armed := armed }
    ctx := vput (vput s.ctx 4 (context .live)) 7 (context .live)
    txs := { airState .rampUp with atten := 10, qual := 2000 }
    mon := ⟨.scan, none, 4, some ⟨.entry 4, 8, 1, 0⟩, .none⟩ }

/-- The output block at whose completion the epoch comes, or another. -/
def courseAt (n : Nat) (restarted : Bool) : OutBlock := ⟨n, 0, Vector.replicate 16 .unread, restarted⟩

/-- Every class of position meets its clauses: unchanged, retuned with the mark set, removed with a dwell on it, added with pages,
path-changed, and empty. The ramp ends at the block; the notice of the reset is pending before and is not posted. -/
theorem witness_PlanSwitch :
    let o := courseAt 0 false
    let s := { switching true with cmb := { State.reset.cmb with course := some o } }
    (s.inReset = false ∧ s.cmb.course = some o ∧ o.restarted = false ∧ o.number = 0 ∧ s.pln.armed = true) ∧
    (∃ a, vget s.pln.active 3 = some a ∧ vget s.pln.staged 3 = some a) ∧
    (∃ a b, vget s.pln.active 5 = some a ∧ vget s.pln.staged 5 = some b ∧ SamePath a b ∧ a ≠ b ∧ b.priority = 7 ∧
      (ctxAt s 5).expired = true) ∧
    (EndsAt s 4 ∧ ¬StartsAt s 4 ∧ (ctxAt s 4).state ≠ .off ∧ ∃ d, s.mon.dwell = some d ∧ d.visited = .entry 4) ∧
    (StartsAt s 6 ∧ ¬EndsAt s 6 ∧ ∃ en, vget s.pln.staged 6 = some en ∧ 0 < en.pages) ∧
    (StartsAt s 7 ∧ EndsAt s 7) ∧ (vget s.pln.active 0 = none ∧ vget s.pln.staged 0 = none) ∧
    (∃ f, s.dst.pageMap[0]? = some (some f) ∧ ¬EndsAt s f) ∧ s.dst.pageMap[255]? = some none ∧
    (ramped s.pln.activeSettings s.txs).state ≠ s.txs.state ∧
    (∀ u, NotPosted o s u (sourceOf (.reset false))) ∧ (¬EndsAt s 3 ∧ ¬NewlyShed o s 3) ∧
    ∃ (s : State) (o : OutBlock), s.inReset = false ∧ s.cmb.course = some o ∧ o.restarted = true ∧ o.number = 0 ∧ s.pln.armed = true := by
  have keeps (x y : Option Entry) : Keeps x y ↔ x.isSome = true ∧ y.isSome = true ∧ classify x y ≠ .pathChange := by
    cases x <;> cases y <;> simp [Keeps, classify, SamePath, samePath]
    grind
  refine ⟨⟨rfl, rfl, rfl, rfl, rfl⟩, ⟨_, rfl, rfl⟩, ⟨_, _, rfl, rfl, ⟨rfl, rfl, rfl, rfl, rfl, rfl⟩, by decide, rfl, rfl⟩,
    ⟨?_, ?_, by decide, _, rfl, rfl⟩, ⟨?_, ?_, _, rfl, by decide⟩, ⟨?_, ?_⟩, ⟨rfl, rfl⟩, ⟨5, rfl, ?_⟩, rfl, by decide,
    fun _ => trivial, ⟨?_, ?_⟩, { switching true with cmb := { State.reset.cmb with course := some (courseAt 0 true) } }, courseAt 0 true,
    rfl, rfl, rfl, rfl, rfl⟩
  all_goals
    simp only [EndsAt, StartsAt, NewlyShed, keeps]
    decide +kernel

/-! ### Requests that report -/

theorem witness_Identify : Asked .identify (fun _ _ => True) := asked .identify [] State.reset trivial

theorem witness_Reports :
    Asked .getEntry (fun _ b => u8 b 0 = 16) ∧ Asked .getEntry (fun _ b => u8 b 0 ≤ 15 ∧ u8 b 1 = 2) ∧
    Asked .getEntry (fun _ b => u8 b 0 = (15 : EntryIx).val ∧ u8 b 1 = 0) ∧
    Asked .getEntry (fun _ b => u8 b 0 = (0 : EntryIx).val ∧ u8 b 1 = 1) ∧
    Asked .getSettings (fun _ b => u8 b 0 = 2) ∧ Asked .getSettings (fun _ b => u8 b 0 = 0) ∧
    Asked .getSettings (fun _ b => u8 b 0 = 1) ∧ Asked .getChannel (fun _ b => u8 b 0 = 16) ∧
    Asked .getChannel (fun _ b => u8 b 0 = (15 : EntryIx).val) ∧ Asked .getTransmit (fun _ _ => True) ∧
    Asked .getSupervision (fun _ _ => True) :=
  ⟨asked .getEntry [16, 0] State.reset (by decide), asked .getEntry [15, 2] State.reset (by decide),
    asked .getEntry [15, 0] State.reset (by decide), asked .getEntry [0, 1] State.reset (by decide),
    asked .getSettings [2] State.reset (by decide), asked .getSettings [0] State.reset (by decide),
    asked .getSettings [1] State.reset (by decide), asked .getChannel [16] State.reset (by decide),
    asked .getChannel [15] State.reset (by decide), asked .getTransmit [] State.reset trivial,
    asked .getSupervision [] State.reset trivial⟩

theorem witness_UnknownAndLength :
    (∃ s r rest, s.inReset = false ∧ s.svc.queue = r :: rest ∧ (portOf s r.trunk).outbox = none ∧
      ∀ k : Kind, r.kind.toNat ≠ k.code) ∧
    ∀ k : Kind, ∃ s r rest, s.inReset = false ∧ s.svc.queue = r :: rest ∧ (portOf s r.trunk).outbox = none ∧
      r.kind.toNat = k.code ∧ r.body.length = k.bodyLength + 1 :=
  ⟨⟨{ State.reset with svc := ⟨[⟨.A, 7, 0x52, []⟩], 0, []⟩ }, _, _, rfl, rfl, rfl, by intro k; cases k <;> decide⟩,
    fun k => ⟨ask k (List.replicate (k.bodyLength + 1) 0) State.reset, _, _, rfl, rfl, rfl, by cases k <;> rfl, by simp⟩⟩

theorem witness_Restart : Asked .restart (fun s _ => activeAt s 5 = some entryFive ∧ activeAt s 4 = none ∧ s.cmb.course ≠ none) :=
  asked .restart [] { five (context .live) with cmb := { State.reset.cmb with course := some (courseAt 7 false) } }
    ⟨rfl, by decide, by simp [ask]⟩

/-! ### Channel contexts: requests -/

/-- A request for entry 5 with the rest of its body, on the station with a context in a state. -/
theorem asked_five (k : Kind) (rest : List Byte) (st : CtxState) {p : State → List Byte → Prop}
    (hp : p (ask k (5 :: rest) (five (context st))) (5 :: rest)) (hl : (5 :: rest).length = k.bodyLength := by decide) :
    Asked k (fun s b => u8 b 0 = (5 : EntryIx).val ∧ p s b) :=
  asked k (5 :: rest) (five (context st)) ⟨rfl, hp⟩ hl rfl rfl

theorem witness_MuteUnmute :
    Asked .mute (fun _ b => u8 b 0 = 16) ∧ Asked .mute (fun s b => u8 b 0 = (4 : EntryIx).val ∧ (ctxAt s 4).state = .off) ∧
    Asked .mute (fun s b => u8 b 0 = (5 : EntryIx).val ∧ (ctxAt s 5).state = .muted .operator) ∧
    Asked .mute (fun s b => u8 b 0 = (5 : EntryIx).val ∧ (ctxAt s 5).state = .live) ∧
    Asked .unmute (fun _ b => u8 b 0 = 16) ∧
    Asked .unmute (fun s b => u8 b 0 = (5 : EntryIx).val ∧ (ctxAt s 5).state = .muted .testEnd) ∧
    Asked .unmute (fun s b => u8 b 0 = (5 : EntryIx).val ∧ (ctxAt s 5).state = .muted .overlevel) :=
  ⟨asked .mute [16] State.reset (by decide), asked .mute [4] State.reset (by decide),
    asked_five .mute [] (.muted .operator) rfl, asked_five .mute [] .live rfl, asked .unmute [16] State.reset (by decide),
    asked_five .unmute [] (.muted .testEnd) rfl, asked_five .unmute [] (.muted .overlevel) rfl⟩

theorem witness_ClearFaultEntry :
    Asked .clearFaultEntry (fun _ b => u8 b 0 = 16) ∧
    Asked .clearFaultEntry (fun s b => u8 b 0 = (4 : EntryIx).val ∧ (ctxAt s 4).state = .off) ∧
    Asked .clearFaultEntry (fun s b => u8 b 0 = (5 : EntryIx).val ∧ (ctxAt s 5).state = .muted .overlevel) ∧
    Asked .clearFaultEntry (fun s b => u8 b 0 = (5 : EntryIx).val ∧ (ctxAt s 5).state = .muted .loss) :=
  ⟨asked .clearFaultEntry [16] State.reset (by decide), asked .clearFaultEntry [4] State.reset (by decide),
    asked_five .clearFaultEntry [] (.muted .overlevel) rfl, asked_five .clearFaultEntry [] (.muted .loss) rfl⟩

theorem witness_ForceSource :
    Asked .forceSource (fun _ b => u8 b 0 = 16) ∧
    Asked .forceSource (fun s b => u8 b 0 = (5 : EntryIx).val ∧ u8 b 1 = 2 ∧ (ctxAt s 5).state = .live) ∧
    Asked .forceSource (fun s b => u8 b 0 = (5 : EntryIx).val ∧ u8 b 1 = 1 ∧ (ctxAt s 5).state = .test 0 0) ∧
    Asked .forceSource (fun s b => u8 b 0 = (5 : EntryIx).val ∧ u8 b 1 = 1 ∧ (ctxAt s 5).state = .acquire ∧
      ∃ en, activeAt s 5 = some en ∧ en.alternate = none) ∧
    Asked .forceSource (fun s b => u8 b 0 = (5 : EntryIx).val ∧ u8 b 1 = sourceCode .primary ∧ (ctxAt s 5).state = .fade ∧
      Source.primary = (ctxAt s 5).source) ∧
    Asked .forceSource (fun s b => u8 b 0 = (5 : EntryIx).val ∧ u8 b 1 = sourceCode .alternate ∧ (ctxAt s 5).state = .live ∧
      Source.alternate ≠ (ctxAt s 5).source ∧ ∃ en, activeAt s 5 = some en ∧ en.alternate ≠ none) ∧
    ∃ s o, (ctxAt s 5).state = .live ∧ s.cmb.course = some o ∧ vget o.answers 5 = .data ⟨[], some (-100), .data⟩ :=
  ⟨asked .forceSource [16, 0] State.reset (by decide), asked_five .forceSource [2] .live ⟨rfl, rfl⟩,
    asked_five .forceSource [1] (.test 0 0) ⟨rfl, rfl⟩,
    asked .forceSource [5, 1] (station { entryFive with alternate := none } (context .acquire))
      ⟨rfl, rfl, rfl, _, rfl, rfl⟩ rfl rfl rfl,
    asked_five .forceSource [0] .fade ⟨rfl, rfl, rfl⟩,
    asked_five .forceSource [1] .live ⟨rfl, rfl, by decide, _, rfl, by decide⟩,
    { five (context .live) with
      cmb := { State.reset.cmb with
        course := some ⟨1, 0, vput (Vector.replicate 16 .unread) 5 (.data ⟨[], some (-100), .data⟩), false⟩ } }, _, rfl, rfl, rfl⟩

/-! ### Channel contexts: blocks -/

/-- The station whose context takes one block. -/
def taking (en : Entry) (c : Ctx) (w : Waiting) : State := withBlock w (station en c)

theorem taking_ctx (en : Entry) (c : Ctx) (w : Waiting) : ctxAt (taking en c w) 5 = c := vget_vput_same _ _ _

/-- The block waits alone for a context that takes it. -/
theorem taking_takes (en : Entry) (c : Ctx) (r : Source) (q : Quality) (l : Option Int) (h : c.state ≠ .off) :
    Takes 5 r (taking en c (waiting r q l)) [] (waiting r q l) [] en where
  released := rfl
  waiting := rfl
  oldest := by simp
  owner := rfl
  role := rfl
  entry := rfl
  running := by rw [taking_ctx]; exact h
  fresh := Nat.le_refl 0

/-- Some block of entry 5 is taken, and the state, the block and the entry meet a condition. -/
def Taken (r : Source) (p : State → Waiting → Entry → Prop) : Prop :=
  ∃ s before w after en, Takes 5 r s before w after en ∧ p s w en

/-- The block of `taking` meets a condition of its own. -/
theorem taken (en : Entry) (c : Ctx) (r : Source) (q : Quality) (l : Option Int) {p : State → Waiting → Entry → Prop}
    (hp : p (taking en c (waiting r q l)) (waiting r q l) en) (h : c.state ≠ .off := by decide) : Taken r p :=
  ⟨_, _, _, _, _, taking_takes en c r q l h, hp⟩

theorem good_block (r : Source) : GoodBlock entryFive (waiting r .good (some (-600))).block := ⟨rfl, -600, rfl, by decide⟩

theorem bad_by_level (r : Source) : ¬GoodBlock entryFive (waiting r .good (some (-601))).block := by
  rintro ⟨-, l, h, hl⟩
  cases h
  exact absurd hl (by decide)

theorem bad_by_quality (en : Entry) (r : Source) : ¬GoodBlock en (waiting r .absent none).block := by
  rintro ⟨h, -⟩
  cases h

theorem witness_BlockDiscarded :
    (∃ s w, Waits 4 .primary s [] w [] ∧ (ctxAt s 4).state = .off) ∧
    ∃ s w, Waits 5 .primary s [] w [] ∧ (ctxAt s 5).state = .live ∧ w.gen + 1 = vget s.ext.since 5 :=
  ⟨⟨withBlock ⟨4, .primary, 0, ⟨[], .absent, none⟩⟩ (five (context .live)), _, ⟨rfl, rfl, by simp, rfl, rfl⟩, by decide⟩,
    (let s := taking entryFive (context .live) (waiting .primary .good (some 0))
     { s with ext := { s.ext with since := vput s.ext.since 5 1 } }), _, ⟨rfl, rfl, by simp, rfl, rfl⟩, rfl, rfl⟩

/-- A block at the loss threshold and one just below it, of the source in use and of the other. -/
theorem witness_BlockReadiness :
    Taken .primary (fun s w en => Source.primary = (ctxAt s 5).source ∧ ¬GoodBlock en w.block ∧
      (ctxAt s 5).badBlocks = 65535) ∧
    Taken .primary (fun _ w en => GoodBlock en w.block) ∧
    Taken .alternate (fun s w en => Source.alternate ≠ (ctxAt s 5).source ∧ ¬GoodBlock en w.block) :=
  ⟨taken entryFive { context .live with badBlocks := 65535 } .primary .good (some (-601)) ⟨rfl, bad_by_level _, rfl⟩,
    taken entryFive (context .live) .primary .good (some (-600)) (good_block _),
    taken entryFive (context .live) .alternate .absent none ⟨by decide, bad_by_quality _ _⟩⟩

theorem witness_GainEvaluation :
    Taken .primary (fun s w en => Source.primary = (ctxAt s 5).source ∧ w.block.quality = .good ∧
      w.block.level = some (-600) ∧ en.loss ≤ -600 ∧ (ctxAt s 5).gain = none) ∧
    Taken .primary (fun s w en => Source.primary = (ctxAt s 5).source ∧ w.block.quality = .good ∧
      w.block.level = some 0 ∧ en.loss ≤ 0 ∧ (ctxAt s 5).gain = some 600) ∧
    Taken .primary (fun s w en => Source.primary = (ctxAt s 5).source ∧ w.block.quality = .good ∧
      w.block.level = some (-600) ∧ en.loss ≤ -600 ∧ (ctxAt s 5).gain = some (-200)) ∧
    Taken .primary (fun _ w en => ¬GoodBlock en w.block) :=
  ⟨taken entryFive (context .live) .primary .good (some (-600)) ⟨rfl, rfl, rfl, by decide, rfl⟩,
    taken entryFive { context .live with gain := some 600 } .primary .good (some 0) ⟨rfl, rfl, rfl, by decide, rfl⟩,
    taken entryFive { context .live with gain := some (-200) } .primary .good (some (-600)) ⟨rfl, rfl, rfl, by decide, rfl⟩,
    taken entryFive (context .live) .primary .good (some (-601)) (bad_by_level _)⟩

/-- What a block comes to, when its step answers a state in which context 5 meets a condition. -/
def Becomes (s : State) (r : Source) (p : Ctx → Bool) : Prop :=
  after (exec (.channelBlock 5 r) s) (fun t => p (ctxAt t 5)) = true

/-- Entry 5 without pages, and a block whose output level comes to 0 and to 1 under the gain held; and of blocks that switch the
source, one without a level, one bad by level at an output level of 0 and of 1, and a good one. -/
theorem witness_BlockLevels :
    Taken .primary (fun s w _ => Source.primary = (ctxAt s 5).source ∧ w.block.quality = .absent) ∧
    Taken .primary (fun s w en => w.block.quality = .good ∧ w.block.level = some (-601) ∧ (ctxAt s 5).gain = none ∧
      -601 < en.loss) ∧
    Taken .primary (fun s w en => w.block.quality = .good ∧ w.block.level = some (-150) ∧ en.pages = 0 ∧
      Becomes s .primary (fun c => c.gain == some 0 && c.source == .primary)) ∧
    Taken .primary (fun s w _ => w.block.quality = .good ∧ w.block.level = some (-150) ∧
      Becomes s .primary (fun c => c.gain == some 151)) ∧
    Taken .primary (fun s _ _ => Becomes s .primary (fun c => c.source == .alternate)) ∧
    (∀ g, g = 101 ∨ g = 102 → Taken .primary (fun s w en => w.block.quality = .good ∧ w.block.level = some (-101) ∧
      -101 < en.loss ∧ (ctxAt s 5).gain = some g ∧ Becomes s .primary (fun c => c.source == .alternate))) ∧
    Taken .alternate (fun s w en => w.block.quality = .good ∧ w.block.level = some (-600) ∧ en.loss ≤ -600 ∧
      (ctxAt s 5).source = .alternate ∧ Becomes s .alternate (fun c => c.source == .primary)) :=
  ⟨taken entryFive (context .live) .primary .absent none ⟨rfl, rfl⟩,
    taken entryFive (context .live) .primary .good (some (-601)) ⟨rfl, rfl, rfl, by decide⟩,
    taken { entryFive with pages := 0 } (context .live) .primary .good (some (-150))
      ⟨rfl, rfl, rfl, by unfold Becomes; decide +kernel⟩,
    taken entryFive { context .live with gain := some 302 } .primary .good (some (-150))
      ⟨rfl, rfl, by unfold Becomes; decide +kernel⟩,
    taken entryFive { context .fade with loss := 9 } .primary .absent none (by unfold Becomes; decide +kernel),
    fun g hg => taken { entryFive with loss := -100 } { context .fade with loss := 9, gain := some g } .primary .good (some (-101))
      ⟨rfl, rfl, by decide, rfl, by rcases hg with rfl | rfl <;> (unfold Becomes; decide +kernel)⟩ (fun h => by cases h),
    taken entryFive { context (.muted .loss) with source := .alternate } .alternate .good (some (-600))
      ⟨rfl, rfl, by decide, rfl, by unfold Becomes; decide +kernel⟩⟩

/-- LIVE and FADE on a good and a bad block, FADE with the mark, and FADE two short of and at one short of the bridge. -/
theorem witness_LiveAndFade :
    (∀ st, st = CtxState.live ∨ st = .fade →
      Taken .primary (fun s w en => (ctxAt s 5).source = .primary ∧ (ctxAt s 5).state = st ∧ GoodBlock en w.block) ∧
      Taken .primary (fun s w en => (ctxAt s 5).source = .primary ∧ (ctxAt s 5).state = st ∧ ¬GoodBlock en w.block)) ∧
    Taken .primary (fun s w en => (ctxAt s 5).state = .fade ∧ ¬GoodBlock en w.block ∧ (ctxAt s 5).expired = true) ∧
    Taken .primary (fun s w en => (ctxAt s 5).state = .fade ∧ ¬GoodBlock en w.block ∧ (ctxAt s 5).expired = false ∧
      (ctxAt s 5).loss + 2 = bridgeTime en.bridgeCode) := by
  refine ⟨fun st h => ?_, taken entryFive { context .fade with expired := true } .primary .absent none
      ⟨rfl, bad_by_quality _ _, rfl⟩,
    taken entryFive { context .fade with loss := 8 } .primary .absent none ⟨rfl, bad_by_quality _ _, rfl, rfl⟩⟩
  have hn : st ≠ .off := by rintro rfl; simp at h
  exact ⟨taken entryFive (context st) .primary .good (some (-600)) ⟨rfl, rfl, good_block _⟩ hn,
    taken entryFive (context st) .primary .good (some (-601)) ⟨rfl, rfl, bad_by_level _⟩ hn⟩

/-- Expiries at the bridge exactly, under each expiry action, with the other source READY and not. -/
theorem witness_Expiry :
    (∀ a, Taken .primary (fun s w en => en.expiry = a ∧ (ctxAt s 5).source = .primary ∧ ¬GoodBlock en w.block ∧
      (ctxAt s 5).state = .fade ∧ (ctxAt s 5).expired = false ∧ bridgeTime en.bridgeCode = (ctxAt s 5).loss + 1 ∧
      en.alternate ≠ none ∧ Ready s (ctxAt s 5) (ctxAt s 5).source.other)) ∧
    Taken .primary (fun s w en => en.expiry = .failover ∧ ¬GoodBlock en w.block ∧ (ctxAt s 5).state = .acquire ∧
      bridgeTime en.bridgeCode = (ctxAt s 5).loss + 1 ∧ ¬Ready s (ctxAt s 5) (ctxAt s 5).source.other) ∧
    Taken .primary (fun s w en => en.expiry = .failover ∧ ¬GoodBlock en w.block ∧ (ctxAt s 5).state = .acquire ∧
      bridgeTime en.bridgeCode = (ctxAt s 5).loss + 1 ∧ en.alternate = none) :=
  ⟨fun a => taken { entryFive with expiry := a } { context .fade with loss := 9 } .primary .absent none
      ⟨rfl, rfl, bad_by_quality _ _, rfl, rfl, rfl, fun h => (by cases h), rfl⟩,
    taken entryFive { context .acquire with loss := 9, readyA := 49 } .primary .absent none
      ⟨rfl, bad_by_quality _ _, rfl, rfl, fun h => absurd (show (49 : Nat) = 50 from h) (by decide)⟩,
    taken { entryFive with alternate := none } { context .acquire with loss := 9 } .primary .absent none
      ⟨rfl, bad_by_quality _ _, rfl, rfl, rfl⟩⟩

/-- ACQUIRE one good block short of Q with the line full, and with the line one record short of the delay of 20 after the
handing on, with the mark clear and set; and its bad blocks. -/
theorem witness_Acquisition :
    Taken .primary (fun s w en => (ctxAt s 5).state = .acquire ∧ GoodBlock en w.block ∧
      Becomes s .primary (fun c => c.readyP == 50 && c.state == .live)) ∧
    Taken .primary (fun s w en => (ctxAt s 5).state = .acquire ∧ GoodBlock en w.block ∧
      Becomes s .primary (fun c => c.readyP == 49 && c.state == .acquire)) ∧
    Taken .primary (fun s w en => (ctxAt s 5).state = .acquire ∧ GoodBlock en w.block ∧ (ctxAt s 5).expired = true ∧
      Becomes s .primary (fun c => c.readyP == 49 && c.state == .acquire)) ∧
    Taken .primary (fun s w en => (ctxAt s 5).state = .acquire ∧ ¬GoodBlock en w.block ∧ (ctxAt s 5).expired = true) ∧
    Taken .primary (fun s w en => (ctxAt s 5).state = .acquire ∧ ¬GoodBlock en w.block ∧ (ctxAt s 5).expired = false ∧
      (ctxAt s 5).loss + 2 = bridgeTime en.bridgeCode) :=
  ⟨taken entryFive { context .acquire with readyP := 49 } .primary .good (some (-600))
      ⟨rfl, good_block _, by unfold Becomes; decide +kernel⟩,
    taken entryFive { context .acquire with readyP := 48 } .primary .good (some (-600))
      ⟨rfl, good_block _, by unfold Becomes; decide +kernel⟩,
    taken entryFive { context .acquire with readyP := 48, expired := true, loss := 10 } .primary .good (some (-600))
      ⟨rfl, good_block _, rfl, by unfold Becomes; decide +kernel⟩,
    taken entryFive { context .acquire with expired := true, loss := 10 } .primary .absent none
      ⟨rfl, bad_by_quality _ _, rfl⟩,
    taken entryFive { context .acquire with loss := 8 } .primary .absent none ⟨rfl, bad_by_quality _ _, rfl, rfl⟩⟩

/-- Recovery onto the source in use and onto the other, none with neither READY; revert at the hold exactly, one short of it,
without READY, and broken by a bad block. -/
theorem witness_RecoveryAndRevert :
    (Taken .primary (fun s _ en => en.expiry = .mute ∧ (ctxAt s 5).state = .muted .loss ∧
      Becomes s .primary (fun c => c.readyP == 50 && c.source == .primary))) ∧
    (Taken .primary (fun s _ en => en.expiry = .failover ∧ (ctxAt s 5).state = .muted .loss ∧ (ctxAt s 5).source = .primary ∧
      Becomes s .primary (fun c => c.readyP == 0 && c.readyA == 50 && c.source == .alternate))) ∧
    (Taken .primary (fun s _ en => en.expiry = .failover ∧ (ctxAt s 5).state = .muted .loss ∧
      Becomes s .primary (fun c => c.readyP == 0 && c.readyA == 49))) ∧
    (Taken .primary (fun s w en => en.expiry = .failover ∧ en.alternate ≠ none ∧ en.revert = true ∧
      (ctxAt s 5).source = .alternate ∧ (ctxAt s 5).state = .live ∧ GoodBlock en w.block ∧
      revertHold en.revertCode = (ctxAt s 5).revert + 1 ∧ Becomes s .primary (fun c => c.readyP == 50))) ∧
    (Taken .primary (fun s w en => (ctxAt s 5).source = .alternate ∧ (ctxAt s 5).state = .live ∧ GoodBlock en w.block ∧
      (ctxAt s 5).revert + 2 = revertHold en.revertCode)) ∧
    (Taken .primary (fun s w en => (ctxAt s 5).source = .alternate ∧ (ctxAt s 5).state = .live ∧ GoodBlock en w.block ∧
      revertHold en.revertCode = (ctxAt s 5).revert + 1 ∧ Becomes s .primary (fun c => c.readyP == 1))) ∧
    Taken .primary (fun s w en => (ctxAt s 5).source = .alternate ∧ (ctxAt s 5).state = .live ∧ ¬GoodBlock en w.block) := by
  refine ⟨taken { entryFive with expiry := .mute } (context (.muted .loss)) .primary .good (some 0) ⟨rfl, rfl, ?_⟩,
    taken entryFive (context (.muted .loss)) .primary .absent none ⟨rfl, rfl, rfl, ?_⟩,
    taken entryFive { context (.muted .loss) with readyA := 49 } .primary .absent none ⟨rfl, rfl, ?_⟩,
    taken entryFive { context .live with source := .alternate, revert := 999 } .primary .good (some (-600))
      ⟨rfl, by decide, rfl, rfl, rfl, good_block _, rfl, ?_⟩,
    taken entryFive { context .live with source := .alternate, revert := 998 } .primary .good (some (-600))
      ⟨rfl, rfl, good_block _, rfl⟩,
    taken entryFive { context .live with source := .alternate, revert := 999, readyP := 0 } .primary .good (some (-600))
      ⟨rfl, rfl, good_block _, rfl, ?_⟩,
    taken entryFive { context .live with source := .alternate, revert := 999 } .primary .absent none
      ⟨rfl, rfl, bad_by_quality _ _⟩⟩
  all_goals (unfold Becomes; decide +kernel)

/-! ### The delay store -/

/-- The station with its delay store changed. -/
def withDst (f : Dst → Dst) : State := let s := five (context .live); { s with dst := f s.dst }

theorem witness_AccessGrant : ∃ s : State, s.inReset = false ∧ s.dst.port ≠ .read ∧ s.dst.port ≠ .write ∧
    s.dst.refreshPending = true :=
  ⟨withDst fun d => { d with port := .orphan, refreshPending := true }, rfl, by decide, by decide, rfl⟩

/-- A write and a read one burst short of the last, and at the last. -/
theorem witness_BurstsComplete :
    (∀ n, ∃ s w, s.inReset = false ∧ s.dst.port = .write ∧ s.dst.writes = w :: [] ∧ w.done = n ∧ w.width = 6 ∧
      ∃ l, lineAt s w.entry = some l) ∧
    ∀ n, ∃ (s : State) (x : ReadReq) (o : OutBlock), s.inReset = false ∧ s.dst.port = .read ∧ s.dst.reads = x :: [] ∧
      x.done = n ∧ x.width = 6 ∧ s.cmb.course = some o :=
  ⟨fun n => ⟨withDst fun d => { d with port := .write, writes := [⟨5, 0, ⟨[], none, .data⟩, 6, n⟩] }, _, rfl, rfl, rfl, rfl, rfl,
      ⟨_, rfl⟩⟩,
    fun n => ⟨{ withDst (fun d => { d with port := .read, reads := [⟨5, 0, 6, n⟩] }) with
      cmb := { State.reset.cmb with course := some (courseAt 3 false) } }, _, _, rfl, rfl, rfl, rfl, rfl, rfl⟩⟩

/-- The port idle and busy; an overrun, with no dwell, and with one on an entry that returns to ACQUIRE and on one that does
not. -/
theorem witness_RefreshAndOverrun :
    (∀ st, ∃ s, s.inReset = false ∧ s.dst.refreshPending = true ∧ s.mon.dwell = some ⟨.entry 5, 8, 1, 0⟩ ∧
      (ctxAt s 5).state = st ∧ activeAt s 5 = some entryFive ∧ 0 < entryFive.pages) ∧
    (∃ s : State, s.inReset = false ∧ s.dst.refreshPending = false ∧ s.dst.port = .idle) ∧
    (∃ s : State, s.inReset = false ∧ s.dst.refreshPending = false ∧ s.dst.port = .write) ∧
    ∃ s : State, s.inReset = false ∧ s.dst.refreshPending = true ∧ s.dst.overruns = 255 ∧
      activeAt s 5 = some entryFive ∧ 0 < entryFive.pages ∧ (ctxAt s 5).state = .live ∧ (ctxAt s 4).state = .off ∧
      (∃ x ∈ s.dst.reads, x.entry = 5) ∧ ∃ o, s.cmb.course = some o :=
  ⟨fun st => ⟨(let s := dwellingFive (context st); { s with dst := { s.dst with refreshPending := true } }),
      rfl, rfl, rfl, rfl, rfl, by decide⟩,
    ⟨withDst id, rfl, rfl, rfl⟩, ⟨withDst fun d => { d with port := .write }, rfl, rfl, rfl⟩,
    { withDst (fun d => { d with refreshPending := true, overruns := 255, reads := [⟨5, 0, 6, 0⟩] }) with
      cmb := { State.reset.cmb with course := some (courseAt 3 false) } },
    rfl, rfl, rfl, rfl, by decide, rfl, by decide, ⟨_, List.mem_singleton.mpr rfl, rfl⟩, _, rfl⟩

/-- A write queue of 31 and of 32 writes; a block handed to the line, and one that switches the source. -/
theorem witness_RecordAccepted :
    (∃ d : Dst, d.writes.length = 31) ∧ (∃ d : Dst, d.writes.length = 32) ∧
    Taken .primary (fun s _ en => 0 < en.pages ∧ (∃ l, lineAt s 5 = some l) ∧
      Becomes s .primary (fun c => c.source == .primary)) ∧
    Taken .primary (fun s _ en => 0 < en.pages ∧ (∃ l, lineAt s 5 = some l) ∧
      Becomes s .primary (fun c => c.source == .alternate)) :=
  ⟨⟨{ Dst.powerOn with writes := List.replicate 31 ⟨5, 0, ⟨[], none, .data⟩, 6, 0⟩ }, by simp⟩,
    ⟨{ Dst.powerOn with writes := List.replicate 32 ⟨5, 0, ⟨[], none, .data⟩, 6, 0⟩ }, by simp⟩,
    taken entryFive (context .live) .primary .good (some 0) ⟨by decide, ⟨_, rfl⟩, by unfold Becomes; decide +kernel⟩,
    taken entryFive { context .fade with loss := 9 } .primary .absent none
      ⟨by decide, ⟨_, rfl⟩, by unfold Becomes; decide +kernel⟩⟩

/-- The read of entry 5 at its delay of 20: of a line that holds 19 and 20 records, with its write still queued, with its gap mark
set, and in the DRAM. -/
theorem witness_OutputStart :
    let l : Nat → Line := fun n => ⟨[0, 1], 0, n, n⟩
    let s : Nat → State := fun n => withDst fun d => setLine 5 (some (l n)) d
    let marked : State := withDst fun d => { setLine 5 (some (l 20)) d with gapMarks := [12] }
    let queued : State := withDst fun d =>
      { setLine 5 (some (l 20)) d with writes := [⟨5, 12, ⟨[], none, .data⟩, 6, 0⟩], port := .write }
    (ReadFor (s 19) 5 entryFive (l 19) ∧ (l 19).fill < entryDelay entryFive (ctxAt (s 19) 5).source) ∧
    (ReadFor (s 20) 5 entryFive (l 20) ∧ GoesToDram (s 20) 5 entryFive (l 20)) ∧
    (ReadFor marked 5 entryFive (l 20) ∧ readCell marked 5 entryFive (l 20) ∈ marked.dst.gapMarks) ∧
    (ReadFor queued 5 entryFive (l 20) ∧
      (queued.dst.writes.find? (fun w => w.cell == readCell queued 5 entryFive (l 20))).isSome = true) ∧
    (∀ en m, ¬ReadFor (s 20) 4 en m) ∧ ∃ t : State, (ctxAt t 5).state = .test 1 (-250) := by
  refine ⟨⟨⟨rfl, rfl, rfl, by decide⟩, by decide +kernel⟩, ⟨⟨rfl, rfl, rfl, by decide⟩, ?_⟩,
    ⟨⟨rfl, rfl, rfl, by decide⟩, by decide +kernel⟩, ⟨⟨rfl, rfl, rfl, by decide⟩, by decide +kernel⟩, ?_,
    five (context (.test 1 (-250))), rfl⟩
  · unfold GoesToDram
    decide +kernel
  · rintro en m ⟨h, -⟩
    exact absurd (planWith_at _ 4 en h).1 (by decide)

/-! ### The combiner -/

theorem witness_CompositeLevel : [-420, -200].Perm [-200, (-420 : Int)] ∧ CompositeIs [-200, -420] (-200) ∧
    [(-420 : Int)] ≠ [] ∧ composite [-420, -200] = some (-200) := by
  refine ⟨by decide, ?_, by decide, by decide +kernel⟩
  have := CompositeIs.more [-200] (-420) (-200) (.one _) (by decide)
  exact this

/-- Table 6-6, block 1: two shed, EXCESS with protected contributors only; and block 3, a restoration. -/
theorem witness_BudgetLaws :
    (([⟨3, -120, 7⟩, ⟨4, -130, 7⟩, ⟨5, -160, 2⟩, ⟨6, -160, 2⟩] : List Share).map Share.entry).Nodup ∧
    (let b := budget (-160) 30 10 [⟨3, -120, 7⟩, ⟨4, -130, 7⟩, ⟨5, -160, 2⟩, ⟨6, -160, 2⟩] []
     b.newlyShed = [⟨6, -160, 2⟩] ++ [⟨5, -160, 2⟩] ∧ b.backoff = 65 ∧ b.composite = some (-95)) ∧
    (let b := budget (-100) 30 10 [⟨3, -120, 7⟩, ⟨4, -130, 7⟩] [⟨5, -160, 2⟩]
     b.newlyShed = [] ∧ b.restored = some ⟨5, -160, 2⟩) ∧
    (budget 0 0 0 [] []).composite = none := by decide +kernel

/-- Entry 5 without pages at level 0, in an output block with a foldback of 100 (shed) or of 0 with its flag set (restored). -/
def loud (shed : Bool) : State :=
  let s := station { entryFive with pages := 0 } { context .live with shed := shed }
  { s with cmb := { s.cmb with held := vput s.cmb.held 5 (some ⟨[], some (-100), .data⟩) } }

theorem witness_BlockAssembled :
    let o : OutBlock := ⟨1, 100, Vector.replicate 16 .waiting, false⟩
    ((loud false).inReset = false ∧ ¬Switches o (loud false) ∧ (budgetAt o (loud false)).newlyShed = [⟨5, -100, 2⟩]) ∧
    (∃ s d, s.mon.dwell = some d ∧ d.visited = .entry 5 ∧ NewlyShed o s 5) ∧
    (∃ s d, s.mon.dwell = some d ∧ d.visited = .entry 4 ∧ ¬NewlyShed o s 4) ∧
    ¬Switches { o with restarted := true } (loud true) ∧
    (budgetAt { o with foldback := 0 } (loud true)).restored = some ⟨5, -100, 2⟩ := by
  let dwelling (e : EntryIx) : State := { loud false with mon := ⟨.scan, none, 4, some ⟨.entry e, 8, 1, 0⟩, .none⟩ }
  refine ⟨⟨rfl, ?_, by decide +kernel⟩, ⟨dwelling 5, _, rfl, rfl, by unfold NewlyShed; decide +kernel⟩,
    ⟨dwelling 4, _, rfl, rfl, by unfold NewlyShed; decide +kernel⟩, ?_, by decide +kernel⟩
  · rintro ⟨-, h, -⟩
    cases h
  · rintro ⟨h, -, -⟩
    cases h

/-- Each sequencer state with an output block in course, at which no switch comes; the ramp at its last step and before it. -/
theorem witness_RampAndDrive :
    (∀ q, ∃ s o, s.inReset = false ∧ s.cmb.course = some o ∧ ¬Switches o s ∧ s.txs.state = q) ∧
    (airState .rampUp).atten = 300 ∧ (∃ x : Txs, x.state = .rampUp ∧ x.atten = Settings.powerOn.rampStep) ∧
    (∃ x : Txs, x.state = .rampDown ∧ x.atten + Settings.powerOn.rampStep = 299) ∧
    (∃ x : Txs, x.state = .rampDown ∧ x.atten + Settings.powerOn.rampStep = 300) ∧
    (∃ r, SettingsSound r ∧ r.coolTime = 0) ∧ (47999 < 48000 ∧ 0 < [(⟨5, 0⟩ : Sample)].length) ∧ ∃ o s, (budgetAt o s).contributors = [] := by
  refine ⟨fun q => ⟨{ onTxs (airState q) with cmb := { State.reset.cmb with course := some (courseAt 1 false) } },
    courseAt 1 false, rfl, rfl, fun h => absurd h.2.1 (by decide), rfl⟩, rfl,
    ⟨{ airState .rampUp with atten := 10 }, rfl, rfl⟩, ⟨{ airState .rampDown with atten := 289 }, rfl, rfl⟩,
    ⟨{ airState .rampDown with atten := 290 }, rfl, rfl⟩, ⟨{ Settings.powerOn with coolTime := 0 }, ?_, rfl⟩,
    ⟨by decide, by decide⟩, courseAt 1 false, State.reset, by decide +kernel⟩
  constructor <;> decide

/-! ### The sequencer, the drive link and the monitor -/

theorem witness_ForwardFrame : State.reset.inReset = false ∧ ¬Measured State.reset ∧
    ([⟨32768, -32769⟩] : List Sample)[0]? = some ⟨32768, -32769⟩ := ⟨rfl, fun h => h.1 rfl, rfl⟩

/-- The station on the air, heard with entry 5 at -150, its monitor as given. -/
def heard (m : Mon) : State :=
  { five (context .live) with
    txs := { airState .onAir with toSend := some ⟨[], [⟨5, -150, 10, 6⟩]⟩ }
    mon := m }

/-- A dwell of four frames with three and with two counted, on the entry heard, on one not heard, and on the reference; and each
mode without a dwell, with something to visit and with nothing. -/
theorem witness_MonitorDwell :
    (∀ v n, ∃ s d, s.inReset = false ∧ Measured s ∧ s.mon.dwell = some d ∧ d.visited = v ∧ d.count = n ∧ d.length = 4) ∧
    (∃ s d, Measured s ∧ s.mon.dwell = some d ∧ d.visited = .reference ∧ d.length ≤ d.count + 1 ∧
      d.power = d.count * ((32767 ^ 2 : Nat) / 100 : Rat)) ∧
    (∀ m, (heardWith (heard m)).applied.find? (fun a => a.entry == 5) = some ⟨5, -150, 10, 6⟩ ∧
      (∀ a ∈ (heardWith (heard m)).applied, a.entry ≠ 4) ∧ Visitable (heard m) 5 ∧ ¬Visitable (heard m) 4 ∧
      2 ≤ (heard m).pln.activeSettings.dwell) ∧
    (0 : Rat) ≤ 32767 ^ 2 ∧ (∃ s, Measured s ∧ s.mon.dwell = none ∧ s.mon.mode = .scan ∧ ScanVisits s 5) ∧
    (∃ s, Measured s ∧ s.mon.dwell = none ∧ s.mon.mode = .scan ∧ ∀ e, ¬Visitable s e) ∧
    (∃ s, Measured s ∧ s.mon.dwell = none ∧ s.mon.mode = .lock 5) ∧
    ∃ s, Measured s ∧ s.mon.dwell = none ∧ s.mon.mode = .selftest := by
  have only : ∀ m e, Visitable (heard m) e → e = 5 := by
    rintro m e ⟨⟨a, ha, rfl⟩, -⟩
    cases (List.mem_singleton.mp ha)
    rfl
  have five_heard : ∀ m, Visitable (heard m) 5 := fun m => ⟨⟨_, List.mem_singleton.mpr rfl, rfl⟩, rfl, rfl⟩
  refine ⟨fun v n => ⟨heard ⟨.scan, none, 5, some ⟨v, 4, n, 0⟩, .none⟩, _, rfl, ⟨fun h => (by cases h), rfl⟩, rfl, rfl, rfl, rfl⟩,
    ⟨heard ⟨.selftest, none, 5, some ⟨.reference, 4, 3, (3 : Nat) * ((32767 ^ 2 : Nat) / 100 : Rat)⟩, .none⟩, _, ⟨by decide, rfl⟩,
      rfl, rfl, by decide, rfl⟩,
    fun m => ⟨rfl, ?_, five_heard m, fun h => absurd (only m 4 h) (by decide), by show 2 ≤ 8; decide⟩, by norm_num,
    ⟨heard ⟨.scan, none, 5, none, .none⟩, ⟨by decide, rfl⟩, rfl, rfl, 15, by decide, five_heard _, ?_⟩,
    ⟨onTxs (airState .onAir) |> fun s => { s with mon := ⟨.scan, none, 5, none, .none⟩ }, ⟨by decide, rfl⟩, rfl, rfl, ?_⟩,
    ⟨heard ⟨.lock 5, none, 5, none, .none⟩, ⟨by decide, rfl⟩, rfl, rfl⟩,
    heard ⟨.selftest, none, 5, none, .none⟩, ⟨by decide, rfl⟩, rfl, rfl⟩
  · intro a ha
    cases (List.mem_singleton.mp ha)
    decide
  · intro j hj h
    exact absurd (only _ _ h) ((by decide : ∀ j : EntryIx, j < 15 → (5 : EntryIx) + 1 + j ≠ 5) j hj)
  · rintro e ⟨⟨a, ha, -⟩, -⟩
    exact absurd ha (by simp [heardWith, onTxs, airState, State.reset, Txs.powerOn])

theorem witness_SetMonitor :
    Asked .setMonitor (fun _ b => u8 b 0 = 4) ∧ Asked .setMonitor (fun _ b => u8 b 0 = 2 ∧ u8 b 1 = 16) ∧
    Asked .setMonitor (fun s b => u8 b 0 = MonMode.off.code ∧ MonMode.off = s.mon.mode) ∧
    Asked .setMonitor (fun s b => u8 b 0 = MonMode.selftest.code ∧ MonMode.selftest ≠ s.mon.mode) ∧
    Asked .setMonitor (fun s b => u8 b 0 = (MonMode.lock 15).code ∧ u8 b 1 = (15 : EntryIx).val ∧
      MonMode.lock 15 ≠ s.mon.mode) ∧
    Asked .setMonitor (fun s b => u8 b 0 = MonMode.scan.code ∧ MonMode.scan ≠ s.mon.mode) :=
  ⟨asked .setMonitor [4, 0] State.reset (by decide), asked .setMonitor [2, 16] State.reset (by decide),
    asked .setMonitor [0, 99] State.reset (by decide), asked .setMonitor [3, 99] State.reset (by decide),
    asked .setMonitor [2, 15] State.reset (by decide), asked .setMonitor [1, 99] State.reset (by decide)⟩

/-- An empty window, and a frame with a wrong check, in each state; with 6 and with 7 invalid frames before it, the link UP; and a
test that a trip stops, with a dwell on its entry. -/
theorem witness_ReverseInvalid : (∃ s : State, s.txs.state ≠ .onAir ∧ s.pln.activeSettings.testStops = true ∧
      (ctxAt s 5).state = .test 1 0 ∧ s.mon.dwell = some ⟨.entry 5, 8, 1, 0⟩) ∧ InvalidFrame none ∧ InvalidFrame (some (driveSync ++ List.replicate 7 0)) ∧
    ∀ q n, ∃ s : State, s.inReset = false ∧ s.txs.state = q ∧ s.txs.linkUp = true ∧ s.txs.invalid = n := by
  refine ⟨⟨(let s := dwellingFive (context (.test 1 0))
      { s with pln := { s.pln with activeSettings := { Settings.powerOn with testStops := true } } }), by decide, rfl, rfl, rfl⟩,
    fun b h => (by cases h), fun b h => ?_, fun q n => ⟨onTxs { airState q with invalid := n }, rfl, rfl, rfl, rfl⟩⟩
  cases h
  exact .inr (by decide +kernel)

/-- Valid frames with P at -200 and below it, with a return loss that trips and one that does not, ready and alarm either way;
and a state of each name, one trip short of its count. -/
theorem witness_ReverseValid :
    ValidFrame (some (driveFrame (-200) (-279) 1)) (-200) (-279) true false ∧
    ValidFrame (some (driveFrame (-201) (-600) 1)) (-201) (-600) true false ∧
    ValidFrame (some (driveFrame 31 (-601) 3)) 30 (-600) true true ∧
    ValidFrame (some (driveFrame 0 0 0)) 0 0 false false ∧
    (-200 : Int) - (-279) < Settings.powerOn.tripRL ∧
    ∀ q, ∃ s : State, s.inReset = false ∧ s.txs.state = q ∧ s.txs.paAlarm = false ∧
      s.pln.activeSettings.tripCount = min 100 (s.txs.tripCount + 1) := by
  refine ⟨⟨_, rfl, by decide +kernel⟩, ⟨_, rfl, by decide +kernel⟩, ⟨_, rfl, by decide +kernel⟩, ⟨_, rfl, by decide +kernel⟩,
    by decide, fun q => ⟨onTxs { airState q with tripCount := 4 }, rfl, rfl, rfl, rfl⟩⟩

/-- The qualification counter one and two short of its setting in each state, keyed and not, ref_ok true and false; timers in
each state, run out and running. -/
theorem witness_ReferenceAndTimers :
    (∀ q k r n, ∃ s : State, s.inReset = false ∧ s.txs.state = q ∧ s.txs.keyed = k ∧ s.txs.refOk = r ∧ s.txs.qual = n ∧
      s.pln.activeSettings.refQual = 2000) ∧
    ∀ q b c, ∃ s : State, s.inReset = false ∧ s.txs.state = q ∧ s.txs.bias = b ∧ s.txs.cool = c :=
  ⟨fun q k r n => ⟨onTxs { airState q with keyed := k, refOk := r, qual := n }, rfl, rfl, rfl, rfl, rfl, rfl⟩,
    fun q b c => ⟨onTxs { airState q with bias := b, cool := c }, rfl, rfl, rfl, rfl⟩⟩

/-- Each sequencer state, with the link, PA ready and the held alarm either way. -/
theorem asked_air (k : Kind) (hk : k.bodyLength = 0) (q : Seq) (link ready alarm : Bool) :
    Asked k (fun s _ => s.txs.state = q ∧ s.txs.linkUp = link ∧ s.txs.paReady = ready ∧ s.txs.paAlarm = alarm) :=
  asked k [] (onTxs { airState q with linkUp := link, paReady := ready, paAlarm := alarm }) ⟨rfl, rfl, rfl, rfl⟩ hk.symm rfl rfl

theorem witness_KeyAndUnkey :
    (∀ q link ready, Asked .key (fun s _ => s.txs.state = q ∧ s.txs.linkUp = link ∧ s.txs.paReady = ready ∧
      s.txs.paAlarm = false)) ∧
    ∀ q, Asked .unkey (fun s _ => s.txs.state = q ∧ s.txs.linkUp = true ∧ s.txs.paReady = true ∧ s.txs.paAlarm = false) :=
  ⟨fun q link ready => asked_air .key rfl q link ready false, fun q => asked_air .unkey rfl q true true false⟩

theorem witness_ShutdownAndClear :
    (∀ q, Asked .shutdown (fun s _ => s.txs.state = q ∧ s.txs.linkUp = true ∧ s.txs.paReady = true ∧ s.txs.paAlarm = false)) ∧
    ∀ q link alarm, Asked .clearFaultTransmit (fun s _ => s.txs.state = q ∧ s.txs.linkUp = link ∧ s.txs.paReady = true ∧
      s.txs.paAlarm = alarm) :=
  ⟨fun q => asked_air .shutdown rfl q true true false, fun q link alarm => asked_air .clearFaultTransmit rfl q link true alarm⟩

/-! ### Timed test tones -/

theorem witness_TestTones :
    Asked .testStart (fun _ b => u8 b 0 = 16) ∧
    Asked .testStart (fun s b => u8 b 0 = (5 : EntryIx).val ∧ u8 b 3 = 0 ∧ ∀ n l, (ctxAt s 5).state ≠ .test n l) ∧
    Asked .testStart (fun s b => u8 b 0 = (5 : EntryIx).val ∧ u8 b 3 = 0 ∧ (ctxAt s 5).state = .test 1 0) ∧
    Asked .testStart (fun s b => u8 b 0 = (5 : EntryIx).val ∧ 0 < u8 b 3 ∧ (ctxAt s 5).state = .muted .overlevel) ∧
    Asked .testStart (fun s b => u8 b 0 = (5 : EntryIx).val ∧ u8 b 3 = 10 ∧ s16 b 1 = -401 ∧ (ctxAt s 5).state = .live) ∧
    Asked .testStart (fun s b => u8 b 0 = (5 : EntryIx).val ∧ u8 b 3 = 1 ∧ s16 b 1 = 0 ∧ (ctxAt s 5).state = .test 1 0) ∧
    Asked .testStop (fun _ b => u8 b 0 = 16) ∧
    Asked .testStop (fun s b => u8 b 0 = (5 : EntryIx).val ∧ (ctxAt s 5).state = .fade) ∧
    Asked .testStop (fun s b => u8 b 0 = (5 : EntryIx).val ∧ (ctxAt s 5).state = .test 1 0) ∧
    (∀ a, ∃ s : State, s.inReset = false ∧ (ctxAt s 5).state = .test 0 (-400) ∧ s.pln.activeSettings.testEnd = a) ∧
    ∃ s : State, s.inReset = false ∧ (ctxAt s 5).state = .test 1 (-400) :=
  ⟨asked .testStart [16, 0, 0, 1] State.reset (by decide),
    asked_five .testStart [0, 0, 0] .live ⟨rfl, fun n l h => by cases h⟩,
    asked_five .testStart [0, 0, 0] (.test 1 0) ⟨rfl, rfl⟩,
    asked_five .testStart [0, 0, 1] (.muted .overlevel) ⟨by decide, rfl⟩,
    asked_five .testStart [0xFE, 0x6F, 10] .live ⟨by decide, by decide, rfl⟩,
    asked_five .testStart [0, 0, 1] (.test 1 0) ⟨by decide, by decide, rfl⟩,
    asked .testStop [16] State.reset (by decide), asked_five .testStop [] .fade rfl, asked_five .testStop [] (.test 1 0) rfl,
    fun a => ⟨(let s := five (context (.test 0 (-400)))
      { s with pln := { s.pln with activeSettings := { Settings.powerOn with testEnd := a } } }), rfl, rfl, rfl⟩,
    five (context (.test 1 (-400))), rfl, rfl⟩

end Sys2Proof.Tests
end

section
/-! SUPPORT. The requests that change the plan store (R22 to R25, R28, R30): the answer of PLN in each case of PUT-SETTINGS,
DROP-ENTRY, COPY-ACTIVE, APPLY and CANCEL, and the claims PutSettings, DropAndCopy and ApplyAndCancel. Each claim reads its
request through `exec_serves`: SVC takes it from the queue, and what is left to say is what PLN answers. -/

namespace Sys2Proof.Machine

open Sys2Proof.Safety

/-! ### Requests refused while a switch is armed -/

theorem actDropEntry_armed (b : List Byte) {s : State} (h : s.pln.armed = true) : actDropEntry b s = ⟨.pending, [], s⟩ := by
  simp [actDropEntry, h]

theorem actPutSettings_armed (b : List Byte) {s : State} (h : s.pln.armed = true) :
    actPutSettings b s = ⟨.pending, [], s⟩ := by
  simp [actPutSettings, h]

theorem actCopyActive_armed (b : List Byte) {s : State} (h : s.pln.armed = true) :
    actCopyActive b s = ⟨.pending, [], s⟩ := by
  simp [actCopyActive, h]

theorem actApply_armed (b : List Byte) {s : State} (h : s.pln.armed = true) : actApply b s = ⟨.pending, [], s⟩ := by
  simp [actApply, h]

/-! ### PUT-SETTINGS (R22) -/

theorem testEndOfCode_isNone_iff : ∀ n, (testEndOfCode n).isNone = true ↔ 1 < n
  | 0 => by decide
  | 1 => by decide
  | n + 2 => by simp [testEndOfCode]

theorem boolOfCode_isNone_iff : ∀ n, (boolOfCode n).isNone = true ↔ 1 < n
  | 0 => by decide
  | 1 => by decide
  | n + 2 => by simp [boolOfCode]

theorem noticeTrunkOfCode_isNone_iff : ∀ n, (noticeTrunkOfCode n).isNone = true ↔ 2 < n
  | 0 => by decide
  | 1 => by decide
  | 2 => by decide
  | n + 3 => by simp [noticeTrunkOfCode]

/-- The tests of the enumerated settings, in their order, on the codes sent. -/
theorem settingsFieldError_eq (b : List Byte) :
    settingsFieldError b =
      if 1 < u8 b 20 then some 1 else if 1 < u8 b 21 then some 2 else if 2 < u8 b 24 then some 3 else none := by
  simp only [settingsFieldError, testEndOfCode_isNone_iff, boolOfCode_isNone_iff, noticeTrunkOfCode_isNone_iff]

theorem actPutSettings_field {b : List Byte} {s : State} {n : Nat} (h : s.pln.armed = false)
    (hn : settingsFieldError b = some n) : actPutSettings b s = ⟨.field, field8 n, s⟩ := by
  simp [actPutSettings, h, hn]

theorem actPutSettings_stored {b : List Byte} {s : State} (h : s.pln.armed = false) (hn : settingsFieldError b = none) :
    actPutSettings b s =
      ⟨clampStatus (clampSettings (settingsSent b) != settingsSent b), settingsRecord (clampSettings (settingsSent b)),
        setPln { s.pln with stagedSettings := clampSettings (settingsSent b) } s⟩ := by
  simp [actPutSettings, h, hn]

/-- The stored settings are the settings sent, each numeric one brought into its range of Table 2-3. -/
theorem settingsFrom_clampSettings (r : Settings) : SettingsFrom r (clampSettings r) where
  listed := ⟨rfl, rfl, rfl⟩
  ceiling := rfl
  maxBackoff := Nat.min_comm ..
  hysteresis := Nat.min_comm ..
  acquire := rfl
  rampStep := rfl
  biasDeadline := rfl
  coolTime := Nat.min_comm ..
  refQual := rfl
  foldStart := rfl
  foldMax := Nat.min_comm ..
  tripRL := rfl
  tripCount := rfl
  refresh := rfl
  tolerance := rfl
  dwell := rfl

/-- CLAMPED is the status exactly when the settings stored differ from those sent. -/
theorem clampStatus_ne_cases (x sent : Settings) :
    clampStatus (x != sent) = .clamped ∧ x ≠ sent ∨ clampStatus (x != sent) = .ok ∧ x = sent := by
  by_cases h : x = sent
  · exact .inr ⟨by simp [clampStatus, h], h⟩
  · exact .inl ⟨by simp [clampStatus, h], h⟩

/-- Settles O24: the tests in their order choose the refusal, and the record stored is the one sent with its clamps. -/
theorem putSettings : Obligations.PutSettings := by
  intro s r rest hs
  refine ⟨fun ha => exec_serves hs rfl (actPutSettings_armed _ ha), fun ha => ?_⟩
  have hfield {n : Nat} (hn : settingsFieldError r.body = some n) :
      exec .putSettings s = .next (answered r rest .field (field8 n) s) :=
    exec_serves hs rfl (actPutSettings_field ha hn)
  have herr := settingsFieldError_eq r.body
  refine ⟨fun h1 => ?_, fun h1 h2 => ?_, fun h1 h2 h3 => ?_, fun h1 h2 h3 => ?_⟩
  · exact hfield (n := 1) (by simp [herr, h1])
  · exact hfield (n := 2) (by simp [herr, h1.not_gt, h2])
  · exact hfield (n := 3) (by simp [herr, h1.not_gt, h2.not_gt, h3])
  · have hnone : settingsFieldError r.body = none := by simp [herr, h1.not_gt, h2.not_gt, h3.not_gt]
    exact ⟨_, _, settingsFrom_clampSettings _, clampStatus_ne_cases _ _,
      exec_serves hs rfl (actPutSettings_stored ha hnone)⟩

/-! ### DROP-ENTRY and COPY-ACTIVE (R24, R25) -/

theorem entryIndex_of_gt {n : Nat} (h : 15 < n) : entryIndex n = none := dif_neg (by omega)

@[simp] theorem entryIndex_val (e : EntryIx) : entryIndex e.val = some e := dif_pos e.isLt

theorem actDropEntry_index {b : List Byte} {s : State} (h : s.pln.armed = false) (hb : 15 < u8 b 0) :
    actDropEntry b s = ⟨.index, [], s⟩ := by
  simp [actDropEntry, h, entryIndex_of_gt hb]

theorem actDropEntry_dropped {b : List Byte} {s : State} {e : EntryIx} (h : s.pln.armed = false) (hb : u8 b 0 = e.val) :
    actDropEntry b s = ⟨.ok, field8 (vget s.pln.staged e).isSome.toNat, stageAt e none s⟩ := by
  simp [actDropEntry, h, hb]

/-- The mark of a position that holds an entry, as one byte (Table 11-5). -/
theorem field8_isSome {α : Type} (o : Option α) [Decidable (o = none)] :
    field8 o.isSome.toNat = [if o = none then 0 else 1] := by
  cases o with
  | none => simp [field8]
  | some a => simp [field8]

theorem actCopyActive_copied (b : List Byte) {s : State} (h : s.pln.armed = false) :
    actCopyActive b s =
      ⟨.ok, [], setPln { s.pln with staged := s.pln.active, stagedSettings := s.pln.activeSettings } s⟩ := by
  simp [actCopyActive, h]

/-- Settles O25: the cases of DROP-ENTRY by the arm state and the index sent, and of COPY-ACTIVE by the arm state. -/
theorem dropAndCopy : Obligations.DropAndCopy := by
  constructor <;> intro s r rest hs
  · refine ⟨fun ha => ?_, fun ha hb => ?_, fun e ha hb => ?_⟩
    · exact exec_serves hs rfl (actDropEntry_armed _ ha)
    · exact exec_serves hs rfl (actDropEntry_index ha hb)
    · rw [← field8_isSome]
      exact exec_serves hs rfl (actDropEntry_dropped ha hb)
  · exact ⟨fun ha => exec_serves hs rfl (actCopyActive_armed _ ha),
      fun ha => exec_serves hs rfl (actCopyActive_copied _ ha)⟩

/-! ### The first overlapping pair (Table 2-7) -/

theorem positionsOverlap_iff (p : Plan) (i j : EntryIx) : positionsOverlap p i j = true ↔ Overlap p i j := by
  unfold positionsOverlap Overlap outputsOverlap
  cases vget p i <;> cases vget p j <;> simp

theorem mem_positionPairs {q : EntryIx × EntryIx} : q ∈ positionPairs ↔ q.1 < q.2 := by
  obtain ⟨i, j⟩ := q
  simp [positionPairs, mem_entries]

/-- The pairs stand in the order of Table 2-7: by the lower entry, then by the higher one. -/
theorem positionPairs_pairwise : positionPairs.Pairwise (Prod.Lex (· < ·) (· < ·)) := by
  have hentries : entries.Pairwise (· < ·) := List.pairwise_lt_finRange 16
  refine List.pairwise_flatMap.2 ⟨fun i _ => ?_, hentries.imp fun {i k} hik => ?_⟩
  · exact (hentries.filter _).map _ fun _ _ h => .right _ h
  · intro q hq q' hq'
    obtain ⟨j, -, rfl⟩ := List.mem_map.1 hq
    obtain ⟨l, -, rfl⟩ := List.mem_map.1 hq'
    exact .left _ _ hik

/-- In an ordered list the element that meets a condition, and before which none does, is the one found. -/
theorem find?_eq_some_of_pairwise {α : Type} {R : α → α → Prop} {f : α → Bool} {l : List α} {x : α} (hl : l.Pairwise R)
    (hx : x ∈ l) (hf : f x = true) (hfirst : ∀ y ∈ l, R y x → f y = false) : l.find? f = some x := by
  obtain ⟨before, after, rfl⟩ := List.append_of_mem hx
  obtain ⟨-, -, hbefore⟩ := List.pairwise_append.1 hl
  refine List.find?_eq_some_iff_append.2 ⟨hf, before, after, rfl, fun y hy => ?_⟩
  simp [hfirst y (by simp [hy]) (hbefore y hy x (by simp))]

theorem firstOverlap_eq_some {p : Plan} {i j : EntryIx} (h : FirstOverlap p i j) : firstOverlap p = some (i, j) := by
  obtain ⟨hij, hover, hfirst⟩ := h
  refine find?_eq_some_of_pairwise positionPairs_pairwise (mem_positionPairs.2 hij) ((positionsOverlap_iff p i j).2 hover) ?_
  rintro ⟨k, l⟩ hkl hbefore
  rw [← Bool.not_eq_true, positionsOverlap_iff]
  intro hover'
  have hlater := hfirst k l (mem_positionPairs.1 hkl) hover'
  rcases Prod.lex_def.1 hbefore with hki | ⟨rfl, hlj⟩
  · exact hlater.elim hki.asymm fun h => hki.ne' h.1
  · exact hlater.elim (lt_irrefl _) fun h => hlj.not_ge h.2

theorem firstOverlap_eq_none {p : Plan} (h : ∀ i j, i ≠ j → ¬Overlap p i j) : firstOverlap p = none := by
  refine List.find?_eq_none.2 fun q hq => ?_
  rw [positionsOverlap_iff]
  exact h _ _ (mem_positionPairs.1 hq).ne

/-- In a plan that fits, no two outputs share a slot. -/
theorem not_overlap_of_planFits {p : Plan} (h : PlanFits p) (i j : EntryIx) (hij : i ≠ j) : ¬Overlap p i j := by
  rintro ⟨a, b, ha, hb, hab, hba⟩
  have := h.outputs i j a b hij ha hb
  omega

/-! ### APPLY and CANCEL (R28, R30) -/

theorem actApply_overlap (b : List Byte) {s : State} {i j : EntryIx} (h : s.pln.armed = false)
    (ho : firstOverlap s.pln.staged = some (i, j)) : actApply b s = ⟨.overlap, field8 i.val ++ field8 j.val, s⟩ := by
  simp [actApply, h, ho]

theorem actApply_taps (b : List Byte) {s : State} (h : s.pln.armed = false) (ho : firstOverlap s.pln.staged = none)
    (ht : 24 < planTapCount s.pln.staged) : actApply b s = ⟨.taps, field8 (planTapCount s.pln.staged), s⟩ := by
  simp [actApply, h, ho, ht]

theorem actApply_pages (b : List Byte) {s : State} (h : s.pln.armed = false) (ho : firstOverlap s.pln.staged = none)
    (ht : planTapCount s.pln.staged ≤ 24) (hp : 256 < planPages s.pln.staged) :
    actApply b s = ⟨.pages, field16 (planPages s.pln.staged), s⟩ := by
  simp [actApply, h, ho, ht.not_gt, hp]

theorem actApply_applied (b : List Byte) {s : State} (h : s.pln.armed = false) (hf : PlanFits s.pln.staged) :
    actApply b s =
      ⟨.armed, field8 (planTapCount s.pln.staged) ++ field16 (planPages s.pln.staged),
        setPln { s.pln with armed := true } s⟩ := by
  simp [actApply, h, firstOverlap_eq_none (not_overlap_of_planFits hf), hf.taps.not_gt, hf.pages.not_gt]

theorem actCancel_armed (b : List Byte) {s : State} (h : s.pln.armed = true) :
    actCancel b s = ⟨.ok, [], setPln { s.pln with armed := false } s⟩ := by
  simp [actCancel, h]

theorem actCancel_notArmed (b : List Byte) {s : State} (h : s.pln.armed = false) :
    actCancel b s = ⟨.notArmed, [], s⟩ := by
  simp [actCancel, h]

/-- Settles O26: APPLY's cases by its three checks in their order, where the pair found is the first of Table 2-7, and CANCEL's
by the arm state. -/
theorem applyAndCancel : Obligations.ApplyAndCancel := by
  constructor <;> intro s r rest hs
  · refine ⟨fun ha => exec_serves hs rfl (actApply_armed _ ha), fun ha => ⟨?_, ?_, ?_, ?_⟩⟩
    · exact fun i j ho => exec_serves hs rfl (actApply_overlap _ ha (firstOverlap_eq_some ho))
    · exact fun ho ht => exec_serves hs rfl (actApply_taps _ ha (firstOverlap_eq_none ho) ht)
    · exact fun ho ht hp => exec_serves hs rfl (actApply_pages _ ha (firstOverlap_eq_none ho) ht hp)
    · exact fun hf => exec_serves hs rfl (actApply_applied _ ha hf)
  · exact ⟨fun ha => exec_serves hs rfl (actCancel_armed _ ha), fun ha => exec_serves hs rfl (actCancel_notArmed _ ha)⟩

end Sys2Proof.Machine
end

section
/-! SUPPORT. The requests that change one channel context (R60, R61, R63): what an entry index selects, what entering MUTED
and leaving it for ACQUIRE commit, the answer of CTX in each case of MUTE, UNMUTE and CLEAR-FAULT(entry), and the claims
MuteUnmute and ClearFaultEntry. The last branch of an answer is reached under hypotheses that exclude the branches before
it; `simp` takes these from the context. -/

namespace Sys2Proof.Machine

open Sys2Proof.Safety

/-! ### The entry index and the committed change of a request -/

theorem onEntry_index {b : List Byte} {s : State} {f : EntryIx → Ctx → Reply} (hb : 15 < u8 b 0) :
    onEntry b s f = ⟨.index, [], s⟩ := by
  simp [onEntry, entryIndex_of_gt hb]

theorem onEntry_at {b : List Byte} {s : State} {f : EntryIx → Ctx → Reply} {e : EntryIx} (hb : u8 b 0 = e.val) :
    onEntry b s f = f e (ctxAt s e) := by
  simp [onEntry, hb]

/-- A request that commits a changed context is answered OK, and the change is committed on the state as it stood. -/
theorem exec_serves_commit {k : Kind} {s : State} {r : Request} {rest : List Request} (h : Serves k s r rest) {c : Instr}
    {act : List Byte → State → Reply} (hc : effect c = execRequest k act) {e : EntryIx} {n : Ctx} {why : Reason}
    (hu : act r.body (withQueue rest s) = ⟨.ok, [], commitCtx e n why (withQueue rest s)⟩) :
    exec c s = .next (answered r rest .ok [] (commitCtx e n why s)) :=
  exec_serves h hc (hu.trans (by rw [commitCtx_withQueue]))

/-! ### Entering MUTED, and leaving it for ACQUIRE -/

theorem reportChanged_toMuted {cause : Cause} {c : Ctx} (h : c.state ≠ .muted cause) :
    reportChanged c (toMuted cause c) = true := by
  cases hc : c.state with
  | muted old =>
    have : old ≠ cause := by rintro rfl; exact h hc
    simp [reportChanged, toMuted, stateCause, hc, this]
  | _ => simp [reportChanged, toMuted, stateName, hc]

/-- A context that enters MUTED, or changes its cause there, is reported; a contributor loses its shed flag and a dwell on it
ends (R54, R59, R142). -/
theorem commitCtx_toMuted {cause : Cause} {e : EntryIx} {why : Reason} {s : State} (h : (ctxAt s e).state ≠ .muted cause) :
    commitCtx e (toMuted cause (ctxAt s e)) why s = reported e
      { settled (ctxAt s e) with
        state := .muted cause
        shed := (ctxAt s e).shed && !isContributor (ctxAt s e).state }
      why (dwellLeft e s) :=
  commitCtx_left (reportChanged_toMuted h) rfl

/-- A context that leaves MUTED for ACQUIRE is reported, and the change brings nothing else: neither state contributes. -/
theorem commitCtx_muted_acquire {cause : Cause} {e : EntryIx} {n : Ctx} {why : Reason} {s : State}
    (h : (ctxAt s e).state = .muted cause) (hn : n.state = .acquire) : commitCtx e n why s = reported e n why s :=
  commitCtx_stays (by simp [reportChanged, stateName, h, hn]) (by simp [leavesAir, isContributor, h])

section
variable {b : List Byte} {s : State} {e : EntryIx} (hb : u8 b 0 = e.val)
include hb

/-! ### MUTE (R60) -/

theorem actMute_off (h : (ctxAt s e).state = .off) : actMute b s = ⟨.state, [], s⟩ := by
  simp [actMute, onEntry_at hb, h]

theorem actMute_operator (h : (ctxAt s e).state = .muted .operator) : actMute b s = ⟨.ok, [], s⟩ := by
  simp [actMute, onEntry_at hb, h]

theorem actMute_mutes (hoff : (ctxAt s e).state ≠ .off) (hop : (ctxAt s e).state ≠ .muted .operator) :
    actMute b s = ⟨.ok, [], commitCtx e (toMuted .operator (ctxAt s e)) .request s⟩ := by
  simp [actMute, onEntry_at hb]

/-! ### UNMUTE (R61) -/

theorem actUnmute_lifts (h : (ctxAt s e).state = .muted .operator ∨ (ctxAt s e).state = .muted .testEnd) :
    actUnmute b s = ⟨.ok, [], commitCtx e (toAcquire (ctxAt s e)) .request s⟩ := by
  rcases h with h | h <;> simp [actUnmute, onEntry_at hb, h]

theorem actUnmute_refused (hop : (ctxAt s e).state ≠ .muted .operator) (hte : (ctxAt s e).state ≠ .muted .testEnd) :
    actUnmute b s = ⟨.state, [], s⟩ := by
  simp [actUnmute, onEntry_at hb]

/-! ### CLEAR-FAULT(entry) (R63) -/

theorem actClearFaultEntry_off (h : (ctxAt s e).state = .off) : actClearFaultEntry b s = ⟨.state, [], s⟩ := by
  simp [actClearFaultEntry, onEntry_at hb, h]

theorem actClearFaultEntry_overlevel (h : (ctxAt s e).state = .muted .overlevel) :
    actClearFaultEntry b s =
      ⟨.ok, [], commitCtx e (toAcquire { ctxAt s e with strikes := 0, lowOutput := false }) .request s⟩ := by
  simp [actClearFaultEntry, onEntry_at hb, h]

theorem actClearFaultEntry_clears (hoff : (ctxAt s e).state ≠ .off) (hov : (ctxAt s e).state ≠ .muted .overlevel) :
    actClearFaultEntry b s = ⟨.ok, [], setCtx e { ctxAt s e with strikes := 0, lowOutput := false } s⟩ := by
  simp [actClearFaultEntry, onEntry_at hb]

end

/-! ### The claims -/

/-- Settles O32: the cases of MUTE and UNMUTE by the index sent and the state of the context it selects. -/
theorem muteUnmute : Obligations.MuteUnmute := by
  constructor <;> intro s r rest hs <;> refine ⟨fun hb => exec_serves hs rfl (onEntry_index hb), fun e hb => ?_⟩
  · refine ⟨fun h => exec_serves hs rfl (actMute_off hb h), fun h => exec_serves hs rfl (actMute_operator hb h),
      fun hoff hop => ?_⟩
    rw [← commitCtx_toMuted hop]
    exact exec_serves_commit hs rfl (actMute_mutes hb hoff hop)
  · refine ⟨fun h => ?_, fun hop hte => exec_serves hs rfl (actUnmute_refused hb hop hte)⟩
    have hcommit : commitCtx e (toAcquire (ctxAt s e)) .request s =
        reported e { settled (ctxAt s e) with state := .acquire } .request s :=
      h.elim (commitCtx_muted_acquire · rfl) (commitCtx_muted_acquire · rfl)
    rw [← hcommit]
    exact exec_serves_commit hs rfl (actUnmute_lifts hb h)

/-- Settles O33: the cases of CLEAR-FAULT(entry) by the index sent and the state of the context it selects. -/
theorem clearFaultEntry : Obligations.ClearFaultEntry := by
  intro s r rest hs
  refine ⟨fun hb => exec_serves hs rfl (onEntry_index hb), fun e hb =>
    ⟨fun h => exec_serves hs rfl (actClearFaultEntry_off hb h), fun h => ?_,
      fun hoff hov => exec_serves hs rfl (actClearFaultEntry_clears hb hoff hov)⟩⟩
  rw [← commitCtx_muted_acquire h rfl]
  exact exec_serves_commit hs rfl (actClearFaultEntry_overlevel hb h)

end Sys2Proof.Machine
end

section
/-! SUPPORT. The requests to the sequencer (R124, R125, R134, R135): how the entries into its states read in the words of the
claims, what committing a request's change comes to, the sequencer after KEY and UNKEY in each of its states, the answer of
TXS to SHUTDOWN and CLEAR-FAULT(transmit), and the claims KeyAndUnkey and ShutdownAndClear. -/

namespace Sys2Proof.Machine

open Sys2Proof.Safety

/-! ### Entries into the states of the sequencer (R124, R126, R128) -/

theorem toCool_eq_cooled (set : Settings) (x : Txs) : toCool set x = cooled set.coolTime x := by
  unfold toCool cooled
  split <;> rfl

theorem toRampUp_or_toHeld_eq_readied (x : Txs) : (if x.refOk = true then toRampUp x else toHeld x) = readied x := by
  unfold readied
  split <;> rfl

theorem cooled_state (n : Nat) (x : Txs) : (cooled n x).state = .offAir ∨ (cooled n x).state = .cool := by
  unfold cooled
  split <;> simp

theorem readied_state (x : Txs) : (readied x).state = .rampUp ∨ (readied x).state = .held := by
  unfold readied
  split <;> simp

/-! ### What a committed change comes to (R132, R133, R137) -/

/-- A change of state that neither is a trip nor leaves ON_AIR: the sequencer changes and TRANSMIT-CHANGED is posted. -/
theorem commitTxs_move_off_air {x : Txs} {s : State} (hne : x.state ≠ s.txs.state) (hx : x.state ≠ .tripped)
    (hair : s.txs.state ≠ .onAir) : commitTxs x s = sequenced x s := by
  rw [commitTxs_move hne hx, airLeft_of_ne hair]

/-- A change of keyed alone is reported by nothing. -/
theorem commitTxs_keyed (b : Bool) (s : State) :
    commitTxs { s.txs with keyed := b } s = { s with txs := { s.txs with keyed := b } } :=
  commitTxs_quiet rfl id

theorem tripOrFurther_tripTo {c : Trip} {s : State} (h : s.txs.state ≠ .tripped) :
    TripTo c s.txs s (tripOrFurther c s) := by
  rw [tripOrFurther, if_neg h]
  exact commitTxs_tripTo h

theorem tripOrFurther_furthered {c : Trip} {s : State} (h : s.txs.state = .tripped) :
    tripOrFurther c s = furthered s.txs s := by
  rw [tripOrFurther, if_pos h, furthered]
  split
  case isTrue hf =>
    have hsame : { s.txs with further := true } = s.txs := by rw [← hf]
    rw [hsame, commitTxs_quiet rfl id]
  case isFalse hf => exact commitTxs_further rfl rfl (Bool.eq_false_iff.2 hf)

theorem tripOrFurther_withQueue (c : Trip) (l : List Request) (s : State) :
    tripOrFurther c (withQueue l s) = withQueue l (tripOrFurther c s) := by
  simp only [tripOrFurther, withQueue_txs, commitTxs_withQueue]
  split <;> rfl

/-- A request that commits a changed sequencer is answered, and the change is committed on the state as it stood. -/
theorem exec_serves_commitTxs {k : Kind} {s : State} {r : Request} {rest : List Request} (h : Serves k s r rest) {c : Instr}
    {act : List Byte → State → Reply} (hc : effect c = execRequest k act) {st : Status} {x : Txs}
    (hu : act r.body (withQueue rest s) = ⟨st, [], commitTxs x (withQueue rest s)⟩) :
    exec c s = .next (answered r rest st [] (commitTxs x s)) :=
  exec_serves h hc (hu.trans (by rw [commitTxs_withQueue]))

/-! ### The sequencer after KEY (R124) -/

section
variable {x : Txs} (set : Settings)

theorem keyedTxs_offAir_up (h : x.state = .offAir) (hl : x.linkUp = true) :
    keyedTxs set x = { x with keyed := true, state := .biasWait, bias := some set.biasDeadline, cool := none } := by
  simp [keyedTxs, h, hl, toBiasWait]

theorem keyedTxs_offAir_lost (h : x.state = .offAir) (hl : x.linkUp = false) : keyedTxs set x = toTripped .link x := by
  simp [keyedTxs, h, hl, toTripped]

theorem keyedTxs_cool_ready (h : x.state = .cool) (hr : x.paReady = true) :
    keyedTxs set x = readied { x with keyed := true } := by
  simp [keyedTxs, h, hr, ← toRampUp_or_toHeld_eq_readied]

theorem keyedTxs_cool_notReady (h : x.state = .cool) (hr : x.paReady = false) :
    keyedTxs set x = { x with keyed := true, state := .biasWait, bias := some set.biasDeadline, cool := none } := by
  simp [keyedTxs, h, hr, toBiasWait]

theorem keyedTxs_rampDown (h : x.state = .rampDown) : keyedTxs set x = { x with keyed := true, state := .rampUp } := by
  simp [keyedTxs, h]

/-- In BIAS_WAIT and the keyed states that follow it, KEY sets keyed alone. -/
theorem keyedTxs_stays (h : x.state = .biasWait ∨ x.state = .rampUp ∨ x.state = .onAir ∨ x.state = .held) :
    keyedTxs set x = { x with keyed := true } := by
  rcases h with h | h | h | h <;> simp [keyedTxs, h]

/-! ### The sequencer after UNKEY (R125) -/

theorem unkeyedTxs_biasWait (h : x.state = .biasWait) : unkeyedTxs set x = toOffAir { x with keyed := false } := by
  simp [unkeyedTxs, h]

theorem unkeyedTxs_rampUp (h : x.state = .rampUp) :
    unkeyedTxs set x = { x with keyed := false, state := .rampDown } := by
  simp [unkeyedTxs, h]

theorem unkeyedTxs_onAir (h : x.state = .onAir) :
    unkeyedTxs set x = { x with keyed := false, state := .rampDown, atten := 0 } := by
  simp [unkeyedTxs, h]

theorem unkeyedTxs_held (h : x.state = .held) :
    unkeyedTxs set x = cooled set.coolTime { x with keyed := false } := by
  simp [unkeyedTxs, h, toCool_eq_cooled]

/-- In the states that UNKEY does not leave, it clears keyed alone. -/
theorem unkeyedTxs_stays (h : x.state = .offAir ∨ x.state = .rampDown ∨ x.state = .cool ∨ x.state = .tripped) :
    unkeyedTxs set x = { x with keyed := false } := by
  rcases h with h | h | h | h <;> simp [unkeyedTxs, h]

end

/-! ### The answers to the four requests -/

theorem actKey_tripped (b : List Byte) {s : State} (h : s.txs.state = .tripped) : actKey b s = ⟨.tripped, [], s⟩ := by
  simp [actKey, h]

theorem actKey_commits (b : List Byte) {s : State} {x : Txs} (h : s.txs.state ≠ .tripped)
    (hx : keyedTxs s.pln.activeSettings s.txs = x) :
    actKey b s = ⟨if x.state = .tripped then .tripped else .ok, [], commitTxs x s⟩ := by
  simp [actKey, h, hx]

theorem actClearFaultTransmit_notTripped (b : List Byte) {s : State} (h : s.txs.state ≠ .tripped) :
    actClearFaultTransmit b s = ⟨.state, [], s⟩ := by
  simp [actClearFaultTransmit, h]

theorem actClearFaultTransmit_active (b : List Byte) {s : State} (h : s.txs.state = .tripped)
    (ha : s.txs.paAlarm = true ∨ s.txs.linkUp = false) : actClearFaultTransmit b s = ⟨.active, [], s⟩ := by
  simp [actClearFaultTransmit, h, ha]

theorem actClearFaultTransmit_clears (b : List Byte) {s : State} (h : s.txs.state = .tripped) (ha : s.txs.paAlarm = false)
    (hl : s.txs.linkUp = true) :
    actClearFaultTransmit b s =
      ⟨.ok, [], commitTxs { toOffAir s.txs with cause := .none, further := false } s⟩ := by
  simp [actClearFaultTransmit, h, ha, hl]

/-! ### KEY and UNKEY as commands -/

section
variable {s : State} {r : Request} {rest : List Request} {x : Txs}

theorem exec_key_commits (hs : Serves .key s r rest) (h : s.txs.state ≠ .tripped)
    (hx : keyedTxs s.pln.activeSettings s.txs = x) :
    exec .key s = .next (answered r rest (if x.state = .tripped then .tripped else .ok) [] (commitTxs x s)) :=
  exec_serves_commitTxs hs rfl (actKey_commits _ h hx)

/-- KEY that takes the sequencer to another state than TRIPPED. -/
theorem exec_key_moves (hs : Serves .key s r rest) (hx : keyedTxs s.pln.activeSettings s.txs = x)
    (h : s.txs.state ≠ .tripped) (hair : s.txs.state ≠ .onAir) (hne : x.state ≠ s.txs.state) (hto : x.state ≠ .tripped) :
    exec .key s = .next (answered r rest .ok [] (sequenced x s)) := by
  rw [exec_key_commits hs h hx, if_neg hto, commitTxs_move_off_air hne hto hair]

theorem exec_unkey_commits (hs : Serves .unkey s r rest) (hx : unkeyedTxs s.pln.activeSettings s.txs = x) :
    exec .unkey s = .next (answered r rest .ok [] (commitTxs x s)) :=
  hx ▸ exec_serves_commitTxs hs rfl rfl

/-- UNKEY that takes the sequencer from a state other than ON_AIR to another state. -/
theorem exec_unkey_moves (hs : Serves .unkey s r rest) (hx : unkeyedTxs s.pln.activeSettings s.txs = x)
    (hair : s.txs.state ≠ .onAir) (hne : x.state ≠ s.txs.state) (hto : x.state ≠ .tripped) :
    exec .unkey s = .next (answered r rest .ok [] (sequenced x s)) := by
  rw [exec_unkey_commits hs hx, commitTxs_move_off_air hne hto hair]

end

/-! ### The claims -/

/-- Settles O58: the cases of KEY and UNKEY by the state of the sequencer, and of KEY by the link and PA ready as held. -/
theorem keyAndUnkey : Obligations.KeyAndUnkey := by
  constructor
  · intro s r rest hs x deadline
    refine ⟨fun h => exec_serves hs rfl (actKey_tripped _ h), fun h hl => ?_, fun h hl => ?_, fun h hr => ?_,
      fun h hr => ?_, fun h => ?_, fun h => ?_⟩
    · exact exec_key_moves hs (keyedTxs_offAir_up _ h hl) (by simp [h]) (by simp [h]) (by simp [h]) (by simp)
    · have hne : s.txs.state ≠ .tripped := by simp [h]
      exact ⟨_, commitTxs_tripTo hne, exec_key_commits hs hne (keyedTxs_offAir_lost _ h hl)⟩
    · have hto := readied_state x
      exact exec_key_moves hs (keyedTxs_cool_ready _ h hr) (by simp [h]) (by simp [h]) (by grind) (by grind)
    · exact exec_key_moves hs (keyedTxs_cool_notReady _ h hr) (by simp [h]) (by simp [h]) (by simp [h]) (by simp)
    · exact exec_key_moves hs (keyedTxs_rampDown _ h) (by simp [h]) (by simp [h]) (by simp [h]) (by simp)
    · have hne : s.txs.state ≠ .tripped := by rcases h with h | h | h | h <;> simp [h]
      rw [exec_key_commits hs hne (keyedTxs_stays _ h), if_neg hne, commitTxs_keyed]
  · intro s r rest hs x
    refine ⟨fun h => ?_, fun h => ?_, fun h => ?_, fun h => ?_, fun h => ?_⟩
    · exact exec_unkey_moves hs (unkeyedTxs_biasWait _ h) (by simp [h]) (by simp [h]) (by simp)
    · exact exec_unkey_moves hs (unkeyedTxs_rampUp _ h) (by simp [h]) (by simp [h]) (by simp)
    · rw [exec_unkey_commits hs (unkeyedTxs_onAir _ h), commitTxs_move (by simp [h]) (by simp)]
    · have hto := cooled_state s.pln.activeSettings.coolTime x
      exact exec_unkey_moves hs (unkeyedTxs_held _ h) (by simp [h]) (by grind) (by grind)
    · rw [exec_unkey_commits hs (unkeyedTxs_stays _ h), commitTxs_keyed]

/-- Settles O59: SHUTDOWN by whether the sequencer is in TRIPPED, and CLEAR-FAULT(transmit) by that and by what is still
active. -/
theorem shutdownAndClear : Obligations.ShutdownAndClear := by
  constructor <;> intro s r rest hs
  · have hexec : exec .shutdown s = .next (answered r rest .ok [] (tripOrFurther .command s)) :=
      exec_serves hs rfl (by rw [actShutdown, tripOrFurther_withQueue])
    exact ⟨fun h => ⟨_, tripOrFurther_tripTo h, hexec⟩, fun h => tripOrFurther_furthered h ▸ hexec⟩
  · refine ⟨fun h => exec_serves hs rfl (actClearFaultTransmit_notTripped _ h),
      fun h ha => exec_serves hs rfl (actClearFaultTransmit_active _ h ha), fun h ha hl => ?_⟩
    rw [exec_serves_commitTxs hs rfl (actClearFaultTransmit_clears _ h ha hl),
      commitTxs_move_off_air (by simp [h, toOffAir]) (by simp [toOffAir]) (by simp [h])]
    rfl

end Sys2Proof.Machine
end

section
/-! SUPPORT. IDENTIFY (R166) and the claim Identify. The request reads neither its body nor the state: its answer is one
constant body, whose bytes are evaluated once, and the serving of it goes through `exec_serves`. -/

namespace Sys2Proof.Machine

/-- R166's body, byte by byte: CT16 in ASCII, the revision, and the capacities, of which the 256 pages take two bytes, the
high byte first. -/
theorem identifyBody_bytes : identifyBody = [0x43, 0x54, 0x31, 0x36, 3, 16, 24, 1, 0, 96, 8] := by
  decide

theorem actIdentify_answers (b : List Byte) (s : State) :
    actIdentify b s = ⟨.ok, [0x43, 0x54, 0x31, 0x36, 3, 16, 24, 1, 0, 96, 8], s⟩ := by
  rw [actIdentify, identifyBody_bytes]

/-- Settles O28: IDENTIFY has one answer in every state, and leaves the state as the queue's change left it. -/
theorem identify : Obligations.Identify :=
  fun _ _ _ hs => exec_serves hs rfl (actIdentify_answers _ _)

end Sys2Proof.Machine
end

section
/-! SUPPORT. The command at the front of the queue, the power-on reset line, the power-on values, and the laws of the queues,
of the notices and of the delay store: each law is kept by every command through the closure of its operations. The claims
StepTakesFront, ResetLine, ResetValues, LawsHoldAtReset, QueuesStayBounded, NoticesStayDistinct and StoreStaysLawful. -/

namespace Sys2Proof.Machine

open Sys2Proof.Safety

/-! ### The command at the front, and the reset line (R1) -/

/-- Settles O1: a step is its own definition at a queue with a front, and at an empty one. -/
theorem stepTakesFront : Obligations.StepTakesFront := by
  refine ⟨fun _ _ _ => rfl, fun s h => ?_⟩
  rw [step, h]

/-- While the part is held in reset, every command but the two of the reset line leaves it as it was. -/
theorem exec_inReset {c : Instr} {s : State} (h : s.inReset = true) (h1 : c ≠ .powerOnReset)
    (h2 : c ≠ .powerOnResetLineLow) : exec c s = .next s := by
  cases c
  case powerOnReset => exact absurd rfl h1
  case powerOnResetLineLow => exact absurd rfl h2
  all_goals exact if_pos h

/-- Settles O2: the two commands of the reset line by definition, the others by the test that each makes first. -/
theorem resetLine : Obligations.ResetLine :=
  ⟨fun _ => rfl, fun _ => rfl, fun _ _ => exec_inReset⟩

/-! ### The power-on values -/

/-- Settles O3: the power-on values are evaluated, place by place. -/
theorem resetValues : Obligations.ResetValues := by
  refine ⟨fun t => by cases t <;> decide, by decide, by decide, rfl, rfl, rfl, by decide, by decide, ?_, ?_⟩
  · simp [State.reset, Dst.powerOn]
  · decide

/-! ### The laws at reset -/

theorem activeAt_reset (e : EntryIx) : activeAt State.reset e = none := by
  simp [activeAt, State.reset, Pln.powerOn, Plan.empty]

theorem ctxAt_reset (e : EntryIx) : ctxAt State.reset e = Ctx.powerOn := by simp [ctxAt, State.reset]

theorem lineAt_reset (e : EntryIx) : lineAt State.reset e = none := by simp [lineAt, State.reset, Dst.powerOn]

theorem sequencerLaw_powerOn : SequencerLaw Txs.powerOn := by
  constructor <;> decide

theorem settingsSound_powerOn : SettingsSound Settings.powerOn := by
  constructor <;> decide

theorem planSound_empty : PlanSound Plan.empty := by
  intro e en h
  simp [Plan.empty] at h

theorem planFits_empty : PlanFits Plan.empty where
  outputs := by simp [Plan.empty]
  taps := by decide
  pages := by decide

theorem buildRows_empty : buildRows Plan.empty = Vector.replicate 24 none := by decide

theorem planLaw_reset : PlanLaw State.reset where
  staged := planSound_empty
  active := planSound_empty
  stagedSettings := settingsSound_powerOn
  activeSettings := settingsSound_powerOn
  activeFits := planFits_empty
  armedFits := nofun
  taps := buildRows_empty.symm

theorem pagesLaw_reset : PagesLaw State.reset where
  owned e := by
    have hmap : State.reset.dst.pageMap = Vector.replicate 256 none := rfl
    rw [activeAt_reset, hmap, Vector.toList_replicate, List.filter_replicate_of_neg (by simp)]
    rfl
  line e := by simp [activeAt_reset, lineAt_reset]
  list e l h := by simp [lineAt_reset] at h

theorem positionLaw_reset : PositionLaw State.reset where
  off e := by simp [activeAt_reset, ctxAt_reset, Ctx.powerOn]
  quiet e _ _ _ := by simp [ctxAt_reset, Ctx.powerOn]

/-- Settles O4: each law at the power-on values. -/
theorem lawsHoldAtReset : Obligations.LawsHoldAtReset := by
  refine ⟨⟨by decide, by decide, by decide⟩, List.pairwise_singleton _ _, sequencerLaw_powerOn, fun e g h => ?_, fun e h => ?_,
    fun e en h => ?_, fun e l h => ?_, nofun, planLaw_reset, pagesLaw_reset, positionLaw_reset, nofun, reset_dramWf⟩
  · simp [ctxAt_reset, Ctx.powerOn] at h
  · simp [ctxAt_reset, Ctx.powerOn] at h
  · simp [activeAt_reset] at h
  · simp [lineAt_reset] at h

/-! ### Commands and the requests they execute -/

/-- What the block that owns a request kind does with its body. RESTART has no answer of its own: `restartRequest` says what
it does. -/
def actOf : Kind → List Byte → State → Reply
  | .identify => actIdentify
  | .restart => fun _ s => ⟨.ok, [], s⟩
  | .putEntry => actPutEntry
  | .dropEntry => actDropEntry
  | .putSettings => actPutSettings
  | .copyActive => actCopyActive
  | .apply => actApply
  | .cancel => actCancel
  | .getEntry => actGetEntry
  | .getSettings => actGetSettings
  | .getChannel => actGetChannel
  | .mute => actMute
  | .unmute => actUnmute
  | .forceSource => actForceSource
  | .clearFaultEntry => actClearFaultEntry
  | .getTransmit => actGetTransmit
  | .key => actKey
  | .unkey => actUnkey
  | .shutdown => actShutdown
  | .clearFaultTransmit => actClearFaultTransmit
  | .setMonitor => actSetMonitor
  | .getSupervision => actGetSupervision
  | .testStart => actTestStart
  | .testStop => actTestStop

/-- The command of a request kind executes what the owning block does; RESTART alone has an execution of its own. -/
theorem effect_commandOf {k : Kind} (h : k ≠ .restart) : effect (commandOf k) = execRequest k (actOf k) := by
  cases k
  case restart => exact absurd rfl h
  all_goals rfl

/-- What a property of the part needs in order to be kept by every step: it looks at neither the queue of commands nor the
line, a reset brings it, and each command and each part of the execution of a request keeps it. -/
structure StepKept (P : State → Prop) : Prop where
  pending  : ∀ s l, P s → P { s with pending := l }
  lineLow  : ∀ s, P s → P { s with inReset := true }
  powerOn  : ∀ s : State, P { State.reset with pending := s.pending, free := s.free }
  take     : ∀ s r rest, s.svc.queue = r :: rest → P s → P (setSvc { s.svc with queue := rest } s)
  respond  : ∀ r st b s, P s → P (respond r st b s)
  act      : ∀ k b s, P s → P (actOf k b s).state
  restart  : ∀ s, P s → P (warmRestart s)
  trunk    : ∀ t o s, P s → P (takeTrunkOutcome t o s)
  block    : ∀ e r s, P s → P (deliverBlock e r s)
  access   : ∀ s, P s → P (completeAccess s)
  refresh  : ∀ s, P s → P (refreshExpiry s)
  start    : ∀ s, P s → P (startBlock s)
  assembly : ∀ s, P s → P (assembleBlock s)
  forward  : ∀ s, P s → P (sendForward s)
  reverse  : ∀ w s, P s → P (takeReverse w s)
  lock     : ∀ l s, P s → P (sampleLock l s)
  bias     : ∀ s, P s → P (expireBias s)
  cool     : ∀ s, P s → P (expireCool s)
  test     : ∀ e s, P s → P (expireTest e s)
  send     : ∀ t s, P s → P (sendReverse t s)

theorem StepKept.effect {P : State → Prop} (h : StepKept P) (c : Instr) (s : State) (hs : P s) : P (effect c s) := by
  have request (k : Kind) : P (execRequest k (actOf k) s) := execRequest_keeps h.take (h.act k) h.respond hs
  cases c with
  | powerOnReset => exact h.powerOn s
  | powerOnResetLineLow => exact h.lineLow s hs
  | trunkFrame t w => exact h.trunk t _ s hs
  | channelBlock e r => exact h.block e r s hs
  | memoryAccessComplete => exact h.access s hs
  | refreshTimerExpiry => exact h.refresh s hs
  | outputBlockStart => exact h.start s hs
  | outputBlockAssembly => exact h.assembly s hs
  | forwardDriveFrame => exact h.forward s hs
  | reverseDriveFrame w => exact h.reverse w s hs
  | referenceLockSample l => exact h.lock l s hs
  | biasTimerExpiry => exact h.bias s hs
  | coolTimerExpiry => exact h.cool s hs
  | testExpiry e => exact h.test e s hs
  | reverseTrunkFrame t => exact h.send t s hs
  | unknownKind =>
    rw [Machine.effect]
    rcases unknownRequest_cases s with hu | ⟨r, rest, hq, -, hu⟩ <;> rw [hu]
    · exact hs
    · exact h.respond _ _ _ _ (h.take s r rest hq hs)
  | restart =>
    rw [Machine.effect]
    rcases restartRequest_cases s with hu | ⟨r, rest, hq, -, hu | hu⟩ <;> rw [hu]
    · exact hs
    · exact h.respond _ _ _ _ (h.take s r rest hq hs)
    · exact h.restart _ (h.respond _ _ _ _ (h.take s r rest hq hs))
  | identify => exact request .identify
  | putEntry => exact request .putEntry
  | dropEntry => exact request .dropEntry
  | putSettings => exact request .putSettings
  | copyActive => exact request .copyActive
  | apply => exact request .apply
  | cancel => exact request .cancel
  | getEntry => exact request .getEntry
  | getSettings => exact request .getSettings
  | getChannel => exact request .getChannel
  | mute => exact request .mute
  | unmute => exact request .unmute
  | forceSource => exact request .forceSource
  | clearFaultEntry => exact request .clearFaultEntry
  | getTransmit => exact request .getTransmit
  | key => exact request .key
  | unkey => exact request .unkey
  | shutdown => exact request .shutdown
  | clearFaultTransmit => exact request .clearFaultTransmit
  | setMonitor => exact request .setMonitor
  | getSupervision => exact request .getSupervision
  | testStart => exact request .testStart
  | testStop => exact request .testStop

/-- A property that every command keeps, and a reset brings, is kept by every step. -/
theorem StepKept.step {P : State → Prop} (h : StepKept P) {s t : State} (hs : P s) (ht : step s = .next t) : P t :=
  step_keeps h.pending h.effect hs ht

/-! ### The queues (R84, R89, R160) -/

/-- The write and read queues within their lengths. -/
def StoreQueuesBounded (d : Dst) : Prop := d.writes.length ≤ 32 ∧ d.reads.length ≤ 16

theorem storeQueuesBounded_closed : StoreClosed StoreQueuesBounded where
  book _ _ _ _ _ _ _ h := h
  writes _ _ hw h := ⟨hw.elim id (·.trans h.1), h.2⟩
  reads _ _ hr h := ⟨h.1, hr.elim id (·.trans h.2)⟩
  line _ _ _ _ h := h
  memory _ _ _ h := h
  mark _ _ h := h
  clear _ _ h := h
  start := ⟨by decide, by decide⟩

/-- The owning blocks leave the request queue to SVC. -/
theorem actOf_queue (k : Kind) (b : List Byte) (s : State) : (actOf k b s).state.svc.queue = s.svc.queue := by
  cases k <;> simp [actOf]

theorem requestQueue_kept : StepKept fun s => s.svc.queue.length ≤ 8 where
  pending _ _ h := h
  lineLow _ h := h
  powerOn _ := Nat.zero_le 8
  take s r rest hq h := by
    simp only [hq, List.length_cons] at h
    simpa using Nat.le_of_succ_le h
  respond _ _ _ _ h := by simpa [Machine.respond] using h
  act k b s h := by rwa [actOf_queue]
  restart _ _ := Nat.zero_le 8
  trunk t o s h := by simpa [takeTrunkOutcome] using feedAssembler_queue t _ _ o h
  block _ _ _ h := by simpa using h
  access _ h := by simpa using h
  refresh _ h := by simpa using h
  start _ h := by simpa using h
  assembly _ h := by simpa using h
  forward _ h := by simpa using h
  reverse _ _ h := by simpa using h
  lock _ _ h := by simpa using h
  bias _ h := by simpa using h
  cool _ h := by simpa using h
  test _ _ h := by simpa using h
  send _ _ h := by simpa using h

/-- A condition on the delay store that the elementary changes keep is kept by every step. -/
theorem StoreClosed.step {D : Dst → Prop} (h : StoreClosed D) {s t : State} (hs : D s.dst) (ht : step s = .next t) : D t.dst :=
  step_keeps (P := fun s => D s.dst) (fun _ _ hs => hs) (fun c _ hs => h.effect c hs) hs ht

/-- Settles O5: the request queue by its own commands, the queues of the delay store as a condition on the store. -/
theorem queuesStayBounded : Obligations.QueuesStayBounded := by
  rintro s t ⟨hq, hstore⟩ ht
  exact ⟨requestQueue_kept.step hq ht, storeQueuesBounded_closed.step (D := StoreQueuesBounded) hstore ht⟩

/-! ### The notices (R164) -/

/-- The twenty sources of Table 10-4. -/
def noticeSources : List NoticeSource := entries.map .channel ++ [.transmit, .plan, .memory, .reset]

theorem mem_noticeSources (x : NoticeSource) : x ∈ noticeSources := by
  cases x <;> simp [noticeSources, mem_entries]

/-- One notice per source makes at most twenty. -/
theorem Distinct.length_le {q : List Notice} (h : Distinct q) : q.length ≤ 20 := by
  have hnodup : (q.map fun n => sourceOf n.content).Nodup :=
    List.pairwise_map.2 (h.imp fun hab => by simpa [sameSource] using hab)
  have := (hnodup.subperm fun x _ => mem_noticeSources x).length_le
  simpa [noticeSources, entries] using this

/-- Settles O6: posting, sending and settling keep the sources distinct, and there are twenty of them. -/
theorem noticesStayDistinct : Obligations.NoticesStayDistinct := by
  intro s t hs ht
  have hd : Distinct t.svc.notices :=
    step_keeps (P := AllNotices Distinct) (fun _ _ h => h) (fun c _ h => h.effect distinct_closed c) hs ht
  exact ⟨hd, hd.length_le⟩

/-! ### The store (R83, Table 5-1) -/

/-- Every line's fill within its capacity. -/
def FillsBounded (d : Dst) : Prop := ∀ e l, vget d.lines e = some l → l.fill ≤ lineCapacity l

theorem fillsBounded_closed : StoreClosed FillsBounded where
  book _ _ _ _ _ _ _ h := h
  writes _ _ _ h := h
  reads _ _ _ h := h
  line d e l hl h f m hm := by
    simp only [setLine, vget_vput] at hm
    split at hm
    · rcases hl m hm with hfill | ⟨y, hy, hle, hpages⟩
      · exact hfill
      · have := h e y hy
        rw [lineCapacity, hpages] at this
        exact hle.trans this
    · exact h f m hm
  memory _ _ _ h := h
  mark _ _ h := h
  clear _ _ h := h
  start := by simp [FillsBounded, Dst.powerOn]

theorem dramWf_closed : StoreClosed fun d => dramWf d = true where
  book _ _ _ _ _ _ _ h := h
  writes _ _ _ h := h
  reads _ _ _ h := h
  line _ _ _ _ h := h
  memory _ _ _ h := dramWrite_wf h
  mark _ _ h := setGapMark_wf h
  clear _ _ h := clearGapMark_wf h
  start := by decide

/-- Settles O10: both laws are conditions on the store that its elementary changes keep. -/
theorem storeStaysLawful : Obligations.StoreStaysLawful :=
  ⟨fun _ _ hs ht => fillsBounded_closed.step (D := FillsBounded) hs ht, fun _ _ hs ht => dramWf_closed.step hs ht⟩

end Sys2Proof.Machine
end

section
/-! SUPPORT. The law of the sequencer (R121 to R135): each change of its fields keeps the law, and so does every command. The
claim SequencerStaysLawful. -/

namespace Sys2Proof.Safety

open Sys2Proof.Machine

/-! ### The law through each change of the sequencer -/

variable {x : Txs}

/-- The law looks at no field that a report or a reading alone changes. -/
theorem SequencerLaw.congr {y : Txs} (h : SequencerLaw x) (hstate : y.state = x.state) (hkeyed : y.keyed = x.keyed)
    (hlink : x.linkUp = true → y.linkUp = true) (hatten : y.atten = x.atten) (hcause : y.cause = x.cause)
    (hfurther : y.further = x.further) (hbias : y.bias.isSome = x.bias.isSome) (hcool : y.cool.isSome = x.cool.isSome) :
    SequencerLaw y where
  keyed := by rw [hkeyed, hstate, h.keyed]
  link hb := hlink (h.link (hstate ▸ hb))
  fullDrive hs := by rw [hatten, h.fullDrive (hstate ▸ hs)]
  attenuation := hatten ▸ h.attenuation
  cause := by rw [hcause, hstate, h.cause]
  further hf := hstate ▸ h.further (hfurther ▸ hf)
  bias := by rw [hbias, hstate, h.bias]
  cool := by rw [hcool, hstate, h.cool]

/-- Outside TRIPPED no cause and no further-faults mark stands. -/
theorem SequencerLaw.untripped (h : SequencerLaw x) (hs : x.state ≠ .tripped) : x.cause = .none ∧ x.further = false :=
  ⟨not_not.1 fun hc => hs (h.cause.1 hc), Bool.eq_false_iff.2 fun hf => hs (h.further hf)⟩

/-- A trip needs nothing but that no further-faults mark stands, and a cause. -/
theorem sequencerLaw_toTripped {c : Trip} (hc : c ≠ .none) : SequencerLaw (toTripped c x) := by
  constructor <;> simp [toTripped, wantsAir, biasOn, hc]

theorem SequencerLaw.furthered (h : SequencerLaw x) (hs : x.state = .tripped) : SequencerLaw { x with further := true } where
  keyed := h.keyed
  link := h.link
  fullDrive := h.fullDrive
  attenuation := h.attenuation
  cause := h.cause
  further _ := hs
  bias := h.bias
  cool := h.cool

/-- Entry into OFF_AIR with the keyed flag clear and nothing left of a trip. -/
theorem sequencerLaw_toOffAir (hk : x.keyed = false) (ha : x.atten ≤ 300) (hc : x.cause = .none) (hf : x.further = false) :
    SequencerLaw (toOffAir x) := by
  constructor <;> simp [toOffAir, wantsAir, biasOn, hk, hc, hf, ha]

/-- Entry into COOL, or through it into OFF_AIR, with the keyed flag clear. -/
theorem sequencerLaw_toCool {set : Settings} (hk : x.keyed = false) (hl : x.linkUp = true) (hc : x.cause = .none)
    (hf : x.further = false) : SequencerLaw (toCool set x) := by
  unfold toCool
  split
  · exact sequencerLaw_toOffAir hk le_rfl hc hf
  · constructor <;> simp [wantsAir, biasOn, hk, hc, hf, hl]

/-- Entry into BIAS_WAIT, RAMP_UP or HELD, keyed and with the link UP. -/
theorem sequencerLaw_toKeyed {set : Settings} (hk : x.keyed = true) (hl : x.linkUp = true) (ha : x.atten ≤ 300)
    (hc : x.cause = .none) (hf : x.further = false) :
    SequencerLaw (toBiasWait set x) ∧ SequencerLaw (toRampUp x) ∧ SequencerLaw (toHeld x) := by
  refine ⟨?_, ?_, ?_⟩ <;> constructor <;> simp [toBiasWait, toRampUp, toHeld, wantsAir, hk, hl, hc, hf, ha]

/-- A change of ref_ok (R129). -/
theorem SequencerLaw.refChange (h : SequencerLaw x) (set : Settings) (ok : Bool) : SequencerLaw (refChange set ok x) := by
  have hsame : SequencerLaw { x with refOk := ok } := h.congr rfl rfl id rfl rfl rfl rfl rfl
  simp only [Machine.refChange]
  split
  · split
    · next hheld =>
      obtain ⟨hs, hk⟩ := hheld
      obtain ⟨hc, hf⟩ := h.untripped (by simp_all)
      exact (sequencerLaw_toKeyed (x := { x with refOk := ok }) (set := set) hk (h.link (by simp_all [biasOn]))
        h.attenuation hc hf).2.1
    · exact hsame
  · split
    · next hd =>
      have hb : biasOn x.state = true := by cases hs : x.state <;> simp_all [driving, biasOn]
      obtain ⟨hc, hf⟩ := h.untripped (by intro hs; simp_all [driving])
      split
      · next hk => exact (sequencerLaw_toKeyed (x := { x with refOk := ok }) (set := set) hk (h.link hb) h.attenuation hc hf).2.2
      · next hk => exact sequencerLaw_toCool (by simpa using hk) (h.link hb) hc hf
    · exact hsame

/-- The sequencer after KEY (R124), outside TRIPPED. -/
theorem SequencerLaw.keyedTxs (h : SequencerLaw x) (set : Settings) (hs : x.state ≠ .tripped) :
    SequencerLaw (keyedTxs set x) := by
  obtain ⟨hc, hf⟩ := h.untripped hs
  have hlink := h.link
  have hstay (hk : x.keyed = true) : SequencerLaw { x with keyed := true } := by rwa [← hk]
  have hkeyed := h.keyed
  have hbias := h.bias
  have hcool := h.cool
  have hto (hl : x.linkUp = true) :=
    sequencerLaw_toKeyed (x := { x with keyed := true }) (set := set) rfl hl h.attenuation hc hf
  simp only [Machine.keyedTxs]
  cases hx : x.state <;> simp [hx, biasOn, wantsAir] at hlink hkeyed hbias hcool ⊢
  case offAir =>
    split
    · next hl => exact hx ▸ (hto hl).1
    · exact sequencerLaw_toTripped (by decide)
  case cool =>
    split
    · split
      · exact (hto hlink).2.1
      · exact (hto hlink).2.2
    · exact (hto hlink).1
  case rampDown => constructor <;> simp [wantsAir, hc, hf, hlink, h.attenuation, hbias, hcool]
  case tripped => exact absurd hx hs
  all_goals exact hx ▸ hstay hkeyed

/-- The sequencer after UNKEY (R125). -/
theorem SequencerLaw.unkeyedTxs (h : SequencerLaw x) (set : Settings) : SequencerLaw (unkeyedTxs set x) := by
  have hlink := h.link
  have hstay (hk : x.keyed = false) : SequencerLaw { x with keyed := false } := by rwa [← hk]
  have hkeyed := h.keyed
  have huntripped := h.untripped
  have hbias := h.bias
  have hcool := h.cool
  simp only [Machine.unkeyedTxs]
  cases hx : x.state <;> simp [hx, biasOn, wantsAir] at hlink hkeyed huntripped hbias hcool ⊢
  case biasWait => exact sequencerLaw_toOffAir rfl h.attenuation huntripped.1 huntripped.2
  case held => exact sequencerLaw_toCool rfl hlink huntripped.1 huntripped.2
  case rampUp => constructor <;> simp [wantsAir, huntripped, hlink, h.attenuation, hbias, hcool]
  case onAir => constructor <;> simp [wantsAir, huntripped, hlink, hbias, hcool]
  all_goals exact hx ▸ hstay hkeyed

/-- The step of attenuation at a completed output block (R127, R128). -/
theorem SequencerLaw.rampStep (h : SequencerLaw x) (set : Settings) : SequencerLaw (rampStep set x) := by
  have hatten := h.attenuation
  simp only [Machine.rampStep]
  split
  · next hs =>
    obtain ⟨hc, hf⟩ := h.untripped (by simp [hs])
    have hl := h.link (by simp [hs, biasOn])
    have hk := h.keyed
    have hb := h.bias
    have ht := h.cool
    simp [hs, wantsAir] at hk hb ht
    split <;> constructor <;> simp [wantsAir, hc, hf, hl, hk, hb, ht, hs]
    omega
  · next hs =>
    obtain ⟨hc, hf⟩ := h.untripped (by simp [hs])
    have hl := h.link (by simp [hs, biasOn])
    have hk := h.keyed
    have hb := h.bias
    have ht := h.cool
    simp [hs, wantsAir] at hk hb ht
    split
    · exact sequencerLaw_toCool hk hl hc hf
    · constructor <;> simp [wantsAir, hc, hf, hl, hk, hb, ht, hs]
      omega
  · exact h

theorem SequencerLaw.settleTxs (h : SequencerLaw x) (set : Settings) : SequencerLaw (settleTxs set x) := by
  simp only [Machine.settleTxs]
  have hq (n : Nat) : SequencerLaw { x with foldback := min set.foldMax x.foldback, qual := n } :=
    h.congr rfl rfl id rfl rfl rfl rfl rfl
  split
  · split
    · exact hq _
    · exact (hq _).refChange set true
  · exact h.congr rfl rfl id rfl rfl rfl rfl rfl

/-! ### The law through the shared operations -/

@[simp] theorem commitTxs_txs (x : Txs) (s : State) : (commitTxs x s).txs = x := by
  simp only [commitTxs]
  split <;> split <;> split <;> simp

theorem tripOrFurther_txs {c : Trip} {s : State} (h : s.txs.state ≠ .tripped) :
    (tripOrFurther c s).txs = toTripped c s.txs := by
  rw [tripOrFurther, if_neg h, commitTxs_txs]

theorem SequencerLaw.tripOrFurther {s : State} (h : SequencerLaw s.txs) {c : Trip} (hc : c ≠ .none) :
    SequencerLaw (tripOrFurther c s).txs := by
  simp only [Machine.tripOrFurther]
  split
  · next hs => simpa using h.furthered hs
  · simpa using sequencerLaw_toTripped hc

@[simp] theorem settleSettings_txs (s : State) : (settleSettings s).txs = settleTxs s.pln.activeSettings s.txs := by
  simp [settleSettings]

@[simp] theorem planSwitch_txs (s : State) : (planSwitch s).txs = settleTxs s.pln.stagedSettings s.txs := by
  simp [planSwitch, adoptPlan]

theorem SequencerLaw.completeBlock {s : State} (h : SequencerLaw s.txs) (o : OutBlock) :
    SequencerLaw (completeBlock o s).txs := by
  simp only [Machine.completeBlock]
  repeat' split
  case isTrue.isTrue => simpa using h.settleTxs _
  all_goals simpa using h

theorem SequencerLaw.takeOutputBlock {s : State} (h : SequencerLaw s.txs) (band : List Sample) (placed : List Applied) :
    SequencerLaw (takeOutputBlock band placed s).txs := by
  apply (h.rampStep s.pln.activeSettings).congr <;> simp [Machine.takeOutputBlock]

theorem SequencerLaw.assembleBlock {s : State} (h : SequencerLaw s.txs) : SequencerLaw (assembleBlock s).txs := by
  simp only [Machine.assembleBlock]
  split
  · exact h
  · refine SequencerLaw.completeBlock (SequencerLaw.takeOutputBlock ?_ _ _) _
    simpa using h

/-- An invalid frame (R121): where the link is lost, a bias-on state trips in the same event. -/
theorem SequencerLaw.takeInvalid {s : State} (h : SequencerLaw s.txs) : SequencerLaw (takeInvalid s).txs := by
  simp only [Machine.takeInvalid]
  generalize satInc 255 s.txs.invalid = n
  split
  · next hlost =>
    by_cases hs : s.txs.state = .tripped
    · have hoff : biasOn s.txs.state = false := by simp [hs, biasOn]
      refine SequencerLaw.tripOrFurther ?_ (by decide)
      exact ⟨h.keyed, by simp [hoff], h.fullDrive, h.attenuation, h.cause, h.further, h.bias, h.cool⟩
    · rw [tripOrFurther_txs (by exact hs)]
      exact sequencerLaw_toTripped (by decide)
  · next hlost =>
    refine ⟨h.keyed, fun hb => ?_, h.fullDrive, h.attenuation, h.cause, h.further, h.bias, h.cool⟩
    have hb' : biasOn s.txs.state = true := hb
    have hl := h.link hb'
    simp [hl, hb'] at hlost ⊢
    exact hlost

theorem SequencerLaw.stageReady {s : State} (h : SequencerLaw s.txs) : SequencerLaw (stageReady s).txs := by
  simp only [Machine.stageReady]
  split
  · next hready =>
    have hs := hready.1
    obtain ⟨hc, hf⟩ := h.untripped (by simp [hs])
    have hto := sequencerLaw_toKeyed (set := s.pln.activeSettings) (x := s.txs) (by simp [h.keyed, hs, wantsAir])
      (h.link (by simp [hs, biasOn])) h.attenuation hc hf
    rw [commitTxs_txs]
    split
    · exact hto.2.1
    · exact hto.2.2
  · exact h

theorem SequencerLaw.stageEvaluate {s : State} (h : SequencerLaw s.txs) : SequencerLaw (stageEvaluate s).txs := by
  simp only [Machine.stageEvaluate]
  have hev : SequencerLaw (evaluated s.pln.activeSettings s.txs) := h.congr rfl rfl id rfl rfl rfl rfl rfl
  split
  · split
    · exact SequencerLaw.tripOrFurther hev (by decide)
    · exact hev
  · exact h

theorem SequencerLaw.takeReverse {s : State} (h : SequencerLaw s.txs) (w : Window) : SequencerLaw (takeReverse w s).txs := by
  simp only [Machine.takeReverse]
  split
  · exact h.takeInvalid
  · next r _ =>
    have hheld : SequencerLaw (setTxs (holdReading r s.txs) s).txs := h.congr rfl rfl (fun _ => rfl) rfl rfl rfl rfl rfl
    simp only [takeValid]
    split
    · split
      · exact hheld.tripOrFurther (by decide)
      · exact hheld
    · refine SequencerLaw.stageEvaluate ?_
      unfold stageTrip
      split
      · exact hheld.stageReady.tripOrFurther (by decide)
      · exact hheld.stageReady

theorem SequencerLaw.sampleLock {s : State} (h : SequencerLaw s.txs) (l : Bool) : SequencerLaw (sampleLock l s).txs := by
  simp only [Machine.sampleLock]
  have hq (n : Nat) : SequencerLaw { s.txs with qual := n } := h.congr rfl rfl id rfl rfl rfl rfl rfl
  generalize (if l = true then _ else 0 : Nat) = n
  split
  · exact hq _
  · rw [commitTxs_txs]
    exact (hq _).refChange _ _

theorem SequencerLaw.expireCool {s : State} (h : SequencerLaw s.txs) : SequencerLaw (expireCool s).txs := by
  simp only [Machine.expireCool]
  split
  · next hcool =>
    have hs := hcool.1
    obtain ⟨hc, hf⟩ := h.untripped (by simp [hs])
    rw [commitTxs_txs]
    exact sequencerLaw_toOffAir (by simp [h.keyed, hs, wantsAir]) h.attenuation hc hf
  · exact h

/-- The requests to the sequencer; the other requests leave it as it is. -/
theorem SequencerLaw.actOf {s : State} (h : SequencerLaw s.txs) (k : Kind) (b : List Byte) :
    SequencerLaw (actOf k b s).state.txs := by
  cases k
  case key =>
    simp only [Machine.actOf, actKey]
    split
    · exact h
    · next hs => simpa using h.keyedTxs _ hs
  case unkey => simpa [Machine.actOf, actUnkey] using h.unkeyedTxs _
  case shutdown => exact h.tripOrFurther (by decide)
  case clearFaultTransmit =>
    simp only [Machine.actOf, actClearFaultTransmit]
    split
    · exact h
    · next hs =>
      split
      · exact h
      · have hk : s.txs.keyed = false := by simp [h.keyed, not_not.1 hs, wantsAir]
        rw [commitTxs_txs]
        exact sequencerLaw_toOffAir (x := { s.txs with cause := .none, further := false }) hk h.attenuation rfl rfl
  all_goals simpa [Machine.actOf] using h

theorem sequencerLaw_kept : StepKept fun s => SequencerLaw s.txs where
  pending _ _ h := h
  lineLow _ h := h
  powerOn _ := sequencerLaw_powerOn
  take _ _ _ _ h := h
  respond _ _ _ _ h := by simpa using h
  act k b _ h := h.actOf k b
  restart s h := by
    have := sequencerLaw_toOffAir (x := { s.txs with keyed := false, atten := 300, cause := .none, further := false })
      rfl le_rfl rfl rfl
    simpa [warmRestart, restartTxs, restartDst, toOffAir] using this
  trunk _ _ _ h := by simpa using h
  block _ _ _ h := by simpa using h
  access _ h := by simpa using h
  refresh _ h := by simpa using h
  start s h := by
    have := h.congr (y := txsPeriodStart s.txs) rfl rfl id rfl rfl rfl (by simp [txsPeriodStart]) (by simp [txsPeriodStart])
    simpa [startBlock, startPeriod] using this
  assembly _ h := h.assembleBlock
  forward s h := by
    have := h.congr (y := sentForward s.txs) rfl rfl id rfl rfl rfl rfl rfl
    simpa [sendForward] using this
  reverse w _ h := h.takeReverse w
  lock l _ h := h.sampleLock l
  bias s h := by
    unfold expireBias
    split
    · exact h.tripOrFurther (by decide)
    · exact h
  cool _ h := h.expireCool
  test _ _ h := by simpa using h
  send _ _ h := by simpa using h

/-- Settles O7: the law is one that every command keeps. -/
theorem sequencerStaysLawful : Obligations.SequencerStaysLawful :=
  fun _ _ hs ht => sequencerLaw_kept.step hs ht

end Sys2Proof.Safety
end

section
/-! SUPPORT. The fields of records and bodies as bytes (R170, R171): what each writes, and the value that is read back. A body is
turned into its list of bytes by `simp` with `fieldBytes`' lemmas, and read at an offset by `u8_zero` and `u8_succ`. -/

namespace Sys2Proof.Machine

open Sys2Proof Sys2Proof.Safety

/-! ### The bytes of a field -/

/-- The byte of a one-byte field. -/
def byteOf (n : Nat) : Byte := BitVec.ofNat 8 (min n 255)

/-- The high byte of a two-byte field. -/
def highByte (n : Nat) : Byte := BitVec.ofNat 8 (min n 65535 / 256)

/-- The low byte of a two-byte field. -/
def lowByte (n : Nat) : Byte := BitVec.ofNat 8 (min n 65535 % 256)

theorem field8_bytes (n : Nat) : field8 n = [byteOf n] := rfl

theorem field16_bytes (n : Nat) : field16 n = [highByte n, lowByte n] := rfl

theorem byteOf_toNat (n : Nat) : (byteOf n).toNat = min n 255 := by
  rw [byteOf, BitVec.toNat_ofNat]
  omega

/-- The two bytes of a field make its value, at most the field's maximum. -/
theorem word_toNat (n : Nat) : (highByte n).toNat * 256 + (lowByte n).toNat = min n 65535 := by
  simp only [highByte, lowByte, BitVec.toNat_ofNat]
  omega

theorem doubleWord_toNat (n : Nat) :
    min (min n 4294967295 / 65536) 65535 * 65536 + min (min n 4294967295 % 65536) 65535 = min n 4294967295 := by omega

theorem signed_word (i : Int) :
    signed 16 (min ((max (-32768) (min i 32767)) % 65536).toNat 65535) = max (-32768) (min 32767 i) := by
  rw [Nat.min_comm]
  exact signed_field i

theorem signed_bytes (i : Int) :
    signed 16 ((highByte ((max (-32768) (min i 32767)) % 65536).toNat).toNat * 256 +
      (lowByte ((max (-32768) (min i 32767)) % 65536).toNat).toNat) = max (-32768) (min 32767 i) := by
  rw [word_toNat, signed_word]

theorem signed_doubleWord (i : Int) :
    signed 32 (min ((max (-2147483648) (min i 2147483647)) % 4294967296).toNat 4294967295) =
      max (-2147483648) (min 2147483647 i) := by
  simp only [signed]
  split <;> omega

/-- The four bytes of a field make its value, at most the field's maximum. -/
theorem doubleWord_bytes (n : Nat) :
    ((highByte (min n 4294967295 / 65536)).toNat * 256 + (lowByte (min n 4294967295 / 65536)).toNat) * 65536 +
      ((highByte (min n 4294967295 % 65536)).toNat * 256 + (lowByte (min n 4294967295 % 65536)).toNat) =
        min n 4294967295 := by
  rw [word_toNat, word_toNat, doubleWord_toNat]

theorem signed_doubleWord_bytes (i : Int) (n : Nat) (h : n = ((max (-2147483648) (min i 2147483647)) % 4294967296).toNat) :
    signed 32 (((highByte (min n 4294967295 / 65536)).toNat * 256 + (lowByte (min n 4294967295 / 65536)).toNat) * 65536 +
      ((highByte (min n 4294967295 % 65536)).toNat * 256 + (lowByte (min n 4294967295 % 65536)).toNat)) =
        max (-2147483648) (min 2147483647 i) := by
  rw [doubleWord_bytes, h, signed_doubleWord]

/-! ### Codes that fit their byte -/

theorem code_byte :
    (∀ t, (byteOf (trunkCode t)).toNat = trunkCode t) ∧ (∀ r, (byteOf (sourceCode r)).toNat = sourceCode r) ∧
    (∀ c, (byteOf (causeCode c)).toNat = causeCode c) ∧ (∀ x : Expiry, (byteOf x.code).toNat = x.code) ∧
    (∀ x : TestEnd, (byteOf x.code).toNat = x.code) ∧ (∀ x : NoticeTrunk, (byteOf x.code).toNat = x.code) ∧
    (∀ x : CtxName, (byteOf x.code).toNat = x.code) ∧ (∀ x : Reason, (byteOf x.code).toNat = x.code) ∧
    (∀ x : Seq, (byteOf x.code).toNat = x.code) ∧ (∀ x : Trip, (byteOf x.code).toNat = x.code) ∧
    (∀ x : Align, (byteOf x.code).toNat = x.code) ∧ (∀ x : MonMode, (byteOf x.code).toNat = x.code) ∧
    (∀ x : SelfTest, (byteOf x.code).toNat = x.code) ∧ (∀ x : PosClass, (byteOf x.code).toNat = x.code) ∧
    (∀ b : Bool, (byteOf b.toNat).toNat = b.toNat) ∧ (∀ e : EntryIx, (byteOf e.val).toNat = e.val) := by
  refine ⟨?_, ?_, ?_, ?_, ?_, ?_, ?_, ?_, ?_, ?_, ?_, ?_, ?_, ?_, ?_, ?_⟩
  · rintro ⟨⟩ <;> rfl
  · rintro ⟨⟩ <;> rfl
  · rintro (_ | ⟨⟨⟩⟩) <;> rfl
  · rintro ⟨⟩ <;> rfl
  · rintro ⟨⟩ <;> rfl
  · rintro ⟨⟩ <;> rfl
  · rintro ⟨⟩ <;> rfl
  · rintro ⟨⟩ <;> rfl
  · rintro ⟨⟩ <;> rfl
  · rintro ⟨⟩ <;> rfl
  · rintro ⟨⟩ <;> rfl
  · rintro ⟨⟩ <;> rfl
  · rintro ⟨⟩ <;> rfl
  · rintro ⟨⟩ <;> rfl
  · rintro ⟨⟩ <;> rfl
  · intro e
    rw [byteOf_toNat]
    omega

end Sys2Proof.Machine
end

section
/-! SUPPORT. The plan store: the structural tests of an entry record (R19), what PUT-ENTRY stores (R20), the entry and settings
records read back (Table 11-6), and the law of the plan (R22, R29, R32). -/

namespace Sys2Proof.Machine

open Sys2Proof Sys2Proof.Safety

/-! ### The codes of Table 11-8 -/

theorem trunkOfCode_isNone_iff : ∀ n, (trunkOfCode n).isNone = true ↔ 1 < n
  | 0 => by decide
  | 1 => by decide
  | n + 2 => by simp [trunkOfCode]

theorem expiryOfCode_isNone_iff : ∀ n, (expiryOfCode n).isNone = true ↔ 2 < n
  | 0 => by decide
  | 1 => by decide
  | 2 => by decide
  | n + 3 => by simp [expiryOfCode]

@[simp] theorem trunkOfCode_trunkCode (t : Trunk) : trunkOfCode (trunkCode t) = some t := by cases t <;> rfl

@[simp] theorem expiryOfCode_code (x : Expiry) : expiryOfCode x.code = some x := by cases x <;> rfl

@[simp] theorem boolOfCode_toNat (b : Bool) : boolOfCode b.toNat = some b := by cases b <;> rfl

@[simp] theorem testEndOfCode_code (x : TestEnd) : testEndOfCode x.code = some x := by cases x <;> rfl

@[simp] theorem noticeTrunkOfCode_code (x : NoticeTrunk) : noticeTrunkOfCode x.code = some x := by cases x <;> rfl

theorem trunkOfCode_getD_inj {m n : Nat} (hm : m ≤ 1) (hn : n ≤ 1) (h : (trunkOfCode m).getD .A = (trunkOfCode n).getD .A) :
    m = n := by
  have codes : ∀ i ≤ 1, ∀ j ≤ 1, (trunkOfCode i).getD .A = (trunkOfCode j).getD .A → i = j := by decide
  exact codes m hm n hn h

theorem rangeFits_eq_false_iff (start width : Nat) : rangeFits start width = false ↔ 95 < start ∨ 96 < start + width := by
  simp only [rangeFits, Bool.and_eq_false_iff, decide_eq_false_iff_not]
  omega

/-! ### The structural tests in their order (R19, R170) -/

/-- The nine structural tests of an entry record, each as the statement that it fails. -/
def entryFaults (b : List Byte) : List Prop :=
  [1 < u8 b 0, 95 < u8 b 1, u8 b 5 = 0 ∨ 16 < u8 b 5, 96 < u8 b 1 + u8 b 5,
   1 < u8 b 2 ∨ (u8 b 2 = 1 ∧ (1 < u8 b 3 ∨ 95 < u8 b 4 ∨ 96 < u8 b 4 + u8 b 5)),
   u8 b 2 = 1 ∧ u8 b 3 = u8 b 0 ∧ u8 b 4 = u8 b 1, 95 < u8 b 6 ∨ 96 < u8 b 6 + u8 b 5, 2 < u8 b 7, 1 < u8 b 8]

/-- The number of the first statement that holds, the first of them counted as `n`. -/
noncomputable def firstHolding (n : Nat) (l : List Prop) : Option Nat :=
  open Classical in (l.findIdx? fun p => decide p).map (· + n)

theorem firstHolding_cons (n : Nat) (p : Prop) [Decidable p] (l : List Prop) :
    firstHolding n (p :: l) = if p then some n else firstHolding (n + 1) l := by
  by_cases h : p
  · simp [firstHolding, List.findIdx?_cons, h]
  · simp [firstHolding, List.findIdx?_cons, h, Function.comp_def, Nat.add_assoc, Nat.add_comm 1]

theorem firstHolding_eq_none_iff (l : List Prop) : firstHolding 1 l = none ↔ ∀ p ∈ l, ¬p := by
  simp [firstHolding]

theorem firstHolding_eq_some_iff (l : List Prop) (n : Nat) :
    firstHolding 1 l = some n ↔
      1 ≤ n ∧ (∃ p, l[n - 1]? = some p ∧ p) ∧ ∀ m p, m + 1 < n → l[m]? = some p → ¬p := by
  classical
  cases n with
  | zero => simp [firstHolding]
  | succ n =>
    simp only [firstHolding, Option.map_eq_some_iff, Nat.add_right_cancel_iff, exists_eq_right,
      List.findIdx?_eq_some_iff_getElem, decide_eq_true_eq, Nat.le_add_left, true_and, Nat.add_sub_cancel,
      Nat.add_lt_add_iff_right, List.getElem?_eq_some_iff]
    constructor
    · rintro ⟨h, hp, hlt⟩
      refine ⟨⟨_, ⟨h, rfl⟩, hp⟩, ?_⟩
      rintro m p hm ⟨hml, rfl⟩
      exact hlt m hm
    · rintro ⟨⟨p, ⟨h, rfl⟩, hp⟩, hlt⟩
      exact ⟨h, hp, fun j hj => hlt j _ hj ⟨by omega, rfl⟩⟩

theorem entryFieldError_eq (b : List Byte) : entryFieldError b = firstHolding 1 (entryFaults b) := by
  simp only [entryFieldError, entryFaults, trunkOfCode_isNone_iff, expiryOfCode_isNone_iff, boolOfCode_isNone_iff,
    rangeFits_eq_false_iff, firstHolding_cons, ← ite_or]
  simp [firstHolding]

/-- Settles O22: the tests are a list of which the first that fails is reported. -/
theorem entryFieldOrder : Obligations.EntryFieldOrder := by
  intro b
  rw [entryFieldError_eq]
  exact ⟨firstHolding_eq_none_iff (entryFaults b), firstHolding_eq_some_iff (entryFaults b)⟩

/-! ### Rounding and clamping an entry (R20) -/

theorem roundTo_dvd (x : Int) : (25 : Int) ∣ roundTo 25 x := by
  have h (n : Nat) : (25 : Int) ∣ ((n * 25 : Nat) : Int) := ⟨n, by push_cast; omega⟩
  simp only [roundTo]
  split
  · exact (h _).neg_right
  · exact h _

/-- The rounded value lies within half of the step. -/
theorem roundTo_near (x : Int) : 2 * (roundTo 25 x - x).natAbs ≤ 25 := by
  simp only [roundTo]
  split <;> omega

theorem roundTo_bounds {x : Int} (h : -125000 ≤ x ∧ x ≤ 125000) : -125000 ≤ roundTo 25 x ∧ roundTo 25 x ≤ 125000 := by
  simp only [roundTo]
  split <;> omega

theorem roundTo_of_dvd {x : Int} (h : (25 : Int) ∣ x) : roundTo 25 x = x := by
  simp only [roundTo]
  split <;> omega

theorem clampInt_bounds {lo hi : Int} (h : lo ≤ hi) (x : Int) : lo ≤ clampInt lo hi x ∧ clampInt lo hi x ≤ hi := by
  simp only [clampInt]
  omega

theorem clampInt_of_mem {lo hi x : Int} (h : lo ≤ x ∧ x ≤ hi) : clampInt lo hi x = x := by
  simp only [clampInt]
  omega

theorem storedFrom_storeEntry (sent : Entry) : StoredFrom sent (storeEntry sent) where
  structural := ⟨rfl, rfl, rfl, rfl, rfl, rfl⟩
  fine := ⟨roundTo_dvd _, roundTo_near _⟩
  target := rfl
  loss := rfl
  exponents := ⟨Nat.min_comm .., Nat.min_comm ..⟩
  codes := ⟨Nat.min_comm .., Nat.min_comm ..⟩
  pages := Nat.min_comm ..
  primaryDelay := Nat.min_comm ..
  alternateDelay := Nat.min_comm ..
  priority := Nat.min_comm ..

/-- A clamp changes a value exactly when the clamped entry is another one. -/
theorem clampedFrom_iff (sent : Entry) : ClampedFrom sent (storeEntry sent) ↔ clampEntry sent ≠ sent := by
  have hfine : sent.fine < -125000 ∨ 125000 < sent.fine ↔ clampInt (-125000) 125000 sent.fine ≠ sent.fine := by
    simp only [clampInt]
    omega
  rw [ClampedFrom, ← or_assoc, hfine]
  obtain ⟨primary, alternate, width, outStart, expiry, revert, fine, target, loss, attack, decay, bridge, hold, pages, pd, ad,
    priority⟩ := sent
  simp only [storeEntry, clampEntry, ne_eq, Entry.mk.injEq, true_and, not_and_or]

/-! ### PUT-ENTRY (R19, R20) -/

theorem actPutEntry_armed (b : List Byte) {s : State} (h : s.pln.armed = true) : actPutEntry b s = ⟨.pending, [], s⟩ := by
  simp [actPutEntry, h]

theorem actPutEntry_index {b : List Byte} {s : State} (h : s.pln.armed = false) (hb : 15 < u8 b 0) :
    actPutEntry b s = ⟨.index, [], s⟩ := by
  simp [actPutEntry, h, entryIndex_of_gt hb]

theorem actPutEntry_field {b : List Byte} {s : State} {n : Nat} (h : s.pln.armed = false) (hb : u8 b 0 ≤ 15)
    (hn : entryFieldError (b.drop 1) = some n) : actPutEntry b s = ⟨.field, field8 n, s⟩ := by
  have hi : entryIndex (u8 b 0) = some ⟨u8 b 0, by omega⟩ := dif_pos _
  simp [actPutEntry, h, hi, hn, -List.drop_one]

theorem actPutEntry_stored {b : List Byte} {s : State} {e : EntryIx} (h : s.pln.armed = false) (hb : u8 b 0 = e.val)
    (hn : entryFieldError (b.drop 1) = none) :
    actPutEntry b s =
      ⟨clampStatus (clampEntry (entrySent (b.drop 1)) != entrySent (b.drop 1)),
        field8 e.val ++ entryRecord (storeEntry (entrySent (b.drop 1))),
        stageAt e (some (storeEntry (entrySent (b.drop 1)))) s⟩ := by
  simp [actPutEntry, h, hb, hn, -List.drop_one]

/-- The number of a failing field is one of nine. -/
theorem entryFieldError_le {b : List Byte} {n : Nat} (h : entryFieldError b = some n) : n ≤ 9 := by
  rw [entryFieldError_eq, firstHolding_eq_some_iff] at h
  obtain ⟨-, ⟨p, hp, -⟩, -⟩ := h
  have := (List.getElem?_eq_some_iff.1 hp).1
  simp only [entryFaults, List.length_cons, List.length_nil] at this
  omega

/-- Settles O21: the tests in their order choose the refusal, and what is stored is the entry sent with its clamps. -/
theorem putEntry : Obligations.PutEntry := by
  intro s r rest hs
  refine ⟨fun ha => exec_serves hs rfl (actPutEntry_armed _ ha), fun ha hb => exec_serves hs rfl (actPutEntry_index ha hb),
    fun n ha hb hn => ?_, fun e ha hb hn => ?_⟩
  · have hbyte : field8 n = [BitVec.ofNat 8 n] := by
      rw [field8, Nat.min_eq_left ((entryFieldError_le hn).trans (by omega))]
    exact hbyte ▸ exec_serves hs rfl (actPutEntry_field ha hb hn)
  · refine ⟨_, clampStatus (clampEntry (entrySent (r.body.drop 1)) != entrySent (r.body.drop 1)),
      storedFrom_storeEntry _, ?_, exec_serves hs rfl (actPutEntry_stored ha hb hn)⟩
    rw [clampedFrom_iff]
    by_cases hc : clampEntry (entrySent (r.body.drop 1)) = entrySent (r.body.drop 1)
    · exact .inr ⟨by simp [clampStatus, hc, -List.drop_one], not_not.2 hc⟩
    · exact .inl ⟨by simp [clampStatus, hc, -List.drop_one], hc⟩

/-! ### Records read back (Table 11-6) -/

theorem clampEntry_of_sound {en : Entry} (h : EntrySound en) : clampEntry en = en := by
  obtain ⟨-, -, -, -, fine, target, loss, exponents, codes, pages, primaryDelay, alternateDelay, priority⟩ := h
  simp only [clampEntry, Nat.min_eq_left pages, Nat.min_eq_left primaryDelay, Nat.min_eq_left alternateDelay.1,
    Nat.min_eq_left priority, Nat.min_eq_left exponents.1, Nat.min_eq_left exponents.2, Nat.min_eq_left codes.1,
    Nat.min_eq_left codes.2, clampInt_of_mem ⟨fine.1, fine.2.1⟩, clampInt_of_mem target, clampInt_of_mem loss]

theorem storeEntry_of_sound {en : Entry} (h : EntrySound en) : storeEntry en = en := by
  simp only [storeEntry, clampEntry_of_sound h, roundTo_of_dvd h.fine.2.2]

theorem clampSettings_of_sound {r : Settings} (h : SettingsSound r) : clampSettings r = r := by
  have nat {lo hi n : Nat} (h : lo ≤ n ∧ n ≤ hi) : clampNat lo hi n = n := by
    simp only [clampNat]
    omega
  simp only [clampSettings, clampInt_of_mem h.ceiling, Nat.min_eq_left h.maxBackoff, Nat.min_eq_left h.hysteresis,
    nat h.acquire, nat h.rampStep, nat h.biasDeadline, Nat.min_eq_left h.coolTime, nat h.refQual, nat h.foldStart,
    Nat.min_eq_left h.foldMax, nat h.tripRL, nat h.tripCount, nat h.refresh, nat h.tolerance, nat h.dwell]

theorem entryRecord_length (en : Entry) : (entryRecord en).length = 27 := by
  rcases ha : en.alternate with _ | a <;>
    simp [entryRecord, ha, field8_bytes, fieldS32, field32, fieldS16, field16_bytes]

/-- What is read at each offset of an entry record. -/
structure EntryRead (en : Entry) (b : List Byte) : Prop where
  primary   : u8 b 0 = trunkCode en.primary.trunk ∧ u8 b 1 = min en.primary.start 255
  absent    : en.alternate = none → u8 b 2 = 0
  alternate : ∀ a, en.alternate = some a → u8 b 2 = 1 ∧ u8 b 3 = trunkCode a.trunk ∧ u8 b 4 = min a.start 255
  place     : u8 b 5 = min en.width 255 ∧ u8 b 6 = min en.outStart 255
  actions   : u8 b 7 = en.expiry.code ∧ u8 b 8 = en.revert.toNat ∧ u8 b 9 = min en.revertCode 255
  fine      : s32 b 10 = max (-2147483648) (min 2147483647 en.fine)
  levels    : s16 b 14 = max (-32768) (min 32767 en.target) ∧ s16 b 16 = max (-32768) (min 32767 en.loss)
  loop      : u8 b 18 = min en.attack 255 ∧ u8 b 19 = min en.decay 255
  store     : u8 b 20 = min en.bridgeCode 255 ∧ u8 b 21 = min en.pages 255
  delays    : u16 b 22 = min en.primaryDelay 65535 ∧ u16 b 24 = min en.alternateDelay 65535
  priority  : u8 b 26 = min en.priority 255

theorem entryRead_entryRecord (en : Entry) : EntryRead en (entryRecord en) := by
  obtain ⟨htrunk, -, -, hexpiry, -, -, -, -, -, -, -, -, -, -, hbool, -⟩ := code_byte
  obtain ⟨primary, _ | a, width, outStart, expiry, revert, fine, target, loss, attack, decay, bridge, hold, pages, pd, ad,
    priority⟩ := en <;>
  simp only [entryRecord, field8_bytes, fieldS32, field32, fieldS16, field16_bytes, List.cons_append, List.nil_append] <;>
  exact {
    primary := ⟨htrunk _, byteOf_toNat _⟩
    absent := fun h => by cases h <;> rfl
    alternate := fun x h => by cases h <;> exact ⟨rfl, htrunk _, byteOf_toNat _⟩
    place := ⟨byteOf_toNat _, byteOf_toNat _⟩
    actions := ⟨hexpiry _, hbool _, byteOf_toNat _⟩
    fine := signed_doubleWord_bytes _ _ rfl
    levels := ⟨signed_bytes _, signed_bytes _⟩
    loop := ⟨byteOf_toNat _, byteOf_toNat _⟩
    store := ⟨byteOf_toNat _, byteOf_toNat _⟩
    delays := ⟨word_toNat _, word_toNat _⟩
    priority := byteOf_toNat _ }

theorem min_255 {n k : Nat} (h : n ≤ k) (hk : k ≤ 255 := by decide) : min n 255 = n := Nat.min_eq_left (h.trans hk)

theorem min_65535 {n k : Nat} (h : n ≤ k) (hk : k ≤ 65535 := by decide) : min n 65535 = n := Nat.min_eq_left (h.trans hk)

/-- A sound entry is read back from its record. -/
theorem entrySent_entryRecord {en : Entry} (h : EntrySound en) : entrySent (entryRecord en) = en := by
  obtain ⟨width, primary, alternate, output, fine, target, loss, exponents, codes, pages, primaryDelay, alternateDelay,
    priority⟩ := h
  have hp := primary.1
  have ho := output.1
  have hpd : min en.primaryDelay 65535 = en.primaryDelay := by omega
  have had : min en.alternateDelay 65535 = en.alternateDelay := by omega
  have hfine' : max (-2147483648) (min 2147483647 en.fine) = en.fine := by omega
  have htarget : max (-32768) (min 32767 en.target) = en.target := by omega
  have hloss : max (-32768) (min 32767 en.loss) = en.loss := by omega
  obtain ⟨hprimary, habsent, halternate, hplace, hactions, hfine, hlevels, hloop, hstore, hdelays, hpriority⟩ :=
    entryRead_entryRecord en
  rw [entrySent, hprimary.1, hprimary.2, hplace.1, hplace.2, hactions.1, hactions.2.1, hactions.2.2, hfine, hlevels.1,
    hlevels.2, hloop.1, hloop.2, hstore.1, hstore.2, hdelays.1, hdelays.2, hpriority, hfine', htarget, hloss, hpd, had,
    min_255 hp, min_255 width.2, min_255 ho, min_255 codes.2, min_255 exponents.1, min_255 exponents.2, min_255 codes.1,
    min_255 pages, min_255 priority]
  rcases halt : en.alternate with _ | a
  · have hzero := alternateDelay.2 halt
    simp only [habsent halt, trunkOfCode_trunkCode, expiryOfCode_code, boolOfCode_toNat, Option.getD_some, Nat.zero_ne_one,
      if_false]
    rw [← halt, ← hzero]
  · obtain ⟨h2, h3, h4⟩ := halternate a halt
    have ha := (alternate a halt).1.1
    simp only [h2, h3, h4, min_255 ha, trunkOfCode_trunkCode, expiryOfCode_code, boolOfCode_toNat, Option.getD_some, if_true,
      ← halt]

theorem trunkCode_le (t : Trunk) : trunkCode t ≤ 1 := by cases t <;> decide

theorem trunkCode_inj {a b : Trunk} (h : trunkCode a = trunkCode b) : a = b := by
  have := congrArg trunkOfCode h
  simpa using this

/-- The record of a sound entry passes every structural test. -/
theorem entryFieldError_entryRecord {en : Entry} (h : EntrySound en) : entryFieldError (entryRecord en) = none := by
  obtain ⟨hprimary, habsent, halternate, hplace, hactions, -, -, -, -, -, -⟩ := entryRead_entryRecord en
  obtain ⟨width, primary, alternate, output, -, -, -, -, -, -, -, -, -⟩ := h
  have hp := primary.1
  have ho := output.1
  have hexpiry : en.expiry.code ≤ 2 := by cases en.expiry <;> decide
  have hrevert := en.revert.toNat_le
  have htrunk := trunkCode_le en.primary.trunk
  have hpw := primary.2
  have how := output.2
  rw [entryFieldError_eq, firstHolding_eq_none_iff]
  simp only [entryFaults, List.forall_mem_cons, List.not_mem_nil, false_imp_iff, implies_true, and_true, hprimary.1,
    hprimary.2, hplace.1, hplace.2, hactions.1, hactions.2.1, min_255 hp, min_255 width.2, min_255 ho]
  rcases halt : en.alternate with _ | a
  · rw [habsent halt]
    clear hprimary habsent halternate hplace hactions
    omega
  · obtain ⟨h2, h3, h4⟩ := halternate a halt
    obtain ⟨ha, hne⟩ := alternate a halt
    have ha1 := ha.1
    have ha2 := ha.2
    have hatrunk := trunkCode_le a.trunk
    have hslot : ¬(trunkCode a.trunk = trunkCode en.primary.trunk ∧ a.start = en.primary.start) := fun ⟨ht, hs⟩ =>
      hne (by rw [show a = ⟨a.trunk, a.start⟩ from rfl, trunkCode_inj ht, hs])
    rw [h2, h3, h4, min_255 ha1]
    clear hprimary habsent halternate hplace hactions h2 h3 h4
    omega

/-- What is read at each offset of a settings record, and its length. -/
structure SettingsRead (r : Settings) (b : List Byte) : Prop where
  length : b.length = 25
  power  : s16 b 0 = max (-32768) (min 32767 r.ceiling) ∧ u8 b 2 = min r.maxBackoff 255 ∧ u8 b 3 = min r.hysteresis 255
  times  : u16 b 4 = min r.acquire 65535 ∧ u8 b 6 = min r.rampStep 255 ∧ u16 b 7 = min r.biasDeadline 65535 ∧
    u16 b 9 = min r.coolTime 65535 ∧ u16 b 11 = min r.refQual 65535
  fold   : u16 b 13 = min r.foldStart 65535 ∧ u8 b 15 = min r.foldMax 255 ∧ u16 b 16 = min r.tripRL 65535 ∧
    u8 b 18 = min r.tripCount 255
  listed : u8 b 20 = r.testEnd.code ∧ u8 b 21 = r.testStops.toNat ∧ u8 b 24 = r.noticeTrunk.code
  rest   : u8 b 19 = min r.refresh 255 ∧ u8 b 22 = min r.tolerance 255 ∧ u8 b 23 = min r.dwell 255

theorem settingsRead_settingsRecord (r : Settings) : SettingsRead r (settingsRecord r) := by
  obtain ⟨-, -, -, -, htest, hnotice, -, -, -, -, -, -, -, -, hbool, -⟩ := code_byte
  simp only [settingsRecord, field8_bytes, fieldS16, field16_bytes, List.cons_append, List.nil_append]
  exact {
    length := rfl
    power := ⟨signed_bytes _, byteOf_toNat _, byteOf_toNat _⟩
    times := ⟨word_toNat _, byteOf_toNat _, word_toNat _, word_toNat _, word_toNat _⟩
    fold := ⟨word_toNat _, byteOf_toNat _, word_toNat _, byteOf_toNat _⟩
    listed := ⟨htest _, hbool _, hnotice _⟩
    rest := ⟨byteOf_toNat _, byteOf_toNat _, byteOf_toNat _⟩ }

/-- Sound settings are read back from their record, which passes the tests of its listed settings. -/
theorem settingsSent_settingsRecord {r : Settings} (h : SettingsSound r) :
    settingsFieldError (settingsRecord r) = none ∧ settingsSent (settingsRecord r) = r := by
  have hceiling : max (-32768) (min 32767 r.ceiling) = r.ceiling := by have := h.ceiling; omega
  obtain ⟨-, hpower, htimes, hfold, hlisted, hrest⟩ := settingsRead_settingsRecord r
  constructor
  · simp [settingsFieldError, hlisted.1, hlisted.2.1, hlisted.2.2]
  · rw [settingsSent, hpower.1, hpower.2.1, hpower.2.2, htimes.1, htimes.2.1, htimes.2.2.1, htimes.2.2.2.1, htimes.2.2.2.2,
      hfold.1, hfold.2.1, hfold.2.2.1, hfold.2.2.2, hlisted.1, hlisted.2.1, hlisted.2.2, hrest.1, hrest.2.1, hrest.2.2,
      hceiling, min_255 h.maxBackoff, min_255 h.hysteresis, min_65535 h.acquire.2, min_255 h.rampStep.2,
      min_65535 h.biasDeadline.2, min_65535 h.coolTime, min_65535 h.refQual.2,
      min_65535 h.foldStart.2, min_255 h.foldMax, min_65535 (h.tripRL.2.trans h.foldStart.2),
      min_255 h.tripCount.2, min_255 h.refresh.2, min_255 h.tolerance.2, min_255 h.dwell.2]
    simp only [testEndOfCode_code, boolOfCode_toNat, noticeTrunkOfCode_code, Option.getD_some]

/-- Settles O23: each record is read back field by field, and a sound value stands under the clamps. -/
theorem recordsRoundTrip : Obligations.RecordsRoundTrip :=
  ⟨fun en h => ⟨entryRecord_length en, entryFieldError_entryRecord h, entrySent_entryRecord h, storeEntry_of_sound h,
      clampEntry_of_sound h⟩,
    fun r h => ⟨(settingsRead_settingsRecord r).length, (settingsSent_settingsRecord h).1, (settingsSent_settingsRecord h).2,
      clampSettings_of_sound h⟩⟩

end Sys2Proof.Machine
end

section
/-! SUPPORT. The assembly of an output block taken apart into its stages (R91, R104 to R118), each with what it leaves unchanged;
the shares of its budget are those of the claims; and the law of the last block figures (R108). -/

namespace Sys2Proof.Machine

open Sys2Proof.Safety

/-! ### The first stage -/

/-- The first stage: the reads not yet answered are counted as late and leave the read queue. -/
def readsClosed (o : OutBlock) (s : State) : State :=
  setDst (removeReads (fun _ => true) s.dst) (setCmb { s.cmb with late := countLate o s.cmb.late } s)

@[simp] theorem readsClosed_frame (o : OutBlock) (s : State) :
    (readsClosed o s).pending = s.pending ∧ (readsClosed o s).inReset = s.inReset ∧ (readsClosed o s).rtA = s.rtA ∧
    (readsClosed o s).rtB = s.rtB ∧ (readsClosed o s).ext = s.ext ∧ (readsClosed o s).pln = s.pln ∧
    (readsClosed o s).ctx = s.ctx ∧ (readsClosed o s).txs = s.txs ∧ (readsClosed o s).mon = s.mon ∧
    (readsClosed o s).svc = s.svc ∧ (readsClosed o s).free = s.free ∧
    (∀ i, ctxAt (readsClosed o s) i = ctxAt s i) ∧ (∀ i, activeAt (readsClosed o s) i = activeAt s i) ∧
    (readsClosed o s).dst = removeReads (fun _ => true) s.dst ∧
    (readsClosed o s).cmb = { s.cmb with late := countLate o s.cmb.late } := by simp [readsClosed]

/-! ### The shares of the budget (R104, R105) -/

theorem vget_markLate (o : OutBlock) (e : EntryIx) :
    vget (markLate o).answers e = if vget o.answers e = .waiting then .late else vget o.answers e := by
  simp [markLate]

/-- What a position offers carries the level that the claims give it. -/
theorem offerOf_level (o : OutBlock) (s : State) (e : EntryIx) :
    (offerOf (markLate o) (readsClosed o s) e).map offerLevel = levelAt o s e := by
  have hrec (r : BlockRecord) : (recordOffer r).map offerLevel = r.lout := by
    simp [recordOffer, offerLevel, Function.comp_def]
  have hplayed (en : Entry) :
      (if en.pages = 0 then (vget s.cmb.held e).bind recordOffer else answerOffer (vget (markLate o).answers e)).map offerLevel =
        levelAt.recorded o s e en := by
    rw [levelAt.recorded, vget_markLate]
    split
    · cases vget s.cmb.held e <;> simp [hrec]
    · rcases vget o.answers e <;> simp [answerOffer, hrec]
  simp only [offerOf, levelAt, readsClosed_frame]
  rw [show (markLate o).restarted = o.restarted from rfl]
  split
  · rfl
  · rcases activeAt s e with _ | en
    · rfl
    · rcases (ctxAt s e).state with _ | _ | _ | _ | _ | ⟨n, l⟩
      · rfl
      · rfl
      · exact hplayed en
      · exact hplayed en
      · rfl
      · simp only [vget_markLate]
        rcases vget o.answers e <;> simp [offerLevel]

theorem shares_eq_sharesAt (o : OutBlock) (s : State) (flag : Bool) :
    shares (markLate o) (readsClosed o s) flag = sharesAt o s flag := by
  rw [shares, sharesAt]
  congr 1
  funext e
  rw [← offerOf_level]
  simp only [readsClosed_frame]
  rcases activeAt s e with _ | en
  · rfl
  · rcases offerOf (markLate o) (readsClosed o s) e with _ | f <;> simp

/-- The budget of an assembly is that of the claims. -/
theorem budget_eq_budgetAt (o : OutBlock) (s : State) :
    budget (s.pln.activeSettings.ceiling - (markLate o).foldback) s.pln.activeSettings.maxBackoff
      s.pln.activeSettings.hysteresis (shares (markLate o) (readsClosed o s) false) (shares (markLate o) (readsClosed o s) true) =
      budgetAt o s := by
  rw [budgetAt, shares_eq_sharesAt, shares_eq_sharesAt]
  rfl

/-! ### The later stages -/

/-- The second stage: the shed flags set and cleared as the budget says. -/
def flagsSet (b : Budget) (s : State) : State := restoreOne b.restored (shedAll b.newlyShed s)

/-- The third stage: figures and counts recorded. -/
def blockRecorded (o : OutBlock) (b : Budget) (band : List Sample) (s : State) : State :=
  drawFree (setCmb
    (recordBlock o (s.pln.activeSettings.ceiling - o.foldback) b (band.any sampleOver) (shedCount s) s.cmb) s)

/-- The assembly up to its completion: the drive samples are formed. -/
def blockFormed (o : OutBlock) (s : State) : State :=
  let u := readsClosed o s
  let b := budgetAt o s
  let band := summedBand s.free (markLate o) u b
  takeOutputBlock (band.map clampSample) (b.contributors.map (placedOf u b)) (blockRecorded (markLate o) b band (flagsSet b u))

theorem assemble_eq (o : OutBlock) (s : State) : assemble o s = completeBlock (markLate o) (blockFormed o s) := by
  rw [blockFormed, ← budget_eq_budgetAt]
  simp [assemble, blockRecorded, flagsSet, readsClosed]

@[simp] theorem flagsSet_frame (b : Budget) (s : State) :
    (flagsSet b s).pending = s.pending ∧ (flagsSet b s).inReset = s.inReset ∧ (flagsSet b s).rtA = s.rtA ∧
    (flagsSet b s).rtB = s.rtB ∧ (flagsSet b s).ext = s.ext ∧ (flagsSet b s).pln = s.pln ∧ (flagsSet b s).dst = s.dst ∧
    (flagsSet b s).cmb = s.cmb ∧ (flagsSet b s).txs = s.txs ∧ (flagsSet b s).free = s.free ∧
    (∀ i, activeAt (flagsSet b s) i = activeAt s i) ∧ (flagsSet b s).svc.queue = s.svc.queue ∧
    (flagsSet b s).svc.lost = s.svc.lost := by simp [flagsSet]

@[simp] theorem blockRecorded_frame (o : OutBlock) (b : Budget) (l : List Sample) (s : State) :
    (blockRecorded o b l s).pending = s.pending ∧ (blockRecorded o b l s).inReset = s.inReset ∧
    (blockRecorded o b l s).rtA = s.rtA ∧ (blockRecorded o b l s).rtB = s.rtB ∧ (blockRecorded o b l s).ext = s.ext ∧
    (blockRecorded o b l s).pln = s.pln ∧ (blockRecorded o b l s).ctx = s.ctx ∧ (blockRecorded o b l s).dst = s.dst ∧
    (blockRecorded o b l s).txs = s.txs ∧ (blockRecorded o b l s).mon = s.mon ∧ (blockRecorded o b l s).svc = s.svc ∧
    (∀ i, ctxAt (blockRecorded o b l s) i = ctxAt s i) ∧ (∀ i, activeAt (blockRecorded o b l s) i = activeAt s i) := by
  simp [blockRecorded]

@[simp] theorem blockFormed_frame (o : OutBlock) (s : State) :
    (blockFormed o s).pending = s.pending ∧ (blockFormed o s).inReset = s.inReset ∧ (blockFormed o s).rtA = s.rtA ∧
    (blockFormed o s).rtB = s.rtB ∧ (blockFormed o s).ext = s.ext ∧ (blockFormed o s).pln = s.pln ∧
    (blockFormed o s).dst = removeReads (fun _ => true) s.dst ∧ (∀ i, activeAt (blockFormed o s) i = activeAt s i) ∧
    (blockFormed o s).svc.queue = s.svc.queue ∧ (blockFormed o s).svc.lost = s.svc.lost := by
  simp [blockFormed]

/-! ### The completion (R99 to R101, R31) -/

/-- The completion of an output block that makes no switch: the block is over, and the counts step unless it began before a
warm restart. -/
theorem completeBlock_unswitched {o : OutBlock} {s : State} (h : ¬Switches o s) :
    completeBlock o s = setCmb { s.cmb with
      course := none
      counter := if o.restarted = true then s.cmb.counter else (s.cmb.counter + 1) % 64
      epochs := if o.restarted = false ∧ o.number = 0 then (s.cmb.epochs + 1) % 65536 else s.cmb.epochs } s := by
  cases hr : o.restarted
  · by_cases hn : o.number = 0
    · have ha : s.pln.armed = false := by simpa [Switches, hr, hn] using h
      simp [completeBlock, hr, hn, ha, setCmb]
    · simp [completeBlock, hr, hn]
  · simp [completeBlock, hr]

/-- The completion that makes a switch: the counts step, and the staged plan is adopted. -/
theorem completeBlock_switches {o : OutBlock} {s : State} (h : Switches o s) :
    completeBlock o s = planSwitch (setCmb { s.cmb with
      course := none, counter := (s.cmb.counter + 1) % 64, epochs := (s.cmb.epochs + 1) % 65536 } s) := by
  obtain ⟨hr, hn, ha⟩ := h
  simp [completeBlock, hr, hn, ha, setCmb]

theorem switches_markLate (o : OutBlock) (s : State) : Switches (markLate o) (blockFormed o s) ↔ Switches o s := by
  simp [Switches, markLate]

/-- An assembly makes a switch of an armed plan, or the completion of its block leaves everything outside CMB. -/
theorem assembleBlock_cases (s : State) :
    (s.cmb.course = none ∧ assembleBlock s = s) ∨
    ∃ o c, s.cmb.course = some o ∧ c.figures = (blockFormed o s).cmb.figures ∧
      (¬Switches o s ∧ assembleBlock s = setCmb c (blockFormed o s) ∨
        Switches o s ∧ assembleBlock s = planSwitch (setCmb c (blockFormed o s))) := by
  rcases hc : s.cmb.course with _ | o
  · exact .inl ⟨rfl, by simp [assembleBlock, hc]⟩
  · have ha : assembleBlock s = completeBlock (markLate o) (blockFormed o s) := by
      rw [assembleBlock, hc]
      exact assemble_eq o s
    by_cases hs : Switches o s
    · refine .inr ⟨o, _, rfl, ?_, .inr ⟨hs, ha.trans (completeBlock_switches ((switches_markLate o s).2 hs))⟩⟩
      rfl
    · refine .inr ⟨o, _, rfl, ?_, .inl ⟨hs, ha.trans (completeBlock_unswitched (mt (switches_markLate o s).1 hs))⟩⟩
      rfl

/-! ### The last block figures (R108, R118) -/

theorem blockFormed_figures (o : OutBlock) (s : State) : (blockFormed o s).cmb.figures =
    ⟨(budgetAt o s).composite, s.pln.activeSettings.ceiling - o.foldback, o.foldback, (budgetAt o s).backoff,
      (budgetAt o s).excess, (budgetAt o s).contributors.length, shedCount (flagsSet (budgetAt o s) (readsClosed o s))⟩ := by
  simp [blockFormed, blockRecorded, recordBlock, markLate]

/-- The backoff of a budget is the excess of its composite, or 0. -/
theorem budget_composite_le (keff : Int) (bmax hyst : Nat) (a b : List Share) (c : Int)
    (h : (budget keff bmax hyst a b).composite = some c) : c - ((budget keff bmax hyst a b).backoff : Int) ≤ keff := by
  simp only [budget] at h ⊢
  rw [excessOf, h]
  exact Int.sub_le_of_sub_le (Int.self_le_toNat _)

theorem figuresLaw_blockFormed (o : OutBlock) (s : State) : FiguresLaw (blockFormed o s).cmb.figures := by
  rw [blockFormed_figures]
  exact fun c hc => budget_composite_le _ s.pln.activeSettings.maxBackoff s.pln.activeSettings.hysteresis
    (sharesAt o s false) (sharesAt o s true) c hc

/-! ### What the other commands leave of CMB -/

/-- The counts and figures of CMB: all but the output block in course, the records and the late counts. -/
def tally (s : State) : Nat × Nat × Figures × Nat × Nat :=
  (s.cmb.counter, s.cmb.epochs, s.cmb.figures, s.cmb.excess, s.cmb.clips)

theorem tally_congr {s t : State} (h : t.cmb = s.cmb) : tally t = tally s := by rw [tally, tally, h]

@[simp] theorem tally_setDst (d : Dst) (s : State) : tally (setDst d s) = tally s := rfl

@[simp] theorem tally_answerRead (e : EntryIx) (a : Answer) (s : State) : tally (setCmb (answerRead e a s.cmb) s) = tally s := by
  rw [answerRead]
  split <;> rfl

@[simp] theorem tally_dropReads (e : EntryIx) (s : State) : tally (dropReads e s) = tally s := by
  rw [dropReads]
  split
  · exact tally_answerRead e .nothing (setDst _ s)
  · rfl

@[simp] theorem tally_flushLine (e : EntryIx) (s : State) : tally (flushLine e s) = tally s := by
  rw [flushLine]
  split <;> simp

@[simp] theorem tally_voidRead (e : EntryIx) (s : State) : tally (voidRead e s) = tally s := by
  rw [voidRead]
  split
  · rfl
  · split <;> simp

@[simp] theorem tally_switchSource (e : EntryIx) (f : Bool) (r : Reason) (c : Ctx) (s : State) :
    tally (switchSource e f r c s) = tally s := by
  rw [switchSource, tally_voidRead, tally_flushLine]
  exact tally_congr (by simp)

@[simp] theorem tally_flushAll (s : State) : tally (flushAll s) = tally s := by
  rw [flushAll, tally_setDst]
  exact foldl_frame _ tally (by simp) _ _

@[simp] theorem tally_handOn (e : EntryIx) (en : Entry) (r : BlockRecord) (s : State) : tally (handOn e en r s) = tally s := by
  rw [handOn]
  split
  · rfl
  · split <;> rfl

@[simp] theorem tally_finishBlock (e : EntryIx) (en : Entry) (r : Source) (g : Bool) (b : BlockRecord) (c : Ctx) (s : State) :
    tally (finishBlock e en r g b c s) = tally s := by
  have hcommit (n : Ctx) (why : Reason) (u : State) : tally (commitCtx e n why u) = tally u := tally_congr (by simp)
  simp only [finishBlock]
  split
  · simp
  · split <;> split <;> simp [hcommit]

theorem tally_deliverBlock (e : EntryIx) (r : Source) (s : State) : tally (deliverBlock e r s) = tally s := by
  rw [deliverBlock]
  split
  · rfl
  · split
    · rfl
    · simp only
      split
      · rfl
      · rw [takeBlock]
        split <;> simp only [tally_finishBlock] <;> rfl

theorem tally_completeAccess (s : State) : tally (completeAccess s) = tally s := by
  rw [completeAccess]
  simp only [tally_setDst]
  split
  · rfl
  · rfl
  · rfl
  · rw [completeRead]
    split
    · rfl
    · split
      · rfl
      · exact tally_answerRead _ _ (setDst _ s)
  · rfl

theorem tally_overrun (s : State) : tally (overrun s) = tally s :=
  (tally_congr (s := flushAll s) (by simp [overrun])).trans (tally_flushAll s)

theorem tally_refreshExpiry (s : State) : tally (refreshExpiry s) = tally s := by
  rw [refreshExpiry]
  simp only
  split
  · rw [tally_overrun, tally_setDst]
  · rfl

theorem tally_startBlock (s : State) : tally (startBlock s) = tally s := by
  have hread (e : EntryIx) (u : State) : tally (queueRead e u) = tally u := by
    rw [queueRead]
    split
    · rfl
    · simp only
      split <;> simp
  rw [startBlock_eq, foldl_frame _ tally (fun u e => hread e u)]
  exact (show tally (beginOutBlock (startPeriod s)) = tally (startPeriod s) from rfl).trans (tally_congr (by simp))

/-- Of CMB the switch clears the counts and the undelayed records of positions, and drops reads of the ended lines. -/
theorem planSwitch_cmb (s : State) : (planSwitch s).cmb =
    (clearPass (switchClasses s) (allocPass (switchClasses s) (freePass (switchClasses s) (settleSettings (adoptPlan s))))).cmb := by
  simp [planSwitch]

theorem tally_planSwitch (s : State) : tally (planSwitch s) = tally s := by
  have hfree (k : Classes) (e : EntryIx) (u : State) : tally (freePosition k e u) = tally u := by
    rw [freePosition]
    split
    · rw [freeEntry]
      simp
    · rfl
  have hclear (k : Classes) (e : EntryIx) (u : State) : tally (clearPosition k e u) = tally u := by
    rw [clearPosition]
    split <;> rfl
  rw [tally_congr (planSwitch_cmb s), clearPass, foldl_frame _ tally fun u e => hclear _ e u]
  refine (tally_congr (s := freePass (switchClasses s) (settleSettings (adoptPlan s))) (by simp)).trans ?_
  rw [freePass, foldl_frame _ tally fun u e => hfree _ e u]
  exact tally_congr (by simp)

theorem tally_actOf (k : Kind) (b : List Byte) (s : State) : tally (actOf k b s).state = tally s := by
  cases k with
  | forceSource =>
    rw [actOf, actForceSource, onEntry]
    split
    · rfl
    · split
      · rfl
      · split
        · rfl
        · split
          · rfl
          · split
            · rfl
            · exact tally_switchSource ..
  | _ => exact tally_congr (by simp [actOf])

theorem figures_of_tally {s t : State} (h : tally t = tally s) : t.cmb.figures = s.cmb.figures := by
  exact congrArg (fun x => x.2.2.1) h

/-- The law of the figures holds wherever counts and figures stand. -/
theorem figuresLaw_of_tally {s t : State} (h : tally t = tally s) (hs : FiguresLaw s.cmb.figures) :
    FiguresLaw t.cmb.figures := by rwa [figures_of_tally h]

theorem figuresLaw_initial (k : Int) : FiguresLaw (Figures.initial k) := fun c h => by simp [Figures.initial] at h

theorem figuresLaw_kept : StepKept fun s => FiguresLaw s.cmb.figures where
  pending _ _ h := h
  lineLow _ h := h
  powerOn _ := figuresLaw_initial _
  take _ _ _ _ h := h
  respond _ _ _ _ h := by simpa using h
  act k b s h := figuresLaw_of_tally (tally_actOf k b s) h
  restart _ _ := figuresLaw_initial _
  trunk _ _ _ h := by simpa using h
  block e r s h := figuresLaw_of_tally (tally_deliverBlock e r s) h
  access s h := figuresLaw_of_tally (tally_completeAccess s) h
  refresh s h := figuresLaw_of_tally (tally_refreshExpiry s) h
  start s h := figuresLaw_of_tally (tally_startBlock s) h
  assembly s h := by
    rcases assembleBlock_cases s with ⟨-, ha⟩ | ⟨o, c, -, hc, ⟨-, ha⟩ | ⟨-, ha⟩⟩
    · rwa [ha]
    · rw [ha, setCmb_cmb, hc]
      exact figuresLaw_blockFormed o s
    · rw [ha, figures_of_tally (tally_planSwitch _), setCmb_cmb, hc]
      exact figuresLaw_blockFormed o s
  forward _ h := by simpa using h
  reverse _ _ h := by simpa using h
  lock _ _ h := by simpa using h
  bias _ h := by simpa using h
  cool _ h := by simpa using h
  test _ _ h := by simpa using h
  send _ _ h := by simpa using h

/-- Settles O11: only an assembly records figures, and its backoff is the excess of its composite. -/
theorem figuresStayLawful : Obligations.FiguresStayLawful := fun _ _ hs ht => figuresLaw_kept.step hs ht

end Sys2Proof.Machine
end

section
/-! SUPPORT. The law of the plan (R13, R14, R22, R29, R32): what PUT-ENTRY and PUT-SETTINGS store is sound, what APPLY arms fits,
and the switch makes the staged plan the active one. -/

namespace Sys2Proof.Safety

open Sys2Proof.Machine

/-! ### What is stored is sound (R19, R20, R22) -/

/-- An entry record that passes the structural tests is stored as a sound entry. -/
theorem entrySound_storeEntry {b : List Byte} (h : entryFieldError b = none) : EntrySound (storeEntry (entrySent b)) := by
  rw [entryFieldError_eq, firstHolding_eq_none_iff] at h
  simp only [entryFaults, List.forall_mem_cons, List.not_mem_nil, false_imp_iff, implies_true, and_true] at h
  obtain ⟨h0, h1, h5, h15, h2, hsame, h6, -, -⟩ := h
  exact {
    width := show 1 ≤ u8 b 5 ∧ u8 b 5 ≤ 16 by omega
    primary := show u8 b 1 ≤ 95 ∧ u8 b 1 + u8 b 5 ≤ 96 by omega
    alternate := fun a ha => by
      by_cases hb : u8 b 2 = 1
      · have ha : (⟨(trunkOfCode (u8 b 3)).getD .A, u8 b 4⟩ : Slot) = a := by simpa [storeEntry, clampEntry, entrySent, hb] using ha
        subst ha
        refine ⟨show u8 b 4 ≤ 95 ∧ u8 b 4 + u8 b 5 ≤ 96 by omega, fun he => hsame ⟨hb, ?_, congrArg Slot.start he⟩⟩
        exact trunkOfCode_getD_inj (by omega) (by omega) (congrArg Slot.trunk he)
      · simp [storeEntry, clampEntry, entrySent, hb] at ha
    output := show u8 b 6 ≤ 95 ∧ u8 b 6 + u8 b 5 ≤ 96 by omega
    fine := by
      have := roundTo_bounds (clampInt_bounds (lo := -125000) (hi := 125000) (by omega) (s32 b 10))
      exact ⟨this.1, this.2, roundTo_dvd _⟩
    target := clampInt_bounds (by omega) _
    loss := clampInt_bounds (by omega) _
    exponents := ⟨Nat.min_le_right .., Nat.min_le_right ..⟩
    codes := ⟨Nat.min_le_right .., Nat.min_le_right ..⟩
    pages := Nat.min_le_right ..
    primaryDelay := Nat.min_le_right ..
    alternateDelay := ⟨Nat.min_le_right .., fun ha => by
      by_cases hb : u8 b 2 = 1
      · simp [storeEntry, clampEntry, entrySent, hb] at ha
      · simp [storeEntry, clampEntry, entrySent, hb]⟩
    priority := Nat.min_le_right .. }

theorem clampNat_bounds {lo hi : Nat} (h : lo ≤ hi) (n : Nat) : lo ≤ clampNat lo hi n ∧ clampNat lo hi n ≤ hi := by
  simp only [clampNat]
  omega

theorem settingsSound_clampSettings (r : Settings) : SettingsSound (clampSettings r) where
  ceiling := clampInt_bounds (by omega) _
  maxBackoff := Nat.min_le_right ..
  hysteresis := Nat.min_le_right ..
  acquire := clampNat_bounds (by omega) _
  rampStep := clampNat_bounds (by omega) _
  biasDeadline := clampNat_bounds (by omega) _
  coolTime := Nat.min_le_right ..
  refQual := clampNat_bounds (by omega) _
  foldStart := clampNat_bounds (by omega) _
  foldMax := Nat.min_le_right ..
  tripRL := clampNat_bounds ((by omega : 30 ≤ 60).trans (clampNat_bounds (by omega) _).1) _
  tripCount := clampNat_bounds (by omega) _
  refresh := clampNat_bounds (by omega) _
  tolerance := clampNat_bounds (by omega) _
  dwell := clampNat_bounds (by omega) _

theorem PlanSound.vput {p : Plan} (h : PlanSound p) (e : EntryIx) {o : Option Entry} (ho : ∀ en, o = some en → EntrySound en) :
    PlanSound (vput p e o) := by
  intro f en hf
  rw [vget_vput] at hf
  split at hf
  · exact ho en hf
  · exact h f en hf

/-! ### What APPLY arms fits (R28) -/

/-- A plan without a first overlap has none: of two positions one is the lower. -/
theorem not_overlap_of_firstOverlap {p : Plan} (h : firstOverlap p = none) {i j : EntryIx} (hij : i ≠ j) : ¬Overlap p i j := by
  have key (k l : EntryIx) (hkl : k < l) : ¬Overlap p k l := by
    have := List.find?_eq_none.1 h (k, l) (mem_positionPairs.2 hkl)
    rwa [positionsOverlap_iff] at this
  rcases lt_or_gt_of_ne hij with hlt | hgt
  · exact key i j hlt
  · rintro ⟨a, b, ha, hb, hab, hba⟩
    exact key j i hgt ⟨b, a, hb, ha, hba, hab⟩

theorem planFits_of_tests {p : Plan} (ho : firstOverlap p = none) (ht : planTapCount p ≤ 24) (hp : planPages p ≤ 256) :
    PlanFits p where
  outputs i j a b hij ha hb := by
    by_contra hc
    exact not_overlap_of_firstOverlap ho hij ⟨a, b, ha, hb, by omega, by omega⟩
  taps := ht
  pages := hp

/-- APPLY changes nothing, or it arms a plan that fits. -/
theorem actApply_cases (b : List Byte) (s : State) :
    (actApply b s).state = s ∨
    (actApply b s).state = setPln { s.pln with armed := true } s ∧ PlanFits s.pln.staged := by
  rw [actApply]
  split
  · exact .inl rfl
  · split
    · exact .inl rfl
    · next ho =>
      simp only
      split
      · exact .inl rfl
      · next ht =>
        split
        · exact .inl rfl
        · next hp => exact .inr ⟨rfl, planFits_of_tests ho (not_lt.1 ht) (not_lt.1 hp)⟩

end Sys2Proof.Safety

namespace Sys2Proof.Machine

open Sys2Proof.Safety

/-! ### The plan and the extractor after a switch (R32, R14, R44) -/

theorem planSwitch_pln (s : State) :
    (planSwitch s).pln =
      { s.pln with active := s.pln.staged, activeSettings := s.pln.stagedSettings, armed := false } := by
  simp [planSwitch, disarm, adoptPlan]

theorem planSwitch_ext (s : State) :
    (planSwitch s).ext = { s.ext with
      rows := buildRows s.pln.staged
      gen := s.ext.gen + 1
      since := Vector.zipWith (fun c g => if startsChannel c then s.ext.gen + 1 else g) (switchClasses s) s.ext.since } := by
  simp [planSwitch, rebuildTaps, adoptPlan]

theorem deliverBlock_rows (e : EntryIx) (r : Source) (s : State) : (deliverBlock e r s).ext.rows = s.ext.rows := by
  rw [deliverBlock]
  split
  · rfl
  · split
    · rfl
    · simp only
      split
      · rfl
      · simp

end Sys2Proof.Machine

namespace Sys2Proof.Safety

open Sys2Proof.Machine

/-! ### The law (R13, R22, R29, R32) -/

/-- The law speaks of the plan store and of the tap table alone. -/
theorem PlanLaw.congr {s t : State} (h : PlanLaw s) (hp : t.pln = s.pln) (hx : t.ext.rows = s.ext.rows) : PlanLaw t := by
  obtain ⟨h1, h2, h3, h4, h5, h6, h7⟩ := h
  constructor <;> simpa [hp, hx]

theorem PlanLaw.switch {s : State} (h : PlanLaw s) (ha : s.pln.armed = true) : PlanLaw (planSwitch s) := by
  have hp := planSwitch_pln s
  have hx := planSwitch_ext s
  exact {
    staged := by simpa [hp] using h.staged
    active := by simpa [hp] using h.staged
    stagedSettings := by simpa [hp] using h.stagedSettings
    activeSettings := by simpa [hp] using h.stagedSettings
    activeFits := by simpa [hp] using h.armedFits ha
    armedFits := by simp [hp]
    taps := by simp [hp, hx] }

theorem PlanLaw.disarmed {s t : State} (h : PlanLaw s) (hp : t.pln = { s.pln with armed := false })
    (hx : t.ext.rows = s.ext.rows) : PlanLaw t := by
  obtain ⟨h1, h2, h3, h4, h5, -, h7⟩ := h
  constructor <;> simp_all

/-- A staging request leaves the law: while it is not refused, the arm state is CLEAR. -/
theorem PlanLaw.restaged {s t : State} (h : PlanLaw s) (ha : s.pln.armed = false) {p : Plan} {r : Settings} (hp : PlanSound p)
    (hr : SettingsSound r) (hpln : t.pln = { s.pln with staged := p, stagedSettings := r }) (hx : t.ext.rows = s.ext.rows) :
    PlanLaw t := by
  obtain ⟨-, h2, -, h4, h5, -, h7⟩ := h
  constructor <;> simp_all

theorem PlanLaw.actPutEntry {s : State} (h : PlanLaw s) (b : List Byte) : PlanLaw (actPutEntry b s).state := by
  rw [Machine.actPutEntry]
  split
  · exact h
  · next ha =>
    split
    · exact h
    · next e _ =>
      simp only
      split
      · exact h
      · next hb =>
        exact h.restaged (by simpa using ha) (h.staged.vput e fun en hen => Option.some.inj hen ▸ entrySound_storeEntry hb)
          h.stagedSettings rfl rfl

theorem PlanLaw.actDropEntry {s : State} (h : PlanLaw s) (b : List Byte) : PlanLaw (actDropEntry b s).state := by
  rw [Machine.actDropEntry]
  split
  · exact h
  · next ha =>
    split
    · exact h
    · next e _ => exact h.restaged (by simpa using ha) (h.staged.vput e (by simp)) h.stagedSettings rfl rfl

theorem PlanLaw.actPutSettings {s : State} (h : PlanLaw s) (b : List Byte) : PlanLaw (actPutSettings b s).state := by
  rw [Machine.actPutSettings]
  split
  · exact h
  · next ha =>
    split
    · exact h
    · exact h.restaged (by simpa using ha) h.staged (settingsSound_clampSettings _) rfl rfl

theorem PlanLaw.actCopyActive {s : State} (h : PlanLaw s) (b : List Byte) : PlanLaw (actCopyActive b s).state := by
  rw [Machine.actCopyActive]
  split
  · exact h
  · next ha => exact h.restaged (by simpa using ha) h.active h.activeSettings rfl rfl

theorem PlanLaw.actApply {s : State} (h : PlanLaw s) (b : List Byte) : PlanLaw (actApply b s).state := by
  rcases actApply_cases b s with hs | ⟨hs, hfits⟩
  · rwa [hs]
  · rw [hs]
    obtain ⟨h1, h2, h3, h4, h5, -, h7⟩ := h
    exact ⟨h1, h2, h3, h4, h5, fun _ => hfits, h7⟩

theorem PlanLaw.actCancel {s : State} (h : PlanLaw s) (b : List Byte) : PlanLaw (actCancel b s).state := by
  rw [Machine.actCancel]
  split
  · exact h.disarmed rfl rfl
  · exact h

theorem PlanLaw.actOf {s : State} (h : PlanLaw s) (k : Kind) (b : List Byte) : PlanLaw (actOf k b s).state := by
  cases k with
  | putEntry => exact h.actPutEntry b
  | dropEntry => exact h.actDropEntry b
  | putSettings => exact h.actPutSettings b
  | copyActive => exact h.actCopyActive b
  | apply => exact h.actApply b
  | cancel => exact h.actCancel b
  | _ => exact h.congr (by simp [Machine.actOf]) (by simp [Machine.actOf])

theorem planLaw_kept : StepKept PlanLaw where
  pending _ _ h := h.congr rfl rfl
  lineLow _ h := h.congr rfl rfl
  powerOn _ := planLaw_reset.congr rfl rfl
  take _ _ _ _ h := h.congr rfl rfl
  respond _ _ _ _ h := h.congr (by simp) (by simp)
  act k b _ h := h.actOf k b
  restart s h := h.disarmed (by simp [warmRestart, restartDst]) (by simp [warmRestart, restartDst])
  trunk _ _ _ h := h.congr (by simp) (by simp [takeTrunkOutcome])
  block e r s h := h.congr (by simp) (deliverBlock_rows e r s)
  access _ h := h.congr (by simp) (by simp)
  refresh _ h := h.congr (by simp) (by simp)
  start _ h := h.congr (by simp) (by simp [startBlock, startPeriod])
  assembly s h := by
    rcases assembleBlock_cases s with ⟨-, ha⟩ | ⟨o, c, -, -, ⟨-, ha⟩ | ⟨hs, ha⟩⟩ <;> rw [ha]
    · exact h
    · exact h.congr (by simp) (by simp)
    · exact (h.congr (by simp) (by simp)).switch (by simpa using hs.2.2)
  forward _ h := h.congr (by simp) (by simp)
  reverse _ _ h := h.congr (by simp) (by simp)
  lock _ _ h := h.congr (by simp) (by simp)
  bias _ h := h.congr (by simp) (by simp)
  cool _ h := h.congr (by simp) (by simp)
  test _ _ h := h.congr (by simp) (by simp)
  send _ _ h := h.congr (by simp) (by simp)

/-- Settles O12: requests stage what is sound and arm what fits, and the switch adopts what is armed. -/
theorem planStaysLawful : Obligations.PlanStaysLawful := fun _ _ hs ht => planLaw_kept.step hs ht

end Sys2Proof.Safety
end

section
/-! SUPPORT. What a command may do to the contexts and to a dwell between two plan switches (R42, R59, R67, R111, R142), proved
once for each operation as the relation `Moved`; and the laws of the contexts that follow from it. -/

namespace Sys2Proof.Machine

open Sys2Proof.Safety

/-! ### The relation -/

/-- A context outside ACQUIRE, LIVE and FADE holds its loss count at 0 and its expired mark clear. -/
def Quiet (c : Ctx) : Prop :=
  c.state ≠ .acquire → c.state ≠ .live → c.state ≠ .fade → c.loss = 0 ∧ c.expired = false

/-- A context that a dwell may stay on: a contributor with its shed flag clear. -/
def Heardable (c : Ctx) : Prop := isContributor c.state = true ∧ c.shed = false

/-- A dwell on an entry is in progress. -/
def DwellsOn (s : State) (e : EntryIx) : Prop := ∃ d, s.mon.dwell = some d ∧ d.visited = .entry e

/-- A change that no plan switch is part of: OFF is neither entered nor left, quiet contexts stay quiet, and a dwell stays on a
contributor that is not shed. -/
structure Moved (s t : State) : Prop where
  active : ∀ e, activeAt t e = activeAt s e
  off    : ∀ e, (ctxAt t e).state = .off ↔ (ctxAt s e).state = .off
  quiet  : ∀ e, Quiet (ctxAt s e) → Quiet (ctxAt t e)
  dwell  : ∀ e, (DwellsOn s e → Heardable (ctxAt s e)) → DwellsOn t e → Heardable (ctxAt t e)

theorem Moved.refl (s : State) : Moved s s := ⟨fun _ => rfl, fun _ => .rfl, fun _ h => h, fun _ h => h⟩

theorem Moved.trans {s t u : State} (h1 : Moved s t) (h2 : Moved t u) : Moved s u where
  active e := (h2.active e).trans (h1.active e)
  off e := (h2.off e).trans (h1.off e)
  quiet e h := h2.quiet e (h1.quiet e h)
  dwell e h := h2.dwell e (h1.dwell e h)

theorem Moved.foldl {α : Type} {f : State → α → State} (h : ∀ s a, Moved s (f s a)) (l : List α) (s : State) :
    Moved s (l.foldl f s) :=
  foldl_keeps f (Moved s) (fun _ _ hb => hb.trans (h _ _)) l s (.refl s)

/-- A change that leaves the contexts and the plan, and of a dwell at most its end. -/
theorem Moved.of_ctx {s t : State} (hc : ∀ e, ctxAt t e = ctxAt s e) (ha : ∀ e, activeAt t e = activeAt s e)
    (hd : t.mon.dwell = s.mon.dwell ∨ t.mon.dwell = none) : Moved s t where
  active := ha
  off e := by rw [hc]
  quiet e h := by rwa [hc]
  dwell e h ht := by
    rw [hc]
    rcases hd with hd | hd
    · exact h (by rwa [DwellsOn, ← hd])
    · obtain ⟨d, h1, -⟩ := ht
      rw [hd] at h1
      cases h1

theorem Moved.endDwell (s : State) : Moved s (endDwell s) := .of_ctx (fun _ => rfl) (fun _ => rfl) (.inr rfl)

theorem not_dwellsOn_endDwellOn (e : EntryIx) (s : State) : ¬DwellsOn (endDwellOn e s) e := by
  rintro ⟨d, hd, hv⟩
  rw [endDwellOn] at hd
  split at hd
  · next x hx =>
    split at hd
    · cases hd
    · next hne =>
      cases hx.symm.trans hd
      exact hne hv
  · next hx => cases hx.symm.trans hd

theorem dwellsOn_of_endDwellOn {e f : EntryIx} {s : State} (h : DwellsOn (endDwellOn e s) f) : DwellsOn s f := by
  obtain ⟨d, hd, hv⟩ := h
  rw [endDwellOn] at hd
  split at hd
  · split at hd
    · cases hd
    · exact ⟨d, hd, hv⟩
  · exact ⟨d, hd, hv⟩

/-- A change of a context in other fields than its state and its counts; its shed flag is at most cleared. -/
theorem Moved.setCtx {e : EntryIx} {n : Ctx} {s : State} (h1 : n.state = (ctxAt s e).state) (h2 : n.loss = (ctxAt s e).loss)
    (h3 : n.expired = (ctxAt s e).expired) (h4 : n.shed = (ctxAt s e).shed ∨ n.shed = false) : Moved s (setCtx e n s) where
  active _ := rfl
  off f := by
    by_cases hf : f = e
    · subst hf
      rw [ctxAt_setCtx_same, h1]
    · rw [ctxAt_setCtx_other n s hf]
  quiet f h := by
    by_cases hf : f = e
    · subst hf
      rw [ctxAt_setCtx_same]
      simpa only [Quiet, h1, h2, h3] using h
    · rwa [ctxAt_setCtx_other n s hf]
  dwell f h ht := by
    by_cases hf : f = e
    · subst hf
      rw [ctxAt_setCtx_same, Heardable, h1]
      exact ⟨(h ht).1, h4.elim (fun h4 => h4.trans (h ht).2) id⟩
    · rw [ctxAt_setCtx_other n s hf]
      exact h ht

/-- What is left of the dwell when the context of an entry leaves the contributor states. -/
theorem dwell_of_dwellLeft {e : EntryIx} {s : State} {d : Dwell} (h : (dwellLeft e s).mon.dwell = some d) :
    s.mon.dwell = some d ∧ ¬(d.visited = .entry e ∧ isContributor (ctxAt s e).state = true) := by
  rw [dwellLeft] at h
  split at h
  · next x hx =>
    split at h
    · cases h
    · next hne =>
      cases hx.symm.trans h
      exact ⟨hx, hne⟩
  · next hx => cases hx.symm.trans h

/-- A committed change of a context that was not in OFF and does not enter it. -/
theorem Moved.commitCtx {e : EntryIx} {n : Ctx} {r : Reason} {s : State} (h1 : (ctxAt s e).state ≠ .off) (h2 : n.state ≠ .off)
    (h3 : n.shed = (ctxAt s e).shed) (h4 : Quiet (ctxAt s e) → Quiet n) : Moved s (commitCtx e n r s) where
  active _ := by simp
  off f := by
    rw [ctxAt_commitCtx]
    split
    · next hf =>
      subst hf
      simp [h1, h2]
    · rfl
  quiet f h := by
    rw [ctxAt_commitCtx]
    split
    · next hf =>
      subst hf
      rw [committed]
      split
      · exact h4 h
      · exact h4 h
    · exact h
  dwell f h ht := by
    obtain ⟨d, hd, hv⟩ := ht
    rw [commitCtx_mon] at hd
    have hs : DwellsOn s f := by
      split at hd
      · exact ⟨d, hd, hv⟩
      · exact ⟨d, (dwell_of_dwellLeft hd).1, hv⟩
    rw [ctxAt_commitCtx]
    split
    · next hf =>
      subst hf
      have hold := h hs
      split at hd
      · next hn => exact ⟨by simpa using hn, by simp [committed_shed, h3, hold.2]⟩
      · exact absurd ⟨hv, hold.1⟩ (dwell_of_dwellLeft hd).2
    · exact h hs

/-! ### The shared operations -/

theorem quiet_toAcquire (c : Ctx) : Quiet (toAcquire c) := fun h => absurd rfl h

theorem quiet_toMuted (cause : Cause) (c : Ctx) : Quiet (toMuted cause c) := fun _ _ _ => ⟨rfl, rfl⟩

/-- Quietness looks at the state, the loss count and the expired mark. -/
theorem Quiet.congr {c d : Ctx} (h : Quiet c) (h1 : d.state = c.state) (h2 : d.loss = c.loss) (h3 : d.expired = c.expired) :
    Quiet d := by
  simpa only [Quiet, h1, h2, h3] using h

theorem ne_off_of_inTest {c : CtxState} (h : inTest c = true) : c ≠ .off := by
  rintro rfl
  cases h

theorem ne_off_of_isContributor {c : CtxState} (h : isContributor c = true) : c ≠ .off := by
  rintro rfl
  cases h

theorem Moved.stopTest (e : EntryIx) (s : State) : Moved s (stopTest e s) := by
  rw [Machine.stopTest]
  split
  · next h => exact .commitCtx (ne_off_of_inTest h) nofun rfl fun _ => quiet_toAcquire _
  · exact .refl s

theorem Moved.post (c : Content) (s : State) : Moved s (post c s) := .of_ctx (fun _ => rfl) (fun _ => rfl) (.inl rfl)

theorem Moved.setDst (d : Dst) (s : State) : Moved s (setDst d s) := .of_ctx (fun _ => rfl) (fun _ => rfl) (.inl rfl)

theorem Moved.setTxs (x : Txs) (s : State) : Moved s (setTxs x s) := .of_ctx (fun _ => rfl) (fun _ => rfl) (.inl rfl)

theorem Moved.endTestsOnTrip (s : State) : Moved s (endTestsOnTrip s) := by
  rw [Machine.endTestsOnTrip]
  split
  · exact .foldl (fun s e => .stopTest e s) _ _
  · exact .refl s

theorem Moved.ite {p : Prop} [Decidable p] {s t u : State} (ht : Moved s t) (hu : Moved s u) : Moved s (if p then t else u) := by
  split
  · exact ht
  · exact hu

theorem Moved.commitTxs (x : Txs) (s : State) : Moved s (commitTxs x s) := by
  rw [Machine.commitTxs]
  refine .trans (.trans (.trans (.setTxs x s) (.ite (.endDwell _) (.refl _))) (.ite (.post _ _) (.refl _)))
    (.ite (.endTestsOnTrip _) (.refl _))

theorem Moved.tripOrFurther (c : Trip) (s : State) : Moved s (tripOrFurther c s) := .ite (.commitTxs _ _) (.commitTxs _ _)

theorem Moved.switchSource {e : EntryIx} {f : Bool} {r : Reason} {c : Ctx} {s : State} (h1 : (ctxAt s e).state ≠ .off)
    (h2 : c.shed = (ctxAt s e).shed) : Moved s (switchSource e f r c s) :=
  (Moved.commitCtx (n := switched f c) (r := r) h1 nofun h2 fun _ h => absurd rfl h).trans
    (.of_ctx (by simp) (by simp) (.inl (by simp [Machine.switchSource])))

/-! ### Blocks, the memory, tests and requests -/

/-- A context in one of the states in which counts may stand. -/
theorem quiet_of_state {c : Ctx} (h : c.state = .acquire ∨ c.state = .live ∨ c.state = .fade) : Quiet c :=
  fun h1 h2 h3 => absurd h (by simp [h1, h2, h3])

theorem badInRun_moved (en : Entry) {c : Ctx} (h : c.state = .acquire ∨ c.state = .fade) :
    (badInRun en c).state ≠ .off ∧ Quiet (badInRun en c) := by
  have hsame {d : Ctx} (hd : d.state = c.state) : d.state ≠ .off ∧ Quiet d :=
    ⟨by rcases h with h | h <;> simp [hd, h], quiet_of_state (by rcases h with h | h <;> simp [hd, h])⟩
  rw [badInRun]
  split
  · exact hsame rfl
  · split
    · split
      · exact hsame rfl
      · exact ⟨nofun, quiet_toMuted _ _⟩
      · exact ⟨nofun, quiet_toMuted _ _⟩
    · exact hsame rfl

theorem inUseRule_moved (en : Entry) (q : Nat) (g : Bool) (l : Option Line) {c : Ctx} (h : c.state ≠ .off) :
    (inUseRule en q g l c).state ≠ .off ∧ (Quiet c → Quiet (inUseRule en q g l c)) := by
  rw [inUseRule]
  split
  · next hs =>
    split
    · simp only
      split
      · exact ⟨nofun, fun _ => quiet_of_state (.inr (.inl rfl))⟩
      · exact ⟨h, fun _ => quiet_of_state (.inl hs)⟩
    · exact ⟨(badInRun_moved en (.inl hs)).1, fun _ => (badInRun_moved en (.inl hs)).2⟩
  · next hs =>
    split
    · exact ⟨h, fun _ => quiet_of_state (.inr (.inl hs))⟩
    · exact ⟨nofun, fun _ => quiet_of_state (.inr (.inr rfl))⟩
  · next hs =>
    split
    · exact ⟨nofun, fun _ => quiet_of_state (.inr (.inl rfl))⟩
    · exact ⟨(badInRun_moved en (.inr hs)).1, fun _ => (badInRun_moved en (.inr hs)).2⟩
  · exact ⟨h, id⟩
  · exact ⟨h, id⟩
  · exact ⟨h, id⟩

/-- The rest of a block's step, from a context that differs from the one in place in readiness, levels and gain alone. -/
theorem Moved.finishBlock {e : EntryIx} {en : Entry} {r : Source} {g : Bool} {b : BlockRecord} {c : Ctx} {s : State}
    (hoff : (ctxAt s e).state ≠ .off) (h1 : c.state = (ctxAt s e).state) (h2 : c.loss = (ctxAt s e).loss)
    (h3 : c.expired = (ctxAt s e).expired) (h4 : c.shed = (ctxAt s e).shed) : Moved s (finishBlock e en r g b c s) := by
  simp only [Machine.finishBlock]
  generalize hc : { c with revert := nextRevert en c r g } = d
  have hd : d.state = (ctxAt s e).state ∧ d.loss = (ctxAt s e).loss ∧ d.expired = (ctxAt s e).expired ∧
      d.shed = (ctxAt s e).shed := by
    subst hc
    exact ⟨h1, h2, h3, h4⟩
  obtain ⟨hstate, hloss, hexpired, hshed⟩ := hd
  split
  · exact .switchSource hoff hshed
  · generalize hu : (if (r == c.source) = true then handOn e en b s else s) = u
    have hhand : Moved s u ∧ ctxAt u e = ctxAt s e := by
      subst hu
      split
      · exact ⟨.of_ctx (by simp) (by simp) (.inl (by simp)), by simp⟩
      · exact ⟨.refl s, rfl⟩
    obtain ⟨hmoved, hctx⟩ := hhand
    have hcommit {n : Ctx} {why : Reason} (hn : n.state ≠ .off) (hsn : n.shed = d.shed) (hq : Quiet d → Quiet n) :
        Moved s (Machine.commitCtx e n why u) :=
      hmoved.trans (.commitCtx (by rwa [hctx]) hn (by rw [hsn, hshed, hctx]) fun h =>
        hq (h.congr (by rw [hstate, hctx]) (by rw [hloss, hctx]) (by rw [hexpired, hctx])))
    have hdoff : d.state ≠ .off := hstate ▸ hoff
    split
    · exact hcommit nofun rfl fun _ => quiet_toAcquire _
    · split
      · obtain ⟨hn, hq⟩ := inUseRule_moved en s.pln.activeSettings.acquire g (lineAt u e) hdoff
        exact hcommit hn (inUseRule_core ..).2.2 hq
      · exact hcommit hdoff rfl id

theorem Moved.takeBlock {e : EntryIx} {en : Entry} {r : Source} {b : ChannelBlock} {s : State}
    (hoff : (ctxAt s e).state ≠ .off) : Moved s (takeBlock e en r b s) := by
  rw [Machine.takeBlock]
  split <;> refine .finishBlock hoff ?_ ?_ ?_ ?_ <;> cases r <;> rfl

theorem Moved.deliverBlock (e : EntryIx) (r : Source) (s : State) : Moved s (deliverBlock e r s) := by
  have htake (x : Ext) : Moved s (setExt x s) := .of_ctx (fun _ => rfl) (fun _ => rfl) (.inl rfl)
  rw [Machine.deliverBlock]
  split
  · exact .refl s
  · split
    · exact htake _
    · simp only
      split
      · exact htake _
      · next h => exact .trans (htake _) (.takeBlock fun hs => h (.inl hs))

theorem ne_off_of_liveOrFade {c : CtxState} (h : liveOrFade c = true) : c ≠ .off := by
  rintro rfl
  cases h

theorem Moved.overrunCtx (e : EntryIx) (s : State) : Moved s (overrunCtx e s) := by
  rw [Machine.overrunCtx]
  split
  · exact .refl s
  · split
    · next h =>
      rw [Bool.and_eq_true] at h
      exact .commitCtx (ne_off_of_liveOrFade h.1) nofun rfl fun _ => quiet_toAcquire _
    · exact .refl s

theorem Moved.overrun (s : State) : Moved s (overrun s) := by
  have hflush : Moved s (flushAll s) := .of_ctx (by simp) (by simp) (.inl (by simp))
  have htell : Moved (flushAll s) (tellOverrun (flushAll s)) := .foldl (fun u e => .overrunCtx e u) _ _
  have hpost : Moved (tellOverrun (flushAll s)) (Machine.overrun s) :=
    .of_ctx (by simp [Machine.overrun]) (by simp [Machine.overrun]) (.inl (by simp [Machine.overrun]))
  exact (hflush.trans htell).trans hpost

theorem Moved.refreshExpiry (s : State) : Moved s (refreshExpiry s) := by
  rw [Machine.refreshExpiry]
  exact .trans (.setDst _ s) (.ite (.overrun _) (.setDst _ _))

theorem ctxAt_startBlock (s : State) (e : EntryIx) : ctxAt (startBlock s) e = tickTest (ctxAt s e) := by
  simp [startBlock, startPeriod, ctxAt]

/-- Stepping its timer changes a context in nothing but the time left of a test. -/
theorem tickTest_keeps (c : Ctx) :
    ((tickTest c).state = .off ↔ c.state = .off) ∧ (Quiet c → Quiet (tickTest c)) ∧ (Heardable c → Heardable (tickTest c)) := by
  rw [tickTest]
  split
  · next n l hs =>
    refine ⟨by simp [hs], fun h _ _ _ => h (by simp [hs]) (by simp [hs]) (by simp [hs]), fun h => ⟨rfl, h.2⟩⟩
  · exact ⟨.rfl, id, id⟩

theorem Moved.startBlock (s : State) : Moved s (startBlock s) where
  active _ := by simp
  off e := by rw [ctxAt_startBlock, (tickTest_keeps _).1]
  quiet e h := by
    rw [ctxAt_startBlock]
    exact (tickTest_keeps _).2.1 h
  dwell e h ht := by
    rw [ctxAt_startBlock]
    have hmon : (Machine.startBlock s).mon = s.mon := by simp
    exact (tickTest_keeps _).2.2 (h (by rwa [DwellsOn, hmon] at ht))

theorem Moved.expireTest (e : EntryIx) (s : State) : Moved s (expireTest e s) := by
  rw [Machine.expireTest]
  simp only
  split
  · next h =>
    have hoff : (ctxAt s e).state ≠ .off := by simp [h]
    split
    · exact .commitCtx hoff nofun rfl fun _ => quiet_toAcquire _
    · exact .commitCtx hoff nofun rfl fun _ => quiet_toMuted _ _
  · exact .refl s

/-! ### Requests -/

theorem Moved.onEntry {b : List Byte} {s : State} {f : EntryIx → Ctx → Reply} (h : ∀ e, Moved s (f e (ctxAt s e)).state) :
    Moved s (onEntry b s f).state := by
  rw [Machine.onEntry]
  split
  · exact .refl s
  · exact h _

theorem Moved.actMute (b : List Byte) (s : State) : Moved s (actMute b s).state :=
  .onEntry fun e => by
    split
    · exact .refl s
    · exact .refl s
    · next h _ => exact .commitCtx h nofun rfl fun _ => quiet_toMuted _ _

theorem Moved.actUnmute (b : List Byte) (s : State) : Moved s (actUnmute b s).state :=
  .onEntry fun e => by
    split
    · next h => exact .commitCtx (by simp [h]) nofun rfl fun _ => quiet_toAcquire _
    · next h => exact .commitCtx (by simp [h]) nofun rfl fun _ => quiet_toAcquire _
    · exact .refl s

theorem Moved.actForceSource (b : List Byte) (s : State) : Moved s (actForceSource b s).state :=
  .onEntry fun e => by
    split
    · exact .refl s
    · split
      · exact .refl s
      · next h =>
        split
        · exact .refl s
        · split
          · exact .refl s
          · refine .switchSource (fun hoff => h ?_) rfl
            rw [hoff]
            rfl

theorem Moved.actClearFaultEntry (b : List Byte) (s : State) : Moved s (actClearFaultEntry b s).state :=
  .onEntry fun e => by
    simp only
    split
    · exact .refl s
    · next h => exact .commitCtx (by simp [h]) nofun rfl fun _ => quiet_toAcquire _
    · exact .setCtx rfl rfl rfl (.inl rfl)

theorem Moved.stopReply (e : EntryIx) (c : Ctx) (b : List Byte) (s : State) : Moved s (stopReply e c b s).state := by
  rw [Machine.stopReply]
  split
  · exact .stopTest e s
  · exact .refl s

theorem Moved.actTestStart (b : List Byte) (s : State) : Moved s (actTestStart b s).state :=
  .onEntry fun e => by
    split
    · exact .stopReply ..
    · split
      · exact .refl s
      · next h =>
        have hoff : (ctxAt s e).state ≠ .off := fun hoff => h (by rw [hoff]; rfl)
        simp only
        split
        · next ht =>
          refine .commitCtx hoff nofun rfl fun hq _ _ _ => ?_
          have hne (c : CtxState) (hc : inTest c = false) : (ctxAt s e).state ≠ c := fun hs => by simp [hs, hc] at ht
          exact hq (hne _ rfl) (hne _ rfl) (hne _ rfl)
        · exact .commitCtx hoff nofun rfl fun _ _ _ _ => ⟨rfl, rfl⟩

theorem Moved.setMonitor (m : MonMode) (s : State) : Moved s (setMon (enterMode m s.mon) s) := by
  refine .of_ctx (fun _ => rfl) (fun _ => rfl) ?_
  rw [setMon_mon, enterMode]
  split
  · exact .inl rfl
  · split <;> exact .inr rfl

theorem Moved.actSetMonitor (b : List Byte) (s : State) : Moved s (actSetMonitor b s).state := by
  rw [Machine.actSetMonitor]
  split
  · exact .refl s
  · exact .setMonitor _ s

theorem Moved.actKey (b : List Byte) (s : State) : Moved s (actKey b s).state := by
  rw [Machine.actKey]
  split
  · exact .refl s
  · exact .commitTxs _ s

theorem Moved.actClearFaultTransmit (b : List Byte) (s : State) : Moved s (actClearFaultTransmit b s).state := by
  rw [Machine.actClearFaultTransmit]
  split
  · exact .refl s
  · split
    · exact .refl s
    · exact Moved.commitTxs { toOffAir s.txs with cause := .none, further := false } s

theorem Moved.actOf (k : Kind) (b : List Byte) (s : State) : Moved s (actOf k b s).state := by
  have hstaging := staging_active b s
  cases k with
  | mute => exact .actMute b s
  | unmute => exact .actUnmute b s
  | forceSource => exact .actForceSource b s
  | clearFaultEntry => exact .actClearFaultEntry b s
  | testStart => exact .actTestStart b s
  | testStop => exact .onEntry fun _ => .stopReply ..
  | setMonitor => exact .actSetMonitor b s
  | key => exact .actKey b s
  | unkey => exact .commitTxs _ s
  | shutdown => exact .tripOrFurther _ s
  | clearFaultTransmit => exact .actClearFaultTransmit b s
  | _ => exact .of_ctx (by simp [Machine.actOf]) (by simp [Machine.actOf, hstaging]) (.inl (by simp [Machine.actOf]))

/-! ### The monitor and the sequencer -/

theorem Moved.overlevelMute (e : EntryIx) (s : State) : Moved s (overlevelMute e s) := by
  rw [Machine.overlevelMute]
  split
  · next h => exact .commitCtx (ne_off_of_isContributor h) nofun rfl fun _ => quiet_toMuted _ _
  · exact .refl s

theorem finding_counts (m x : Int) (t : Nat) (c : Ctx) :
    (finding m x t c).1.loss = c.loss ∧ (finding m x t c).1.expired = c.expired := by
  rw [finding]
  split
  · split <;> exact ⟨rfl, rfl⟩
  · split <;> exact ⟨rfl, rfl⟩

theorem Moved.completeEntry (d : Dwell) (e : EntryIx) (x : Int) (s : State) : Moved s (completeEntry d e x s) := by
  obtain ⟨-, -, hshed, hstate⟩ := finding_core (measuredLevel d) x s.pln.activeSettings.tolerance (ctxAt s e)
  obtain ⟨hloss, hexpired⟩ := finding_counts (measuredLevel d) x s.pln.activeSettings.tolerance (ctxAt s e)
  exact .trans (.trans (.endDwell s) (.setCtx hstate hloss hexpired (.inl hshed))) (.ite (.overlevelMute _ _) (.refl _))

/-- A monitor whose dwell, if any, visits what may be heard. -/
theorem Moved.setMon {m : Mon} {s : State}
    (h : ∀ d e, m.dwell = some d → d.visited = .entry e → DwellsOn s e ∨ Heardable (ctxAt s e)) : Moved s (setMon m s) where
  active _ := rfl
  off _ := .rfl
  quiet _ h := h
  dwell e hs := fun ⟨d, hd, hv⟩ => (h d e hd hv).elim hs id

theorem Moved.completeSelftest (d : Dwell) (s : State) : Moved s (completeSelftest d s) :=
  .of_ctx (fun _ => rfl) (fun _ => rfl) (.inr rfl)

/-- A frame counted into a dwell whose visited entry may be heard or is already dwelt on. -/
theorem Moved.countFrame {h : Heard} {d : Dwell} {s : State}
    (hd : ∀ e, d.visited = .entry e → DwellsOn s e ∨ Heardable (ctxAt s e)) : Moved s (countFrame h d s) := by
  rw [Machine.countFrame]
  split
  · exact .refl s
  · simp only
    split
    · refine .setMon fun x e hx hv => hd e ?_
      cases hx
      exact hv
    · split
      · exact .completeSelftest _ s
      · split
        · exact .completeEntry ..
        · exact .refl s

/-- What a dwell that begins visits may be heard (R140). -/
theorem nextVisit_heardable {h : Heard} {s : State} {e : EntryIx} (hv : nextVisit h s = some (.entry e)) :
    Heardable (ctxAt s e) := by
  have hmay (f : EntryIx) (hf : mayVisit h s f = true) : Heardable (ctxAt s f) := by
    simp only [mayVisit, Bool.and_eq_true, Bool.not_eq_true'] at hf
    exact ⟨hf.1.2, hf.2⟩
  rw [nextVisit] at hv
  split at hv
  · cases hv
  · obtain ⟨f, hf, hfe⟩ := Option.map_eq_some_iff.1 hv
    cases hfe
    exact hmay _ (List.find?_some hf)
  · split at hv
    · next hf =>
      cases hv
      exact hmay _ hf
    · cases hv
  · cases hv

theorem Moved.monitorFrame (h : Heard) (s : State) : Moved s (monitorFrame h s) := by
  rw [Machine.monitorFrame]
  split
  · exact .refl s
  · split
    · next d hd => exact .countFrame fun e he => .inl ⟨d, hd, he⟩
    · rw [beginDwell]
      split
      · exact .refl s
      · next v hv =>
        have hpos (pos : EntryIx) : Moved s (Machine.setMon { s.mon with scanPos := pos } s) :=
          .of_ctx (fun _ => rfl) (fun _ => rfl) (.inl rfl)
        refine .trans (hpos _) (.countFrame fun e he => .inr ?_)
        have he : v = .entry e := he
        subst he
        exact (nextVisit_heardable hv : Heardable (ctxAt s e))

theorem Moved.sendForward (s : State) : Moved s (sendForward s) := .trans (.setTxs _ s) (.monitorFrame _ _)

theorem Moved.takeReverse (w : Window) (s : State) : Moved s (takeReverse w s) := by
  have hready (u : State) : Moved u (stageReady u) := .ite (.commitTxs _ _) (.refl _)
  have htrip (u : State) : Moved u (stageTrip u) := .ite (.tripOrFurther _ _) (.refl _)
  have heval (u : State) : Moved u (stageEvaluate u) :=
    .ite (.trans (.setTxs _ u) (.ite (.tripOrFurther _ _) (.refl _))) (.refl _)
  rw [Machine.takeReverse]
  split
  · exact .trans (.setTxs _ s) (.ite (.tripOrFurther _ _) (.refl _))
  · exact .trans (.setTxs _ s) (.ite (.ite (.tripOrFurther _ _) (.refl _)) (.trans (.trans (hready _) (htrip _)) (heval _)))

theorem Moved.sampleLock (l : Bool) (s : State) : Moved s (sampleLock l s) := .ite (.setTxs _ s) (.commitTxs _ s)

theorem Moved.expireBias (s : State) : Moved s (expireBias s) := .ite (.tripOrFurther _ s) (.refl s)

theorem Moved.expireCool (s : State) : Moved s (expireCool s) := .ite (.commitTxs _ s) (.refl s)

/-! ### The assembly of an output block, its switch apart -/

theorem Moved.shedOne (c : Share) (s : State) : Moved s (shedOne c s) where
  active _ := by simp
  off e := by
    rw [ctxAt_shedOne]
    split
    · next he => rw [he]
    · rfl
  quiet e h := by
    rw [ctxAt_shedOne]
    split
    · next he =>
      subst he
      exact h.congr rfl rfl rfl
    · exact h
  dwell e h ht := by
    rw [DwellsOn, Machine.shedOne, (postChannel_frame ..).2.2.2.2.2.2.2.2.2.2.1] at ht
    rw [ctxAt_shedOne]
    split
    · next he =>
      subst he
      exact absurd ht (not_dwellsOn_endDwellOn _ _)
    · exact h (dwellsOn_of_endDwellOn (s := Machine.setCtx _ _ s) ht)

theorem Moved.restoreOne (c : Option Share) (s : State) : Moved s (restoreOne c s) := by
  cases c with
  | none => exact .refl s
  | some c =>
    have hctx : Moved s (Machine.setCtx c.entry { ctxAt s c.entry with shed := false } s) := .setCtx rfl rfl rfl (.inr rfl)
    exact hctx.trans (.post _ _)

theorem Moved.blockFormed (o : OutBlock) (s : State) : Moved s (blockFormed o s) := by
  have hclosed : Moved s (readsClosed o s) := .of_ctx (by simp) (by simp) (.inl (by simp))
  have hflags (b : Budget) (u : State) : Moved u (flagsSet b u) :=
    .trans (.foldl (fun v c => .shedOne c v) b.newlyShed u) (.restoreOne _ _)
  have hrecorded (p : OutBlock) (b : Budget) (l : List Sample) (u : State) : Moved u (blockRecorded p b l u) :=
    .of_ctx (by simp) (by simp) (.inl (by simp))
  have htaken (l : List Sample) (p : List Applied) (u : State) : Moved u (takeOutputBlock l p u) :=
    .trans (.commitTxs _ u) (.setTxs _ _)
  exact .trans (.trans (.trans hclosed (hflags _ _)) (hrecorded _ _ _ _)) (htaken _ _ _)

/-! ### The plan switch (R32 to R38, R142) -/

/-- The contexts as the new settings leave them, before the switch treats them by class. -/
theorem Moved.settleSettings (s : State) :
    Moved (setCtxs (s.ctx.map (clampReady s.pln.activeSettings.acquire)) s) (settleSettings s) :=
  have hctxs : Moved (setCtxs (s.ctx.map (clampReady s.pln.activeSettings.acquire)) s)
      (setCtxs (s.ctx.map (clampReady s.pln.activeSettings.acquire))
        (setSvc { s.svc with notices := settleNotices s.pln.activeSettings s.svc.notices } s)) :=
    .of_ctx (fun _ => rfl) (fun _ => rfl) (.inl rfl)
  hctxs.trans (.commitTxs (settleTxs s.pln.activeSettings s.txs) _)

theorem ctxAt_planSwitch (s : State) (e : EntryIx) : ctxAt (planSwitch s) e =
    switchedCtx (classify (activeAt s e) (vget s.pln.staged e)) (vget s.pln.staged e)
      (ctxAt (settleSettings (adoptPlan s)) e) := by
  simp only [planSwitch, postSwitched, disarm, ctxAt_post, ctxAt_setPln, ctxAt_contextPass, rebuildTaps, ctxAt_setExt,
    clearPass_frame, allocPass_frame, freePass_frame, activeAt_setExt, settleSettings_frame, switchClasses, vget_zipWith]
  rfl

theorem activeAt_planSwitch (s : State) (e : EntryIx) : activeAt (planSwitch s) e = vget s.pln.staged e := by
  rw [activeAt, planSwitch_pln]

/-- A dwell that outlives the context pass is on an entry whose channel does not end. -/
theorem dwellsOn_contextPass {k : Classes} {s : State} {e : EntryIx} (h : DwellsOn (contextPass k s) e) :
    DwellsOn s e ∧ endsChannel (vget k e) = false := by
  have hone (f : EntryIx) (u : State) (hu : DwellsOn (switchCtx f (vget k f) u) e) :
      DwellsOn u e ∧ (e = f → endsChannel (vget k f) = false) := by
    have hmon : (switchCtx f (vget k f) u).mon =
        (if endsChannel (vget k f) then endDwellOn f (Machine.setCtx f (switchedCtx (vget k f) (activeAt u f) (ctxAt u f)) u)
          else Machine.setCtx f (switchedCtx (vget k f) (activeAt u f) (ctxAt u f)) u).mon := by
      simp only [switchCtx]
      split <;> split <;> simp
    rw [DwellsOn, hmon] at hu
    by_cases hends : endsChannel (vget k f) = true
    · rw [if_pos hends] at hu
      refine ⟨dwellsOn_of_endDwellOn (s := Machine.setCtx f _ u) hu, ?_⟩
      rintro rfl
      exact absurd hu (not_dwellsOn_endDwellOn _ _)
    · rw [if_neg hends] at hu
      exact ⟨hu, fun _ => by simpa using hends⟩
  have hall : ∀ (l : List EntryIx) (u : State), DwellsOn (l.foldl (fun u f => switchCtx f (vget k f) u) u) e →
      DwellsOn u e ∧ (e ∈ l → endsChannel (vget k e) = false) := by
    intro l
    induction l with
    | nil => exact fun u hu => ⟨hu, by simp⟩
    | cons f rest ih =>
      intro u hu
      obtain ⟨h1, h2⟩ := ih _ hu
      obtain ⟨h3, h4⟩ := hone f u h1
      refine ⟨h3, fun he => ?_⟩
      rcases List.mem_cons.1 he with rfl | he
      · exact h4 rfl
      · exact h2 he
  obtain ⟨h1, h2⟩ := hall entries s h
  exact ⟨h1, h2 (mem_entries e)⟩

theorem dwellsOn_planSwitch {s : State} {e : EntryIx} (h : DwellsOn (planSwitch s) e) :
    DwellsOn (settleSettings (adoptPlan s)) e ∧ endsChannel (classify (activeAt s e) (vget s.pln.staged e)) = false := by
  have hmon : (planSwitch s).mon = (contextPass (switchClasses s) (rebuildTaps (switchClasses s) (clearPass (switchClasses s)
      (allocPass (switchClasses s) (freePass (switchClasses s) (settleSettings (adoptPlan s))))))).mon := by
    simp [planSwitch]
  rw [DwellsOn, hmon] at h
  obtain ⟨h1, h2⟩ := dwellsOn_contextPass h
  refine ⟨by simpa [DwellsOn] using h1, by simpa [switchClasses, activeAt] using h2⟩

/-- A retuned context keeps its state, and a quiet one stays quiet (R38). -/
theorem retunedCtx_keeps (en : Entry) (c : Ctx) :
    (retunedCtx en c).state = c.state ∧ (Quiet c → Quiet (retunedCtx en c)) ∧
    ((retunedCtx en c).shed = c.shed ∨ (retunedCtx en c).shed = false) := by
  have hstate : (retunedCtx en c).state = c.state := by
    simp only [retunedCtx]
    split <;> split <;> split <;> rfl
  refine ⟨hstate, fun h h1 h2 h3 => ?_, ?_⟩
  · rw [hstate] at h1 h2 h3
    obtain ⟨hl, he⟩ := h h1 h2 h3
    simp only [retunedCtx, he]
    split <;> split <;> exact ⟨hl, he⟩
  · simp only [retunedCtx]
    split <;> split <;> split <;> simp

/-- What the switch makes of a context whose old position agrees with OFF: the new one agrees as well, and a quiet context
stays quiet. -/
theorem switchedCtx_lawful {a b : Option Entry} {c : Ctx} (h : c.state = .off ↔ a = none) (hq : Quiet c) :
    ((switchedCtx (classify a b) b c).state = .off ↔ b = none) ∧ Quiet (switchedCtx (classify a b) b c) := by
  have hreset : Quiet removedCtx ∧ Quiet startedCtx := ⟨fun _ _ _ => ⟨rfl, rfl⟩, fun h => absurd rfl h⟩
  rcases a with _ | a <;> rcases b with _ | b
  · exact ⟨by simpa [classify, switchedCtx] using h, hq⟩
  · exact ⟨by simp [classify, switchedCtx, startedCtx], hreset.2⟩
  · exact ⟨by simp [classify, switchedCtx, removedCtx, Ctx.powerOn], hreset.1⟩
  · have hc : c.state ≠ .off := by simp [h]
    simp only [classify]
    split
    · exact ⟨by simp [switchedCtx, startedCtx], hreset.2⟩
    · split
      · exact ⟨by simp [switchedCtx, hc], hq⟩
      · exact ⟨by simp [switchedCtx, hc, (retunedCtx_keeps b c).1], (retunedCtx_keeps b c).2.1 hq⟩

/-- A context that may be heard and whose channel does not end may still be heard after the switch. -/
theorem switchedCtx_heardable {a b : Option Entry} {c : Ctx} (h : c.state = .off ↔ a = none) (hc : Heardable c)
    (hends : endsChannel (classify a b) = false) : Heardable (switchedCtx (classify a b) b c) := by
  rcases a with _ | a
  · exact absurd (h.2 rfl) (ne_off_of_isContributor hc.1)
  · rcases b with _ | b
    · cases hends
    · by_cases hp : samePath a b = true
      · by_cases hab : a = b
        · subst hab
          rwa [show classify (some a) (some a) = .unchanged by simp [classify, hp]]
        · simp only [classify, hp, hab, if_false] at hends ⊢
          refine ⟨by simpa [switchedCtx, (retunedCtx_keeps b c).1] using hc.1, ?_⟩
          exact (retunedCtx_keeps b c).2.2.elim (fun hs => hs.trans hc.2) id
      · simp [classify, hp, endsChannel] at hends

/-! ### The laws -/

theorem positionLaw_iff (s : State) :
    PositionLaw s ↔ (∀ e, (ctxAt s e).state = .off ↔ activeAt s e = none) ∧ ∀ e, Quiet (ctxAt s e) :=
  ⟨fun h => ⟨h.off, h.quiet⟩, fun h => ⟨h.1, h.2⟩⟩

theorem dwellLaw_iff (s : State) : DwellLaw s ↔ ∀ e, DwellsOn s e → Heardable (ctxAt s e) :=
  ⟨fun h e ⟨d, hd, hv⟩ => h d e hd hv, fun h d e hd hv => h e ⟨d, hd, hv⟩⟩

theorem positionLaw_moved {s t : State} (h : PositionLaw s) (hm : Moved s t) : PositionLaw t := by
  rw [positionLaw_iff] at h ⊢
  exact ⟨fun e => by rw [hm.off, hm.active, h.1], fun e => hm.quiet e (h.2 e)⟩

theorem dwellLaw_moved {s t : State} (h : DwellLaw s) (hm : Moved s t) : DwellLaw t := by
  rw [dwellLaw_iff] at h ⊢
  exact fun e => hm.dwell e (h e)

/-- The contexts once the settings of the switch are in effect still agree with the old plan. -/
theorem settled_lawful {s : State} (h : PositionLaw s) (e : EntryIx) :
    ((ctxAt (settleSettings (adoptPlan s)) e).state = .off ↔ activeAt s e = none) ∧
    Quiet (ctxAt (settleSettings (adoptPlan s)) e) := by
  have hm := Moved.settleSettings (adoptPlan s)
  rw [positionLaw_iff] at h
  refine ⟨(hm.off e).trans ?_, hm.quiet e ?_⟩
  · rw [ctxAt_setCtxs, vget_map]
    exact h.1 e
  · rw [ctxAt_setCtxs, vget_map]
    exact (h.2 e).congr rfl rfl rfl

theorem positionLaw_planSwitch {s : State} (h : PositionLaw s) : PositionLaw (planSwitch s) := by
  rw [positionLaw_iff]
  have hall (e : EntryIx) := switchedCtx_lawful (b := vget s.pln.staged e) (settled_lawful h e).1 (settled_lawful h e).2
  exact ⟨fun e => by rw [ctxAt_planSwitch, activeAt_planSwitch, (hall e).1], fun e => by rw [ctxAt_planSwitch]; exact (hall e).2⟩

theorem dwellLaw_planSwitch {s : State} (hp : PositionLaw s) (h : DwellLaw s) : DwellLaw (planSwitch s) := by
  rw [dwellLaw_iff] at h ⊢
  intro e ht
  obtain ⟨hd, hends⟩ := dwellsOn_planSwitch ht
  rw [ctxAt_planSwitch]
  refine switchedCtx_heardable (settled_lawful hp e).1 ((Moved.settleSettings (adoptPlan s)).dwell e (fun hs => ?_) hd) hends
  rw [ctxAt_setCtxs, vget_map]
  exact h e hs

theorem warmRestart_lawful (s : State) : PositionLaw (warmRestart s) ∧ DwellLaw (warmRestart s) := by
  have hctx (e : EntryIx) : ctxAt (warmRestart s) e = restartCtx (activeAt (warmRestart s) e) := by
    simp [warmRestart, restartDst, ctxAt, activeAt]
  refine ⟨⟨fun e => ?_, fun e _ _ _ => ?_⟩, fun d e hd => nomatch hd⟩
  · rw [hctx]
    cases activeAt (warmRestart s) e <;> simp [restartCtx, Ctx.powerOn]
  · rw [hctx]
    cases activeAt (warmRestart s) e <;> exact ⟨rfl, rfl⟩

/-- What a property needs in order to be kept by every step, when the operations between two switches are known to move the
contexts lawfully: it is kept by such moves and by a switch, and the two resets bring it. -/
theorem StepKept.of_moved {P : State → Prop} (hmoved : ∀ s t, P s → Moved s t → P t) (hswitch : ∀ s, P s → P (planSwitch s))
    (hrestart : ∀ s, P (warmRestart s)) (hreset : P State.reset) : StepKept P where
  pending s l h := hmoved s _ h (.of_ctx (fun _ => rfl) (fun _ => rfl) (.inl rfl))
  lineLow s h := hmoved s _ h (.of_ctx (fun _ => rfl) (fun _ => rfl) (.inl rfl))
  powerOn s := hmoved State.reset _ hreset (.of_ctx (fun _ => rfl) (fun _ => rfl) (.inl rfl))
  take s _ _ _ h := hmoved s _ h (.of_ctx (fun _ => rfl) (fun _ => rfl) (.inl rfl))
  respond _ _ _ s h := hmoved s _ h (.of_ctx (by simp) (by simp) (.inl (by simp)))
  act k b s h := hmoved s _ h (.actOf k b s)
  restart s _ := hrestart s
  trunk _ _ s h := hmoved s _ h (.of_ctx (by simp) (by simp) (.inl (by simp)))
  block e r s h := hmoved s _ h (.deliverBlock e r s)
  access s h := hmoved s _ h (.of_ctx (by simp) (by simp) (.inl (by simp)))
  refresh s h := hmoved s _ h (.refreshExpiry s)
  start s h := hmoved s _ h (.startBlock s)
  assembly s h := by
    have hformed (o : OutBlock) (c : Cmb) : P (setCmb c (blockFormed o s)) :=
      hmoved s _ h (.trans (.blockFormed o s) (.of_ctx (fun _ => rfl) (fun _ => rfl) (.inl rfl)))
    rcases assembleBlock_cases s with ⟨-, ha⟩ | ⟨o, c, -, -, ⟨-, ha⟩ | ⟨-, ha⟩⟩ <;> rw [ha]
    · exact h
    · exact hformed o c
    · exact hswitch _ (hformed o c)
  forward s h := hmoved s _ h (.sendForward s)
  reverse w s h := hmoved s _ h (.takeReverse w s)
  lock l s h := hmoved s _ h (.sampleLock l s)
  bias s h := hmoved s _ h (.expireBias s)
  cool s h := hmoved s _ h (.expireCool s)
  test e s h := hmoved s _ h (.expireTest e s)
  send _ s h := hmoved s _ h (.of_ctx (by simp) (by simp) (.inl (by simp)))

/-- Settles O9: the operations move the contexts lawfully, and a switch enters and leaves OFF with the position. -/
theorem positionsStayLawful : Obligations.PositionsStayLawful := fun _ _ hs ht =>
  (StepKept.of_moved (fun _ _ => positionLaw_moved) (fun _ => positionLaw_planSwitch) (fun s => (warmRestart_lawful s).1)
    positionLaw_reset).step hs ht

theorem dwellLaw_kept : StepKept fun s => PositionLaw s ∧ DwellLaw s :=
  .of_moved (fun _ _ h hm => ⟨positionLaw_moved h.1 hm, dwellLaw_moved h.2 hm⟩)
    (fun _ h => ⟨positionLaw_planSwitch h.1, dwellLaw_planSwitch h.1 h.2⟩) warmRestart_lawful ⟨positionLaw_reset, nofun⟩

/-! ### The laws of the gain, the shed flag and the source in use -/

theorem gain_closed : CoreClosed fun _ c => gainInRange c.gain where
  core _ _ _ _ hg _ _ h := by rwa [hg]
  powerOn _ := nofun
  gain _ _ _ hg _ := hg
  unshed _ _ h := h
  shed _ _ _ h := h
  state _ _ _ _ h := h
  primary _ _ h := h
  source _ _ _ _ h := h
  retune _ _ _ _ h := h

theorem shed_closed : CoreClosed fun _ c => c.shed = true → isContributor c.state = true where
  core _ _ _ _ _ hs hc h := by rwa [hs, hc]
  powerOn _ := nofun
  gain _ _ _ _ h := h
  unshed _ _ _ := nofun
  shed _ _ hc _ _ := hc
  state _ c st hleft h hs := by
    by_contra hst
    have := hleft (h hs) (by simpa using hst)
    rw [show c.shed = true from hs] at this
    cases this
  primary _ _ h := h
  source _ _ _ _ h := h
  retune _ _ _ _ h := h

theorem source_closed :
    CoreClosed fun o c => ∀ en, o = some en → en.alternate = none → c.source = .primary where
  core _ _ _ hr _ _ _ h := by rwa [hr]
  powerOn _ _ _ _ := rfl
  gain _ _ _ _ h := h
  unshed _ _ h := h
  shed _ _ _ h := h
  state _ _ _ _ h := h
  primary _ _ _ _ _ _ := rfl
  source en _ _ ha _ x hx hn := by
    cases hx
    rw [hn] at ha
    cases ha
  retune a b _ hp h x hx hn := by
    cases hx
    have halt : a.alternate = b.alternate := by
      simp only [samePath, Bool.and_eq_true, beq_iff_eq] at hp
      exact hp.1.1.1.1.2
    exact h a rfl (halt.trans hn)

/-- A condition on each context and its entry that the elementary changes keep is kept by every step. -/
theorem AllCtx.step {Q : Option Entry → Ctx → Prop} (h : CoreClosed Q) {s t : State} (hs : AllCtx Q s) (ht : Machine.step s = .next t) :
    AllCtx Q t :=
  step_keeps (P := AllCtx Q) (fun _ _ hs => hs) (fun c _ hs => hs.effect_keeps h c) hs ht

/-- Settles O8: three laws are conditions on each context, the fourth goes with the law of the positions. -/
theorem contextsStayLawful : Obligations.ContextsStayLawful :=
  ⟨fun _ _ hs ht => AllCtx.step gain_closed (fun e => hs e) ht, fun _ _ hs ht => AllCtx.step shed_closed (fun e => hs e) ht,
    fun _ _ hs ht => AllCtx.step source_closed (fun e => hs e) ht,
    fun _ _ hp hd ht => (dwellLaw_kept.step ⟨hp, hd⟩ ht).2⟩

end Sys2Proof.Machine
end

section
/-! SUPPORT. A flush, a voided read and a source switch (R53, R87, R102): what each makes of the line, of the queues and of the
output block in course, and that the other entries stand. -/

namespace Sys2Proof.Machine

open Sys2Proof.Safety

/-! ### The flush of a line (R87) -/

theorem dropReads_queues (e : EntryIx) (s : State) :
    (dropReads e s).dst.lines = s.dst.lines ∧ (dropReads e s).dst.writes = s.dst.writes ∧
    (dropReads e s).dst.reads = s.dst.reads.filter (fun x => x.entry != e) := by
  simp only [dropReads]
  split
  · exact ⟨rfl, rfl, rfl⟩
  · next h =>
    refine ⟨rfl, rfl, (List.filter_eq_self.2 fun x hx => ?_).symm⟩
    have : ¬(x.entry == e) = true := fun hxe => h (List.any_eq_true.2 ⟨x, hx, hxe⟩)
    simpa [bne] using this

theorem dropReads_cmb (e : EntryIx) (s : State) :
    (dropReads e s).cmb = s.cmb ∨ (dropReads e s).cmb = answerRead e .nothing s.cmb := by
  simp only [dropReads]
  split
  · exact .inr rfl
  · exact .inl rfl

theorem flushLine_none {e : EntryIx} {s : State} (h : lineAt s e = none) : flushLine e s = s := by
  simp [flushLine, h]

theorem flushLine_some {e : EntryIx} {s : State} {l : Line} (h : lineAt s e = some l) : flushLine e s =
    dropReads e (setDst (removeWrites (fun w => w.entry == e) (setLine e (some (lineFlush l)) s.dst)) s) := by
  simp [flushLine, h]

theorem lineAt_flushLine (e : EntryIx) (s : State) (f : EntryIx) :
    lineAt (flushLine e s) f = if f = e then (lineAt s e).map lineFlush else lineAt s f := by
  cases hl : lineAt s e with
  | none =>
    rw [flushLine_none hl]
    split
    · next h => rw [h, hl]; rfl
    · rfl
  | some l =>
    rw [flushLine_some hl, lineAt, (dropReads_queues ..).1]
    change vget (vput s.dst.lines e (some (lineFlush l))) f = _
    rw [vget_vput]
    rfl

theorem flushLine_queues {e : EntryIx} {s : State} (h : lineAt s e ≠ none) :
    (flushLine e s).dst.writes = s.dst.writes.filter (fun w => w.entry != e) ∧
    (flushLine e s).dst.reads = s.dst.reads.filter (fun x => x.entry != e) := by
  obtain ⟨l, hl⟩ := Option.ne_none_iff_exists'.1 h
  rw [flushLine_some hl]
  obtain ⟨-, hw, hr⟩ := dropReads_queues e (setDst (removeWrites (fun w => w.entry == e) (setLine e (some (lineFlush l)) s.dst)) s)
  exact ⟨hw, hr⟩

theorem flushLine_cmb (e : EntryIx) (s : State) :
    (flushLine e s).cmb = s.cmb ∨ (flushLine e s).cmb = answerRead e .nothing s.cmb := by
  cases hl : lineAt s e with
  | none => exact .inl (by rw [flushLine_none hl])
  | some l =>
    rw [flushLine_some hl]
    exact dropReads_cmb e _

theorem flushed_flushLine (e : EntryIx) (s : State) : Flushed e s (flushLine e s) := by
  refine ⟨by rw [lineAt_flushLine, if_pos rfl], fun h => ?_⟩
  obtain ⟨hw, hr⟩ := flushLine_queues h
  rw [hw, hr]
  exact ⟨fun w hm => by simpa using (List.mem_filter.1 hm).2, fun x hm => by simpa using (List.mem_filter.1 hm).2⟩

/-! ### The output block in course -/

/-- CMB differs at most in the answer of one entry's read in the output block in course. -/
structure AnswersOnly (e : EntryIx) (c d : Cmb) : Prop where
  none : c.course = none → d = c
  some : ∀ o, c.course = some o → ∃ answers : Vector Answer 16, d = { c with course := some { o with answers := answers } } ∧
    ∀ f, f ≠ e → vget answers f = vget o.answers f

theorem AnswersOnly.refl (e : EntryIx) (c : Cmb) : AnswersOnly e c c := by
  refine ⟨fun _ => rfl, fun o ho => ⟨o.answers, ?_, fun _ _ => rfl⟩⟩
  cases c
  cases ho
  rfl

theorem AnswersOnly.answer (e : EntryIx) (a : Answer) (c : Cmb) : AnswersOnly e c (answerRead e a c) :=
  ⟨fun h => by simp [answerRead, h],
    fun o ho => ⟨vput o.answers e a, by simp [answerRead, ho], fun f hf => vget_vput_other _ _ hf⟩⟩

theorem AnswersOnly.trans {e : EntryIx} {c d x : Cmb} (h : AnswersOnly e c d) (h' : AnswersOnly e d x) : AnswersOnly e c x := by
  refine ⟨fun hc => ?_, fun o ho => ?_⟩
  · have hd := h.none hc
    rw [h'.none (hd ▸ hc), hd]
  · obtain ⟨a, rfl, ha⟩ := h.some o ho
    obtain ⟨b, rfl, hb⟩ := h'.some _ rfl
    exact ⟨b, rfl, fun f hf => (hb f hf).trans (ha f hf)⟩

theorem AnswersOnly.flushLine (e : EntryIx) (s : State) : AnswersOnly e s.cmb (flushLine e s).cmb := by
  rcases flushLine_cmb e s with h | h <;> rw [h]
  · exact .refl e _
  · exact .answer e _ _

theorem AnswersOnly.voidRead (e : EntryIx) (s : State) : AnswersOnly e s.cmb (voidRead e s).cmb := by
  simp only [Machine.voidRead]
  split
  · exact .refl e _
  · split
    · exact .refl e _
    · exact .answer e _ _

/-- After a voided read the entry's answer is nothing, unless no read was queued for it (R102). -/
theorem voidRead_answer {e : EntryIx} {s : State} {o : OutBlock} (h : (voidRead e s).cmb.course = some o) :
    vget o.answers e = .nothing ∨ vget o.answers e = .unread ∧ (voidRead e s).cmb = s.cmb := by
  rcases voidRead_cmb e s with ⟨hc, hu⟩ | ⟨p, -, -, hc⟩
  · exact .inr ⟨hu o (hc ▸ h), hc⟩
  · rw [hc] at h
    cases h
    exact .inl (vget_vput_same _ _ _)

/-- A flush and a voided read together: the read of the old source is answered with nothing, if one was queued. -/
theorem course_voidRead_flushLine {e : EntryIx} {s : State} {o : OutBlock} (h : s.cmb.course = some o) :
    ∃ answers : Vector Answer 16, (voidRead e (flushLine e s)).cmb.course = some { o with answers := answers } ∧
      (∀ f, f ≠ e → vget answers f = vget o.answers f) ∧
      (vget answers e = .nothing ∨ vget answers e = .unread ∧ vget o.answers e = .unread) := by
  obtain ⟨a, ha, hother⟩ := ((AnswersOnly.flushLine e s).trans (.voidRead e _)).some o h
  have hcourse : (voidRead e (flushLine e s)).cmb.course = some { o with answers := a } := by rw [ha]
  refine ⟨a, hcourse, hother, (voidRead_answer hcourse).imp id fun ⟨hu, hc⟩ => ⟨hu, ?_⟩⟩
  rcases flushLine_cmb e s with hf | hf
  · rw [hc, hf, h] at hcourse
    rw [congrArg OutBlock.answers (Option.some.inj hcourse)]
    exact hu
  · rw [hc, hf, answerRead, h] at hcourse
    cases hcourse
    rw [vget_vput_same] at hu
    cases hu

/-! ### The source switch (R53) -/

section
variable {e : EntryIx} {fo : Bool} {why : Reason} {c : Ctx} {s : State}

theorem lineAt_switchSource (f : EntryIx) :
    lineAt (switchSource e fo why c s) f = if f = e then (lineAt s e).map lineFlush else lineAt s f := by
  rw [switchSource, (voidRead_frame ..).2.2.2.2.2.2.2.2.2.2.2.2.2.2.2, lineAt_flushLine]
  simp [lineAt]

/-- A switched context has left the air, whatever it was. -/
theorem ctxAt_switchSource_same : ctxAt (switchSource e fo why c s) e =
    { switched fo c with shed := c.shed && !isContributor (ctxAt s e).state } := by
  rw [(switchSource_frame ..).2.2.2.2.2.2.2.2.2.1, ctxAt_commitCtx, if_pos rfl, committed,
    leavesAir_left (show isContributor (switched fo c).state = false from rfl)]
  cases h : isContributor (ctxAt s e).state <;> simp [switched, toAcquire]

theorem ctxAt_switchSource_other {f : EntryIx} (h : f ≠ e) : ctxAt (switchSource e fo why c s) f = ctxAt s f := by
  rw [(switchSource_frame ..).2.2.2.2.2.2.2.2.2.1, ctxAt_commitCtx, if_neg h]

theorem answersOnly_switchSource : AnswersOnly e s.cmb (switchSource e fo why c s).cmb := by
  have hc : (commitCtx e (switched fo c) why s).cmb = s.cmb := by simp
  exact hc ▸ ((AnswersOnly.flushLine e (commitCtx e (switched fo c) why s)).trans (.voidRead e _))

theorem reportChanged_switched (h : c.source = (ctxAt s e).source) : reportChanged (ctxAt s e) (switched fo c) = true := by
  have : (ctxAt s e).source ≠ (switched fo c).source := by
    simp only [switched, h]
    cases (ctxAt s e).source <;> simp [Source.other]
  simp [reportChanged, this]

theorem commitCtx_switched (h : c.source = (ctxAt s e).source) : commitCtx e (switched fo c) why s =
    reported e { switched fo c with shed := c.shed && !isContributor (ctxAt s e).state } why (dwellLeft e s) :=
  commitCtx_left (reportChanged_switched h) rfl

/-- A source switch of a context that stands on the source that its block found in use. -/
theorem switchedOver_switchSource {isFailover : Prop} (hs : c.source = (ctxAt s e).source)
    (hf : c.failovers = (ctxAt s e).failovers) (hfo : isFailover ↔ fo = true) :
    SwitchedOver e isFailover why s (switchSource e fo why c s) := by
  have hctx := ctxAt_switchSource_same (e := e) (fo := fo) (why := why) (c := c) (s := s)
  have hcommit := commitCtx_switched (fo := fo) (why := why) hs
  have hnotices : (switchSource e fo why c s).svc.notices =
      postNotice (channelContent e (ctxAt (switchSource e fo why c s) e) why) (dwellLeft e s).svc.notices := by
    rw [(switchSource_frame ..).2.2.2.2.2.2.2.2.2.2.2, hctx, hcommit]
    rfl
  have hmon : (switchSource e fo why c s).mon = (dwellLeft e s).mon := by
    rw [switchSource, (voidRead_frame ..).2.2.2.2.2.2.2.2.2.1, (flushLine_frame ..).2.2.2.2.2.2.2.2.1, hcommit]
    rfl
  have hline (l : State) : lineAt (commitCtx e (switched fo c) why l) e = lineAt l e := by simp [lineAt]
  refine ⟨by rw [hctx, ← hs]; rfl, by rw [hctx]; rfl, by rw [hctx]; rfl, by rw [hctx]; rfl, by rw [hctx]; rfl,
    by rw [hctx]; rfl, fun hi => ?_, fun hi => ?_, ?_, ?_, hmon, fun o ho => ?_⟩
  · rw [hctx, ← hf]
    simp [switched, hfo.1 hi, satInc]
  · rw [hctx, ← hf]
    simp [switched, mt hfo.2 hi]
  · obtain ⟨hl, hq⟩ := flushed_flushLine e (commitCtx e (switched fo c) why s)
    rw [hline] at hl hq
    have hdst : (switchSource e fo why c s).dst = (flushLine e (commitCtx e (switched fo c) why s)).dst := by
      simp [switchSource]
    exact ⟨by rw [lineAt_switchSource, if_pos rfl], by rwa [hdst]⟩
  · rw [Notified, hnotices]
    exact postNotice_mem _ _
  · have hc : (commitCtx e (switched fo c) why s).cmb = s.cmb := by simp
    exact course_voidRead_flushLine (s := commitCtx e (switched fo c) why s) (hc ▸ ho)

end

end Sys2Proof.Machine
end

section
/-! SUPPORT. FORCE-SOURCE (R62), SET-MONITOR (R145), the test tones (R148 to R153), and the claims ForceSource, SetMonitor and
TestTones. -/

namespace Sys2Proof.Machine

open Sys2Proof.Safety

/-- A request that commits a changed context is answered with its status and body, and the change is committed on the state as
it stood. -/
theorem exec_serves_commitAs {k : Kind} {s : State} {r : Request} {rest : List Request} (h : Serves k s r rest) {c : Instr}
    {act : List Byte → State → Reply} (hc : effect c = execRequest k act) {st : Status} {b : List Byte} {e : EntryIx} {n : Ctx}
    {why : Reason} (hu : act r.body (withQueue rest s) = ⟨st, b, commitCtx e n why (withQueue rest s)⟩) :
    exec c s = .next (answered r rest st b (commitCtx e n why s)) :=
  exec_serves h hc (hu.trans (by rw [commitCtx_withQueue]))

/-! ### FORCE-SOURCE (R62) -/

theorem switchSource_withQueue (e : EntryIx) (fo : Bool) (why : Reason) (c : Ctx) (l : List Request) (s : State) :
    switchSource e fo why c (withQueue l s) = withQueue l (switchSource e fo why c s) := by
  simp only [switchSource, commitCtx_withQueue, flushLine_withQueue, voidRead_withQueue]

section
variable (r : Request) (rest : List Request) (st : Status) (b : List Byte) (s : State)

theorem answered_svc : (answered r rest st b s).svc = ⟨rest, 0, s.svc.notices⟩ := by
  simp only [answered]
  cases r.trunk <;> rfl

theorem portOf_answered_same :
    portOf (answered r rest st b s) r.trunk = { portOf s r.trunk with outbox := some (responseTo s r st b) } := by
  simp only [answered]
  cases r.trunk <;> rfl

theorem portOf_answered_other {t : Trunk} (h : t ≠ r.trunk) : portOf (answered r rest st b s) t = portOf s t := by
  simp only [answered]
  cases hr : r.trunk <;> cases t <;> simp_all [portOf, setPort]

/-- An answer changes SVC and the port of its trunk alone. -/
theorem answered_frame : (answered r rest st b s).ext = s.ext ∧ (answered r rest st b s).pln = s.pln ∧
    (answered r rest st b s).ctx = s.ctx ∧ (answered r rest st b s).dst = s.dst ∧ (answered r rest st b s).cmb = s.cmb ∧
    (answered r rest st b s).txs = s.txs ∧ (answered r rest st b s).mon = s.mon := by
  simp [answered_eq]

end

theorem switchedOver_answered {e : EntryIx} {fo : Prop} {why : Reason} {s t : State} (h : SwitchedOver e fo why s t)
    (r : Request) (rest : List Request) (st : Status) (b : List Byte) :
    SwitchedOver e fo why s (answered r rest st b t) := by
  obtain ⟨-, -, hctx, hdst, hcmb, -, hmon⟩ := answered_frame r rest st b t
  simpa only [SwitchedOver, Flushed, Notified, ctxAt, lineAt, answered_svc, hctx, hdst, hcmb, hmon] using h

theorem forcible_iff (x : CtxState) : forcible x = true ↔ x = .acquire ∨ x = .live ∨ x = .fade := by
  cases x <;> simp [forcible]

theorem sourceOfCode_of_gt : ∀ {n : Nat}, 1 < n → sourceOfCode n = none
  | _ + 2, _ => rfl

theorem sourceOfCode_le : ∀ {n : Nat}, n ≤ 1 → ∃ src, sourceOfCode n = some src
  | 0, _ => ⟨_, rfl⟩
  | 1, _ => ⟨_, rfl⟩

theorem sourceOfCode_code (src : Source) : sourceOfCode (sourceCode src) = some src := by
  cases src <;> rfl

section
variable {b : List Byte} {s : State} {e : EntryIx} (hb : u8 b 0 = e.val)
include hb

theorem actForceSource_field (h : 1 < u8 b 1) : actForceSource b s = ⟨.field, [], s⟩ := by
  simp [actForceSource, onEntry_at hb, sourceOfCode_of_gt h]

theorem actForceSource_state (h : u8 b 1 ≤ 1) (hf : ¬forcible (ctxAt s e).state = true) :
    actForceSource b s = ⟨.state, [], s⟩ := by
  obtain ⟨src, hsrc⟩ := sourceOfCode_le h
  simp [actForceSource, onEntry_at hb, hsrc, hf]

theorem actForceSource_noAlternate (h : u8 b 1 = 1) (hf : forcible (ctxAt s e).state = true)
    (ha : ∀ en, activeAt s e = some en → en.alternate = none) : actForceSource b s = ⟨.noAlternate, [], s⟩ := by
  have hnone : (activeAt s e).bind Entry.alternate = none := Option.bind_eq_none_iff.2 ha
  simp only [actForceSource, onEntry_at hb, h, sourceOfCode, hf, hnone, Option.isNone_none, and_self, if_true,
    Bool.true_eq_false, if_false]

theorem actForceSource_taken {src : Source} (h : u8 b 1 = sourceCode src) (hf : forcible (ctxAt s e).state = true)
    (ha : src = .alternate → ∃ en, activeAt s e = some en ∧ en.alternate ≠ none) : actForceSource b s =
      if src = (ctxAt s e).source then ⟨.ok, [], s⟩ else ⟨.ok, [], switchSource e false .request (ctxAt s e) s⟩ := by
  have hpresent : ¬(src = .alternate ∧ ((activeAt s e).bind Entry.alternate).isNone = true) := by
    rintro ⟨hsrc, hnone⟩
    obtain ⟨en, hen, halt⟩ := ha hsrc
    exact halt (by simpa [hen] using hnone)
  simp only [actForceSource, onEntry_at hb, h, sourceOfCode_code, hf, if_neg hpresent, Bool.true_eq_false, if_false]

end

/-- Settles O34: the cases of FORCE-SOURCE by the index and the source sent, the state of the context and its source in use. -/
theorem forceSource : Obligations.ForceSource := by
  intro s r rest hs
  refine ⟨fun hb => exec_serves hs rfl (onEntry_index hb), fun e hb =>
    ⟨fun h => exec_serves hs rfl (actForceSource_field hb h), fun h hf => ?_, fun h hf ha => ?_, fun src h hf ha => ⟨?_, ?_⟩⟩⟩
  · exact exec_serves hs rfl (actForceSource_state hb h (mt (forcible_iff _).1 hf))
  · exact exec_serves hs rfl (actForceSource_noAlternate hb h ((forcible_iff _).2 hf) ha)
  · intro hsame
    exact exec_serves hs rfl ((actForceSource_taken (s := withQueue rest s) hb h ((forcible_iff _).2 hf) ha).trans (if_pos hsame))
  · intro hother
    have hexec : exec .forceSource s = .next (answered r rest .ok [] (switchSource e false .request (ctxAt s e) s)) := by
      refine exec_serves hs rfl ((actForceSource_taken (s := withQueue rest s) hb h ((forcible_iff _).2 hf) ha).trans
        ((if_neg hother).trans ?_))
      rw [← switchSource_withQueue]
      rfl
    have hover : SwitchedOver e False .request s (switchSource e false .request (ctxAt s e) s) :=
      switchedOver_switchSource rfl rfl (by simp)
    obtain ⟨hext, hpln, hctx, hdst, -, htxs, -⟩ :=
      answered_frame r rest .ok [] (switchSource e false .request (ctxAt s e) s)
    have hlost : (switchSource e false .request (ctxAt s e) s).svc.lost = s.svc.lost := by simp
    refine ⟨_, hexec, switchedOver_answered hover _ _ _ _, ?_, by rw [answered_svc], by rw [answered_svc], ?_, ?_,
      by simp [hpln], by simp [hext], fun f hf => ⟨?_, ?_⟩, by simp [htxs], by simp [hdst], by simp [hdst], by simp [hdst]⟩
    · rw [portOf_answered_same, responseTo, hlost]
      rfl
    · rw [ctxAt, hctx]
      exact (congrArg Ctx.readyP ctxAt_switchSource_same).trans rfl
    · rw [ctxAt, hctx]
      exact (congrArg Ctx.readyA ctxAt_switchSource_same).trans rfl
    · rw [ctxAt, hctx]
      exact ctxAt_switchSource_other hf
    · rw [lineAt, hdst]
      exact (lineAt_switchSource f).trans (if_neg hf)

/-! ### SET-MONITOR (R145) -/

theorem modeOfCode_of_gt : ∀ {n : Nat} (i : Nat), 3 < n → modeOfCode n i = .error .field
  | _ + 4, _, _ => rfl

theorem modeOfCode_lock_of_gt {i : Nat} (h : 15 < i) : modeOfCode 2 i = .error .index := by
  simp [modeOfCode, entryIndex_of_gt h]

theorem modeOfCode_code {m : MonMode} {n i : Nat} (h : n = m.code) (hi : ∀ e, m = .lock e → i = e.val) :
    modeOfCode n i = .ok m := by
  subst h
  cases m with
  | lock e => simp [modeOfCode, MonMode.code, hi e rfl]
  | _ => rfl

/-- Settles O54: the cases of SET-MONITOR by the mode and the index sent and by the present mode. -/
theorem setMonitor : Obligations.SetMonitor := by
  intro s r rest hs
  have hok {m : MonMode} (h : modeOfCode (u8 r.body 0) (u8 r.body 1) = .ok m) :
      exec .setMonitor s = .next (answered r rest .ok [] (setMon (enterMode m s.mon) s)) :=
    exec_serves hs rfl (by simp only [actSetMonitor, h]; rfl)
  refine ⟨fun h => ?_, fun h hi => ?_, fun m hm hi => ⟨fun hsame => ?_, fun hne hself => ?_, fun hne hself => ?_⟩⟩
  · exact exec_serves hs rfl (by simp only [actSetMonitor, modeOfCode_of_gt _ h])
  · exact exec_serves hs rfl (by simp only [actSetMonitor, h, modeOfCode_lock_of_gt hi])
  · rw [hok (modeOfCode_code hm hi), enterMode, if_pos hsame]
    rfl
  · rw [hok (modeOfCode_code hm hi), enterMode, if_neg hne, if_pos hself]
    rfl
  · rw [hok (modeOfCode_code hm hi), enterMode, if_neg hne, if_neg hself]
    rfl

/-! ### Timed test tones (R148 to R153) -/

theorem inTest_iff (x : CtxState) : inTest x = true ↔ ∃ n l, x = .test n l := by
  cases x <;> simp [inTest]

theorem testRefused_iff (x : CtxState) : testRefused x = true ↔ x = .off ∨ x = .muted .overlevel := by
  cases x with
  | muted cause => cases cause <;> simp [testRefused]
  | _ => simp [testRefused]

theorem isContributor_test (n : Nat) (l : Int) : isContributor (.test n l) = true := rfl

/-- A context that leaves TEST is reported, its shed flag cleared and a dwell on it ended (R59, R142, R152). -/
theorem commitCtx_leaves_test {e : EntryIx} {n : Ctx} {why : Reason} {s : State} (h : ∃ d l, (ctxAt s e).state = .test d l)
    (hn : stateName n.state ≠ .test) (hc : isContributor n.state = false) :
    commitCtx e n why s = reported e { n with shed := false } why (dwellLeft e s) := by
  obtain ⟨d, l, h⟩ := h
  have hrep : reportChanged (ctxAt s e) n = true := by
    have : stateName (ctxAt s e).state ≠ stateName n.state := by
      rw [h]
      exact hn.symm
    simp [reportChanged, this]
  rw [commitCtx_left hrep hc]
  simp [h, isContributor_test]

theorem commitCtx_startedTest {e : EntryIx} {d : Nat} {l : Int} {why : Reason} {s : State}
    (h : ∀ n l, (ctxAt s e).state ≠ .test n l) :
    commitCtx e (startedTest d l (ctxAt s e)) why s = reported e (startedTest d l (ctxAt s e)) why s := by
  refine commitCtx_stays ?_ (by simp [leavesAir, startedTest, isContributor_test])
  cases hc : (ctxAt s e).state with
  | test n l => exact absurd hc (h n l)
  | _ => simp [reportChanged, stateName, startedTest, hc]

theorem commitCtx_restartedTest {e : EntryIx} {d : Nat} {l : Int} {why : Reason} {s : State}
    (h : ∃ n l, (ctxAt s e).state = .test n l) : commitCtx e (restartedTest d l (ctxAt s e)) why s =
      { s with ctx := vput s.ctx e (restartedTest d l (ctxAt s e)) } := by
  obtain ⟨n, m, h⟩ := h
  exact commitCtx_quiet (by simp [reportChanged, stateName, stateCause, restartedTest, h])
    (by simp [leavesAir, restartedTest, isContributor_test])

theorem stopReply_state {e : EntryIx} {b : List Byte} {s : State} (h : ∀ n l, (ctxAt s e).state ≠ .test n l) :
    stopReply e (ctxAt s e) b s = ⟨.state, [], s⟩ := by
  simp [stopReply, mt (inTest_iff _).1 (by simpa using h)]

theorem stopReply_stops {e : EntryIx} {b : List Byte} {s : State} (h : ∃ n l, (ctxAt s e).state = .test n l) :
    stopReply e (ctxAt s e) b s = ⟨.ok, b, commitCtx e (toAcquire (ctxAt s e)) .test s⟩ := by
  simp [stopReply, stopTest, (inTest_iff _).2 h]

/-- The stop of a test, as committed (R153). -/
theorem commitCtx_stopped {e : EntryIx} {s : State} (h : ∃ n l, (ctxAt s e).state = .test n l) :
    commitCtx e (toAcquire (ctxAt s e)) .test s =
      reported e { settled (ctxAt s e) with state := .acquire, shed := false } .test (dwellLeft e s) :=
  commitCtx_leaves_test h (by simp [toAcquire, stateName]) rfl

section
variable {b : List Byte} {s : State} {e : EntryIx} (hb : u8 b 0 = e.val)
include hb

theorem actTestStart_stop (h : u8 b 3 = 0) : actTestStart b s = stopReply e (ctxAt s e) b s := by
  simp [actTestStart, onEntry_at hb, h]

theorem actTestStart_refused (h : 0 < u8 b 3) (hr : (ctxAt s e).state = .off ∨ (ctxAt s e).state = .muted .overlevel) :
    actTestStart b s = ⟨.state, [], s⟩ := by
  simp only [actTestStart, onEntry_at hb, h.ne', if_false, (testRefused_iff _).2 hr, if_true]

/-- What a test started or restarted commits and answers, its level and code clamped (R149, R150). -/
theorem actTestStart_runs (h : 0 < u8 b 3) (hoff : (ctxAt s e).state ≠ .off) (hov : (ctxAt s e).state ≠ .muted .overlevel) :
    let level := max (-400) (min 0 (s16 b 1))
    let code := min 9 (u8 b 3)
    actTestStart b s = ⟨if level = s16 b 1 ∧ code = u8 b 3 then .ok else .clamped,
      field8 e.val ++ fieldS16 level ++ field8 code,
      commitCtx e (if inTest (ctxAt s e).state then restartedTest (testDuration code) level (ctxAt s e)
        else startedTest (testDuration code) level (ctxAt s e)) .test s⟩ := by
  have hr : ¬testRefused (ctxAt s e).state = true := mt (testRefused_iff _).1 (not_or.2 ⟨hoff, hov⟩)
  have hstatus (p q : Prop) [Decidable p] [Decidable q] :
      (if (!decide p || !decide q) = true then Status.clamped else .ok) = if p ∧ q then .ok else .clamped := by
    by_cases hp : p <;> by_cases hq : q <;> simp [hp, hq]
  simp only [actTestStart, onEntry_at hb, h.ne', if_false, hr, Nat.min_comm (u8 b 3) 9, clampInt, bne, beq_eq_decide, hstatus]
  rfl

end

/-- The expiry of a test (R152). -/
theorem expireTest_eq {e : EntryIx} {s : State} {l : Int} (h : (ctxAt s e).state = .test 0 l) : expireTest e s =
    match s.pln.activeSettings.testEnd with
    | .ret => commitCtx e (toAcquire { ctxAt s e with done := true }) .test s
    | .mute => commitCtx e (toMuted .testEnd { ctxAt s e with done := true }) .test s := by
  simp only [expireTest]
  split
  · rfl
  · next hno => exact absurd h (hno l)

theorem expireTest_running {e : EntryIx} {s : State} (h : ∀ l, (ctxAt s e).state ≠ .test 0 l) : expireTest e s = s := by
  cases hc : (ctxAt s e).state with
  | test n l =>
    cases n with
    | zero => exact absurd hc (h l)
    | succ n => simp only [expireTest, hc]
  | _ => simp only [expireTest, hc]

/-- Settles O60: TEST-START by the index and the duration code sent and the state of the context, TEST-STOP and the expiry by
whether a test runs on it, and the expiry by the test end action. -/
theorem testTones : Obligations.TestTones := by
  refine ⟨fun s r rest hs => ⟨fun hb => exec_serves hs rfl (onEntry_index hb), fun e hb =>
      ⟨fun h ht => ?_, fun h ht => ?_, fun h hr => ?_, fun h hoff hov ht => ?_, fun h ht => ?_⟩⟩,
    fun s r rest hs => ⟨fun hb => exec_serves hs rfl (onEntry_index hb), fun e hb => ⟨fun ht => ?_, fun ht => ?_⟩⟩,
    fun e s hs => ⟨fun l h => ⟨fun hend => ?_, fun hend => ?_⟩, fun h => ?_⟩⟩
  · exact exec_serves hs rfl ((actTestStart_stop hb h).trans (stopReply_state (s := withQueue rest s) ht))
  · rw [← commitCtx_stopped ht]
    exact exec_serves_commitAs hs rfl ((actTestStart_stop hb h).trans (stopReply_stops (s := withQueue rest s) ht))
  · exact exec_serves hs rfl (actTestStart_refused hb h hr)
  · have hno : ¬inTest (ctxAt s e).state = true := mt (inTest_iff _).1 (by simpa using ht)
    have hexec := exec_serves_commitAs hs (c := .testStart) rfl (actTestStart_runs (s := withQueue rest s) hb h hoff hov)
    rw [withQueue_ctxAt, if_neg hno, commitCtx_startedTest ht] at hexec
    exact hexec
  · obtain ⟨n, l, hnl⟩ := id ht
    have hexec := exec_serves_commitAs hs (c := .testStart) rfl
      (actTestStart_runs (s := withQueue rest s) (e := e) hb h (by simp [hnl]) (by simp [hnl]))
    rw [withQueue_ctxAt, if_pos ((inTest_iff _).2 ht), commitCtx_restartedTest ht] at hexec
    exact hexec
  · exact exec_serves hs rfl ((onEntry_at hb).trans (stopReply_state (s := withQueue rest s) ht))
  · rw [← commitCtx_stopped ht]
    exact exec_serves_commitAs hs rfl ((onEntry_at hb).trans (stopReply_stops (s := withQueue rest s) ht))
  · rw [exec_released hs]
    simp only [effect, expireTest_eq h, hend]
    exact congrArg Host.Outcome.next (commitCtx_leaves_test ⟨0, l, h⟩ (by simp [toAcquire, stateName]) rfl)
  · rw [exec_released hs]
    simp only [effect, expireTest_eq h, hend]
    exact congrArg Host.Outcome.next (commitCtx_leaves_test ⟨0, l, h⟩ (by simp [toMuted, stateName]) rfl)
  · rw [exec_released hs]
    exact congrArg Host.Outcome.next (expireTest_running h)

end Sys2Proof.Machine
end

section
/-! SUPPORT. What reaches the sequencer from outside (R121 to R133): the reverse frame in its stages, the reference lock line and
the two timers, and the claims ReverseInvalid, ReverseValid and ReferenceAndTimers. -/

namespace Sys2Proof.Machine

open Sys2Proof.Safety

/-! ### Windows (R121) -/

theorem sortDrive_invalid {w : Window} (h : InvalidFrame w) : sortDrive w = none := by
  cases w with
  | none => rfl
  | some b =>
    refine if_neg fun ⟨hsync, hcheck⟩ => ?_
    rcases h b rfl with hno | hno
    · exact hno hsync
    · rw [hcheck] at hno
      cases hno

theorem sortDrive_valid {w : Window} {p r : Int} {ready alarm : Bool} (h : ValidFrame w p r ready alarm) :
    sortDrive w = some ⟨p, r, ready, alarm⟩ := by
  obtain ⟨b, rfl, hsync, hcheck, rfl, rfl, rfl, rfl⟩ := h
  exact if_pos ⟨hsync, hcheck⟩

/-! ### A trip after earlier stages of the same event -/

/-- A trip taken from a sequencer that earlier stages of the event have left: the event as a whole is that trip, when those
stages have changed the sequencer and posted notices alone and have neither entered nor left ON_AIR. -/
theorem tripTo_staged {c : Trip} {x : Txs} {q : List Notice} {s t : State} (hair : x.state = .onAir ↔ s.txs.state = .onAir)
    (h : TripTo c x { s with txs := x, svc := { s.svc with notices := q } } t) : TripTo c x s t where
  txs := h.txs
  notice := h.notice
  dwell ha := h.dwell (hair.2 ha)
  monitor := h.monitor
  tested := h.tested
  untested ha := h.untested (mt hair.1 ha)
  stopped := h.stopped
  others := h.others
  frame := h.frame

theorem tripOrFurther_staged {c : Trip} {x : Txs} {q : List Notice} {s : State}
    (hair : x.state = .onAir ↔ s.txs.state = .onAir) (hx : x.state ≠ .tripped) :
    TripTo c x s (tripOrFurther c { s with txs := x, svc := { s.svc with notices := q } }) :=
  tripTo_staged hair (tripOrFurther_tripTo (s := { s with txs := x, svc := { s.svc with notices := q } }) hx)

theorem biasOn_iff (x : Seq) : biasOn x = true ↔ x ≠ .offAir ∧ x ≠ .tripped := by
  cases x <;> simp [biasOn]

theorem driving_iff (x : Seq) : driving x = true ↔ x = .rampUp ∨ x = .onAir ∨ x = .rampDown := by
  cases x <;> simp [driving]

/-! ### An invalid frame (R121) -/

/-- The sequencer that has counted an invalid frame. -/
def invalidCounted (x : Txs) : Txs :=
  { x with invalid := min 255 (x.invalid + 1), linkUp := x.linkUp && decide (min 255 (x.invalid + 1) < 8) }

theorem takeInvalid_eq (s : State) : takeInvalid s =
    if (s.txs.linkUp = true ∧ 8 ≤ min 255 (s.txs.invalid + 1)) ∧ s.txs.state ≠ .offAir then
      tripOrFurther .link { s with txs := invalidCounted s.txs }
    else { s with txs := invalidCounted s.txs } := by
  have hstate : (biasOn s.txs.state || s.txs.state == .tripped) = true ↔ s.txs.state ≠ .offAir := by
    cases s.txs.state <;> simp [biasOn]
  have hcond : (s.txs.linkUp && decide (8 ≤ min 255 (s.txs.invalid + 1)) && (biasOn s.txs.state || s.txs.state == .tripped)) = true ↔
      (s.txs.linkUp = true ∧ 8 ≤ min 255 (s.txs.invalid + 1)) ∧ s.txs.state ≠ .offAir := by
    rw [Bool.and_eq_true, Bool.and_eq_true, decide_eq_true_eq, hstate]
  exact if_congr hcond rfl rfl

/-- Settles O55: by whether the link is lost with this frame, and then by the state of the sequencer. -/
theorem reverseInvalid : Obligations.ReverseInvalid := by
  intro w s hs hw n x
  have hexec : exec (.reverseDriveFrame w) s = .next (takeInvalid s) := by
    rw [exec_released hs, effect, takeReverse, sortDrive_invalid hw]
  refine ⟨fun h => ?_, fun hup hn ht => ?_, fun hup hn hoff ht => ?_⟩ <;> rw [hexec, takeInvalid_eq]
  · rw [if_neg fun hlost => h.elim (fun hno => hno hlost.1) hlost.2]
    rfl
  · rw [if_pos ⟨⟨hup, hn⟩, by simp [ht]⟩,
      tripOrFurther_furthered (s := { s with txs := invalidCounted s.txs }) ht]
    rfl
  · rw [if_pos ⟨⟨hup, hn⟩, hoff⟩]
    exact ⟨_, rfl, tripOrFurther_staged (x := invalidCounted s.txs) Iff.rfl ht⟩

/-! ### A valid frame (R122) -/

/-- The sequencer once a valid frame is held and PA ready has ended a bias wait (R122 stages 1 and 2). -/
def readiedBy (ready : Bool) (x : Txs) : Txs := if x.state = .biasWait ∧ ready = true then readied x else x

theorem readiedBy_onAir (ready : Bool) (x : Txs) : (readiedBy ready x).state = .onAir ↔ x.state = .onAir := by
  unfold readiedBy
  split
  · next h => rcases readied_state x with hx | hx <;> simp [hx, h.1]
  · rfl

theorem readiedBy_tripped (ready : Bool) {x : Txs} (h : x.state ≠ .tripped) : (readiedBy ready x).state ≠ .tripped := by
  unfold readiedBy
  split
  · rcases readied_state x with hx | hx <;> simp [hx]
  · exact h

theorem readiedBy_held (ready : Bool) (x : Txs) : (readiedBy ready x).fwd = x.fwd ∧ (readiedBy ready x).refl = x.refl ∧
    (readiedBy ready x).paReady = x.paReady ∧ (readiedBy ready x).paAlarm = x.paAlarm := by
  unfold readiedBy readied
  split <;> exact ⟨rfl, rfl, rfl, rfl⟩

/-- Stage 2 changes the sequencer, and posts the change when it is one of state. -/
theorem stageReady_eq {x : Txs} (s : State) (hp : x.state = s.txs.state) : stageReady { s with txs := x } =
    if s.txs.state = (readiedBy x.paReady x).state then { s with txs := readiedBy x.paReady x }
    else sequenced (readiedBy x.paReady x) s := by
  simp only [stageReady, toRampUp_or_toHeld_eq_readied]
  by_cases h : x.state = .biasWait ∧ x.paReady = true
  · have hy : readiedBy x.paReady x = readied x := if_pos h
    have hne : (readied x).state ≠ x.state := by rcases readied_state x with hx | hx <;> simp [hx, h.1]
    have hto : (readied x).state ≠ .tripped := by rcases readied_state x with hx | hx <;> simp [hx]
    rw [if_pos h, hy, if_neg (hp ▸ hne.symm),
      commitTxs_move_off_air (s := { s with txs := x }) hne hto (by simp [h.1])]
    rfl
  · rw [if_neg h, readiedBy, if_neg h, if_pos hp.symm]

/-- Stage 2 as the stages after it see it: a sequencer, and notices that have been posted. -/
theorem stageReady_staged {x : Txs} (s : State) (hp : x.state = s.txs.state) : ∃ q, stageReady { s with txs := x } =
    { s with txs := readiedBy x.paReady x, svc := { s.svc with notices := q } } := by
  rw [stageReady_eq s hp]
  split
  · exact ⟨s.svc.notices, rfl⟩
  · exact ⟨_, rfl⟩

theorem stageTrip_eq (s : State) (h : s.txs.state ≠ .tripped) : stageTrip s =
    if s.txs.state ≠ .offAir ∧ s.txs.state ≠ .biasWait ∧ (s.txs.paAlarm = true ∨ s.txs.paReady = false) then
      tripOrFurther .pa s else s := by
  have hiff : (biasOn s.txs.state && s.txs.state != .biasWait && (s.txs.paAlarm || !s.txs.paReady)) = true ↔
      s.txs.state ≠ .offAir ∧ s.txs.state ≠ .biasWait ∧ (s.txs.paAlarm = true ∨ s.txs.paReady = false) := by
    simp only [Bool.and_eq_true, bne_iff_ne, Bool.or_eq_true, Bool.not_eq_true', biasOn_iff]
    tauto
  simp only [stageTrip, hiff]

theorem stageEvaluate_eq (s : State) : stageEvaluate s =
    if (s.txs.state = .rampUp ∨ s.txs.state = .onAir ∨ s.txs.state = .rampDown) ∧ -200 ≤ s.txs.fwd then
      if s.txs.fwd - s.txs.refl < s.pln.activeSettings.tripRL ∧
          s.pln.activeSettings.tripCount ≤ (judged s.pln.activeSettings s.txs).tripCount then
        tripOrFurther .vswr { s with txs := judged s.pln.activeSettings s.txs }
      else { s with txs := judged s.pln.activeSettings s.txs }
    else s := by
  simp only [stageEvaluate, Bool.and_eq_true, driving_iff, decide_eq_true_eq]
  rfl

/-- Nothing is evaluated once a trip has been taken. -/
theorem stageEvaluate_tripped {s : State} (h : s.txs.state = .tripped) : stageEvaluate s = s := by
  rw [stageEvaluate_eq, if_neg (by simp [h])]

/-- Settles O56: the stages one after the other, each from what the stage before it left. -/
theorem reverseValid : Obligations.ReverseValid := by
  intro w s p r ready alarm hs hw x y set bad evaluates before
  have hy : y = readiedBy x.paReady x := rfl
  have hair : y.state = .onAir ↔ s.txs.state = .onAir := readiedBy_onAir ready x
  have hyt (h : s.txs.state ≠ .tripped) : y.state ≠ .tripped := readiedBy_tripped ready (x := x) h
  obtain ⟨hp, hr, hready, halarm⟩ : y.fwd = p ∧ y.refl = r ∧ y.paReady = ready ∧ y.paAlarm = alarm := readiedBy_held ready x
  have hexec : exec (.reverseDriveFrame w) s = .next (takeValid ⟨p, r, ready, alarm⟩ s) := by
    rw [exec_released hs, effect, takeReverse, sortDrive_valid hw]
  have hbefore : stageReady { s with txs := x } = before := stageReady_eq s rfl
  have hstages (h : s.txs.state ≠ .tripped) : exec (.reverseDriveFrame w) s = .next (stageEvaluate (stageTrip before)) := by
    rw [hexec, takeValid, ← hbefore]
    exact congrArg Host.Outcome.next (if_neg h)
  obtain ⟨q, hq⟩ : ∃ q, before = { s with txs := y, svc := { s.svc with notices := q } } :=
    hbefore ▸ stageReady_staged s rfl
  have htxs : before.txs = y := by rw [hq]
  have htrip (h : s.txs.state ≠ .tripped) : stageTrip before = if bad then tripOrFurther .pa before else before := by
    rw [stageTrip_eq _ (htxs ▸ hyt h), htxs, hready, halarm]
  refine ⟨fun h => ?_, fun h hbad => ?_, fun h hbad heval => ?_, fun h hbad heval => ?_⟩
  · rw [hexec, takeValid]
    refine congrArg Host.Outcome.next ((if_pos h).trans ?_)
    by_cases hrise : alarm = true ∧ s.txs.paAlarm = false
    · rw [if_pos hrise, if_pos (by simp [hrise]), tripOrFurther_furthered (s := setTxs (holdReading _ s.txs) s) h]
      rfl
    · rw [if_neg hrise, if_neg (by simpa using hrise)]
      rfl
  · have hto : TripTo .pa y s (tripOrFurther .pa before) := by
      rw [hq]
      exact tripOrFurther_staged hair (hyt h)
    rw [hstages h, htrip h, if_pos hbad, stageEvaluate_tripped (by rw [hto.txs]; rfl)]
    exact ⟨_, rfl, hto⟩
  · rw [hstages h, htrip h, if_neg hbad, stageEvaluate_eq, htxs, hp, if_neg heval]
  · rw [hstages h, htrip h, if_neg hbad, stageEvaluate_eq, htxs, hp, hr, if_pos heval]
    have hset : before.pln.activeSettings = set := by rw [hq]
    have hcount (hlow : p - r < set.tripRL) : (judged set y).tripCount = min 100 (y.tripCount + 1) :=
      if_pos (by rwa [hp, hr])
    rw [hset]
    refine ⟨fun htrips => ?_, fun htrips => ?_⟩
    · rw [if_pos ⟨htrips.1, hcount htrips.1 ▸ htrips.2⟩, hq]
      exact ⟨_, rfl, tripOrFurther_staged (x := judged set y) hair (hyt h)⟩
    · rw [if_neg fun ⟨hlow, hn⟩ => htrips ⟨hlow, hcount hlow ▸ hn⟩]

/-! ### The reference lock line (R123, R129) -/

/-- The sequencer with the qualification counter and ref_ok as a sample of the lock line leaves them. -/
def qualified (n : Nat) (ok : Bool) (x : Txs) : Txs := { x with qual := n, refOk := ok }

theorem qualified_same {n : Nat} {ok : Bool} {x : Txs} (h : x.refOk = ok) : qualified n ok x = { x with qual := n } := by
  subst h
  rfl

theorem refChange_true (set : Settings) (n : Nat) (x : Txs) : refChange set true { x with qual := n } =
    if x.state = .held ∧ x.keyed = true then readied (qualified n true x) else qualified n true x := by
  simp [refChange, readied, toRampUp, qualified]

theorem refChange_false (set : Settings) (n : Nat) (x : Txs) : refChange set false { x with qual := n } =
    if driving x.state = true then
      if x.keyed = true then readied (qualified n false x) else cooled set.coolTime (qualified n false x)
    else qualified n false x := by
  simp [refChange, readied, toHeld, toCool_eq_cooled, qualified]

theorem sampleLock_falls (s : State) : sampleLock false s =
    if s.txs.refOk = false then { s with txs := qualified 0 false s.txs }
    else commitTxs (refChange s.pln.activeSettings false { s.txs with qual := 0 }) s := by
  by_cases h : s.txs.refOk = false
  · rw [if_pos h, qualified_same h]
    simp [sampleLock, setTxs, h]
  · rw [if_neg h]
    simp [sampleLock, h]

theorem commitTxs_qualified (n : Nat) (ok : Bool) (s : State) :
    commitTxs (qualified n ok s.txs) s = { s with txs := qualified n ok s.txs } :=
  commitTxs_quiet rfl id

section
variable {s : State} {n : Nat} (hn : n = min s.pln.activeSettings.refQual (s.txs.qual + 1))
include hn

/-- With lock and ref_ok as the counter leaves it, the counter alone changes. -/
theorem sampleLock_counts (h : s.txs.refOk = true ∨ n ≠ s.pln.activeSettings.refQual) :
    sampleLock true s = { s with txs := { s.txs with qual := n } } := by
  have hok : (s.txs.refOk || n == s.pln.activeSettings.refQual) = s.txs.refOk := by
    rcases h with h | h <;> simp [h]
  simp only [sampleLock, if_true, Bool.true_and, ← hn, hok]
  rfl

/-- With lock and the counter at the setting, ref_ok rises. -/
theorem sampleLock_rises (h : s.txs.refOk = false) (hq : n = s.pln.activeSettings.refQual) :
    sampleLock true s = commitTxs (refChange s.pln.activeSettings true { s.txs with qual := n }) s := by
  have hok : (n == s.pln.activeSettings.refQual) = true := beq_iff_eq.2 hq
  simp only [sampleLock, if_true, Bool.true_and, ← hn, hok, h, Bool.or_true, Bool.true_eq_false, if_false]

end

/-- Settles O57: the lock line by ref_ok, the counter, the state and the keyed flag; the timers by state and time. -/
theorem referenceAndTimers : Obligations.ReferenceAndTimers := by
  refine ⟨fun s hs => ?_, fun s hs => ?_, fun s hs => ⟨fun h hb => ?_, fun h => ?_⟩, fun s hs => ⟨fun h hc => ?_, fun h => ?_⟩⟩
  · intro set n x
    have hexec : exec (.referenceLockSample true) s = .next (sampleLock true s) := exec_released hs _
    have hx : x = qualified n true s.txs := rfl
    refine ⟨fun h hn => ?_, fun h => ?_, fun h hn hheld hkeyed => ?_⟩ <;> rw [hexec]
    · rw [sampleLock_counts rfl (.inr hn)]
    · by_cases hok : s.txs.refOk = true
      · rw [sampleLock_counts rfl (.inl hok), hx, qualified_same hok]
      · obtain ⟨hn, hno⟩ := h.resolve_left hok
        rw [sampleLock_rises rfl (by simpa using hok) hn, refChange_true, if_neg hno, commitTxs_qualified]
        rfl
    · have hmove : commitTxs (readied x) s = sequenced (readied x) s :=
        commitTxs_move_off_air (by simp [readied, x, hheld]) (by simp [readied, x]) (by simp [hheld])
      rw [sampleLock_rises rfl h hn, refChange_true, if_pos ⟨hheld, hkeyed⟩, ← hmove]
      rfl
  · intro x drives
    have hdrives : driving s.txs.state = true ↔ drives := driving_iff _
    have hexec : exec (.referenceLockSample false) s = .next (sampleLock false s) := exec_released hs _
    have hx : x = qualified 0 false s.txs := rfl
    refine ⟨fun h => ?_, fun h hd hk => ?_, fun h hd hk => ?_⟩ <;> rw [hexec, sampleLock_falls]
    · by_cases hok : s.txs.refOk = false
      · rw [if_pos hok, hx]
      · rw [if_neg hok, refChange_false, if_neg (mt hdrives.1 (h.resolve_left hok)), commitTxs_qualified, hx]
    · have hne : (readied x).state ≠ s.txs.state := by rcases hd with hd | hd | hd <;> simp [readied, x, hd]
      rw [if_neg (by simp [h]), refChange_false, if_pos (hdrives.2 hd), if_pos hk, ← hx,
        commitTxs_move hne (by simp [readied, x])]
    · have hto := cooled_state s.pln.activeSettings.coolTime x
      have hne : (cooled s.pln.activeSettings.coolTime x).state ≠ s.txs.state := by
        rcases hd with hd | hd | hd <;> rcases hto with hto | hto <;> simp [hd, hto]
      rw [if_neg (by simp [h]), refChange_false, if_pos (hdrives.2 hd), if_neg (by simp [hk]), ← hx,
        commitTxs_move hne (by rcases hto with hto | hto <;> simp [hto])]
  · rw [exec_released hs, effect, expireBias, if_pos ⟨h, hb⟩]
    exact ⟨_, rfl, tripOrFurther_tripTo (by simp [h])⟩
  · rw [exec_released hs, effect, expireBias, if_neg (not_and_or.2 h)]
  · rw [exec_released hs, effect, expireCool, if_pos ⟨h, hc⟩,
      commitTxs_move_off_air (by simp [toOffAir, h]) (by simp [toOffAir]) (by simp [h])]
    rfl
  · rw [exec_released hs, effect, expireCool, if_neg (not_and_or.2 h)]

end Sys2Proof.Machine
end

section
/-! SUPPORT. A pass over entries that changes a context, may end a dwell on it and may post its CHANNEL-CHANGED: what the pass
leaves, whichever of the machine's passes it is. -/

namespace Sys2Proof.Machine

open Sys2Proof.Safety

/-! ### Postings one after the other (R164) -/

/-- The notice queue after a list of postings. -/
def postAll (l : List Content) (q : List Notice) : List Notice := l.foldl (fun q c => postNotice c q) q

theorem postAll_append (l m : List Content) (q : List Notice) : postAll (l ++ m) q = postAll m (postAll l q) :=
  List.foldl_append

/-- A posting leaves the notices of the other sources as they were. -/
theorem mem_postNotice_other {c : Content} {n : Notice} {q : List Notice} (h : sameSource n.content c = false) :
    n ∈ postNotice c q ↔ n ∈ q := by
  refine ⟨fun hn => ?_, fun hn => postNotice_other hn h⟩
  have hnew : n ≠ ⟨c, false, false⟩ := by
    rintro rfl
    simp [sameSource] at h
  simp only [postNotice] at hn
  split at hn
  · obtain ⟨m, hm, rfl⟩ := List.mem_map.1 hn
    split at hnew <;> simp_all
  · simpa [hnew] using hn

theorem mem_postAll_other {l : List Content} {n : Notice} : ∀ {q : List Notice},
    (∀ c ∈ l, sameSource n.content c = false) → (n ∈ postAll l q ↔ n ∈ q) := by
  induction l with
  | nil => exact fun _ => Iff.rfl
  | cons c rest ih =>
    intro q h
    exact (ih fun x hx => h x (List.mem_cons_of_mem _ hx)).trans (mem_postNotice_other (h c List.mem_cons_self))

/-- Of postings for distinct sources each is pending in the end. -/
theorem mem_postAll {l : List Content} {c : Content} : ∀ {q : List Notice},
    l.Pairwise (fun a b => sameSource a b = false) → c ∈ l → ⟨c, false, false⟩ ∈ postAll l q := by
  induction l with
  | nil => exact fun _ h => nomatch h
  | cons x rest ih =>
    intro q hd h
    obtain ⟨hx, hrest⟩ := List.pairwise_cons.1 hd
    rcases List.mem_cons.1 h with rfl | h
    · exact (mem_postAll_other fun a ha => hx a ha).2 (postNotice_mem _ q)
    · exact ih hrest h

/-! ### The change of one context -/

/-- A context replaced, a dwell on it ended or not, and its CHANNEL-CHANGED posted with a reason or not. -/
def changeCtx (e : EntryIx) (n : Ctx) (ends : Bool) (why : Option Reason) (s : State) : State :=
  let s := setCtx e n s
  let s := if ends then endDwellOn e s else s
  match why with
  | none => s
  | some r => postChannel e r s

theorem commitCtx_eq_changeCtx (e : EntryIx) (n : Ctx) (r : Reason) (s : State) : commitCtx e n r s =
    changeCtx e (committed (ctxAt s e) n) (leavesAir (ctxAt s e) n)
      (if reportChanged (ctxAt s e) n = true then some r else none) s := by
  simp only [commitCtx, changeCtx]
  split <;> rfl

theorem switchCtx_eq_changeCtx (e : EntryIx) (k : PosClass) (s : State) : switchCtx e k s =
    changeCtx e (switchedCtx k (activeAt s e) (ctxAt s e)) (endsChannel k)
      (if switchReports k (ctxAt s e) (switchedCtx k (activeAt s e) (ctxAt s e)) = true then some .plan else none) s := by
  simp only [switchCtx, changeCtx]
  split <;> rfl

theorem shedOne_eq_changeCtx (c : Share) (s : State) : shedOne c s =
    changeCtx c.entry { ctxAt s c.entry with shed := true } true (some .shed) s := rfl

theorem restoreOne_eq_changeCtx (c : Share) (s : State) : restoreOne (some c) s =
    changeCtx c.entry { ctxAt s c.entry with shed := false } false (some .restore) s := rfl

theorem setCtx_ctxAt (e : EntryIx) (s : State) : setCtx e (ctxAt s e) s = s := by
  have : vput s.ctx e (ctxAt s e) = s.ctx := vget_ext fun i => by
    rw [vget_vput]
    split
    · next h => rw [h]; rfl
    · rfl
  rw [setCtx, this]

theorem changeCtx_self (e : EntryIx) (s : State) : changeCtx e (ctxAt s e) false none s = s := setCtx_ctxAt e s

section
variable (e : EntryIx) (n : Ctx) (ends : Bool) (why : Option Reason) (s : State)

@[simp] theorem changeCtx_frame : (changeCtx e n ends why s).pending = s.pending ∧
    (changeCtx e n ends why s).inReset = s.inReset ∧ (changeCtx e n ends why s).rtA = s.rtA ∧
    (changeCtx e n ends why s).rtB = s.rtB ∧ (changeCtx e n ends why s).ext = s.ext ∧
    (changeCtx e n ends why s).pln = s.pln ∧ (changeCtx e n ends why s).dst = s.dst ∧
    (changeCtx e n ends why s).cmb = s.cmb ∧ (changeCtx e n ends why s).txs = s.txs ∧
    (changeCtx e n ends why s).free = s.free ∧ (changeCtx e n ends why s).svc.queue = s.svc.queue ∧
    (changeCtx e n ends why s).svc.lost = s.svc.lost := by
  cases ends <;> cases why <;> simp [changeCtx, postChannel]

theorem ctxAt_changeCtx (i : EntryIx) : ctxAt (changeCtx e n ends why s) i = if i = e then n else ctxAt s i := by
  have h : ctxAt (changeCtx e n ends why s) i = ctxAt (setCtx e n s) i := by
    cases ends <;> cases why <;> simp [changeCtx, postChannel]
  rw [h, ctxAt, setCtx, vget_vput]
  rfl

theorem notices_changeCtx : (changeCtx e n ends why s).svc.notices =
    postAll (why.toList.map (channelContent e n)) s.svc.notices := by
  cases ends <;> cases why <;> simp [changeCtx, postChannel, post, postAll]

theorem mon_changeCtx : (changeCtx e n ends why s).mon =
    (if ends = true then endDwellOn e s else s).mon := by
  have hdwell : (endDwellOn e (setCtx e n s)).mon = (endDwellOn e s).mon := by
    simp only [endDwellOn, setCtx]
    repeat' split
    all_goals rfl
  cases ends <;> cases why <;> simp [changeCtx, postChannel, hdwell]

end

theorem endDwellOn_mon (e : EntryIx) (s : State) :
    (DwellsOn s e → (endDwellOn e s).mon = { s.mon with dwell := none }) ∧ (¬DwellsOn s e → (endDwellOn e s).mon = s.mon) := by
  refine ⟨fun ⟨d, hd, hv⟩ => ?_, fun h => ?_⟩
  · simp [endDwellOn, hd, hv, endDwell, setMon]
  · simp only [endDwellOn]
    split
    · next d hd =>
      rw [if_neg fun hv => h ⟨d, hd, hv⟩]
    · rfl

theorem not_dwellsOn_ended {s t : State} (h : t.mon = { s.mon with dwell := none }) (e : EntryIx) : ¬DwellsOn t e := by
  rw [DwellsOn, h]
  exact fun ⟨_, hd, _⟩ => nomatch hd

/-! ### A pass -/

section
variable {α : Type} (p : Pln) (key : α → EntryIx) (F : α → Ctx → Ctx) (D : α → Ctx → Bool) (N : α → Ctx → Option Reason)

/-- An operation that changes one context: which, to what, whether it ends a dwell there and what it reports. -/
def PassStep (op : α → State → State) : Prop := ∀ a s, s.pln = p →
  op a s = changeCtx (key a) (F a (ctxAt s (key a))) (D a (ctxAt s (key a))) (N a (ctxAt s (key a))) s

/-- The contents that a pass over a list posts. -/
def passContents (l : List α) (s : State) : List Content := l.flatMap fun a =>
  (N a (ctxAt s (key a))).toList.map (channelContent (key a) (F a (ctxAt s (key a))))

/-- What a pass over a list leaves. -/
structure Passed (l : List α) (s t : State) : Prop where
  same    : ∀ e, e ∉ l.map key → ctxAt t e = ctxAt s e
  changed : ∀ a ∈ l, ctxAt t (key a) = F a (ctxAt s (key a))
  notices : t.svc.notices = postAll (passContents key F N l s) s.svc.notices
  ended   : (∃ a ∈ l, D a (ctxAt s (key a)) = true ∧ DwellsOn s (key a)) → t.mon = { s.mon with dwell := none }
  kept    : (∀ a ∈ l, D a (ctxAt s (key a)) = true → ¬DwellsOn s (key a)) → t.mon = s.mon
  frame   : t.pending = s.pending ∧ t.inReset = s.inReset ∧ t.rtA = s.rtA ∧ t.rtB = s.rtB ∧ t.ext = s.ext ∧ t.pln = s.pln ∧
    t.dst = s.dst ∧ t.cmb = s.cmb ∧ t.txs = s.txs ∧ t.free = s.free ∧ t.svc.queue = s.svc.queue ∧ t.svc.lost = s.svc.lost

variable {p key F D N}

theorem passContents_congr {l : List α} {s t : State} (h : ∀ a ∈ l, ctxAt t (key a) = ctxAt s (key a)) :
    passContents key F N l t = passContents key F N l s :=
  List.flatMap_congr fun a ha => by rw [h a ha]

/-- A pass over entries of which none occurs twice: each is changed from the context that the pass found. -/
theorem PassStep.foldl {op : α → State → State} (hop : PassStep p key F D N op) : ∀ (l : List α) (s : State),
    (l.map key).Nodup → s.pln = p → Passed key F D N l s (l.foldl (fun s a => op a s) s)
  | [], s, _, _ => ⟨fun _ _ => rfl, nofun, rfl, by simp, fun _ => rfl, by simp⟩
  | a :: rest, s, hn, hp => by
    obtain ⟨ha, hrest⟩ := List.nodup_cons.1 hn
    have hstep := hop a s hp
    generalize hc : ctxAt s (key a) = c at hstep
    have hframe := changeCtx_frame (key a) (F a c) (D a c) (N a c) s
    rw [← hstep] at hframe
    have ih := hop.foldl rest (op a s) hrest (hframe.2.2.2.2.2.1.trans hp)
    have hctx (i : EntryIx) : ctxAt (op a s) i = if i = key a then F a c else ctxAt s i := by
      rw [hstep]
      exact ctxAt_changeCtx ..
    have hother : ∀ b ∈ rest, ctxAt (op a s) (key b) = ctxAt s (key b) := fun b hb =>
      (hctx _).trans (if_neg fun h => ha (List.mem_map.2 ⟨b, hb, h⟩))
    have hmon : (op a s).mon = (if D a c = true then endDwellOn (key a) s else s).mon := by
      rw [hstep]
      exact mon_changeCtx ..
    obtain ⟨hend, hkeep⟩ := endDwellOn_mon (key a) s
    refine ⟨fun e he => ?_, fun b hb => ?_, ?_, ?_, ?_, ?_⟩
    · obtain ⟨hne, hmem⟩ := not_or.1 (mt List.mem_cons.2 he)
      rw [List.foldl_cons, ih.same e hmem, hctx, if_neg hne]
    · rcases List.mem_cons.1 hb with rfl | hb
      · rw [List.foldl_cons, ih.same _ ha, hctx, if_pos rfl, hc]
      · rw [List.foldl_cons, ih.changed b hb, hother b hb]
    · have hnotices : (op a s).svc.notices = postAll ((N a c).toList.map (channelContent (key a) (F a c))) s.svc.notices := by
        rw [hstep]
        exact notices_changeCtx ..
      rw [List.foldl_cons, ih.notices, hnotices, passContents_congr hother, ← postAll_append, passContents, passContents,
        List.flatMap_cons, hc]
    · rintro ⟨b, hb, hD, hdwell⟩
      rw [List.foldl_cons]
      rcases List.mem_cons.1 hb with rfl | hb
      · rw [hc] at hD
        have hnow : (op b s).mon = { s.mon with dwell := none } := by rw [hmon, if_pos hD, hend hdwell]
        rw [ih.kept fun _ _ _ => not_dwellsOn_ended hnow _, hnow]
      · by_cases hnow : D a c = true ∧ DwellsOn s (key a)
        · have hgone : (op a s).mon = { s.mon with dwell := none } := by rw [hmon, if_pos hnow.1, hend hnow.2]
          rw [ih.kept fun _ _ _ => not_dwellsOn_ended hgone _, hgone]
        · have hstay : (op a s).mon = s.mon := by
            rw [hmon]
            split
            · next hd => exact hkeep fun hw => hnow ⟨hd, hw⟩
            · rfl
          rw [ih.ended ⟨b, hb, by rwa [hother b hb], by rwa [DwellsOn, hstay]⟩, hstay]
    · intro hno
      have hstay : (op a s).mon = s.mon := by
        rw [hmon]
        split
        · next hd => exact hkeep (hno a List.mem_cons_self (hc ▸ hd))
        · rfl
      rw [List.foldl_cons, ih.kept fun b hb hD => ?_, hstay]
      rw [DwellsOn, hstay]
      exact hno b (List.mem_cons_of_mem _ hb) (hother b hb ▸ hD)
    · rw [List.foldl_cons]
      simp only [ih.frame, hframe, and_self]

variable {l : List α} {s t : State}

/-- What a pass reports is pending in the end. -/
theorem Passed.notified (h : Passed key F D N l s t) (hn : (l.map key).Nodup) {a : α} (ha : a ∈ l) {r : Reason}
    (hr : N a (ctxAt s (key a)) = some r) : Notified (key a) r t := by
  rw [Notified, h.notices, h.changed a ha]
  refine mem_postAll ?_ (List.mem_flatMap.2 ⟨a, ha, by simp [hr]⟩)
  refine List.pairwise_flatMap.2 ⟨fun b _ => ?_, (List.pairwise_map.1 hn).imp fun {b c} hne x hx y hy => ?_⟩
  · cases N b (ctxAt s (key b)) <;> simp
  · obtain ⟨_, -, rfl⟩ := List.mem_map.1 hx
    obtain ⟨_, -, rfl⟩ := List.mem_map.1 hy
    simpa [sameSource, sourceOf, channelContent] using hne

/-- A pass posts nothing for a source that is no entry of it that reports. -/
theorem Passed.mem_notices (h : Passed key F D N l s t) {n : Notice}
    (hn : ∀ a ∈ l, N a (ctxAt s (key a)) ≠ none → sourceOf n.content ≠ .channel (key a)) :
    n ∈ t.svc.notices ↔ n ∈ s.svc.notices := by
  rw [h.notices]
  refine mem_postAll_other fun c hc => ?_
  obtain ⟨a, ha, hm⟩ := List.mem_flatMap.1 hc
  obtain ⟨r, hr, rfl⟩ := List.mem_map.1 hm
  have : N a (ctxAt s (key a)) ≠ none := by
    rintro h0
    rw [h0] at hr
    cases hr
  simpa [sameSource, sourceOf, channelContent] using hn a ha this

end

end Sys2Proof.Machine
end

section
/-! SUPPORT. The memory port, the bursts, the refresh timer and a memory overrun (5.6, 5.7), and the claims AccessGrant,
BurstsComplete and RefreshAndOverrun. -/

namespace Sys2Proof.Machine

open Sys2Proof.Safety

/-! ### The arbiter (R92) -/

theorem grant_busy {d : Dst} (h : d.port ≠ .idle) : grant d = d := by
  cases hp : d.port with
  | idle => exact absurd hp h
  | _ => simp only [grant, hp]

theorem granted_grant {d : Dst} (h : d.port = .idle) : Granted d.refreshPending (grant d) := by
  obtain ⟨-, -, -, -, -, -, -, hr, hw⟩ := grant_store d
  rw [Granted, hr, hw]
  by_cases hp : d.refreshPending = true
  · simp [grant, h, hp]
  · rcases hrd : d.reads with _ | ⟨x, xs⟩ <;> rcases hwr : d.writes with _ | ⟨w, ws⟩ <;> simp [grant, h, hp, hrd, hwr]

/-- A grant chooses the holder of the port and may clear the refresh request; all else of DST stands. -/
theorem grant_eq (d : Dst) :
    grant d = { d with port := (grant d).port, refreshPending := (grant d).refreshPending } := by
  simp only [grant]
  repeat' split
  all_goals rfl

/-! ### Bursts (R86, R90) -/

/-- The state at the end of the burst that holds the port, the port not yet free. -/
def burstDone (s : State) : State :=
  match s.dst.port with
  | .read => completeRead s
  | .write => setDst (completeWrite s.dst) s
  | _ => s

theorem completeAccess_eq (s : State) :
    completeAccess s = setDst (grant { (burstDone s).dst with port := .idle }) (burstDone s) := by
  simp only [completeAccess, burstDone]
  cases s.dst.port <;> rfl

theorem burstDone_read {s : State} (h : s.dst.port = .read) : burstDone s = completeRead s := by
  simp only [burstDone, h]

theorem burstDone_write {s : State} (h : s.dst.port = .write) : burstDone s = setDst (completeWrite s.dst) s := by
  simp only [burstDone, h]

theorem burstDone_none {s : State} (hr : s.dst.port ≠ .read) (hw : s.dst.port ≠ .write) : burstDone s = s := by
  cases hp : s.dst.port with
  | read => exact absurd hp hr
  | write => exact absurd hp hw
  | _ => simp only [burstDone, hp]

theorem completeRead_early {s : State} {x : ReadReq} {rest : List ReadReq} (hr : s.dst.reads = x :: rest)
    (h : x.done + 1 < x.width) :
    completeRead s = setDst { s.dst with reads := { x with done := x.done + 1 } :: rest } s := by
  simp only [completeRead, hr, h, if_true]

theorem completeRead_last {s : State} {x : ReadReq} {rest : List ReadReq} (hr : s.dst.reads = x :: rest)
    (h : ¬x.done + 1 < x.width) : completeRead s =
      setCmb (answerRead x.entry (.data (dramRead s.dst x.cell)) s.cmb) (setDst { s.dst with reads := rest } s) := by
  simp only [completeRead, hr, h, if_false]

theorem completeWrite_early {d : Dst} {w : WriteReq} {rest : List WriteReq} (hw : d.writes = w :: rest)
    (h : w.done + 1 < w.width) : completeWrite d = { d with writes := { w with done := w.done + 1 } :: rest } := by
  simp only [completeWrite, hw, h, if_true]

/-- The lines once the record of a write has reached the DRAM. -/
def filledLines (e : EntryIx) (lines : Vector (Option Line) 16) : Vector (Option Line) 16 :=
  vput lines e ((vget lines e).map lineFill)

/-- The last burst of a write: the queue, the DRAM, the gap marks, and the fill of its line. -/
theorem completeWrite_last {d : Dst} {w : WriteReq} {rest : List WriteReq} (hw : d.writes = w :: rest)
    (h : ¬w.done + 1 < w.width) : (completeWrite d).writes = rest ∧
      (completeWrite d).dram = (dramWrite w.cell w.record d).dram ∧ (completeWrite d).gapMarks = (clearGapMark w.cell d).gapMarks ∧
      (completeWrite d).lines = filledLines w.entry d.lines ∧ (completeWrite d).reads = d.reads ∧
      (completeWrite d).refreshPending = d.refreshPending ∧ (completeWrite d).pageMap = d.pageMap ∧
      (completeWrite d).gapCounts = d.gapCounts ∧ (completeWrite d).overruns = d.overruns := by
  simp only [completeWrite, hw, h, if_false]
  cases hl : vget d.lines w.entry with
  | none =>
    have hsame : filledLines w.entry d.lines = d.lines := vget_ext fun i => by
      rw [filledLines, vget_vput]
      split
      · next hi => rw [hi, hl]; rfl
      · rfl
    rw [hsame]
    simp [clearGapMark, dramWrite, hl]
  | some l => simp [clearGapMark, dramWrite, setLine, filledLines, hl]

/-- A burst leaves the books of DST as they were. -/
theorem burstDone_books (s : State) : (burstDone s).dst.refreshPending = s.dst.refreshPending ∧
    (burstDone s).dst.pageMap = s.dst.pageMap ∧ (burstDone s).dst.gapCounts = s.dst.gapCounts ∧
    (burstDone s).dst.overruns = s.dst.overruns := by
  by_cases hr : s.dst.port = .read
  · rw [burstDone_read hr]
    rcases hx : s.dst.reads with _ | ⟨x, rest⟩
    · simp [completeRead, hx]
    · by_cases h : x.done + 1 < x.width
      · rw [completeRead_early hx h]
        exact ⟨rfl, rfl, rfl, rfl⟩
      · rw [completeRead_last hx h]
        exact ⟨rfl, rfl, rfl, rfl⟩
  · by_cases hw : s.dst.port = .write
    · rw [burstDone_write hw]
      rcases hx : s.dst.writes with _ | ⟨w, rest⟩
      · simp [completeWrite, hx]
      · by_cases h : w.done + 1 < w.width
        · rw [completeWrite_early hx h]
          exact ⟨rfl, rfl, rfl, rfl⟩
        · exact (completeWrite_last hx h).2.2.2.2.2
    · rw [burstDone_none hr hw]
      exact ⟨rfl, rfl, rfl, rfl⟩

/-- Settles O43: whichever access completes, the grant is of a port that has become free. -/
theorem accessGrant : Obligations.AccessGrant := by
  intro s hs
  obtain ⟨hpending, hpages, hgaps, hover⟩ := burstDone_books s
  have hgranted : Granted s.dst.refreshPending (completeAccess s).dst := by
    rw [completeAccess_eq, ← hpending]
    exact granted_grant (d := { (burstDone s).dst with port := .idle }) rfl
  refine ⟨completeAccess s, exec_released hs _, hgranted, fun hr hw => ?_, ?_⟩
  · have heq : completeAccess s = setDst (grant { s.dst with port := .idle }) s := by
      rw [completeAccess_eq, burstDone_none hr hw]
    have hno : (grant { s.dst with port := .idle }).refreshPending = false := by
      rw [heq] at hgranted
      exact hgranted.1
    rw [heq, setDst, grant_eq, hno]
  · have hdst : (completeAccess s).dst = grant { (burstDone s).dst with port := .idle } := by
      rw [completeAccess_eq]
      rfl
    simp [hdst, hpages, hgaps, hover]

theorem completeAccess_write {s : State} (h : s.dst.port = .write) :
    completeAccess s = setDst (grant { completeWrite s.dst with port := .idle }) s := by
  rw [completeAccess_eq, burstDone_write h]
  rfl

theorem vget_filledLines (e : EntryIx) (lines : Vector (Option Line) 16) (f : EntryIx) :
    vget (filledLines e lines) f = if f = e then (vget lines e).map lineFill else vget lines f := by
  rw [filledLines, vget_vput]

theorem grant_freed (d : Dst) : (grant { d with port := .idle }).writes = d.writes ∧
    (grant { d with port := .idle }).dram = d.dram ∧ (grant { d with port := .idle }).gapMarks = d.gapMarks ∧
    (grant { d with port := .idle }).lines = d.lines ∧ (grant { d with port := .idle }).reads = d.reads := by
  simp

/-- Settles O44: a burst of the oldest write or read, by whether it is its last. -/
theorem burstsComplete : Obligations.BurstsComplete := by
  refine ⟨fun s w rest hs hport hw => ?_, fun s x rest hs hport hx => ?_⟩ <;>
    refine ⟨completeAccess s, exec_released hs _, ?_⟩
  · rw [completeAccess_write hport]
    obtain ⟨hwrites, hdram, hmarks, hlines, hreads⟩ := grant_freed (completeWrite s.dst)
    by_cases h : w.done + 1 < w.width
    · have hd := completeWrite_early hw h
      rw [hd] at hwrites hdram hmarks hlines hreads
      rw [hd]
      exact ⟨rfl, hreads, fun _ => ⟨hwrites, hdram, hmarks, hlines⟩, fun hlast => absurd h hlast.not_gt⟩
    · obtain ⟨hw', hdram', hmarks', hlines', hreads', -⟩ := completeWrite_last hw h
      have hread (a : Nat) : dramRead (setDst (grant { completeWrite s.dst with port := .idle }) s).dst a =
          dramRead (dramWrite w.cell w.record s.dst) a := dramRead_congr (hdram.trans hdram') a
      have hline (f : EntryIx) : lineAt (setDst (grant { completeWrite s.dst with port := .idle }) s) f =
          if f = w.entry then (lineAt s w.entry).map lineFill else lineAt s f :=
        (congrArg (vget · f) (hlines.trans hlines')).trans (vget_filledLines w.entry s.dst.lines f)
      refine ⟨rfl, hreads.trans hreads', fun hearly => absurd hearly h, fun _ => ⟨hwrites.trans hw',
        (hread _).trans (dramRead_dramWrite_same ..), fun a ha => (hread a).trans (dramRead_dramWrite_other _ _ ha),
        fun a => ?_, fun l hl => ?_, fun f hf => ?_⟩⟩
      · rw [← mem_clearGapMark, ← hmarks', ← hmarks]
        rfl
      · rw [hline, if_pos rfl, hl]
        rfl
      · rw [hline]
        split
        · next hfe =>
          subst hfe
          rw [hf.resolve_left (absurd rfl), Option.map_none]
        · rfl
  · have hread : completeAccess s = setDst (grant { (completeRead s).dst with port := .idle }) (completeRead s) := by
      rw [completeAccess_eq, burstDone_read hport]
    rw [hread]
    obtain ⟨hwrites, hdram, hmarks, hlines, hreads⟩ := grant_freed (completeRead s).dst
    by_cases h : x.done + 1 < x.width
    · have hd := completeRead_early hx h
      rw [hd] at hwrites hdram hmarks hlines hreads
      rw [hd]
      exact ⟨hwrites, hdram, hmarks, hlines, fun _ => ⟨hreads, rfl⟩, fun hlast => absurd h hlast.not_gt⟩
    · have hd := completeRead_last hx h
      rw [hd] at hwrites hdram hmarks hlines hreads
      rw [hd]
      refine ⟨hwrites, hdram, hmarks, hlines, fun hearly => absurd hearly h, fun _ => ⟨hreads, fun o ho => ?_⟩⟩
      change answerRead x.entry (.data (dramRead s.dst x.cell)) s.cmb = _
      simp [answerRead, ho]

/-! ### A flush of every line (R94) -/

/-- The flush of one line, with the reads of its entry dropped also where it has no line. -/
def flushOne (e : EntryIx) (s : State) : State := dropReads e (flushLine e s)

theorem flushAll_eq (s : State) : flushAll s =
    setDst (removeWrites (fun _ => true) (entries.foldl (fun s e => flushOne e s) s).dst)
      (entries.foldl (fun s e => flushOne e s) s) := rfl

/-- What the flush of a list of entries leaves: their lines empty, none of their reads in the queue, and each entry of which a
read was in the queue answered with nothing. -/
structure FlushedOver (l : List EntryIx) (s t : State) : Prop where
  line    : ∀ f, lineAt t f = if f ∈ l then (lineAt s f).map lineFlush else lineAt s f
  reads   : t.dst.reads = s.dst.reads.filter (fun x => x.entry ∉ l)
  idle    : s.cmb.course = none → t.cmb = s.cmb
  answers : ∀ o, s.cmb.course = some o → ∃ a : Vector Answer 16, t.cmb = { s.cmb with course := some { o with answers := a } } ∧
    ∀ f, ((∃ x ∈ s.dst.reads, x.entry = f ∧ f ∈ l) → vget a f = .nothing) ∧
      ((∀ x ∈ s.dst.reads, x.entry = f → f ∉ l) → vget a f = vget o.answers f)

theorem dropReads_none {e : EntryIx} {s : State} (h : ∀ x ∈ s.dst.reads, x.entry ≠ e) : dropReads e s = s := by
  rw [dropReads, if_neg]
  simpa using h

theorem dropReads_some {e : EntryIx} {s : State} (h : ∃ x ∈ s.dst.reads, x.entry = e) :
    (dropReads e s).cmb = answerRead e .nothing s.cmb := by
  rw [dropReads, if_pos (by simpa using h)]
  rfl

theorem flushOne_cmb (e : EntryIx) (s : State) :
    ((∃ x ∈ s.dst.reads, x.entry = e) → (flushOne e s).cmb = answerRead e .nothing s.cmb) ∧
    ((∀ x ∈ s.dst.reads, x.entry ≠ e) → (flushOne e s).cmb = s.cmb) := by
  cases hl : lineAt s e with
  | none =>
    rw [flushOne, flushLine_none hl]
    exact ⟨dropReads_some, fun h => by rw [dropReads_none h]⟩
  | some l =>
    have hgone : ∀ x ∈ (flushLine e s).dst.reads, x.entry ≠ e :=
      ((flushed_flushLine e s).2 (by simp [hl])).2
    rw [flushOne, dropReads_none hgone, flushLine_some hl]
    generalize hu : setDst (removeWrites (fun w => w.entry == e) (setLine e (some (lineFlush l)) s.dst)) s = u
    have hreads : u.dst.reads = s.dst.reads := by rw [← hu]; rfl
    have hcmb : u.cmb = s.cmb := by rw [← hu]; rfl
    rw [← hreads, ← hcmb]
    exact ⟨dropReads_some, fun h => by rw [dropReads_none h]⟩

theorem flushOne_reads (e : EntryIx) (s : State) :
    (flushOne e s).dst.reads = s.dst.reads.filter (fun x => x.entry != e) := by
  rw [flushOne, (dropReads_queues ..).2.2]
  by_cases hl : lineAt s e = none
  · rw [flushLine_none hl]
  · rw [(flushLine_queues hl).2, List.filter_filter]
    simp

theorem lineAt_flushOne (e : EntryIx) (s : State) (f : EntryIx) :
    lineAt (flushOne e s) f = if f = e then (lineAt s e).map lineFlush else lineAt s f := by
  rw [← lineAt_flushLine, flushOne, lineAt, (dropReads_queues ..).1]
  rfl

theorem cmb_of_course {c : Cmb} {o : OutBlock} (h : c.course = some o) :
    c = { c with course := some { o with answers := o.answers } } := by
  cases c
  cases h
  rfl

theorem flushedOver_foldl : ∀ (l : List EntryIx) (s : State), FlushedOver l s (l.foldl (fun s e => flushOne e s) s)
  | [], s => ⟨by simp, by simp, fun _ => rfl, fun o ho => ⟨o.answers, cmb_of_course ho, by simp⟩⟩
  | e :: rest, s => by
    have ih := flushedOver_foldl rest (flushOne e s)
    obtain ⟨hdrops, hkeeps⟩ := flushOne_cmb e s
    have hmem (x : ReadReq) : x ∈ (flushOne e s).dst.reads ↔ x ∈ s.dst.reads ∧ x.entry ≠ e := by
      rw [flushOne_reads, List.mem_filter, bne_iff_ne]
    refine ⟨fun f => ?_, ?_, fun hc => ?_, fun o ho => ?_⟩ <;> rw [List.foldl_cons]
    · rw [ih.line, lineAt_flushOne]
      by_cases hf : f = e
      · subst hf
        cases lineAt s f <;> simp [lineFlush]
      · simp [hf]
    · rw [ih.reads, flushOne_reads, List.filter_filter]
      refine List.filter_congr fun x _ => ?_
      by_cases hx : x.entry = e <;> simp [hx]
    · have hstep : (flushOne e s).cmb = s.cmb := by
        by_cases h : ∃ x ∈ s.dst.reads, x.entry = e
        · rw [hdrops h, answerRead, hc]
        · exact hkeeps (by simpa using h)
      rw [ih.idle (hstep ▸ hc), hstep]
    · obtain ⟨a, ha, hae⟩ : ∃ a : Vector Answer 16, (flushOne e s).cmb = { s.cmb with course := some { o with answers := a } } ∧
          ∀ f, ((∃ x ∈ s.dst.reads, x.entry = f ∧ f = e) → vget a f = .nothing) ∧
            ((∀ x ∈ s.dst.reads, x.entry = f → f ≠ e) → vget a f = vget o.answers f) := by
        by_cases h : ∃ x ∈ s.dst.reads, x.entry = e
        · refine ⟨vput o.answers e .nothing, by rw [hdrops h, answerRead, ho], fun f => ⟨?_, fun hno => ?_⟩⟩
          · rintro ⟨-, -, -, rfl⟩
            exact vget_vput_same _ _ _
          · obtain ⟨x, hx, hxe⟩ := h
            exact vget_vput_other _ _ fun hf => hno x hx (hf ▸ hxe) hf
        · have hno : ∀ x ∈ s.dst.reads, x.entry ≠ e := by simpa using h
          refine ⟨o.answers, (hkeeps hno).trans (cmb_of_course ho), fun f => ⟨?_, fun _ => rfl⟩⟩
          rintro ⟨x, hx, hxf, rfl⟩
          exact absurd hxf (hno x hx)
      obtain ⟨b, hb, hbf⟩ := ih.answers { o with answers := a } (by rw [ha])
      refine ⟨b, by rw [hb, ha], fun f => ⟨?_, fun hno => ?_⟩⟩
      · rintro ⟨x, hx, hxf, hf⟩
        by_cases hfe : f = e
        · by_cases hin : ∃ y ∈ (flushOne e s).dst.reads, y.entry = f ∧ f ∈ rest
          · exact (hbf f).1 hin
          · rw [(hbf f).2 fun y hy hyf hm => hin ⟨y, hy, hyf, hm⟩]
            exact (hae f).1 ⟨x, hx, hxf, hfe⟩
        · exact (hbf f).1 ⟨x, (hmem x).2 ⟨hx, hxf ▸ hfe⟩, hxf, (List.mem_cons.1 hf).resolve_left hfe⟩
      · rw [(hbf f).2 fun x hx hxf hm => hno x ((hmem x).1 hx).1 hxf (List.mem_cons_of_mem _ hm)]
        exact (hae f).2 fun x hx hxf hfe => hno x hx hxf (hfe ▸ List.mem_cons_self)

theorem FlushedOver.removeWrites {l : List EntryIx} {s t : State} (h : FlushedOver l s t) (p : WriteReq → Bool) :
    FlushedOver l s (setDst (removeWrites p t.dst) t) := ⟨h.line, h.reads, h.idle, h.answers⟩

/-- What a flush of every line leaves. -/
theorem flushAll_flushed (s : State) : FlushedOver entries s (flushAll s) := by
  rw [flushAll_eq]
  exact (flushedOver_foldl entries s).removeWrites _

theorem removeWrites_all (d : Dst) : (removeWrites (fun _ => true) d).writes = [] :=
  List.filter_eq_nil_iff.2 (by simp)

theorem flushAll_writes (s : State) : (flushAll s).dst.writes = [] := by
  rw [flushAll_eq, setDst_dst, removeWrites_all]

theorem lineAt_flushAll (s : State) (e : EntryIx) : lineAt (flushAll s) e = (lineAt s e).map lineFlush := by
  rw [(flushAll_flushed s).line, if_pos (mem_entries e)]

theorem flushAll_reads (s : State) : (flushAll s).dst.reads = [] := by
  rw [(flushAll_flushed s).reads]
  exact List.filter_eq_nil_iff.2 (by simp [mem_entries])

/-! ### A memory overrun (R94, R95, R58) -/

/-- Does an overrun return a context to ACQUIRE? -/
def returnedBy (s : State) (e : EntryIx) (c : Ctx) : Bool :=
  (activeAt s e).elim false fun en => liveOrFade c.state && decide (0 < en.pages)

theorem returnedBy_iff (s : State) (e : EntryIx) (c : Ctx) : returnedBy s e c = true ↔
    (∃ en, activeAt s e = some en ∧ 0 < en.pages) ∧ (c.state = .live ∨ c.state = .fade) := by
  have hstate : liveOrFade c.state = true ↔ c.state = .live ∨ c.state = .fade := by cases c.state <;> simp [liveOrFade]
  cases h : activeAt s e <;> simp [returnedBy, h, hstate, and_comm]

/-- A context in LIVE or FADE that returns to ACQUIRE leaves the air, and is reported (R58, R59). -/
theorem overrunCtx_pass (s : State) : PassStep s.pln id
    (fun e c => if returnedBy s e c = true then { settled c with state := .acquire, shed := false } else c)
    (fun e c => returnedBy s e c) (fun e c => if returnedBy s e c = true then some .overrun else none) overrunCtx := by
  intro e u hu
  have hact : activeAt u e = activeAt s e := by rw [activeAt, hu, activeAt]
  by_cases h : returnedBy s e (ctxAt u e) = true
  · obtain ⟨⟨en, hen, hpages⟩, hstate⟩ := (returnedBy_iff s e _).1 h
    have hlive : liveOrFade (ctxAt u e).state = true := by rcases hstate with hs | hs <;> simp [hs, liveOrFade]
    have hleaves : leavesAir (ctxAt u e) (toAcquire (ctxAt u e)) = true := by
      rcases hstate with hs | hs <;> simp [leavesAir, toAcquire, isContributor, hs]
    have hrep : reportChanged (ctxAt u e) (toAcquire (ctxAt u e)) = true := by
      rcases hstate with hs | hs <;> simp [reportChanged, toAcquire, stateName, hs]
    simp only [id, h, if_true, overrunCtx, hact, hen, hlive, hpages, decide_true, Bool.and_self, commitCtx_eq_changeCtx,
      hleaves, hrep, committed]
    rfl
  · have hno : overrunCtx e u = u := by
      cases hen : activeAt s e with
      | none => simp only [overrunCtx, hact, hen]
      | some en =>
        have : ¬(liveOrFade (ctxAt u e).state && decide (0 < en.pages)) = true := by
          simpa [returnedBy, hen] using h
        simp only [overrunCtx, hact, hen, if_neg this]
    rw [Bool.not_eq_true] at h
    simp only [id, h, Bool.false_eq_true, if_false, hno]
    exact (changeCtx_self e u).symm

theorem tellOverrun_passed (s : State) : Passed id
    (fun e c => if returnedBy s e c = true then { settled c with state := .acquire, shed := false } else c)
    (fun e c => returnedBy s e c) (fun e c => if returnedBy s e c = true then some .overrun else none) entries s (tellOverrun s) :=
  (overrunCtx_pass s).foldl entries s (by rw [List.map_id]; exact List.nodup_finRange 16) rfl

theorem lineCount_flushAll (s : State) : lineCount (flushAll s).dst = lineCount s.dst := by
  have hlines : (flushAll s).dst.lines = s.dst.lines.map (Option.map lineFlush) := vget_ext fun i => by
    rw [vget_map]
    exact lineAt_flushAll s i
  have hlength (l : List (Option Line)) : ((l.map (Option.map lineFlush)).filterMap id).length = (l.filterMap id).length := by
    induction l with
    | nil => rfl
    | cons o rest ih => cases o <;> simpa using ih
  rw [lineCount, hlines, Vector.toList_map, hlength, lineCount]

/-- An overrun in terms of what its flush and its pass over the contexts leave. -/
theorem overrun_eq {s v w : State} (hv : flushAll s = v) (hw : tellOverrun v = w) : overrun s =
    post (.memory (min 255 (s.dst.overruns + 1)) (lineCount s.dst))
      (setDst { v.dst with overruns := min 255 (s.dst.overruns + 1) } w) := by
  have hdst : w.dst = v.dst := hw ▸ (tellOverrun_passed v).frame.2.2.2.2.2.2.1
  have hcount : lineCount v.dst = lineCount s.dst := hv ▸ lineCount_flushAll s
  have hover : v.dst.overruns = s.dst.overruns := hv ▸ (flushAll_dst s).2.2.2.2.1
  rw [← hcount]
  simp only [overrun, hv, hw, hdst, satInc, hover, setDst_dst]
  rfl

/-- What an overrun makes of the contexts, the notices and MON (R58, R66, R142): LIVE and FADE with pages return to ACQUIRE. -/
structure Returned (s t : State) : Prop where
  changed  : ∀ e, returnedBy s e (ctxAt s e) = true →
    ctxAt t e = { settled (ctxAt s e) with state := .acquire, shed := false } ∧ Notified e .overrun t
  same     : ∀ e, ¬returnedBy s e (ctxAt s e) = true → ctxAt t e = ctxAt s e
  ended    : ∀ e, returnedBy s e (ctxAt s e) = true → DwellsOn s e → t.mon = { s.mon with dwell := none }
  kept     : (∀ e, returnedBy s e (ctxAt s e) = true → ¬DwellsOn s e) → t.mon = s.mon

theorem returned_tellOverrun (s : State) : Returned s (tellOverrun s) := by
  have h := tellOverrun_passed s
  refine ⟨fun e he => ⟨?_, ?_⟩, fun e he => ?_, fun e he hd => h.ended ⟨e, mem_entries e, he, hd⟩,
    fun hno => h.kept fun e _ he => hno e he⟩
  · exact (h.changed e (mem_entries e)).trans (if_pos he)
  · exact h.notified (by rw [List.map_id]; exact List.nodup_finRange 16) (mem_entries e) (if_pos he)
  · exact (h.changed e (mem_entries e)).trans (if_neg he)

/-- Settles O45: an expiry without a pending request raises it and grants an idle port; with one it is the overrun, whose
flush and whose pass over the contexts are described one after the other. -/
theorem refreshAndOverrun : Obligations.RefreshAndOverrun := by
  refine ⟨fun s hs hp => ?_, fun s hs hp => ?_⟩
  · rw [exec_released hs]
    by_cases hport : s.dst.port = .idle
    · simp [effect, refreshExpiry, hp, hport, setDst, grant]
    · simp only [effect, refreshExpiry, setDst, hp, hport, if_false, Bool.false_eq_true]
      rw [grant_busy (d := { s.dst with refreshPending := true, refreshPeriod := s.pln.activeSettings.refresh }) hport]
  · obtain ⟨u, hu⟩ : ∃ u, u = setDst { s.dst with refreshPeriod := s.pln.activeSettings.refresh } s := ⟨_, rfl⟩
    obtain ⟨v, hv⟩ : ∃ v, flushAll u = v := ⟨_, rfl⟩
    obtain ⟨w, hw⟩ : ∃ w, tellOverrun v = w := ⟨_, rfl⟩
    have hexec : exec .refreshTimerExpiry s = .next (overrun u) := by
      rw [exec_released hs, hu]
      exact congrArg Host.Outcome.next (if_pos hp)
    have hframe : (overrun u).pln = s.pln ∧ (overrun u).ext = s.ext ∧ (overrun u).txs = s.txs ∧ (overrun u).rtA = s.rtA ∧
        (overrun u).rtB = s.rtB ∧ (overrun u).svc.queue = s.svc.queue := by simp [hu]
    have hline (e : EntryIx) : lineAt v e = (lineAt s e).map lineFlush := by rw [← hv, lineAt_flushAll, hu]; rfl
    have hwrites : v.dst.writes = [] := hv ▸ flushAll_writes u
    have hreads : v.dst.reads = [] := hv ▸ flushAll_reads u
    obtain ⟨hpages, hdram, hmarks, hgaps, -, hperiod, hpending⟩ := hv ▸ flushAll_dst u
    obtain ⟨-, -, -, -, -, hpln, hctx, -, hmon, -⟩ := hv ▸ flushAll_frame u
    have hcmb : w.cmb = v.cmb := by rw [← hw]; simp
    have hret : Returned v w := hw ▸ returned_tellOverrun v
    have hflush : FlushedOver entries u v := hv ▸ flushAll_flushed u
    have hctxv (e : EntryIx) : ctxAt v e = ctxAt s e := by rw [ctxAt, hctx, hu]; rfl
    have hactv (e : EntryIx) : activeAt v e = activeAt s e := by rw [activeAt, hpln, hu]; rfl
    have hmonv : v.mon = s.mon := by rw [hmon, hu]; rfl
    have hreturned (e : EntryIx) : returnedBy v e (ctxAt v e) = true ↔
        (∃ en, activeAt s e = some en ∧ 0 < en.pages) ∧ ((ctxAt s e).state = .live ∨ (ctxAt s e).state = .fade) := by
      rw [returnedBy_iff, hactv, hctxv]
    rw [overrun_eq hv hw] at hexec hframe
    rw [hu] at hexec hframe hpages hdram hmarks hgaps hperiod hpending hflush
    refine ⟨_, hexec, hline, hwrites, hreads, hpending.trans hp, hperiod, rfl, hpages, hmarks, hgaps, hdram,
      ⟨_, postNotice_mem _ _, rfl⟩, fun e en hen hpg hst => ?_, fun e hl hf => ?_, fun e hno => ?_,
      ⟨fun d e hd hv hr => ?_, fun hno => ?_⟩, fun o ho => ?_, hframe⟩
    · obtain ⟨hc, hn⟩ := hret.changed e ((hreturned e).2 ⟨⟨en, hen, hpg⟩, hst⟩)
      rw [hctxv] at hc
      exact ⟨hc, postNotice_other hn rfl⟩
    · exact (hret.same e fun h => ((hreturned e).1 h).2.elim hl hf).trans (hctxv e)
    · refine (hret.same e fun h => ?_).trans (hctxv e)
      obtain ⟨⟨en, hen, hpg⟩, -⟩ := (hreturned e).1 h
      exact hpg.ne' (hno en hen)
    · refine (hret.ended e ((hreturned e).2 hr) ?_).trans (by rw [hmonv])
      exact ⟨d, by rw [hmonv]; exact hd, hv⟩
    · refine (hret.kept fun e he ⟨d, hd, hv⟩ => ?_).trans hmonv
      exact hno d e (hmonv ▸ hd) hv ((hreturned e).1 he)
    · obtain ⟨a, ha, haf⟩ := hflush.answers o ho
      refine ⟨{ o with answers := a }, ?_, fun e => ⟨fun ⟨x, hx, hxe⟩ => (haf e).1 ⟨x, hx, hxe, mem_entries e⟩,
        fun hno => (haf e).2 fun x hx hxe => absurd hxe (hno x hx)⟩⟩
      exact congrArg Cmb.course (hcmb.trans ha)

end Sys2Proof.Machine
end

section
/-! SUPPORT. Requests of unknown kind or wrong length (R161), the warm restart (R167), the bodies of the three reports (Table
11-7), and the claims UnknownAndLength, Restart and Reports. -/

namespace Sys2Proof.Machine

open Sys2Proof.Safety

/-! ### Unknown kinds and wrong lengths (R161) -/

section
variable {s : State} {r : Request} {rest : List Request} (hq : s.svc.queue = r :: rest) (ho : (portOf s r.trunk).outbox = none)
include hq ho

theorem exec_unknownKind (hs : s.inReset = false) (h : ∀ k : Kind, r.kind.toNat ≠ k.code) :
    exec .unknownKind s = .next (answered r rest .unknown [] s) := by
  have hno : isRequestKind r.kind.toNat = false := by
    rw [isRequestKind, List.any_eq_false]
    exact fun k _ => by simpa using (h k).symm
  rw [exec_released hs, effect, unknownRequest, takeRequest_of_front hq ho, answered_eq]
  simp only [hno, Bool.false_eq_true, if_false]
  rfl

theorem execRequest_length (k : Kind) (act : List Byte → State → Reply) (hk : r.kind.toNat = k.code)
    (hl : r.body.length ≠ k.bodyLength) : execRequest k act s = answered r rest .length [] s := by
  rw [execRequest, takeRequest_of_front hq ho, answered_eq]
  simp only [hk, hl, ne_eq, not_true_eq_false, if_false, not_false_eq_true, if_true]
  rfl

theorem restartRequest_length (hk : r.kind.toNat = Kind.restart.code) (hl : r.body.length ≠ Kind.restart.bodyLength) :
    restartRequest s = answered r rest .length [] s := by
  rw [restartRequest, takeRequest_of_front hq ho, answered_eq]
  simp only [hk, hl, ne_eq, not_true_eq_false, if_false, not_false_eq_true, if_true]
  rfl

end

/-- Settles O30: the test for an unknown kind in its command, and the test of the length in the command of each kind. -/
theorem unknownAndLength : Obligations.UnknownAndLength := by
  refine ⟨fun s r rest hs hq ho h => exec_unknownKind hq ho hs h, fun k s r rest hs hq ho hk hl => ?_⟩
  rw [exec_released hs]
  by_cases hr : k = .restart
  · subst hr
    exact congrArg Host.Outcome.next (restartRequest_length hq ho hk hl)
  · rw [effect_commandOf hr, execRequest_length hq ho k _ hk hl]

/-! ### The warm restart (R167) -/

theorem exec_restart {s : State} {r : Request} {rest : List Request} (h : Serves .restart s r rest) :
    exec .restart s = .next (warmRestart (answered r rest .ok [] s)) := by
  rw [exec_released h.released, effect, restartRequest, takeRequest_of_front h.front h.outbox, answered_eq]
  simp only [h.kind, h.length, ne_eq, not_true_eq_false, if_false]
  rfl

/-- The warm restart in terms of the flush that begins it. -/
theorem warmRestart_eq {s f : State} (hf : flushAll s = f) : warmRestart s =
    { f with
      pln := { f.pln with armed := false }
      ctx := f.pln.active.map restartCtx
      dst := { f.dst with
        gapCounts := Vector.replicate 16 0, overruns := 0, refreshPeriod := f.pln.activeSettings.refresh }
      cmb := restartCmb f.pln.activeSettings f.cmb
      txs := restartTxs f.txs
      mon := restartMon f.mon
      svc := restartSvc f.svc } := by
  simp only [warmRestart, restartDst, hf, setDst, setCtxs, setPln, setTxs, setCmb, setMon, setSvc]

/-- Settles O31: the response, then the flush, then the values of every block. -/
theorem restart : Obligations.Restart := by
  intro s r rest hs
  obtain ⟨a, ha⟩ : ∃ a, answered r rest .ok [] s = a := ⟨_, rfl⟩
  obtain ⟨f, hf⟩ : ∃ f, flushAll a = f := ⟨_, rfl⟩
  obtain ⟨hext, hpln, hctx, hdst, hcmb, htxs, hmon⟩ := ha ▸ answered_frame r rest .ok [] s
  obtain ⟨hpend, hreset, hA, hB, hext', hpln', -, htxs', hmon', -⟩ := hf ▸ flushAll_frame a
  obtain ⟨hpages, hdram, hmarks, -, -, -, hpending⟩ := hf ▸ flushAll_dst a
  have hflush : FlushedOver entries a f := hf ▸ flushAll_flushed a
  have hport (t : Trunk) : portOf f t = portOf a t := by
    cases t
    · exact hA
    · exact hB
  obtain ⟨hnumber, hepochs, hrestarted⟩ : f.cmb.course.map OutBlock.number = s.cmb.course.map OutBlock.number ∧
      f.cmb.epochs = s.cmb.epochs ∧ f.cmb.course.map (fun _ => true) = s.cmb.course.map (fun _ => true) := by
    rw [← hcmb]
    rcases hc : a.cmb.course with _ | o
    · rw [hflush.idle hc, hc]
      exact ⟨rfl, rfl, rfl⟩
    · obtain ⟨x, hx, -⟩ := hflush.answers o hc
      rw [hx]
      exact ⟨rfl, rfl, rfl⟩
  refine ⟨_, exec_restart hs, ?_⟩
  rw [ha, warmRestart_eq hf]
  have hplnf : f.pln = s.pln := hpln'.trans hpln
  have hmonf : f.mon = s.mon := hmon'.trans hmon
  have htxsf : f.txs = s.txs := htxs'.trans htxs
  have hline (e : EntryIx) : lineAt f e = (lineAt s e).map lineFlush := by
    rw [← hf, lineAt_flushAll, lineAt, hdst]
    rfl
  have hwrites : f.dst.writes = [] := hf ▸ flushAll_writes a
  have hreads : f.dst.reads = [] := hf ▸ flushAll_reads a
  have hfree : a.pending = s.pending ∧ a.inReset = s.inReset := by rw [← ha, answered_eq]; simp
  refine ⟨?_, fun t ht => ?_, rfl, hext'.trans hext, by rw [hplnf], fun e => ⟨fun he => ?_, fun he => ?_⟩, hline,
    hwrites, hreads, fun e => vget_replicate _ e, rfl, hpages.trans (congrArg Dst.pageMap hdst),
    hmarks.trans (congrArg Dst.gapMarks hdst), hdram.trans (congrArg Dst.dram hdst),
    hpending.trans (congrArg Dst.refreshPending hdst), by rw [hplnf], rfl, hepochs,
    fun e => ⟨vget_replicate _ e, vget_replicate _ e, vget_replicate _ e⟩, rfl, rfl, ?_, ?_, ?_, by rw [← htxsf]; rfl,
    by rw [← hmonf]; rfl, hpend.trans hfree.1, (hreset.trans hfree.2).trans hs.released⟩
  · refine (hport r.trunk).trans ?_
    rw [← ha, portOf_answered_same]
  · refine (hport t).trans ?_
    rw [← ha, portOf_answered_other _ _ _ _ _ ht]
  · obtain ⟨en, hen⟩ := Option.ne_none_iff_exists'.1 he
    rw [ctxAt, vget_map, hplnf, show vget s.pln.active e = some en from hen]
    rfl
  · rw [ctxAt, vget_map, hplnf, show vget s.pln.active e = none from he]
    rfl
  · rw [restartCmb, Option.map_map]
    exact hnumber
  · rw [restartCmb, Option.map_map]
    exact hrestarted
  · rw [hplnf]
    rfl

/-! ### Flags and fields of the report bodies (R170, R171) -/

theorem testBit_flagByte : ∀ (flags : List Bool) (k : Nat), (flagByte flags).testBit k = flags.getD k false
  | [], k => by simp [flagByte]
  | b :: rest, 0 => by cases b <;> simp [flagByte, Nat.testBit_zero, Nat.add_mod]
  | b :: rest, k + 1 => by
    have hdiv : (b.toNat + 2 * flagByte rest) / 2 = flagByte rest := by cases b <;> (simp; try omega)
    rw [flagByte, Nat.testBit_succ, hdiv, testBit_flagByte rest k]
    rfl

theorem flagByte_lt : ∀ flags : List Bool, flagByte flags < 2 ^ flags.length
  | [] => by simp [flagByte]
  | b :: rest => by
    have := flagByte_lt rest
    have := b.toNat_lt
    rw [flagByte, List.length_cons, Nat.pow_succ]
    omega

/-- A byte of up to eight flags holds each at its place, and nothing else. -/
theorem flagField_of_byte {b : List Byte} {i : Nat} {flags : List Bool} (hb : byteAt b i = byteOf (flagByte flags))
    (hl : flags.length ≤ 8) : FlagField b i flags := by
  intro k hk
  have hlt : flagByte flags < 256 := (flagByte_lt flags).trans_le (Nat.pow_le_pow_right (by decide) hl)
  rw [hb, byteOf, Nat.min_eq_left (by omega), BitVec.getLsbD_ofNat, testBit_flagByte]
  simp [hk]

theorem byte_field (n : Nat) : (byteOf n).toNat = min 255 n := (byteOf_toNat n).trans (Nat.min_comm ..)

theorem word_field (n : Nat) : (highByte n).toNat * 256 + (lowByte n).toNat = min 65535 n :=
  (word_toNat n).trans (Nat.min_comm ..)

theorem doubleWord_field (n : Nat) :
    ((highByte (min n 4294967295 / 65536)).toNat * 256 + (lowByte (min n 4294967295 / 65536)).toNat) * 65536 +
      ((highByte (min n 4294967295 % 65536)).toNat * 256 + (lowByte (min n 4294967295 % 65536)).toNat) =
        min 4294967295 n :=
  (doubleWord_bytes n).trans (Nat.min_comm ..)

theorem code_name (x : CtxName) : (byteOf x.code).toNat = x.code := by cases x <;> rfl
theorem code_cause (x : Option Cause) : (byteOf (causeCode x)).toNat = causeCode x := by
  rcases x with _ | ⟨⟨⟩⟩ <;> rfl
theorem code_source (x : Source) : (byteOf (sourceCode x)).toNat = sourceCode x := by cases x <;> rfl
theorem code_seq (x : Seq) : (byteOf x.code).toNat = x.code := by cases x <;> rfl
theorem code_trip (x : Trip) : (byteOf x.code).toNat = x.code := by cases x <;> rfl
theorem code_align (x : Align) : (byteOf x.code).toNat = x.code := by cases x <;> rfl
theorem code_mode (x : MonMode) : (byteOf x.code).toNat = x.code := by cases x <;> rfl
theorem code_selftest (x : SelfTest) : (byteOf x.code).toNat = x.code := by cases x <;> rfl
theorem code_entry (e : EntryIx) : (byteOf e.val).toNat = e.val := by
  rw [byteOf_toNat]
  omega

theorem bridgeTime_le (code : Nat) : bridgeTime code ≤ 65535 := by
  by_cases h : code < 8
  · interval_cases code <;> decide
  · rw [bridgeTime, List.getD_eq_default _ _ (by simpa using h)]
    decide

/-! ### The three bodies (Table 11-7) -/

theorem test_none {x : CtxState} (h : ∀ n l, x ≠ .test n l) : testSeconds x = none ∧ testLevel x = none := by
  cases x with
  | test n l => exact absurd rfl (h n l)
  | _ => exact ⟨rfl, rfl⟩

theorem channelReport (s : State) (e : EntryIx) : ChannelReport s e (channelBody s e) := by
  have hready (x : Source) : isReady s.pln.activeSettings.acquire (ctxAt s e) x = true ↔ Ready s (ctxAt s e) x := by
    cases x <;> exact beq_iff_eq
  delta channelBody
  simp only [field8_bytes, fieldOptS16, fieldS16, fieldOpt16, field32, field16_bytes, List.cons_append,
    List.nil_append]
  exact {
    length := rfl
    index := code_entry e
    state := code_name _
    cause := code_cause _
    source := code_source _
    flags := ⟨isReady s.pln.activeSettings.acquire (ctxAt s e) .primary, isReady s.pln.activeSettings.acquire (ctxAt s e) .alternate,
      hready .primary, hready .alternate, flagField_of_byte rfl (Nat.le_of_ble_eq_true rfl)⟩
    ready := ⟨word_field _, word_field _⟩
    loss := word_field _
    bridge := ⟨fun en hen => (word_field (((activeAt s e).map entryBridge).getD 65535)).trans
        (by rw [hen]; exact Nat.min_eq_right (bridgeTime_le _)),
      fun hen => (word_field (((activeAt s e).map entryBridge).getD 65535)).trans (by rw [hen]; rfl)⟩
    revert := doubleWord_field _
    levels := ⟨signed_bytes _, signed_bytes _, signed_bytes _⟩
    strikes := byte_field _
    test := fun n l h => ⟨(word_field ((testSeconds (ctxAt s e).state).getD 65535)).trans (by rw [h]; rfl),
      (signed_bytes ((testLevel (ctxAt s e).state).getD (-32768))).trans (by rw [h]; rfl)⟩
    noTest := fun h => ⟨(word_field ((testSeconds (ctxAt s e).state).getD 65535)).trans (by rw [(test_none h).1]; rfl),
      (signed_bytes ((testLevel (ctxAt s e).state).getD (-32768))).trans (by rw [(test_none h).2]; rfl)⟩
    counters := ⟨word_field _, byte_field _, word_field _⟩
    line := ⟨fun l hl => ⟨(word_field (((lineAt s e).map Line.fill).getD 0)).trans (by rw [hl]; rfl),
        (word_field (((lineAt s e).map lineCapacity).getD 0)).trans (by rw [hl]; rfl)⟩,
      fun hl => ⟨(word_field (((lineAt s e).map Line.fill).getD 0)).trans (by rw [hl]; rfl),
        (word_field (((lineAt s e).map lineCapacity).getD 0)).trans (by rw [hl]; rfl)⟩⟩
    counts := ⟨word_field _, word_field _⟩ }

theorem transmitReport (x : Txs) : TransmitReport x (transmitBody x) := by
  simp only [transmitBody, field8_bytes, fieldOptS16, fieldS16, fieldOpt16, field16_bytes, List.cons_append, List.nil_append]
  exact {
    length := rfl
    state := code_seq _
    flags := flagField_of_byte rfl (Nat.le_of_ble_eq_true rfl)
    cause := code_trip _
    atten := word_field _
    fold := byte_field _
    timers := ⟨word_field _, word_field _⟩
    qual := word_field _
    trips := byte_field _
    lastRL := signed_bytes _
    invalid := byte_field _
    held := ⟨signed_bytes _, signed_bytes _⟩ }

theorem pagesInUse_eq (m : Vector (Option EntryIx) 256) : pagesInUse m = m.toList.countP Option.isSome := by
  rw [pagesInUse]
  induction m.toList with
  | nil => rfl
  | cons o rest ih => cases o <;> simpa using ih

theorem strikeByte_eq (c : Ctx) : (byteOf (strikeByte c)).toNat = c.strikes % 4 + if c.lowOutput = true then 4 else 0 := by
  rw [byte_field, strikeByte]
  cases c.lowOutput <;> simp <;> omega

theorem strikeBytes_eq (l : List Ctx) :
    (l.flatMap fun c => [byteOf (strikeByte c)]) = l.map fun c => byteOf (strikeByte c) :=
  List.flatMap_pure_eq_map _ l

theorem strikeBytes_at (m : Vector Ctx 16) (e : EntryIx) :
    u8 (m.toList.map fun c => byteOf (strikeByte c)) e.val = (vget m e).strikes % 4 + if (vget m e).lowOutput = true then 4 else 0 := by
  rw [← strikeByte_eq, u8, byteAt]
  congr 1
  simp [List.getD, vget]

theorem pages_le (m : Vector (Option EntryIx) 256) : m.toList.countP Option.isSome ≤ 65535 := by
  have : m.toList.countP Option.isSome ≤ m.toList.length := List.countP_le_length
  simp only [Vector.length_toList] at this
  omega

theorem mode_entry (m : MonMode) :
    (∀ e, m = .lock e → (byteOf (m.entry.getD 255)).toNat = e.val) ∧
    ((∀ e, m ≠ .lock e) → (byteOf (m.entry.getD 255)).toNat = 255) := by
  cases m with
  | lock e => exact ⟨fun f hf => by cases hf; exact code_entry e, fun h => absurd rfl (h e)⟩
  | _ => exact ⟨nofun, fun _ => rfl⟩

theorem return_entry (m : Option MonMode) :
    ((∀ x, m = some x → (byteOf ((m.map MonMode.code).getD 255)).toNat = x.code) ∧
      (m = none → (byteOf ((m.map MonMode.code).getD 255)).toNat = 255)) ∧
    (∀ e, m = some (.lock e) → (byteOf ((m.bind MonMode.entry).getD 255)).toNat = e.val) ∧
    ((∀ e, m ≠ some (.lock e)) → (byteOf ((m.bind MonMode.entry).getD 255)).toNat = 255) := by
  cases m with
  | none => exact ⟨⟨nofun, fun _ => rfl⟩, nofun, fun _ => rfl⟩
  | some x =>
    obtain ⟨hlock, hno⟩ := mode_entry x
    exact ⟨⟨fun y hy => by cases hy; exact code_mode x, nofun⟩, fun e he => hlock e (by cases he; rfl),
      fun h => hno fun e he => h e (by rw [he])⟩

theorem dwell_bytes (m : Option Dwell) :
    (∀ d, m = some d →
      ((∀ e, d.visited = .entry e → (byteOf ((m.map fun d => visitedCode d.visited).getD 255)).toNat = e.val) ∧
        (d.visited = .reference → (byteOf ((m.map fun d => visitedCode d.visited).getD 255)).toNat = 16) ∧
        (byteOf ((m.map Dwell.count).getD 255)).toNat = min 255 d.count ∧
        (byteOf ((m.map Dwell.length).getD 255)).toNat = min 255 d.length)) ∧
    (m = none → (byteOf ((m.map fun d => visitedCode d.visited).getD 255)).toNat = 255 ∧
      (byteOf ((m.map Dwell.count).getD 255)).toNat = 255 ∧ (byteOf ((m.map Dwell.length).getD 255)).toNat = 255) := by
  cases m with
  | none => exact ⟨nofun, fun _ => ⟨rfl, rfl, rfl⟩⟩
  | some d =>
    refine ⟨fun x hx => ?_, nofun⟩
    cases hx
    refine ⟨fun e he => ?_, fun he => ?_, byte_field _, byte_field _⟩
    · simp only [Option.map_some, Option.getD_some, he, visitedCode]
      exact code_entry e
    · simp only [Option.map_some, Option.getD_some, he, visitedCode]
      rfl

theorem supervisionReport (s : State) : SupervisionReport s (supervisionBody s) := by
  obtain ⟨tail, htail⟩ : ∃ l, s.ctx.toList.map (fun c => byteOf (strikeByte c)) = l := ⟨_, rfl⟩
  have hlength : tail.length = 16 := by simp [← htail]
  have hpages : pagesInUse s.dst.pageMap = s.dst.pageMap.toList.countP Option.isSome := pagesInUse_eq _
  have hexcess : s.cmb.figures.excess.toNat = if s.cmb.figures.excess = true then 1 else 0 := by
    cases s.cmb.figures.excess <;> rfl
  have htails (e : EntryIx) : u8 tail e.val = (ctxAt s e).strikes % 4 + if (ctxAt s e).lowOutput = true then 4 else 0 :=
    htail ▸ strikeBytes_at s.ctx e
  obtain ⟨hback, hbackEntry⟩ := return_entry s.mon.returnMode
  obtain ⟨hdwell, hnone⟩ := dwell_bytes s.mon.dwell
  simp only [supervisionBody, trunkSection, memorySection, combinerSection, monitorSection, strikeBytes_eq, htail, field8_bytes,
    fieldOptS16, fieldS16, fieldOpt8, field32, field16_bytes, List.cons_append, List.nil_append]
  exact {
    length := congrArg (· + 43) hlength
    trunks := ⟨⟨code_align _, flagField_of_byte rfl (Nat.le_of_ble_eq_true rfl), word_field _, word_field _⟩,
      code_align _, flagField_of_byte rfl (Nat.le_of_ble_eq_true rfl), word_field _, word_field _⟩
    memory := ⟨(word_field (pagesInUse s.dst.pageMap)).trans
      (by rw [hpages]; exact Nat.min_eq_right (pages_le _)), byte_field _⟩
    counter := ⟨byte_field _, word_field _⟩
    counts := ⟨word_field _, doubleWord_field _⟩
    levels := ⟨signed_bytes _, signed_bytes _⟩
    budget := ⟨byte_field _, word_field _, (byte_field s.cmb.figures.excess.toNat).trans
      (by rw [hexcess]; split <;> rfl)⟩
    figures := ⟨byte_field _, byte_field _⟩
    mode := ⟨code_mode _, mode_entry s.mon.mode⟩
    back := ⟨hback.1, hback.2, hbackEntry⟩
    scan := code_entry _
    dwell := hdwell
    noDwell := hnone
    test := code_selftest _
    entries := fun e => (u8_drop _ 43 e.val).symm.trans (htails e) }

/-! ### The requests that report -/

theorem boolOfCode_of_gt : ∀ {n : Nat}, 1 < n → boolOfCode n = none
  | _ + 2, _ => rfl

theorem actGetEntry_index {b : List Byte} {s : State} (h : 15 < u8 b 0) : actGetEntry b s = ⟨.index, [], s⟩ := by
  simp only [actGetEntry, entryIndex_of_gt h]

theorem actGetEntry_field {b : List Byte} {s : State} (h : u8 b 0 ≤ 15) (hc : 1 < u8 b 1) :
    actGetEntry b s = ⟨.field, [], s⟩ := by
  have he : entryIndex (u8 b 0) = some ⟨u8 b 0, by omega⟩ := dif_pos (by omega)
  simp only [actGetEntry, he, boolOfCode_of_gt hc]

theorem actGetEntry_reports {b : List Byte} {s : State} {e : EntryIx} {active : Bool} (h : u8 b 0 = e.val)
    (hc : boolOfCode (u8 b 1) = some active) : actGetEntry b s =
      ⟨.ok, field8 e.val ++ field8 active.toNat ++ positionRecord (vget (if active = true then s.pln.active else s.pln.staged) e), s⟩ := by
  simp only [actGetEntry, h, entryIndex_val, hc]

theorem actGetSettings_field {b : List Byte} {s : State} (h : 1 < u8 b 0) : actGetSettings b s = ⟨.field, [], s⟩ := by
  simp only [actGetSettings, boolOfCode_of_gt h]

theorem actGetSettings_reports {b : List Byte} {s : State} {active : Bool} (h : boolOfCode (u8 b 0) = some active) :
    actGetSettings b s = ⟨.ok, field8 active.toNat ++ [if s.pln.armed = true then 1 else 0] ++
      settingsRecord (if active = true then s.pln.activeSettings else s.pln.stagedSettings), s⟩ := by
  have harmed : field8 s.pln.armed.toNat = [if s.pln.armed = true then 1 else 0] := by
    cases s.pln.armed <;> rfl
  simp only [actGetSettings, h, harmed]

/-- Settles O29: each request by what its body selects; the bodies are those of the three reports above. -/
theorem reports : Obligations.Reports := by
  refine ⟨fun s r rest hs => ⟨fun h => exec_serves hs rfl (actGetEntry_index h),
      fun h hc => exec_serves hs rfl (actGetEntry_field h hc),
      fun e h => ⟨fun hc => exec_serves hs rfl (actGetEntry_reports h (active := false) (by rw [hc]; rfl)),
        fun hc => exec_serves hs rfl (actGetEntry_reports h (active := true) (by rw [hc]; rfl))⟩⟩,
    fun s r rest hs => ⟨fun h => exec_serves hs rfl (actGetSettings_field h),
      fun h => exec_serves hs rfl (actGetSettings_reports (active := false) (by rw [h]; rfl)),
      fun h => exec_serves hs rfl (actGetSettings_reports (active := true) (by rw [h]; rfl))⟩,
    fun s r rest hs => ⟨fun h => exec_serves hs rfl (onEntry_index h),
      fun e hb => ⟨_, channelReport s e, exec_serves hs rfl (onEntry_at hb)⟩⟩,
    fun s r rest hs => ⟨_, transmitReport s.txs, exec_serves hs rfl rfl⟩,
    fun s r rest hs => ⟨_, supervisionReport s, exec_serves hs rfl rfl⟩, rfl, rfl, rfl, rfl, rfl, rfl, fun _ => rfl, rfl⟩

end Sys2Proof.Machine
end

section
/-! SUPPORT. The step of a context on one block (R69): which block is taken, the context before a source switch is considered,
the two ways in which the step ends, and what it never touches. The claims BlockDiscarded, BlockReadiness and RecordAccepted. -/

namespace Sys2Proof.Machine

open Sys2Proof.Safety

/-! ### Taking the block from EXT -/

theorem takeWaiting_oldest {e : EntryIx} {r : Source} {w : Waiting} (hw : w.owner = e ∧ w.role = r) (after : List Waiting) :
    ∀ before : List Waiting, (∀ x ∈ before, ¬(x.owner = e ∧ x.role = r)) →
      takeWaiting e r (before ++ w :: after) = some (w, before ++ after)
  | [], _ => by simp [takeWaiting, hw]
  | x :: rest, h => by
    have ih := takeWaiting_oldest hw after rest fun y hy => h y (List.mem_cons_of_mem _ hy)
    simp only [List.cons_append, takeWaiting, if_neg (h x List.mem_cons_self), ih]

section
variable {e : EntryIx} {r : Source} {s : State} {before after : List Waiting} {w : Waiting}

/-- The state in which the oldest block has left EXT. -/
def blockLeft (before after : List Waiting) (s : State) : State := { s with ext := { s.ext with waiting := before ++ after } }

theorem exec_waits (h : Waits e r s before w after) : exec (.channelBlock e r) s = .next
    (match activeAt s e with
      | none => blockLeft before after s
      | some en =>
        if (ctxAt s e).state = .off ∨ isStale s.ext w = true then blockLeft before after s
        else takeBlock e en r w.block (blockLeft before after s)) := by
  rw [exec_released h.released, effect, deliverBlock, h.waiting, takeWaiting_oldest ⟨h.owner, h.role⟩ after before h.oldest]
  rfl

theorem isStale_iff (h : w.owner = e) : isStale s.ext w = true ↔ w.gen < vget s.ext.since e := by
  rw [isStale, decide_eq_true_eq, h]

theorem exec_takes {en : Entry} (h : Takes e r s before w after en) :
    exec (.channelBlock e r) s = .next (takeBlock e en r w.block (blockLeft before after s)) := by
  have hno : ¬((ctxAt s e).state = .off ∨ isStale s.ext w = true) :=
    not_or.2 ⟨h.running, fun hs => ((isStale_iff h.owner).1 hs).not_ge h.fresh⟩
  rw [exec_waits h.toWaits, h.entry]
  simp only [if_neg hno]

/-- Settles O35: both grounds for a discard are tested before the block is taken. -/
theorem blockDiscarded : Obligations.BlockDiscarded := by
  intro e r s before w after h hdisc
  have hyes : (ctxAt s e).state = .off ∨ isStale s.ext w = true := hdisc.imp id (isStale_iff h.owner).2
  rw [exec_waits h]
  cases activeAt s e with
  | none => rfl
  | some en =>
    simp only [if_pos hyes]
    rfl

end

/-! ### The context before a source switch is considered (R46, R47, R71 to R80, R56) -/

theorem blockGood_iff (en : Entry) (b : ChannelBlock) : blockGood en b = true ↔ GoodBlock en b := by
  rw [blockGood, GoodBlock]
  cases b.quality <;> cases b.level <;> simp

/-- The context once the readiness of the block's source, the loop and the revert counter have been stepped. -/
def blockCtx (en : Entry) (q : Nat) (r : Source) (b : ChannelBlock) (c : Ctx) : Ctx :=
  let d := updateReady q r (blockGood en b) c
  let d := if r = c.source then recordLoop (blockGood en b) b (runLoop en c.gain b) d else d
  { d with revert := nextRevert en c r (blockGood en b) }

section
variable (en : Entry) (q : Nat) (r : Source) (b : ChannelBlock) (c : Ctx)

/-- The steps before the rule of the state leave it, and what the rule is about, as it was. -/
theorem blockCtx_core : (blockCtx en q r b c).state = c.state ∧ (blockCtx en q r b c).source = c.source ∧
    (blockCtx en q r b c).loss = c.loss ∧ (blockCtx en q r b c).expired = c.expired ∧
    (blockCtx en q r b c).failovers = c.failovers ∧ (blockCtx en q r b c).shed = c.shed ∧
    (blockCtx en q r b c).strikes = c.strikes ∧ (blockCtx en q r b c).lowOutput = c.lowOutput ∧
    (blockCtx en q r b c).done = c.done := by
  by_cases h : r = c.source
  · cases r <;> simp only [blockCtx, if_pos h] <;> exact ⟨rfl, rfl, rfl, rfl, rfl, rfl, rfl, rfl, rfl⟩
  · cases r <;> simp only [blockCtx, if_neg h] <;> exact ⟨rfl, rfl, rfl, rfl, rfl, rfl, rfl, rfl, rfl⟩

theorem blockCtx_revert : (blockCtx en q r b c).revert = nextRevert en c r (blockGood en b) := rfl

theorem blockCtx_stepped : Stepped q r (GoodBlock en b) c (blockCtx en q r b c) := by
  have hgood (n : Nat) : (GoodBlock en b → nextReady q (blockGood en b) n = min q (n + 1)) ∧
      (¬GoodBlock en b → nextReady q (blockGood en b) n = 0) := by
    rw [← blockGood_iff]
    exact ⟨fun h => by rw [nextReady, if_pos h], fun h => by rw [nextReady, if_neg h]⟩
  have hready : (blockCtx en q r b c).readyP = (updateReady q r (blockGood en b) c).readyP ∧
      (blockCtx en q r b c).readyA = (updateReady q r (blockGood en b) c).readyA := by
    simp only [blockCtx]
    split <;> exact ⟨rfl, rfl⟩
  rw [Stepped, hready.1, hready.2]
  refine ⟨?_, ?_⟩ <;> rintro rfl
  · exact ⟨rfl, hgood _⟩
  · exact ⟨rfl, hgood _⟩

theorem blockCtx_inUse (h : r = c.source) :
    (blockCtx en q r b c).gain = (runLoop en c.gain b).gain ∧
    (blockCtx en q r b c).badBlocks = (if blockGood en b = true then c.badBlocks else min 65535 (c.badBlocks + 1)) ∧
    (blockCtx en q r b c).clips = (if (runLoop en c.gain b).clip = true then min 65535 (c.clips + 1) else c.clips) ∧
    (blockCtx en q r b c).lastIn = (if b.quality = .good then b.level else none) ∧
    (blockCtx en q r b c).lastOut = (runLoop en c.gain b).record.lout := by
  cases r <;> simp only [blockCtx, if_pos h] <;> exact ⟨rfl, rfl, rfl, rfl, rfl⟩

theorem blockCtx_other (h : r ≠ c.source) :
    (blockCtx en q r b c).gain = c.gain ∧ (blockCtx en q r b c).badBlocks = c.badBlocks := by
  cases r <;> simp only [blockCtx, if_neg h] <;> exact ⟨rfl, rfl⟩

end

/-! ### The two ways in which the step ends -/

/-- The state once the record has been handed on, when the block is of the source in use. -/
def blockHanded (e : EntryIx) (en : Entry) (r : Source) (b : ChannelBlock) (s : State) : State :=
  if r = (ctxAt s e).source then handOn e en (runLoop en (ctxAt s e).gain b).record s else s

/-- The context under the rule of its state, and the reason of its change, when the block causes no source switch. -/
def ruledCtx (en : Entry) (q : Nat) (r : Source) (good : Bool) (line : Option Line) (c : Ctx) : Ctx × Reason :=
  if (recoverySource en q c).isSome = true then (toAcquire c, .recovery)
  else if r = c.source then (inUseRule en q good line c, .signal)
  else (c, .signal)

theorem finishBlock_eq (e : EntryIx) (en : Entry) (r : Source) (good : Bool) (x : BlockRecord) (c d : Ctx) (s : State)
    (hd : { c with revert := nextRevert en c r good } = d) : finishBlock e en r good x c s =
      match blockSwitch en s.pln.activeSettings.acquire d r good with
      | some (fo, why) => switchSource e fo why d s
      | none =>
        let u := if r = c.source then handOn e en x s else s
        let n := ruledCtx en s.pln.activeSettings.acquire r good (lineAt u e) d
        commitCtx e n.1 n.2 u := by
  have hsrc : d.source = c.source := by rw [← hd]
  simp only [finishBlock, hd, ruledCtx, hsrc, beq_iff_eq]
  cases blockSwitch en s.pln.activeSettings.acquire d r good with
  | some sw => rfl
  | none =>
    by_cases hrec : (recoverySource en s.pln.activeSettings.acquire d).isSome = true
    · simp only [hrec, if_true]
    · simp only [hrec, Bool.false_eq_true, if_false]
      by_cases h : r = c.source <;> simp only [h, if_true, if_false]

/-- The step on a block: a source switch, or the rule of the state with the record handed on. -/
theorem takeBlock_eq {e : EntryIx} {en : Entry} {r : Source} {b : ChannelBlock} {s : State} {c : Ctx}
    (hc : blockCtx en s.pln.activeSettings.acquire r b (ctxAt s e) = c) : takeBlock e en r b s =
      match blockSwitch en s.pln.activeSettings.acquire c r (blockGood en b) with
      | some (fo, why) => switchSource e fo why c s
      | none =>
        let n := ruledCtx en s.pln.activeSettings.acquire r (blockGood en b) (lineAt (blockHanded e en r b s) e) c
        commitCtx e n.1 n.2 (blockHanded e en r b s) := by
  rw [← hc]
  by_cases h : r = (ctxAt s e).source
  · simp only [takeBlock, if_pos h]
    rw [finishBlock_eq (d := blockCtx en s.pln.activeSettings.acquire r b (ctxAt s e)) (hd := ?_)]
    · simp only [blockHanded, recordLoop_core, updateReady_core]
    · cases r <;> simp only [blockCtx, if_pos h] <;> rfl
  · simp only [takeBlock, if_neg h]
    rw [finishBlock_eq (d := blockCtx en s.pln.activeSettings.acquire r b (ctxAt s e)) (hd := ?_)]
    · simp only [blockHanded, updateReady_core, if_neg h]
    · cases r <;> simp only [blockCtx, if_neg h] <;> rfl

/-! ### The record that a line accepts (R84, R85) -/

section
variable (e : EntryIx) (l : Line) (width : Nat) (x : BlockRecord) (d : Dst)

theorem acceptRecord_room (h : d.writes.length < 32) : acceptRecord e l width x d =
    joinWrites ⟨e, lineCell l l.writePos, x, width, 0⟩ (setLine e (some (lineAccept l))
      (removeWrites (fun w => w.entry == e && w.cell == lineCell l l.writePos) d)) := by
  simp only [acceptRecord, if_pos h]

theorem acceptRecord_full (h : ¬d.writes.length < 32) : acceptRecord e l width x d =
    { setGapMark (lineCell l l.writePos) (setLine e (some (lineFill (lineAccept l)))
        (removeWrites (fun w => w.entry == e && w.cell == lineCell l l.writePos) d)) with
      gapCounts := vput d.gapCounts e (min 65535 (vget d.gapCounts e + 1)) } := by
  simp only [acceptRecord, if_neg h]
  rfl

/-- The line as a record leaves it: its fill goes up only when a GAP is entered. -/
def acceptedLine (room : Bool) (l : Line) : Line := if room = true then lineAccept l else lineFill (lineAccept l)

theorem acceptRecord_lines : (acceptRecord e l width x d).lines =
    vput d.lines e (some (acceptedLine (decide (d.writes.length < 32)) l)) := by
  by_cases h : d.writes.length < 32
  · rw [acceptRecord_room _ _ _ _ _ h, joinWrites, (grant_store _).2.2.2.2.2.2.1, decide_eq_true h]
    rfl
  · rw [acceptRecord_full _ _ _ _ _ h, decide_eq_false h]
    rfl

theorem acceptRecord_writes : (acceptRecord e l width x d).writes =
    d.writes.filter (fun w => !(w.entry == e && w.cell == lineCell l l.writePos)) ++
      if d.writes.length < 32 then [⟨e, lineCell l l.writePos, x, width, 0⟩] else [] := by
  by_cases h : d.writes.length < 32
  · rw [acceptRecord_room _ _ _ _ _ h, joinWrites, (grant_store _).2.2.2.2.2.2.2.2, if_pos h]
    rfl
  · rw [acceptRecord_full _ _ _ _ _ h, if_neg h, List.append_nil]
    rfl

theorem acceptRecord_gaps : (d.writes.length < 32 → (acceptRecord e l width x d).gapMarks = d.gapMarks ∧
      (acceptRecord e l width x d).gapCounts = d.gapCounts) ∧
    (¬d.writes.length < 32 → (acceptRecord e l width x d).gapMarks = insertMark (lineCell l l.writePos) d.gapMarks ∧
      (acceptRecord e l width x d).gapCounts = vput d.gapCounts e (min 65535 (vget d.gapCounts e + 1))) := by
  refine ⟨fun h => ?_, fun h => ?_⟩
  · rw [acceptRecord_room _ _ _ _ _ h, joinWrites]
    exact ⟨(grant_store _).2.2.1, (grant_store _).2.2.2.1⟩
  · rw [acceptRecord_full _ _ _ _ _ h]
    exact ⟨rfl, rfl⟩

theorem acceptRecord_pending (h : d.port ≠ .idle) : (acceptRecord e l width x d).refreshPending = d.refreshPending := by
  by_cases hr : d.writes.length < 32
  · rw [acceptRecord_room _ _ _ _ _ hr, joinWrites, grant_busy]
    · rfl
    · simp only [setLine, removeWrites]
      split
      · simp
      · exact h
  · rw [acceptRecord_full _ _ _ _ _ hr]
    rfl

theorem advanced_acceptedLine (room : Bool) : Advanced l (acceptedLine room l) := by
  cases room <;> exact ⟨rfl, rfl, rfl⟩

/-- The first part of O46: a record with room in the write queue, and a GAP without. -/
theorem acceptRecord_accepts : let t := acceptRecord e l width x d
    let cell := lineCell l l.writePos
    let kept := d.writes.filter (fun w => !(w.entry == e && w.cell == cell))
    (∃ m, vget t.lines e = some m ∧ Advanced l m ∧
      (d.writes.length < 32 → m.fill = l.fill ∧ t.writes = kept ++ [⟨e, cell, x, width, 0⟩] ∧
        t.gapMarks = d.gapMarks ∧ t.gapCounts = d.gapCounts) ∧
      (32 ≤ d.writes.length → m.fill = min (16 * l.pages.length) (l.fill + 1) ∧ t.writes = kept ∧
        (∀ a, a ∈ t.gapMarks ↔ a = cell ∨ a ∈ d.gapMarks) ∧
        t.gapCounts = vput d.gapCounts e (min 65535 (vget d.gapCounts e + 1)))) ∧
    (∀ f, f ≠ e → vget t.lines f = vget d.lines f) ∧ t.dram = d.dram ∧ t.reads = d.reads ∧ t.pageMap = d.pageMap := by
  intro t cell kept
  obtain ⟨hpages, hdram, -, -, hreads⟩ := acceptRecord_store e l width x d
  obtain ⟨hroom, hfull⟩ := acceptRecord_gaps e l width x d
  have hlines := acceptRecord_lines e l width x d
  have hwrites := acceptRecord_writes e l width x d
  refine ⟨⟨acceptedLine (decide (d.writes.length < 32)) l, ?_, advanced_acceptedLine _ _, fun h => ?_, fun h => ?_⟩, fun f hf => ?_,
    hdram, hreads, hpages⟩
  · rw [hlines, vget_vput_same]
  · rw [if_pos h] at hwrites
    rw [decide_eq_true h]
    exact ⟨rfl, hwrites, hroom h⟩
  · rw [if_neg h.not_gt, List.append_nil] at hwrites
    rw [decide_eq_false h.not_gt]
    obtain ⟨hmarks, hcounts⟩ := hfull h.not_gt
    exact ⟨rfl, hwrites, fun a => by rw [hmarks, mem_insertMark], hcounts⟩
  · rw [hlines, vget_vput_other _ _ hf]

end

/-! ### What the step never touches -/

/-- The fields of a context that no rule of its state changes. -/
def loopFields (c : Ctx) : (Nat × Nat × Nat) × (Option Int × Option Int × Nat) × (Nat × Bool × Bool) :=
  ((c.readyP, c.readyA, c.badBlocks), (c.lastIn, c.lastOut, c.clips), (c.strikes, c.lowOutput, c.done))

theorem loopFields_eq {c d : Ctx} (h : loopFields d = loopFields c) :
    (d.readyP = c.readyP ∧ d.readyA = c.readyA ∧ d.badBlocks = c.badBlocks) ∧
    (d.lastIn = c.lastIn ∧ d.lastOut = c.lastOut ∧ d.clips = c.clips) ∧
    (d.strikes = c.strikes ∧ d.lowOutput = c.lowOutput ∧ d.done = c.done) := by
  simpa only [loopFields, Prod.mk.injEq] using h

theorem badInRun_loop (en : Entry) (c : Ctx) :
    loopFields (badInRun en c) = loopFields c ∧ (badInRun en c).failovers = c.failovers := by
  simp only [badInRun]
  split
  · exact ⟨rfl, rfl⟩
  · split
    · cases en.expiry <;> exact ⟨rfl, rfl⟩
    · exact ⟨rfl, rfl⟩

theorem inUseRule_loop (en : Entry) (q : Nat) (good : Bool) (line : Option Line) (c : Ctx) :
    loopFields (inUseRule en q good line c) = loopFields c ∧ (inUseRule en q good line c).failovers = c.failovers := by
  have hbad := badInRun_loop en c
  cases hc : c.state with
  | acquire =>
    cases good with
    | true =>
      simp only [inUseRule, hc, if_true]
      split <;> exact ⟨rfl, rfl⟩
    | false => simpa only [inUseRule, hc, Bool.false_eq_true, if_false] using hbad
  | fade =>
    cases good with
    | true => exact ⟨by simp only [inUseRule, hc, if_true]; rfl, by simp only [inUseRule, hc, if_true]⟩
    | false => simpa only [inUseRule, hc, Bool.false_eq_true, if_false] using hbad
  | live =>
    cases good <;> simp only [inUseRule, hc, if_true, Bool.false_eq_true, if_false, and_true] <;> rfl
  | _ => simp only [inUseRule, hc, and_self]

theorem ruledCtx_keeps (en : Entry) (q : Nat) (r : Source) (good : Bool) (line : Option Line) (c : Ctx) :
    loopFields (ruledCtx en q r good line c).1 = loopFields c ∧ (ruledCtx en q r good line c).1.source = c.source ∧
    (ruledCtx en q r good line c).1.gain = c.gain ∧ (ruledCtx en q r good line c).1.shed = c.shed ∧
    (ruledCtx en q r good line c).1.failovers = c.failovers := by
  obtain ⟨hsrc, hgain, hshed⟩ := inUseRule_core en q good line c
  obtain ⟨hloop, hfail⟩ := inUseRule_loop en q good line c
  simp only [ruledCtx]
  split
  · exact ⟨rfl, rfl, rfl, rfl, rfl⟩
  · split
    · exact ⟨hloop, hsrc, hgain, hshed, hfail⟩
    · exact ⟨rfl, rfl, rfl, rfl, rfl⟩

theorem committed_keeps (c n : Ctx) : loopFields (committed c n) = loopFields n ∧ (committed c n).source = n.source ∧
    (committed c n).gain = n.gain ∧ (committed c n).failovers = n.failovers := by
  simp only [committed]
  split <;> exact ⟨rfl, rfl, rfl, rfl⟩

/-! ### The handing on, and what it does not touch -/

section
variable {e : EntryIx} {en : Entry} {r : Source} {b : ChannelBlock} {s : State}

theorem blockHanded_cases (e : EntryIx) (en : Entry) (r : Source) (b : ChannelBlock) (s : State) :
    (blockHanded e en r b s = s ∧ (r = (ctxAt s e).source → en.pages ≠ 0 ∧ lineAt s e = none)) ∨
    (r = (ctxAt s e).source ∧ en.pages = 0 ∧ blockHanded e en r b s =
      setCmb { s.cmb with next := vput s.cmb.next e (some (runLoop en (ctxAt s e).gain b).record) } s) ∨
    (r = (ctxAt s e).source ∧ en.pages ≠ 0 ∧ ∃ l, lineAt s e = some l ∧ blockHanded e en r b s =
      setDst (acceptRecord e l en.width (runLoop en (ctxAt s e).gain b).record s.dst) s) := by
  by_cases h : r = (ctxAt s e).source
  · by_cases hp : en.pages = 0
    · exact .inr (.inl ⟨h, hp, by simp only [blockHanded, handOn, if_pos h, if_pos hp]⟩)
    · cases hl : lineAt s e with
      | none => exact .inl ⟨by simp only [blockHanded, handOn, if_pos h, if_neg hp, hl], fun _ => ⟨hp, rfl⟩⟩
      | some l => exact .inr (.inr ⟨h, hp, l, rfl, by simp only [blockHanded, handOn, if_pos h, if_neg hp, hl]⟩)
  · exact .inl ⟨by simp only [blockHanded, if_neg h], fun hr => absurd hr h⟩

/-- The places of DST and CMB that the handing on of a record touches. -/
structure HandedFrame (e : EntryIx) (s u : State) : Prop where
  lines     : ∀ f, f ≠ e → lineAt u f = lineAt s f
  gapMarks  : ∀ a, (a ∈ s.dst.gapMarks → a ∈ u.dst.gapMarks) ∧
    (a ∈ u.dst.gapMarks → a ∈ s.dst.gapMarks ∨ ∃ l, lineAt s e = some l ∧ a = lineCell l l.writePos)
  gapCounts : ∀ f, f ≠ e → vget u.dst.gapCounts f = vget s.dst.gapCounts f
  writes    : u.dst.writes.filter (fun w => w.entry != e) = s.dst.writes.filter (fun w => w.entry != e)
  reads     : u.dst.reads.filter (fun x => x.entry != e) = s.dst.reads.filter (fun x => x.entry != e)
  pending   : s.dst.port ≠ .idle → u.dst.refreshPending = s.dst.refreshPending
  next      : ∀ f, f ≠ e → vget u.cmb.next f = vget s.cmb.next f
  cmb       : u.cmb.counter = s.cmb.counter ∧ u.cmb.epochs = s.cmb.epochs ∧ u.cmb.late = s.cmb.late ∧
    u.cmb.figures = s.cmb.figures ∧ u.cmb.excess = s.cmb.excess ∧ u.cmb.clips = s.cmb.clips ∧ u.cmb.held = s.cmb.held
  course    : (s.cmb.course = none → u.cmb.course = none) ∧ ∀ o, s.cmb.course = some o → ∃ answers : Vector Answer 16,
    u.cmb.course = some { o with answers := answers } ∧ ∀ f, f ≠ e → vget answers f = vget o.answers f

theorem answersOnly_rest {e : EntryIx} {c d : Cmb} (h : AnswersOnly e c d) :
    (d.counter = c.counter ∧ d.epochs = c.epochs ∧ d.late = c.late ∧ d.figures = c.figures ∧ d.excess = c.excess ∧
      d.clips = c.clips ∧ d.held = c.held) ∧ d.next = c.next := by
  rcases hc : c.course with _ | o
  · rw [h.none hc]
    exact ⟨⟨rfl, rfl, rfl, rfl, rfl, rfl, rfl⟩, rfl⟩
  · obtain ⟨a, ha, -⟩ := h.some o hc
    rw [ha]
    exact ⟨⟨rfl, rfl, rfl, rfl, rfl, rfl, rfl⟩, rfl⟩

theorem answersOnly_course {e : EntryIx} {c d : Cmb} (h : AnswersOnly e c d) : (c.course = none → d.course = none) ∧
    ∀ o, c.course = some o → ∃ answers : Vector Answer 16,
      d.course = some { o with answers := answers } ∧ ∀ f, f ≠ e → vget answers f = vget o.answers f := by
  refine ⟨fun hc => by rw [h.none hc, hc], fun o ho => ?_⟩
  obtain ⟨a, ha, hf⟩ := h.some o ho
  exact ⟨a, by rw [ha], hf⟩

theorem HandedFrame.congr {e : EntryIx} {s s' u u' : State} (h : HandedFrame e s u) (h1 : s'.dst = s.dst) (h2 : s'.cmb = s.cmb)
    (h3 : u'.dst = u.dst) (h4 : u'.cmb = u.cmb) : HandedFrame e s' u' := by
  constructor <;> simp only [lineAt, h1, h2, h3, h4]
  exacts [h.lines, h.gapMarks, h.gapCounts, h.writes, h.reads, h.pending, h.next, h.cmb, h.course]

theorem HandedFrame.refl (e : EntryIx) (s : State) : HandedFrame e s s where
  lines _ _ := rfl
  gapMarks _ := ⟨id, .inl⟩
  gapCounts _ _ := rfl
  writes := rfl
  reads := rfl
  pending _ := rfl
  next _ _ := rfl
  cmb := (answersOnly_rest (.refl e s.cmb)).1
  course := answersOnly_course (.refl e s.cmb)

theorem HandedFrame.flush (e : EntryIx) (s : State) : HandedFrame e s (voidRead e (flushLine e s)) := by
  have hanswers := (AnswersOnly.flushLine e s).trans (.voidRead e (flushLine e s))
  have hdst : (voidRead e (flushLine e s)).dst = (flushLine e s).dst := by simp
  obtain ⟨-, -, hmarks, hcounts, -, -, hpending⟩ := flushLine_dst e s
  refine ⟨fun f hf => ?_, fun a => ?_, fun f _ => by rw [hdst, hcounts], ?_, ?_, fun _ => by rw [hdst, hpending],
    fun f _ => by rw [(answersOnly_rest hanswers).2], (answersOnly_rest hanswers).1, answersOnly_course hanswers⟩
  · rw [lineAt, hdst]
    exact (lineAt_flushLine e s f).trans (if_neg hf)
  · rw [hdst, hmarks]
    exact ⟨id, .inl⟩
  all_goals
    rw [hdst]
    by_cases hl : lineAt s e = none
    · rw [flushLine_none hl]
  · rw [(flushLine_queues hl).1, List.filter_filter]
    simp
  · rw [(flushLine_queues hl).2, List.filter_filter]
    simp

/-- The writes that a record handed on removes or adds are of its own entry. -/
theorem acceptRecord_otherWrites (e : EntryIx) (l : Line) (width : Nat) (x : BlockRecord) (d : Dst) :
    (acceptRecord e l width x d).writes.filter (fun w => w.entry != e) = d.writes.filter (fun w => w.entry != e) := by
  have hnew : (if d.writes.length < 32 then [(⟨e, lineCell l l.writePos, x, width, 0⟩ : WriteReq)] else []).filter
      (fun w => w.entry != e) = [] := by split <;> simp
  rw [acceptRecord_writes, List.filter_append, hnew, List.append_nil, List.filter_filter]
  refine List.filter_congr fun w _ => ?_
  by_cases hw : w.entry = e <;> simp [hw]

theorem HandedFrame.accept {e : EntryIx} {s : State} {l : Line} (hl : lineAt s e = some l) (width : Nat) (x : BlockRecord) :
    HandedFrame e s (setDst (acceptRecord e l width x s.dst) s) := by
  have hgaps := acceptRecord_gaps e l width x s.dst
  refine ⟨fun f hf => ?_, fun a => ?_, fun f hf => ?_, acceptRecord_otherWrites e l width x s.dst, ?_,
    acceptRecord_pending e l width x s.dst, fun _ _ => rfl, (answersOnly_rest (.refl e s.cmb)).1, answersOnly_course (.refl e s.cmb)⟩
  · change vget (acceptRecord e l width x s.dst).lines f = vget s.dst.lines f
    rw [acceptRecord_lines, vget_vput_other _ _ hf]
  · by_cases h : s.dst.writes.length < 32
    · rw [setDst_dst, (hgaps.1 h).1]
      exact ⟨id, .inl⟩
    · rw [setDst_dst, (hgaps.2 h).1, mem_insertMark]
      exact ⟨.inr, fun ha => ha.elim (fun ha => .inr ⟨l, hl, ha⟩) .inl⟩
  · by_cases h : s.dst.writes.length < 32
    · rw [setDst_dst, (hgaps.1 h).2]
    · rw [setDst_dst, (hgaps.2 h).2, vget_vput_other _ _ hf]
  · rw [setDst_dst, (acceptRecord_store e l width x s.dst).2.2.2.2]

theorem HandedFrame.blockHanded (e : EntryIx) (en : Entry) (r : Source) (b : ChannelBlock) (s : State) :
    HandedFrame e s (blockHanded e en r b s) := by
  rcases blockHanded_cases e en r b s with ⟨h, -⟩ | ⟨-, -, h⟩ | ⟨-, -, l, hl, h⟩ <;> rw [h]
  · exact .refl e s
  · have h := HandedFrame.refl e s
    exact ⟨h.lines, h.gapMarks, h.gapCounts, h.writes, h.reads, h.pending, fun f hf => vget_vput_other _ _ hf, h.cmb, h.course⟩
  · exact .accept hl _ _

end

/-! ### The outcome of a block taken -/

section
variable {e : EntryIx} {r : Source} {s : State} {before after : List Waiting} {w : Waiting} {en : Entry}

/-- A block taken that makes a source switch. -/
structure TakenSwitch (e : EntryIx) (en : Entry) (r : Source) (b : ChannelBlock) (s t : State) (fo : Bool) (why : Reason) : Prop where
  cause  : blockSwitch en s.pln.activeSettings.acquire (blockCtx en s.pln.activeSettings.acquire r b (ctxAt s e)) r
    (blockGood en b) = some (fo, why)
  switch : SwitchedOver e (fo = true) why s t
  ctx    : ctxAt t e = { switched fo (blockCtx en s.pln.activeSettings.acquire r b (ctxAt s e)) with
    shed := (ctxAt s e).shed && !isContributor (ctxAt s e).state }
  next   : t.cmb.next = s.cmb.next

/-- A block taken that makes none: the record handed on when it is of the source in use, and the context committed by the rule of
its state, on the line as the handing on leaves it. -/
structure TakenStay (e : EntryIx) (en : Entry) (r : Source) (b : ChannelBlock) (s t : State) : Prop where
  cause  : blockSwitch en s.pln.activeSettings.acquire (blockCtx en s.pln.activeSettings.acquire r b (ctxAt s e)) r
    (blockGood en b) = none
  ctx    : ctxAt t e = committed (ctxAt s e) (ruledCtx en s.pln.activeSettings.acquire r (blockGood en b) (lineAt t e)
    (blockCtx en s.pln.activeSettings.acquire r b (ctxAt s e))).1
  notice : reportChanged (ctxAt s e) (ruledCtx en s.pln.activeSettings.acquire r (blockGood en b) (lineAt t e)
    (blockCtx en s.pln.activeSettings.acquire r b (ctxAt s e))).1 = true →
    Notified e (ruledCtx en s.pln.activeSettings.acquire r (blockGood en b) (lineAt t e)
      (blockCtx en s.pln.activeSettings.acquire r b (ctxAt s e))).2 t
  next   : r = (ctxAt s e).source → en.pages = 0 → vget t.cmb.next e = some (runLoop en (ctxAt s e).gain b).record
  line   : ∀ l, r = (ctxAt s e).source → en.pages ≠ 0 → lineAt s e = some l →
    t.dst = acceptRecord e l en.width (runLoop en (ctxAt s e).gain b).record s.dst

theorem notified_commitCtx {n : Ctx} {why : Reason} {u : State} (h : reportChanged (ctxAt u e) n = true) :
    Notified e why (commitCtx e n why u) := by
  rw [Notified, commitCtx_eq_changeCtx, ctxAt_changeCtx, if_pos rfl, notices_changeCtx, if_pos h]
  exact postNotice_mem _ _

theorem ctxAt_blockHanded (b : ChannelBlock) (f : EntryIx) : ctxAt (blockHanded e en r b s) f = ctxAt s f := by
  rcases blockHanded_cases e en r b s with ⟨h, -⟩ | ⟨-, -, h⟩ | ⟨-, -, l, -, h⟩ <;> rw [h]
  · rfl
  · rfl

theorem takenStay {b : ChannelBlock} (h : blockSwitch en s.pln.activeSettings.acquire
      (blockCtx en s.pln.activeSettings.acquire r b (ctxAt s e)) r (blockGood en b) = none) :
    TakenStay e en r b s (takeBlock e en r b s) := by
  have htake := takeBlock_eq (e := e) (en := en) (r := r) (b := b) (s := s) rfl
  rw [h] at htake
  dsimp only at htake
  have hfr := commitCtx_frame e (ruledCtx en s.pln.activeSettings.acquire r (blockGood en b)
      (lineAt (blockHanded e en r b s) e) (blockCtx en s.pln.activeSettings.acquire r b (ctxAt s e))).1
    (ruledCtx en s.pln.activeSettings.acquire r (blockGood en b)
      (lineAt (blockHanded e en r b s) e) (blockCtx en s.pln.activeSettings.acquire r b (ctxAt s e))).2
    (blockHanded e en r b s)
  rw [← htake] at hfr
  obtain ⟨-, -, -, -, -, -, hdst, hcmb, -, -, -, -, hline⟩ := hfr
  refine ⟨h, ?_, fun hrep => ?_, fun hr hp => ?_, fun l hr hp hl => ?_⟩
  · rw [hline, htake, ctxAt_commitCtx, if_pos rfl, ctxAt_blockHanded]
  · rw [hline] at hrep ⊢
    rw [htake]
    exact notified_commitCtx (by rwa [ctxAt_blockHanded])
  · rcases blockHanded_cases e en r b s with ⟨hu, hno⟩ | ⟨-, -, hu⟩ | ⟨-, hq, -⟩
    · exact absurd hp (hno hr).1
    · rw [hcmb, hu]
      exact vget_vput_same _ _ _
    · exact absurd hp hq
  · rcases blockHanded_cases e en r b s with ⟨hu, hno⟩ | ⟨-, hq, -⟩ | ⟨-, -, m, hm, hu⟩
    · exact nomatch hl.symm.trans (hno hr).2
    · exact absurd hq hp
    · cases hl.symm.trans hm
      rw [hdst, hu, setDst_dst]

theorem takenSwitch {b : ChannelBlock} {fo : Bool} {why : Reason} (h : blockSwitch en s.pln.activeSettings.acquire
      (blockCtx en s.pln.activeSettings.acquire r b (ctxAt s e)) r (blockGood en b) = some (fo, why)) :
    TakenSwitch e en r b s (takeBlock e en r b s) fo why := by
  have htake := takeBlock_eq (e := e) (en := en) (r := r) (b := b) (s := s) rfl
  rw [h] at htake
  dsimp only at htake
  obtain ⟨-, hsrc, -, -, hfail, hshed, -⟩ := blockCtx_core en s.pln.activeSettings.acquire r b (ctxAt s e)
  rw [htake]
  exact ⟨h, switchedOver_switchSource hsrc hfail Iff.rfl, by rw [ctxAt_switchSource_same, hshed],
    (answersOnly_rest answersOnly_switchSource).2⟩

/-- The places of DST and CMB that a block taken touches, whether it switches the source or not. -/
theorem handedFrame_takeBlock (e : EntryIx) (en : Entry) (r : Source) (b : ChannelBlock) (s : State) :
    HandedFrame e s (takeBlock e en r b s) := by
  rw [takeBlock_eq rfl]
  split
  · exact (HandedFrame.flush e _).congr (by simp) (by simp) rfl rfl
  · exact (HandedFrame.blockHanded e en r b s).congr rfl rfl (by simp) (by simp)

theorem ctxAt_takeBlock_other {b : ChannelBlock} {f : EntryIx} (h : f ≠ e) : ctxAt (takeBlock e en r b s) f = ctxAt s f := by
  rw [takeBlock_eq rfl]
  split
  · exact ctxAt_switchSource_other h
  · rw [ctxAt_commitCtx, if_neg h, ctxAt_blockHanded]

theorem takeBlock_mon (b : ChannelBlock) : (takeBlock e en r b s).mon =
    if isContributor (ctxAt (takeBlock e en r b s) e).state = true then s.mon else (dwellLeft e s).mon := by
  simp only [takeBlock]
  split
  · exact finishBlock_mon ..
  · exact finishBlock_mon ..

theorem takeBlock_notices (b : ChannelBlock) : (takeBlock e en r b s).svc.notices = s.svc.notices ∨ ∃ why,
    (takeBlock e en r b s).svc.notices = postNotice (channelContent e (ctxAt (takeBlock e en r b s) e) why) s.svc.notices := by
  have key (n : Ctx) (why : Reason) (u : State) : (commitCtx e n why u).svc.notices = u.svc.notices ∨
      (commitCtx e n why u).svc.notices =
        postNotice (channelContent e (ctxAt (commitCtx e n why u) e) why) u.svc.notices := by
    rw [commitCtx_eq_changeCtx, ctxAt_changeCtx, if_pos rfl, notices_changeCtx]
    split
    · exact .inr rfl
    · exact .inl rfl
  rw [takeBlock_eq rfl]
  split
  · next fo why hsw =>
    rw [(switchSource_frame ..).2.2.2.2.2.2.2.2.2.1, (switchSource_frame ..).2.2.2.2.2.2.2.2.2.2.2]
    exact (key _ _ s).imp id fun h => ⟨_, h⟩
  · have hsvc : (blockHanded e en r b s).svc = s.svc := by
      rcases blockHanded_cases e en r b s with ⟨h, -⟩ | ⟨-, -, h⟩ | ⟨-, -, l, -, h⟩ <;> rw [h] <;> rfl
    exact hsvc ▸ (key _ _ (blockHanded e en r b s)).imp id fun h => ⟨_, h⟩

theorem dwellLeft_blockLeft : (dwellLeft e (blockLeft before after s)).mon = (dwellLeft e s).mon := dwellLeft_congr e rfl rfl

theorem switchedOver_of_blockLeft {P : Prop} {why : Reason} {t : State} (h : SwitchedOver e P why (blockLeft before after s) t) :
    SwitchedOver e P why s t := by
  obtain ⟨h1, h2, h3, h4, h5, h6, h7, h8, h9, h10, h11, h12⟩ := h
  exact ⟨h1, h2, h3, h4, h5, h6, h7, h8, h9, h10, h11.trans dwellLeft_blockLeft, h12⟩

/-- The frame of a block taken, block by block of the part. -/
theorem blockFrame_takeBlock (b : ChannelBlock) :
    BlockFrame e s before after (takeBlock e en r b (blockLeft before after s)) := by
  obtain ⟨hlines, hmarks, hcounts, hwrites, hreads, hpending, hnext, hcmb, hcourse⟩ :=
    handedFrame_takeBlock e en r b (blockLeft before after s)
  obtain ⟨hpend, hreset, hA, hB, hext, hpln, htxs, hfree, -, -⟩ := takeBlock_frame e en r b (blockLeft before after s)
  obtain ⟨hpages, hdram, hover, hperiod⟩ := takeBlock_dst e en r b (blockLeft before after s)
  exact
    { ext := hext, contexts := fun f hf => ctxAt_takeBlock_other hf, lines := hlines, plan := hpln, txs := htxs, ports := ⟨hA, hB⟩
      requests := takeBlock_svc e en r b (blockLeft before after s), notices := takeBlock_notices b, memory := ⟨hdram, hpages⟩
      gapMarks := hmarks, gapCounts := hcounts, writes := hwrites, reads := hreads, refresh := ⟨hperiod, hover, hpending⟩
      counts := ⟨hcmb.1, hcmb.2.1, hcmb.2.2.1, hcmb.2.2.2.1, hcmb.2.2.2.2.1, hcmb.2.2.2.2.2.1⟩
      records := ⟨hcmb.2.2.2.2.2.2, hnext⟩, course := hcourse, monitor := (takeBlock_mon b).trans (by rw [dwellLeft_blockLeft]; rfl)
      model := ⟨hpend, hreset, hfree⟩ }

/-- The command on a block that is taken: the frame, and one of the two ways in which the step ends. -/
theorem takes_cases (h : Takes e r s before w after en) : ∃ t, exec (.channelBlock e r) s = .next t ∧
    BlockFrame e s before after t ∧
    ((∃ fo why, TakenSwitch e en r w.block s t fo why) ∨ TakenStay e en r w.block s t) := by
  refine ⟨_, exec_takes h, blockFrame_takeBlock w.block, ?_⟩
  cases hsw : blockSwitch en s.pln.activeSettings.acquire (blockCtx en s.pln.activeSettings.acquire r w.block (ctxAt s e)) r
      (blockGood en w.block) with
  | none =>
    obtain ⟨h1, h2, h3, h4, h5⟩ := takenStay (s := blockLeft before after s) hsw
    exact .inr ⟨h1, h2, h3, h4, h5⟩
  | some sw =>
    obtain ⟨h1, h2, h3, h4⟩ := takenSwitch (s := blockLeft before after s) (fo := sw.1) (why := sw.2) hsw
    exact .inl ⟨sw.1, sw.2, h1, switchedOver_of_blockLeft h2, h3, h4⟩

/-! ### What both ways have in common -/

section
variable {b : ChannelBlock} {t : State} {fo : Bool} {why : Reason}

theorem TakenSwitch.source (h : TakenSwitch e en r b s t fo why) : (ctxAt t e).source ≠ (ctxAt s e).source := by
  rw [h.switch.1]
  exact Source.other_ne _

theorem TakenStay.keeps (h : TakenStay e en r b s t) : (ctxAt t e).source = (ctxAt s e).source ∧
    (ctxAt t e).gain = (blockCtx en s.pln.activeSettings.acquire r b (ctxAt s e)).gain ∧
    (ctxAt t e).failovers = (ctxAt s e).failovers := by
  obtain ⟨-, hsrc, -, -, hfail, -⟩ := blockCtx_core en s.pln.activeSettings.acquire r b (ctxAt s e)
  obtain ⟨-, hn1, hn2, -, hn3⟩ := ruledCtx_keeps en s.pln.activeSettings.acquire r (blockGood en b) (lineAt t e)
    (blockCtx en s.pln.activeSettings.acquire r b (ctxAt s e))
  obtain ⟨-, hc1, hc2, hc3⟩ := committed_keeps (ctxAt s e) (ruledCtx en s.pln.activeSettings.acquire r (blockGood en b) (lineAt t e)
    (blockCtx en s.pln.activeSettings.acquire r b (ctxAt s e))).1
  rw [h.ctx]
  exact ⟨hc1.trans (hn1.trans hsrc), hc2.trans hn2, hc3.trans (hn3.trans hfail)⟩

/-- Whatever comes of the state, the counters and levels are those that the steps before its rule have left. -/
theorem taken_loop (h : (∃ fo why, TakenSwitch e en r b s t fo why) ∨ TakenStay e en r b s t) :
    loopFields (ctxAt t e) = loopFields (blockCtx en s.pln.activeSettings.acquire r b (ctxAt s e)) := by
  rcases h with ⟨fo, why, h⟩ | h
  · rw [h.ctx]
    rfl
  · rw [h.ctx, (committed_keeps ..).1, (ruledCtx_keeps ..).1]

theorem stepped_taken (h : (∃ fo why, TakenSwitch e en r b s t fo why) ∨ TakenStay e en r b s t) :
    Stepped s.pln.activeSettings.acquire r (GoodBlock en b) (ctxAt s e) (ctxAt t e) := by
  obtain ⟨⟨hP, hA, -⟩, -, -⟩ := loopFields_eq (taken_loop h)
  have hstep := blockCtx_stepped en s.pln.activeSettings.acquire r b (ctxAt s e)
  rw [Stepped] at hstep ⊢
  rwa [hP, hA]

end

/-- Settles O36: readiness and the bad block counter are stepped before the rule of the state, which leaves them. -/
theorem blockReadiness : Obligations.BlockReadiness := by
  intro e r s before w after en h
  obtain ⟨t, ht, hframe, hout⟩ := takes_cases h
  obtain ⟨⟨-, -, hbad⟩, -, hstrikes, hlow, hdone⟩ := loopFields_eq (taken_loop hout)
  obtain ⟨-, -, -, -, -, -, hs, hl, hd⟩ := blockCtx_core en s.pln.activeSettings.acquire r w.block (ctxAt s e)
  refine ⟨t, ht, hframe, stepped_taken hout, fun hr hb => ?_, fun hr => ?_, hstrikes.trans hs, hlow.trans hl, hdone.trans hd⟩
  · rw [hbad, (blockCtx_inUse _ _ _ _ _ hr).2.1, if_neg (mt (blockGood_iff en w.block).1 hb)]
  · rw [hbad]
    by_cases hsrc : r = (ctxAt s e).source
    · rw [(blockCtx_inUse _ _ _ _ _ hsrc).2.1, if_pos ((blockGood_iff en w.block).2 (hr.resolve_left (not_not_intro hsrc)))]
    · exact (blockCtx_other _ _ _ _ _ hsrc).2

end

end Sys2Proof.Machine
end

section
/-! SUPPORT. The level loop of a block of the source in use (chapter 4), and the claims about the gain, the levels and the record:
GainEvaluation, BlockLevels and RecordAccepted. -/

namespace Sys2Proof.Machine

open Sys2Proof.Safety

/-! ### One step of the gain (R71 to R76) -/

theorem gainStep_is (delta : Int) {divisor : Nat} (h : 0 < divisor) : StepIs delta divisor (gainStep delta divisor) := by
  have habs : (Int.tdiv delta divisor).natAbs = delta.natAbs / divisor := Int.natAbs_tdiv delta divisor
  constructor
  · intro hle
    have hpos : 0 < delta.natAbs / divisor := Nat.div_pos hle h
    have hq : Int.tdiv delta divisor ≠ 0 := by omega
    have hdown (hd : delta ≤ 0) : Int.tdiv delta divisor ≤ 0 := by
      have := Int.tdiv_nonneg (neg_nonneg.2 hd) (Int.natCast_nonneg divisor)
      rw [Int.neg_tdiv] at this
      omega
    have hup (hd : 0 < delta) := Int.tdiv_nonneg hd.le (Int.natCast_nonneg divisor)
    simp only [gainStep, if_pos hq]
    exact ⟨habs, by omega⟩
  · intro hlt
    have hq : Int.tdiv delta divisor = 0 := by
      have : delta.natAbs / divisor = 0 := Nat.div_eq_of_lt hlt
      omega
    simp only [gainStep, hq, ne_eq, not_true_eq_false, if_false]
    rcases lt_trichotomy delta 0 with hd | hd | hd
    · rw [if_neg hd.le.not_gt, if_pos hd, Int.sign_eq_neg_one_of_neg hd]
    · simp [hd]
    · rw [if_pos hd, Int.sign_eq_one_of_pos hd]

/-- A step never goes past the difference. -/
theorem stepIs_bounds {delta step : Int} {divisor : Nat} (h : StepIs delta divisor step) :
    (0 ≤ delta → 0 ≤ step ∧ step ≤ delta) ∧ (delta ≤ 0 → delta ≤ step ∧ step ≤ 0) := by
  obtain ⟨hlong, hshort⟩ := h
  by_cases hd : divisor ≤ delta.natAbs
  · obtain ⟨habs, hsign⟩ := hlong hd
    have := Nat.div_le_self delta.natAbs divisor
    omega
  · have hs := hshort (not_le.1 hd)
    rcases lt_trichotomy delta 0 with h0 | h0 | h0
    · rw [Int.sign_eq_neg_one_of_neg h0] at hs
      omega
    · rw [h0, Int.sign_zero] at hs
      omega
    · rw [Int.sign_eq_one_of_pos h0] at hs
      omega

theorem evalGain_after (en : Entry) (old : Option Int) (l : Int) : GainAfter en l old (evalGain en old l) := by
  refine ⟨?_, ?_⟩
  · rintro rfl
    rfl
  · rintro g rfl hlo hhi
    have hdesired : desiredGain en.target l = max (-200) (min 600 (en.target - l)) := rfl
    have hdiv : (if desiredGain en.target l - g < 0 then 2 ^ en.attack else 2 ^ en.decay) =
        if desiredGain en.target l < g then 2 ^ en.attack else 2 ^ en.decay := if_congr sub_neg rfl rfl
    have hstep := gainStep_is (desiredGain en.target l - g)
      (divisor := if desiredGain en.target l < g then 2 ^ en.attack else 2 ^ en.decay) (by split <;> positivity)
    have hbounds := stepIs_bounds hstep
    refine ⟨_, ?_, hstep⟩
    simp only [evalGain, clampInt, hdiv]
    generalize gainStep _ _ = step at hbounds ⊢
    generalize desiredGain en.target l = d at hbounds hdesired
    omega

/-! ### What the loop makes of a block (Table 4-6) -/

section
variable {en : Entry} {g : Option Int} {b : ChannelBlock} {l : Int}

theorem runLoop_good (hq : b.quality = .good) (hl : b.level = some l) (h : en.loss ≤ l) :
    runLoop en g b = scaleBlock (evalGain en g l) l b.samples := by
  have hgood : blockGood en b = true := (blockGood_iff en b).2 ⟨hq, l, hl, h⟩
  simp only [runLoop, hq, hl, hgood, if_true]

theorem runLoop_low (hq : b.quality = .good) (hl : b.level = some l) (h : l < en.loss) :
    (∀ x, runLoop en (some x) b = scaleBlock x l b.samples) ∧
    runLoop en none b = ⟨none, ⟨silence b.samples.length, none, .data⟩, false⟩ := by
  have hbad : ¬blockGood en b = true := fun hg => by
    obtain ⟨-, m, hm, hle⟩ := (blockGood_iff en b).1 hg
    cases hl.symm.trans hm
    omega
  constructor <;> simp only [runLoop, hq, hl, if_neg hbad, implies_true]

theorem runLoop_silent (h : b.quality = .good → b.level = none) :
    runLoop en g b = ⟨g, ⟨silence b.samples.length, none, .data⟩, false⟩ := by
  rw [runLoop]
  split
  · next hq hl => exact nomatch (h hq).symm.trans hl
  · rfl

/-- A block has a level, or the loop hands on silence. -/
theorem level_cases (b : ChannelBlock) :
    (b.quality = .good ∧ ∃ l, b.level = some l) ∨ (b.quality = .good → b.level = none) := by
  cases hl : b.level with
  | none => exact .inr fun _ => rfl
  | some l =>
    by_cases hq : b.quality = .good
    · exact .inl ⟨hq, l, rfl⟩
    · exact .inr fun h => absurd h hq

theorem scaleBlock_gain (g l : Int) (x : List Sample) : (scaleBlock g l x).gain = some g := by
  rw [scaleBlock]
  split <;> rfl

theorem recordOf_scaleBlock (hq : b.quality = .good) (hl : b.level = some l) (x : Int) :
    RecordOf b (some x) (scaleBlock x l b.samples).record := by
  refine ⟨?_, ?_, fun _ h => (nomatch h), fun h => absurd hq h⟩
  · rintro m y - hm hy h
    cases hl.symm.trans hm
    cases hy
    rw [scaleBlock, if_neg h.not_gt]
  · rintro m y - hm hy h
    cases hl.symm.trans hm
    cases hy
    rw [scaleBlock, if_pos h]

theorem recordOf_silence (h : b.quality = .good → b.level = none ∨ g = none) :
    RecordOf b g ⟨silence b.samples.length, none, .data⟩ := by
  refine ⟨fun l x hq hl hg _ => ?_, fun l x hq hl hg _ => ?_, fun _ _ => rfl, fun _ => rfl⟩
  · rcases h hq with h | h
    · exact nomatch h.symm.trans hl
    · exact nomatch h.symm.trans hg
  · rcases h hq with h | h
    · exact nomatch h.symm.trans hl
    · exact nomatch h.symm.trans hg

theorem runLoop_record (en : Entry) (g : Option Int) (b : ChannelBlock) :
    RecordOf b (runLoop en g b).gain (runLoop en g b).record ∧ (runLoop en g b).record.kind = .data ∧
    (runLoop en g b).record.samples.length = b.samples.length := by
  have hscale (x l : Int) : (scaleBlock x l b.samples).record.kind = .data ∧
      (scaleBlock x l b.samples).record.samples.length = b.samples.length := by
    rw [scaleBlock]
    split <;> exact ⟨rfl, by simp [scaleSamples]⟩
  rcases level_cases b with ⟨hq, l, hl⟩ | h
  · rcases le_or_gt en.loss l with hle | hlt
    · rw [runLoop_good hq hl hle, scaleBlock_gain]
      exact ⟨recordOf_scaleBlock hq hl _, hscale _ _⟩
    · cases g with
      | some x =>
        rw [(runLoop_low hq hl hlt).1, scaleBlock_gain]
        exact ⟨recordOf_scaleBlock hq hl x, hscale _ _⟩
      | none =>
        rw [(runLoop_low hq hl hlt).2]
        exact ⟨recordOf_silence fun _ => .inr rfl, rfl, by simp [silence]⟩
  · rw [runLoop_silent h]
    exact ⟨recordOf_silence fun hq => .inl (h hq), rfl, by simp [silence]⟩

end

/-! ### What is left of it in the context -/

/-- The levels and clips of a context whose loop was `x`. -/
def LoopLeft (x : LoopResult) (c d : Ctx) : Prop :=
  d.lastOut = x.record.lout ∧ d.clips = if x.clip = true then min 65535 (c.clips + 1) else c.clips

theorem LoopLeft.scaled {g l : Int} {x : List Sample} {c d : Ctx} (h : LoopLeft (scaleBlock g l x) c d) : LevelsAre l g c d := by
  rw [LoopLeft, scaleBlock] at h
  refine ⟨fun hle => ?_, fun hlt => ?_⟩
  · rwa [if_neg hle.not_gt] at h
  · rwa [if_pos hlt] at h

section
variable {e : EntryIx} {en : Entry} {b : ChannelBlock} {s t : State}

theorem taken_levels (h : (∃ fo why, TakenSwitch e en (ctxAt s e).source b s t fo why) ∨ TakenStay e en (ctxAt s e).source b s t) :
    LoopLeft (runLoop en (ctxAt s e).gain b) (ctxAt s e) (ctxAt t e) ∧
    (ctxAt t e).lastIn = if b.quality = .good then b.level else none := by
  obtain ⟨-, ⟨hin, hout, hclips⟩, -⟩ := loopFields_eq (taken_loop h)
  obtain ⟨-, -, hc, hi, ho⟩ := blockCtx_inUse en s.pln.activeSettings.acquire _ b (ctxAt s e) rfl
  exact ⟨⟨hout.trans ho, hclips.trans hc⟩, hin.trans hi⟩

theorem TakenStay.gain (h : TakenStay e en (ctxAt s e).source b s t) :
    (ctxAt t e).gain = (runLoop en (ctxAt s e).gain b).gain :=
  h.keeps.2.1.trans (blockCtx_inUse _ _ _ _ _ rfl).1

end

/-! ### The claims -/

/-- Settles O37: the loop is run on the blocks of the source in use alone, and only a source switch forgets the gain. -/
theorem gainEvaluation : Obligations.GainEvaluation := by
  intro e r s before w after en h
  obtain ⟨t, ht, -, hout⟩ := takes_cases h
  refine ⟨t, ht, fun hsrc => ?_, fun hsrc => ?_⟩
  · rcases hout with ⟨fo, why, hsw⟩ | hstay
    · exact hsw.switch.2.2.2.2.2.1
    · exact absurd hstay.keeps.1 hsrc
  · have hstay := hout.resolve_left fun ⟨_, _, hsw⟩ => hsw.source hsrc
    obtain ⟨-, hgain, -⟩ := hstay.keeps
    refine ⟨fun hheld => ?_, fun l hr hq hl hle => ?_⟩
    · rw [hgain]
      by_cases hr : r = (ctxAt s e).source
      · rw [(blockCtx_inUse _ _ _ _ _ hr).1]
        have hbad := hheld.resolve_left (not_not_intro hr)
        rcases level_cases w.block with ⟨hq, l, hl⟩ | hnone
        · have hlow := runLoop_low hq hl (not_le.1 fun hle => hbad ⟨hq, l, hl, hle⟩)
          cases (ctxAt s e).gain with
          | none => rw [hlow.2]
          | some g => rw [hlow.1, scaleBlock_gain]
        · rw [runLoop_silent hnone]
      · exact (blockCtx_other _ _ _ _ _ hr).1
    · refine ⟨_, ?_, evalGain_after en (ctxAt s e).gain l⟩
      rw [hgain, (blockCtx_inUse _ _ _ _ _ hr).1, runLoop_good hq hl hle, scaleBlock_gain]

/-- Settles O38: by the rows of Table 4-6, the record from the loop's own. -/
theorem blockLevels : Obligations.BlockLevels := by
  intro e s before w after en h
  obtain ⟨t, ht, -, hout⟩ := takes_cases h
  obtain ⟨hlevels, hin⟩ := taken_levels hout
  have hgood {l : Int} (hq : w.block.quality = .good) (hl : w.block.level = some l) (hle : en.loss ≤ l) :=
    (runLoop_good (g := (ctxAt s e).gain) hq hl hle ▸ hlevels).scaled
  have hlow {l g : Int} (hq : w.block.quality = .good) (hl : w.block.level = some l) (hlt : l < en.loss)
      (hg : (ctxAt s e).gain = some g) : LevelsAre l g (ctxAt s e) (ctxAt t e) := by
    rw [hg, (runLoop_low hq hl hlt).1] at hlevels
    exact hlevels.scaled
  refine ⟨t, ht, fun hq => ?_, fun l hq hl => ?_, fun l hq hl hg hlt => ?_, fun l g hq hl hlt hg => hlow hq hl hlt hg,
    fun l hq hl hle => ⟨_, evalGain_after en (ctxAt s e).gain l, hgood hq hl hle⟩, fun hsrc => ?_, fun hsrc => ?_⟩
  · rw [runLoop_silent fun h => absurd h hq] at hlevels
    exact ⟨by rw [hin, if_neg hq], hlevels⟩
  · rw [hin, if_pos hq, hl]
  · rw [hg, (runLoop_low hq hl hlt).2] at hlevels
    exact hlevels
  · have hstay := hout.resolve_left fun ⟨_, _, hsw⟩ => hsw.source hsrc
    refine ⟨fun l g hq hl hg => ?_, _, hstay.gain ▸ (runLoop_record en (ctxAt s e).gain w.block).1, hstay.next rfl,
      fun l hp hl => hstay.line l rfl hp.ne' hl⟩
    rw [hstay.gain] at hg
    rcases le_or_gt en.loss l with hle | hlt
    · rw [runLoop_good hq hl hle, scaleBlock_gain] at hg
      cases hg
      exact hgood hq hl hle
    · have hlow' := runLoop_low hq hl hlt
      cases hc : (ctxAt s e).gain with
      | none =>
        rw [hc, hlow'.2] at hg
        cases hg
      | some x =>
        rw [hc, hlow'.1] at hg
        cases (scaleBlock_gain ..).symm.trans hg
        exact hlow hq hl hlt hc
  · obtain ⟨fo, why, hsw⟩ := hout.resolve_right fun hstay => hsrc hstay.keeps.1
    exact hsw.next

/-- Settles O46: the record that the loop has made joins the write queue or becomes a GAP. -/
theorem recordAccepted : Obligations.RecordAccepted := by
  refine ⟨acceptRecord_accepts, fun e s before w after en l h hp hl => ?_⟩
  obtain ⟨t, ht, -, hout⟩ := takes_cases h
  refine ⟨t, ht, fun hsrc => ?_, fun hsrc => ?_⟩
  · have hstay := hout.resolve_left fun ⟨_, _, hsw⟩ => hsw.source hsrc
    obtain ⟨hrecord, hkind, hlength⟩ := runLoop_record en (ctxAt s e).gain w.block
    exact ⟨_, hstay.line l rfl hp.ne' hl, hstay.gain ▸ hrecord, (taken_levels hout).1.1.symm, hkind, hlength⟩
  · obtain ⟨fo, why, hsw⟩ := hout.resolve_right fun hstay => hsrc hstay.keeps.1
    exact hsw.switch.2.2.2.2.2.2.2.2.1

end Sys2Proof.Machine
end

section
/-! SUPPORT. What a block brings in each state of a context: LIVE and FADE, the expiry, acquisition, recovery and revert. -/

namespace Sys2Proof.Machine

open Sys2Proof.Safety

/-! ### The causes of a source switch -/

section
variable {en : Entry} {q : Nat} {c : Ctx} {r : Source} {good : Bool}

theorem isExpiry_iff : isExpiry en c good = true ↔ good = false ∧ c.expired = false ∧ bridgeTime en.bridgeCode ≤ c.loss + 1 ∧
    (c.state = .acquire ∨ c.state = .fade) := by
  change _ ↔ good = false ∧ c.expired = false ∧ entryBridge en ≤ c.loss + 1 ∧ (c.state = .acquire ∨ c.state = .fade)
  cases hs : c.state <;> simp [isExpiry, hs, and_assoc]

theorem failoverActs_iff : failoverActs en = true ↔ en.expiry = .failover ∧ en.alternate ≠ none := by
  simp [failoverActs, Option.ne_none_iff_isSome]

theorem revertActs_iff : revertActs en = true ↔ (en.expiry = .failover ∧ en.alternate ≠ none) ∧ en.revert = true := by
  rw [revertActs, Bool.and_eq_true, failoverActs_iff]

theorem liveOrFade_iff {st : CtxState} : liveOrFade st = true ↔ st = .live ∨ st = .fade := by
  cases st <;> simp [liveOrFade]

theorem isReady_iff {s : State} {x : Source} : isReady s.pln.activeSettings.acquire c x = true ↔ Ready s c x := by
  cases x <;> simp [isReady, Ready, readyCount]

theorem isFailover_iff : isFailover en q c good = true ↔
    isExpiry en c good = true ∧ (en.expiry = .failover ∧ en.alternate ≠ none) ∧ isReady q c c.source.other = true := by
  rw [isFailover, Bool.and_eq_true, Bool.and_eq_true, failoverActs_iff, and_assoc]

theorem recoverySource_calm (h : c.state ≠ .muted .loss) : recoverySource en q c = none := by
  rw [recoverySource]
  split
  · next hs => exact absurd hs h
  · rfl

/-- The source onto which a muted context recovers (R55). -/
theorem recoverySource_iff {x : Source} (h : c.state = .muted .loss) : recoverySource en q c = some x ↔
    ((¬(en.expiry = .failover ∧ en.alternate ≠ none)) ∧ x = c.source ∧ isReady q c x = true) ∨
    ((en.expiry = .failover ∧ en.alternate ≠ none) ∧ isReady q c x = true ∧ (x = .alternate → ¬isReady q c .primary = true)) := by
  rw [← failoverActs_iff]
  simp only [recoverySource, h]
  by_cases hf : failoverActs en = true
  · cases hp : isReady q c .primary <;> cases ha : isReady q c .alternate <;> cases x <;> simp [hf, hp, ha]
  · by_cases hr : isReady q c c.source = true
    · simp only [hf, hr, if_true, Bool.false_eq_true, if_false, Option.some.injEq]
      constructor
      · rintro rfl
        exact .inl ⟨not_false, rfl, hr⟩
      · rintro (⟨-, rfl, -⟩ | ⟨hno, -⟩)
        · rfl
        · exact hno.elim
    · simp only [hf, hr, Bool.false_eq_true, if_false, reduceCtorEq, false_iff]
      rintro (⟨-, rfl, hx⟩ | ⟨hno, -⟩)
      · exact hr hx
      · exact hno

theorem isRevert_iff : isRevert en q c r good = true ↔ good = true ∧ r = .primary ∧
    ((en.expiry = .failover ∧ en.alternate ≠ none) ∧ en.revert = true) ∧ c.source = .alternate ∧
    (c.state = .live ∨ c.state = .fade) ∧ revertHold en.revertCode ≤ c.revert ∧ isReady q c .primary = true := by
  simp only [isRevert, Bool.and_eq_true, beq_iff_eq, decide_eq_true_eq, revertActs_iff, liveOrFade_iff, and_assoc]

/-- A block of the source in use switches the source by a failover alone, outside MUTED(LOSS). -/
theorem blockSwitch_inUse (hr : r = c.source) (hm : c.state ≠ .muted .loss) : blockSwitch en q c r good =
    if isFailover en q c good = true then some (true, .failover) else none := by
  have hrev : ¬isRevert en q c r good = true := fun h => by
    obtain ⟨-, hp, -, ha, -⟩ := isRevert_iff.1 h
    exact nomatch hp.symm.trans (hr.trans ha)
  subst hr
  simp [blockSwitch, recoverySource_calm hm, hrev]

theorem ruledCtx_inUse (line : Option Line) (hr : r = c.source) (hm : c.state ≠ .muted .loss) :
    ruledCtx en q r good line c = (inUseRule en q good line c, .signal) := by
  subst hr
  simp [ruledCtx, recoverySource_calm hm]

end

/-! ### A block of the source in use, outside MUTED(LOSS) -/

/-- The context becomes what the rule of its state makes of it, and a reported change is posted with a reason. -/
def Becomes (e : EntryIx) (why : Reason) (s t : State) (n : Ctx) : Prop :=
  ctxAt t e = committed (ctxAt s e) n ∧ (reportChanged (ctxAt s e) n = true → Notified e why t)

theorem committed_stays {c n : Ctx} (h : isContributor n.state = true ∨ isContributor c.state = false) : committed c n = n := by
  rw [committed, leavesAir, if_neg]
  rcases h with h | h <;> simp [h]

theorem committed_leaves {c n : Ctx} (h : isContributor n.state = false) :
    committed c n = { n with shed := n.shed && !isContributor c.state } := by
  rw [committed, leavesAir_left h]
  cases isContributor c.state <;> simp

/-- What a block of the source in use leaves outside MUTED(LOSS), with `d` the context once its counters, gain and levels have been
stepped: a failover, or what the rule of its state makes of `d`. -/
structure InUse (e : EntryIx) (en : Entry) (b : ChannelBlock) (s t : State) (d : Ctx) : Prop where
  state     : d.state = (ctxAt s e).state
  source    : d.source = (ctxAt s e).source
  loss      : d.loss = (ctxAt s e).loss
  expired   : d.expired = (ctxAt s e).expired
  failovers : d.failovers = (ctxAt s e).failovers
  shed      : d.shed = (ctxAt s e).shed
  ready     : ∀ x, Ready s (ctxAt t e) x ↔ isReady s.pln.activeSettings.acquire d x = true
  other     : Ready s (ctxAt s e) (ctxAt s e).source.other ↔ isReady s.pln.activeSettings.acquire d d.source.other = true
  monitor   : t.mon = if isContributor (ctxAt t e).state = true then s.mon else (dwellLeft e s).mon
  outcome   : (isFailover en s.pln.activeSettings.acquire d (blockGood en b) = true ∧ SwitchedOver e True .failover s t) ∨
    (isFailover en s.pln.activeSettings.acquire d (blockGood en b) = false ∧
      Becomes e .signal s t (inUseRule en s.pln.activeSettings.acquire (blockGood en b) (lineAt t e) d))

theorem ready_congr {s : State} {c d : Ctx} (hP : c.readyP = d.readyP) (hA : c.readyA = d.readyA) (x : Source) :
    Ready s c x ↔ Ready s d x := by
  cases x
  · exact iff_of_eq (congrArg (· = _) hP)
  · exact iff_of_eq (congrArg (· = _) hA)

section
variable {e : EntryIx} {s : State} {before after : List Waiting} {w : Waiting} {en : Entry}

theorem takes_inUse (h : Takes e (ctxAt s e).source s before w after en) (hm : (ctxAt s e).state ≠ .muted .loss) :
    ∃ t d, exec (.channelBlock e (ctxAt s e).source) s = .next t ∧ InUse e en w.block s t d := by
  obtain ⟨t, ht, hframe, hout⟩ := takes_cases h
  have hloop := taken_loop hout
  have hstep := blockCtx_stepped en s.pln.activeSettings.acquire (ctxAt s e).source w.block (ctxAt s e)
  obtain ⟨hstate, hsrc, hloss, hexp, hfail, hshed, -⟩ :=
    blockCtx_core en s.pln.activeSettings.acquire (ctxAt s e).source w.block (ctxAt s e)
  have hcause := blockSwitch_inUse (en := en) (q := s.pln.activeSettings.acquire) (good := blockGood en w.block) hsrc.symm
    (by rwa [hstate])
  obtain ⟨⟨hP, hA, -⟩, -⟩ := loopFields_eq hloop
  refine ⟨t, _, ht, hstate, hsrc, hloss, hexp, hfail, hshed, fun x => (ready_congr hP hA x).trans isReady_iff.symm, ?_,
    hframe.monitor, ?_⟩
  · rw [isReady_iff, hsrc]
    cases hc : (ctxAt s e).source
    · rw [hc] at hstep
      exact iff_of_eq (congrArg (· = _) (hstep.1 rfl).1.symm)
    · rw [hc] at hstep
      exact iff_of_eq (congrArg (· = _) (hstep.2 rfl).1.symm)
  · rcases hout with ⟨fo, why, hsw⟩ | hstay
    · have hyes := hcause.symm.trans hsw.cause
      split at hyes
      · next hf =>
        cases hyes
        exact .inl ⟨hf, by simpa only using hsw.switch⟩
      · cases hyes
    · have hno := hcause.symm.trans hstay.cause
      split at hno
      · cases hno
      · next hf =>
        obtain ⟨-, hctx, hnotice, -⟩ := hstay
        rw [ruledCtx_inUse _ hsrc.symm (by rwa [hstate])] at hctx hnotice
        exact .inr ⟨Bool.eq_false_iff.2 hf, hctx, hnotice⟩

end

section
variable {e : EntryIx} {en : Entry} {b : ChannelBlock} {s t : State} {d : Ctx} {q : Nat} {line : Option Line}

theorem InUse.becomes (h : InUse e en b s t d) (hno : ¬isFailover en s.pln.activeSettings.acquire d (blockGood en b) = true) :
    Becomes e .signal s t (inUseRule en s.pln.activeSettings.acquire (blockGood en b) (lineAt t e) d) :=
  (h.outcome.resolve_left fun hf => hno hf.1).2

/-! ### The rules of the states -/

theorem inUseRule_bad (hs : d.state = .acquire ∨ d.state = .fade) : inUseRule en q false line d = badInRun en d := by
  rcases hs with hs | hs <;> simp [inUseRule, hs]

theorem badInRun_marked (h : d.expired = true) : badInRun en d = d := by rw [badInRun, if_pos h]

theorem badInRun_short (h : d.expired = false) (hl : d.loss + 1 < bridgeTime en.bridgeCode) :
    badInRun en d = { d with loss := d.loss + 1 } := by
  rw [badInRun, if_neg (Bool.eq_false_iff.1 h), if_neg (show ¬entryBridge en ≤ d.loss + 1 from hl.not_ge)]

theorem badInRun_expiry (h : d.expired = false) (hl : bridgeTime en.bridgeCode ≤ d.loss + 1) : badInRun en d =
    if en.expiry = .notify then { d with loss := bridgeTime en.bridgeCode, expired := true } else toMuted .loss d := by
  rw [badInRun, if_neg (Bool.eq_false_iff.1 h), if_pos (show entryBridge en ≤ d.loss + 1 from hl)]
  cases en.expiry <;> rfl

/-- In LIVE and FADE, short of an expiry, the context stays a contributor, and is what the rule makes of it. -/
theorem InUse.run (h : InUse e en b s t d) (hs : (ctxAt s e).state = .live ∨ (ctxAt s e).state = .fade ∧
      (GoodBlock en b ∨ (ctxAt s e).expired = true ∨ (ctxAt s e).loss + 1 < bridgeTime en.bridgeCode)) :
    ctxAt t e = inUseRule en s.pln.activeSettings.acquire (blockGood en b) (lineAt t e) d ∧
    (reportChanged (ctxAt s e) (inUseRule en s.pln.activeSettings.acquire (blockGood en b) (lineAt t e) d) = true →
      Notified e .signal t) := by
  have hcalm : ¬isExpiry en d (blockGood en b) = true := fun hx => by
    obtain ⟨hg, he, hl, hst⟩ := isExpiry_iff.1 hx
    rw [h.state] at hst
    rw [h.expired] at he
    rw [h.loss] at hl
    rcases hs with hs | ⟨-, hgood | hmark | hshort⟩
    · rcases hst with hst | hst <;> exact nomatch hs.symm.trans hst
    · exact nomatch hg.symm.trans ((blockGood_iff en b).2 hgood)
    · exact nomatch he.symm.trans hmark
    · omega
  have hno : ¬isFailover en s.pln.activeSettings.acquire d (blockGood en b) = true := fun hf => hcalm (isFailover_iff.1 hf).1
  obtain ⟨hctx, hnote⟩ := h.becomes hno
  refine ⟨hctx.trans (committed_stays (.inl ?_)), hnote⟩
  rw [← h.state] at hs
  rcases hs with hl | ⟨hf, hwhy⟩
  · cases blockGood en b <;> simp [inUseRule, hl, isContributor]
  · cases hg : blockGood en b with
    | true => simp [inUseRule, hf, isContributor]
    | false =>
      rw [inUseRule_bad (.inr hf)]
      rw [← h.expired, ← h.loss] at hwhy
      rcases hwhy with hgood | hmark | hshort
      · exact nomatch hg.symm.trans ((blockGood_iff en b).2 hgood)
      · rw [badInRun_marked hmark, hf]
        rfl
      · cases hm : d.expired with
        | true => rw [badInRun_marked hm, hf]; rfl
        | false => rw [badInRun_short hm hshort, hf]; rfl

end

/-! ### The claims -/

theorem reportChanged_state {c n : Ctx} (h : stateName c.state ≠ stateName n.state) : reportChanged c n = true := by
  simp [reportChanged, h]

theorem reportChanged_mark {c n : Ctx} (h : c.expired ≠ n.expired) : reportChanged c n = true := by
  simp [reportChanged, h]

/-- Settles O39: short of an expiry the rule of LIVE and FADE is all that changes the state. -/
theorem liveAndFade : Obligations.LiveAndFade := by
  intro e s before w after en h
  by_cases hm : (ctxAt s e).state = .muted .loss
  · obtain ⟨t, ht, -⟩ := takes_cases h
    refine ⟨t, ht, ?_⟩
    simp [hm]
  obtain ⟨t, d, ht, hin⟩ := takes_inUse h hm
  have hstate := hin.state
  have hgood := blockGood_iff en w.block
  have hbad : ¬GoodBlock en w.block → blockGood en w.block = false := fun hb => Bool.eq_false_iff.2 (mt hgood.1 hb)
  refine ⟨t, ht, fun hl hg => ?_, fun hl hb => ?_, fun hf hg => ?_, fun hf hb hx => ?_, fun hf hb hx hlt => ?_, fun hs => ?_⟩
  · obtain ⟨hctx, -⟩ := hin.run (.inl hl)
    rw [hctx, hgood.2 hg]
    simp [inUseRule, hstate, hl, hin.expired]
  · obtain ⟨hctx, hnote⟩ := hin.run (.inl hl)
    rw [hbad hb] at hctx hnote
    have hrule : inUseRule en s.pln.activeSettings.acquire false (lineAt t e) d = { d with state := .fade, loss := 1 } := by
      simp [inUseRule, hstate, hl]
    rw [hrule] at hctx hnote
    exact ⟨by rw [hctx], by rw [hctx], hnote (reportChanged_state (by simp [hl, stateName]))⟩
  · obtain ⟨hctx, hnote⟩ := hin.run (.inr ⟨hf, .inl hg⟩)
    rw [hgood.2 hg] at hctx hnote
    have hrule : inUseRule en s.pln.activeSettings.acquire true (lineAt t e) d =
        { d with state := .live, loss := 0, expired := false } := by simp [inUseRule, hstate, hf]
    rw [hrule] at hctx hnote
    exact ⟨by rw [hctx], by rw [hctx], by rw [hctx], hnote (reportChanged_state (by simp [hf, stateName]))⟩
  · obtain ⟨hctx, -⟩ := hin.run (.inr ⟨hf, .inr (.inl hx)⟩)
    rw [hctx, hbad hb, inUseRule_bad (.inr (hstate.trans hf)), badInRun_marked (hin.expired.trans hx)]
    exact ⟨hstate.trans hf, hin.loss, hin.expired.trans hx⟩
  · obtain ⟨hctx, -⟩ := hin.run (.inr ⟨hf, .inr (.inr hlt)⟩)
    rw [hctx, hbad hb, inUseRule_bad (.inr (hstate.trans hf)), badInRun_short (hin.expired.trans hx) (by rwa [hin.loss]), hin.loss]
    exact ⟨hstate.trans hf, rfl, hin.expired.trans hx⟩
  · obtain ⟨hctx, -⟩ := hin.run hs
    obtain ⟨hsrc, -, hshed⟩ := inUseRule_core en s.pln.activeSettings.acquire (blockGood en w.block) (lineAt t e) d
    have hfail := (inUseRule_loop en s.pln.activeSettings.acquire (blockGood en w.block) (lineAt t e) d).2
    rw [hctx]
    exact ⟨hsrc.trans hin.source, hfail.trans hin.failovers, hshed.trans hin.shed⟩

/-- Settles O40: the expiry action, and the failover only with the other source READY. -/
theorem expiry : Obligations.Expiry := by
  intro e s before w after en h hb hst hx hl
  obtain ⟨t, d, ht, hin⟩ := takes_inUse h (by rcases hst with hst | hst <;> simp [hst])
  have hbad : blockGood en w.block = false := Bool.eq_false_iff.2 (mt (blockGood_iff en w.block).1 hb)
  have hmark := hin.expired.trans hx
  have hst' : d.state = .acquire ∨ d.state = .fade := by rwa [hin.state]
  have hexpiry : isExpiry en d false = true := isExpiry_iff.2 ⟨rfl, hmark, by rwa [hin.loss], hst'⟩
  have hrule : ¬isFailover en s.pln.activeSettings.acquire d false = true → Becomes e .signal s t
      (if en.expiry = .notify then { d with loss := bridgeTime en.bridgeCode, expired := true } else toMuted .loss d) := fun hno => by
    have hbecomes := hin.becomes (by rwa [hbad])
    rwa [hbad, inUseRule_bad hst', badInRun_expiry hmark (by rwa [hin.loss])] at hbecomes
  refine ⟨t, ht, fun hn => ?_, fun hmute => ?_, fun hf ha hready => ?_⟩
  · obtain ⟨hctx, hnote⟩ := hrule fun hf => nomatch hn.symm.trans (isFailover_iff.1 hf).2.1.1
    rw [if_pos hn] at hctx hnote
    have hstays : ctxAt t e = { d with loss := bridgeTime en.bridgeCode, expired := true } := hctx.trans (committed_stays (by
      rw [← hin.state]
      rcases hst' with hst' | hst' <;> simp [hst', isContributor]))
    exact ⟨by rw [hstays, ← hin.state], by rw [hstays], by rw [hstays], by rw [hstays, ← hin.source],
      hnote (reportChanged_mark (by simp [hx]))⟩
  · have hno : ¬isFailover en s.pln.activeSettings.acquire d false = true := fun hf => by
      obtain ⟨-, ⟨hf, ha⟩, hready⟩ := isFailover_iff.1 hf
      rcases hmute with hmute | ⟨-, hmute | hmute⟩
      · exact nomatch hmute.symm.trans hf
      · exact ha hmute
      · exact hmute (hin.other.2 hready)
    obtain ⟨hctx, hnote⟩ := hrule hno
    have hnot : en.expiry ≠ .notify := by rcases hmute with hmute | ⟨hmute, -⟩ <;> simp [hmute]
    rw [if_neg hnot] at hctx hnote
    have hleft : ctxAt t e = { toMuted .loss d with shed := (ctxAt s e).shed && !isContributor (ctxAt s e).state } := by
      rw [hctx, committed_leaves rfl, ← hin.shed]
      rfl
    refine ⟨by rw [hleft]; rfl, by rw [hleft]; rfl, by rw [hleft]; rfl, by rw [hleft]; rfl, by rw [hleft], ?_,
      by rw [hleft, ← hin.source]; rfl, hnote (reportChanged_state ?_)⟩
    · rw [hin.monitor, hleft]
      rfl
    · rcases hst with hst | hst <;> simp [hst, toMuted, stateName]
  · rcases hin.outcome with ⟨-, hsw⟩ | ⟨hno, -⟩
    · exact hsw
    · rw [hbad] at hno
      exact absurd (isFailover_iff.2 ⟨hexpiry, ⟨hf, ha⟩, hin.other.1 hready⟩) (Bool.eq_false_iff.1 hno)

/-- The acquisition condition (R48). -/
theorem acquired_iff {en : Entry} {q : Nat} {c : Ctx} {line : Option Line} : acquired en q c line = true ↔
    isReady q c c.source = true ∧ (en.pages = 0 ∨ entryDelay en c.source ≤ line.elim 0 Line.fill) := by
  rw [acquired, Bool.and_eq_true, Bool.or_eq_true, beq_iff_eq, decide_eq_true_eq]
  cases line <;> rfl

/-- Settles O41: the test is made on the readiness and the line that the block leaves. -/
theorem acquisition : Obligations.Acquisition := by
  intro e s before w after en h hs
  obtain ⟨t, d, ht, hin⟩ := takes_inUse h (by simp [hs])
  have hgood := blockGood_iff en w.block
  have hst : d.state = .acquire := hin.state.trans hs
  have hstays {n : Ctx} : committed (ctxAt s e) n = n := committed_stays (.inr (by simp [hs, isContributor]))
  have hcond : acquired en s.pln.activeSettings.acquire { d with loss := 0, expired := false } (lineAt t e) = true ↔
      Ready s (ctxAt t e) (ctxAt s e).source ∧
        (en.pages = 0 ∨ entryDelay en (ctxAt s e).source ≤ (lineAt t e).elim 0 Line.fill) := by
    rw [acquired_iff, hin.ready, ← hin.source]
    rfl
  have hbadCase (hb : ¬GoodBlock en w.block) (hcalm : d.expired = true ∨ d.loss + 1 < bridgeTime en.bridgeCode) :
      ctxAt t e = badInRun en d := by
    have hfalse : blockGood en w.block = false := Bool.eq_false_iff.2 (mt hgood.1 hb)
    obtain ⟨hctx, -⟩ := hin.becomes fun hf => by
      obtain ⟨-, he, hl, -⟩ := isExpiry_iff.1 (isFailover_iff.1 hf).1
      rcases hcalm with hc | hc
      · exact nomatch he.symm.trans hc
      · omega
    rw [hctx, hstays, hfalse, inUseRule_bad (.inl hst)]
  refine ⟨t, ht, fun hg => ?_, fun hb hx => ?_, fun hb hx hl => ?_⟩
  · obtain ⟨hctx, hnote⟩ := hin.becomes fun hf =>
      nomatch (isExpiry_iff.1 (isFailover_iff.1 hf).1).1.symm.trans (hgood.2 hg)
    have hrule : inUseRule en s.pln.activeSettings.acquire true (lineAt t e) d =
        if acquired en s.pln.activeSettings.acquire { d with loss := 0, expired := false } (lineAt t e) = true
        then { d with state := .live, loss := 0, expired := false } else { d with loss := 0, expired := false } := by
      simp only [inUseRule, hst, if_true]
    rw [hstays, hgood.2 hg, hrule] at hctx
    rw [hgood.2 hg, hrule] at hnote
    rw [← hcond]
    by_cases ha : acquired en s.pln.activeSettings.acquire { d with loss := 0, expired := false } (lineAt t e) = true
    · rw [if_pos ha] at hctx hnote
      rw [hctx]
      exact ⟨rfl, rfl, hin.source, fun _ => ⟨rfl, hnote (reportChanged_state (by simp [hs, stateName]))⟩, fun hno => absurd ha hno⟩
    · rw [if_neg ha] at hctx hnote
      rw [hctx]
      exact ⟨rfl, rfl, hin.source, fun hyes => absurd hyes ha,
        fun _ => ⟨hst, fun hx => hnote (reportChanged_mark (by simp [hx]))⟩⟩
  · have hmark := hin.expired.trans hx
    rw [hbadCase hb (.inl hmark), badInRun_marked hmark]
    exact ⟨hst, hin.loss, hmark⟩
  · have hmark := hin.expired.trans hx
    rw [← hin.loss] at hl
    rw [hbadCase hb (.inr hl), badInRun_short hmark hl, hin.loss]
    exact ⟨hst, rfl, hmark⟩

/-! ### Recovery and revert (R55, R56) -/

/-- Revert acts on the context: the alternate in use, in LIVE or FADE (R21, R56). -/
def Reverts (en : Entry) (c : Ctx) : Prop :=
  (en.expiry = .failover ∧ en.alternate ≠ none) ∧ en.revert = true ∧ c.source = .alternate ∧ (c.state = .live ∨ c.state = .fade)

section
variable {en : Entry} {q : Nat} {c d : Ctx} {r : Source} {b : ChannelBlock} {line : Option Line}

theorem blockSwitch_muted (h : d.state = .muted .loss) : blockSwitch en q d r (blockGood en b) =
    if recoverySource en q d = some d.source.other then some (false, .recovery) else none := by
  have hf : ¬isFailover en q d (blockGood en b) = true := fun hf => by
    rcases (isExpiry_iff.1 (isFailover_iff.1 hf).1).2.2.2 with hs | hs <;> exact nomatch h.symm.trans hs
  have hv : ¬isRevert en q d r (blockGood en b) = true := fun hv => by
    obtain ⟨-, -, -, -, hs | hs, -⟩ := isRevert_iff.1 hv <;> exact nomatch h.symm.trans hs
  simp [blockSwitch, hf, hv]

theorem ruledCtx_muted (h : d.state = .muted .loss) : ruledCtx en q r (blockGood en b) line d =
    if (recoverySource en q d).isSome = true then (toAcquire d, .recovery) else (d, .signal) := by
  have hrule : inUseRule en q (blockGood en b) line d = d := by simp only [inUseRule, h]
  simp only [ruledCtx, hrule, ite_self]

/-- A block of the other source, outside MUTED(LOSS), reverts or leaves the state. -/
theorem blockSwitch_other (hr : r ≠ d.source) (hm : d.state ≠ .muted .loss) : blockSwitch en q d r (blockGood en b) =
    if isRevert en q d r (blockGood en b) = true then some (false, .revert) else none := by
  simp [blockSwitch, hr, recoverySource_calm hm]

theorem ruledCtx_other (hr : r ≠ d.source) (hm : d.state ≠ .muted .loss) :
    ruledCtx en q r (blockGood en b) line d = (d, .signal) := by
  simp [ruledCtx, recoverySource_calm hm, hr]

theorem badInRun_revert : (badInRun en d).revert = d.revert ∨ (badInRun en d).revert = 0 := by
  simp only [badInRun]
  split
  · exact .inl rfl
  · split
    · cases en.expiry
      · exact .inl rfl
      · exact .inr rfl
      · exact .inr rfl
    · exact .inl rfl

theorem inUseRule_revert (good : Bool) :
    (inUseRule en q good line d).revert = d.revert ∨ (inUseRule en q good line d).revert = 0 := by
  have hbad := badInRun_revert (en := en) (d := d)
  cases hs : d.state with
  | acquire =>
    cases good
    · rwa [inUseRule_bad (.inl hs)]
    · simp only [inUseRule, hs, if_true]
      split <;> exact .inl rfl
  | fade =>
    cases good
    · rwa [inUseRule_bad (.inr hs)]
    · simp only [inUseRule, hs, if_true, true_or]
  | live => cases good <;> simp only [inUseRule, hs, if_true, Bool.false_eq_true, if_false, true_or]
  | _ => simp only [inUseRule, hs, true_or]

theorem ruledCtx_revert (good : Bool) :
    (ruledCtx en q r good line d).1.revert = d.revert ∨ (ruledCtx en q r good line d).1.revert = 0 := by
  simp only [ruledCtx]
  split
  · exact .inr rfl
  · split
    · exact inUseRule_revert good
    · exact .inl rfl

theorem revertHold_le (code : Nat) : revertHold code ≤ 300000 := by
  have hall : ∀ x ∈ [1000, 2000, 5000, 10000, 30000, 60000, 120000, 300000], x ≤ 300000 := by decide
  rw [revertHold, List.getD_eq_getElem?_getD]
  cases hx : [1000, 2000, 5000, 10000, 30000, 60000, 120000, 300000][code]? with
  | none => exact le_rfl
  | some x => exact hall x (List.mem_of_getElem? hx)

theorem revertGuard_iff : (revertActs en && c.source == .alternate && liveOrFade c.state) = true ↔ Reverts en c := by
  rw [Bool.and_eq_true, Bool.and_eq_true, revertActs_iff, liveOrFade_iff, beq_iff_eq, Reverts, and_assoc, and_assoc]

theorem nextRevert_primary (h : Reverts en c) (good : Bool) :
    nextRevert en c .primary good = if good = true then min 300000 (c.revert + 1) else 0 := by
  simp only [nextRevert, if_pos (revertGuard_iff.2 h), satInc]

theorem nextRevert_calm (h : ¬Reverts en c) (r : Source) (good : Bool) : nextRevert en c r good = c.revert := by
  simp only [nextRevert, if_neg (mt revertGuard_iff.1 h)]

theorem isRevert_primary (good : Bool) : isRevert en q d .primary good = true ↔
    good = true ∧ Reverts en d ∧ revertHold en.revertCode ≤ d.revert ∧ isReady q d .primary = true := by
  rw [isRevert_iff, Reverts]
  tauto

end

section
variable {e : EntryIx} {r : Source} {s t : State} {en : Entry} {b : ChannelBlock} {d : Ctx}

/-- The two ways in which a block taken ends, each under its condition. -/
theorem taken_outcome (h : (∃ fo why, TakenSwitch e en r b s t fo why) ∨ TakenStay e en r b s t)
    (hd : d = blockCtx en s.pln.activeSettings.acquire r b (ctxAt s e)) :
    (∀ fo why, blockSwitch en s.pln.activeSettings.acquire d r (blockGood en b) = some (fo, why) →
      SwitchedOver e (fo = true) why s t) ∧
    (blockSwitch en s.pln.activeSettings.acquire d r (blockGood en b) = none → ∀ n,
      ruledCtx en s.pln.activeSettings.acquire r (blockGood en b) (lineAt t e) d = n → Becomes e n.2 s t n.1) := by
  subst hd
  rcases h with ⟨fo, why, hsw⟩ | hstay
  · refine ⟨fun fo' why' h => ?_, fun h => nomatch h.symm.trans hsw.cause⟩
    cases h.symm.trans hsw.cause
    exact hsw.switch
  · refine ⟨fun _ _ h => (nomatch h.symm.trans hstay.cause), fun _ n hn => ?_⟩
    subst hn
    exact ⟨hstay.ctx, hstay.notice⟩

end

/-- Settles O42: both are read after the block's own readiness update. -/
theorem recoveryAndRevert : Obligations.RecoveryAndRevert := by
  intro e r s before w after en h
  obtain ⟨t, ht, -, hout⟩ := takes_cases h
  obtain ⟨⟨hP, hA, -⟩, -⟩ := loopFields_eq (taken_loop hout)
  have hready (x : Source) := (ready_congr (s := s) hP hA x).trans isReady_iff.symm
  obtain ⟨hstate, hsrc, -⟩ := blockCtx_core en s.pln.activeSettings.acquire r w.block (ctxAt s e)
  have hrevert := blockCtx_revert en s.pln.activeSettings.acquire r w.block (ctxAt s e)
  have hgood := blockGood_iff en w.block
  refine ⟨t, ht, ?_⟩
  simp only [hready]
  obtain ⟨d, hd⟩ : ∃ d, d = blockCtx en s.pln.activeSettings.acquire r w.block (ctxAt s e) := ⟨_, rfl⟩
  obtain ⟨hswitch, hstay⟩ := taken_outcome hout hd
  rw [← hd] at hstate hsrc hrevert ⊢
  have hmuted (hm : (ctxAt s e).state = .muted .loss) (n : Ctx) : committed (ctxAt s e) n = n :=
    committed_stays (.inr (by rw [hm]; rfl))
  have hreverts (hrev : Reverts en (ctxAt s e)) : Reverts en d := by
    rwa [Reverts, hstate, hsrc]
  have hheld (hrev : Reverts en (ctxAt s e)) (hr : r = .primary)
      (hno : ¬isRevert en s.pln.activeSettings.acquire d .primary (blockGood en w.block) = true) :
      (ctxAt t e).revert = d.revert ∧ (ctxAt t e).source = .alternate ∧ (ctxAt t e).state = (ctxAt s e).state := by
    subst hr
    obtain ⟨-, -, ha, hrun⟩ := hreverts hrev
    have hne : Source.primary ≠ d.source := by simp [ha]
    have hm : d.state ≠ .muted .loss := by rcases hrun with hs | hs <;> simp [hs]
    obtain ⟨hctx, -⟩ := hstay ((blockSwitch_other hne hm).trans (if_neg hno)) _ (ruledCtx_other hne hm)
    rw [hctx, committed_stays (.inl (by rcases hrun with hs | hs <;> rw [hs] <;> rfl))]
    exact ⟨rfl, ha, hstate⟩
  refine ⟨fun x hm hx => ?_, fun hm hno hfails => ?_, fun hrev hr hg hhold hrdy => ?_, fun hrev hr hg hnot => ?_,
    fun hrev hr hb => ?_, fun hno => ?_⟩
  · rw [← hsrc] at hx ⊢
    have hrec := (recoverySource_iff (en := en) (q := s.pln.activeSettings.acquire) (hstate.trans hm)).2 hx
    have hcause := blockSwitch_muted (en := en) (q := s.pln.activeSettings.acquire) (r := r) (b := w.block) (hstate.trans hm)
    rw [hrec] at hcause
    refine ⟨fun hxs => ?_, fun hxs => ?_⟩
    · rw [hxs, if_neg (by simpa using (Source.other_ne d.source).symm)] at hcause
      obtain ⟨hctx, hnote⟩ := hstay hcause _ ((ruledCtx_muted (hstate.trans hm)).trans (if_pos (by rw [hrec]; rfl)))
      rw [hctx, hmuted hm]
      exact ⟨rfl, rfl, rfl, hnote (reportChanged_state (by simp [hm, toAcquire, stateName]))⟩
    · have hother : x = d.source.other := by
        cases hs : d.source <;> cases x <;> simp_all [Source.other]
      rw [hother, if_pos rfl] at hcause
      simpa only [Bool.false_eq_true] using hswitch _ _ hcause
  · have hrec : recoverySource en s.pln.activeSettings.acquire d = none := by
      refine Option.eq_none_iff_forall_ne_some.2 fun x hx => ?_
      rcases (recoverySource_iff (hstate.trans hm)).1 hx with ⟨hf, rfl, hr⟩ | ⟨hf, hr, -⟩
      · exact hno hf (hsrc ▸ hr)
      · cases x
        · exact (hfails hf).1 hr
        · exact (hfails hf).2 hr
    have hcause := blockSwitch_muted (en := en) (q := s.pln.activeSettings.acquire) (r := r) (b := w.block) (hstate.trans hm)
    rw [hrec, if_neg nofun] at hcause
    obtain ⟨hctx, -⟩ := hstay hcause _ ((ruledCtx_muted (hstate.trans hm)).trans (if_neg (by rw [hrec]; nofun)))
    rw [hctx, hmuted hm]
    exact ⟨hstate.trans hm, hsrc⟩
  · subst hr
    rw [nextRevert_primary hrev, if_pos (hgood.2 hg)] at hrevert
    obtain ⟨-, -, ha, hrun⟩ := hreverts hrev
    have hyes : isRevert en s.pln.activeSettings.acquire d .primary (blockGood en w.block) = true :=
      (isRevert_primary _).2 ⟨hgood.2 hg, hreverts hrev, hrevert ▸ le_min (revertHold_le _) hhold, hrdy⟩
    have hcause := (blockSwitch_other (q := s.pln.activeSettings.acquire) (r := .primary) (by simp [ha] : Source.primary ≠ d.source)
      (by rcases hrun with hs | hs <;> simp [hs])).trans (if_pos hyes)
    simpa only [Bool.false_eq_true] using hswitch _ _ hcause
  · subst hr
    rw [nextRevert_primary hrev, if_pos (hgood.2 hg)] at hrevert
    rw [← hrevert]
    refine hheld hrev rfl fun hyes => ?_
    obtain ⟨-, -, hhold, hrdy⟩ := (isRevert_primary _).1 hyes
    rcases hnot with hlt | hno
    · rw [hrevert] at hhold
      exact absurd (hhold.trans (min_le_right _ _)) hlt.not_ge
    · exact hno hrdy
  · subst hr
    rw [nextRevert_primary hrev, if_neg (mt hgood.1 hb)] at hrevert
    rw [← hrevert]
    exact hheld hrev rfl fun hyes => hb (hgood.1 ((isRevert_primary _).1 hyes).1)
  · rw [nextRevert_calm hno] at hrevert
    cases hcause : blockSwitch en s.pln.activeSettings.acquire d r (blockGood en w.block) with
    | some sw => exact .inr (hswitch sw.1 sw.2 hcause).2.2.2.2.1
    | none =>
      obtain ⟨hctx, -⟩ := hstay hcause _ rfl
      have hcommit (n : Ctx) : (committed (ctxAt s e) n).revert = n.revert := by
        simp only [committed]
        split <;> rfl
      rw [hctx, hcommit, ← hrevert]
      exact ruledCtx_revert _

end Sys2Proof.Machine
end

section
/-! SUPPORT. The composite level and the power budget as functions of the levels and shares: CompositeLevel and BudgetLaws. -/

namespace Sys2Proof.Machine

open Sys2Proof.Safety

/-! ### The composite (R106) -/

theorem insertLevel_perm (a : Int) : ∀ l : List Int, (insertLevel a l).Perm (a :: l)
  | [] => .refl _
  | b :: rest => by
    rw [insertLevel]
    split
    · exact .refl _
    · exact ((insertLevel_perm a rest).cons b).trans (.swap a b rest)

theorem sortLevels_perm : ∀ l : List Int, (sortLevels l).Perm l
  | [] => .refl _
  | a :: rest => (insertLevel_perm a _).trans ((sortLevels_perm rest).cons a)

theorem insertLevel_sorted (a : Int) : ∀ {l : List Int}, l.Pairwise (· ≥ ·) → (insertLevel a l).Pairwise (· ≥ ·)
  | [], _ => List.pairwise_singleton _ _
  | b :: rest, h => by
    obtain ⟨hb, hrest⟩ := List.pairwise_cons.1 h
    rw [insertLevel]
    split
    · next hlt =>
      refine List.pairwise_cons.2 ⟨fun x hx => ?_, h⟩
      rcases List.mem_cons.1 hx with rfl | hx
      · exact hlt.le
      · exact (hb x hx).trans hlt.le
    · next hge =>
      refine List.pairwise_cons.2 ⟨fun x hx => ?_, insertLevel_sorted a hrest⟩
      rcases List.mem_cons.1 ((insertLevel_perm a rest).mem_iff.1 hx) with rfl | hx
      · exact not_lt.1 hge
      · exact hb x hx

theorem sortLevels_sorted : ∀ l : List Int, (sortLevels l).Pairwise (· ≥ ·)
  | [] => .nil
  | a :: rest => insertLevel_sorted a (sortLevels_sorted rest)

/-- Levels in descending order are the sorting of every order of them. -/
theorem sortLevels_of_perm {l m : List Int} (h : l.Perm m) (hl : l.Pairwise (· ≥ ·)) : sortLevels m = l :=
  ((sortLevels_perm m).trans h.symm).eq_of_pairwise (fun _ _ _ _ hab hba => le_antisymm hba hab) (sortLevels_sorted m) hl

theorem compositeIs_iff {l : List Int} {total : Int} : CompositeIs l total ↔
    l.Pairwise (· ≥ ·) ∧ ∃ a rest, l = a :: rest ∧ total = rest.foldl addLevel a := by
  constructor
  · intro h
    induction h with
    | one a => exact ⟨List.pairwise_singleton _ _, a, [], rfl, rfl⟩
    | more l b total h hb ih =>
      obtain ⟨hsorted, a, rest, rfl, rfl⟩ := ih
      refine ⟨List.pairwise_append.2 ⟨hsorted, List.pairwise_singleton _ _, fun x hx y hy => ?_⟩, a, rest ++ [b], rfl, ?_⟩
      · rw [List.mem_singleton.1 hy]
        exact hb x hx
      · rw [List.foldl_append]
        rfl
  · rintro ⟨hsorted, a, rest, rfl, rfl⟩
    induction rest using List.reverseRecOn with
    | nil => exact .one a
    | append_singleton rest b ih =>
      rw [← List.cons_append, List.pairwise_append] at hsorted
      obtain ⟨hl, -, hb⟩ := hsorted
      rw [List.foldl_append, ← List.cons_append]
      exact .more _ _ _ (ih hl) fun x hx => hb x hx b (List.mem_singleton_self b)

theorem composite_iff {m : List Int} {total : Int} : composite m = some total ↔ CompositeIs (sortLevels m) total := by
  rw [compositeIs_iff, composite]
  cases h : sortLevels m with
  | nil => simp
  | cons a rest =>
    have hsorted := h ▸ sortLevels_sorted m
    simp [hsorted, eq_comm]

theorem composite_none {m : List Int} : composite m = none ↔ m = [] := by
  constructor
  · intro h
    rw [← List.nil_perm, ← List.perm_comm]
    refine (sortLevels_perm m).symm.trans ?_
    cases hs : sortLevels m with
    | nil => exact .nil
    | cons a rest =>
      rw [composite, hs] at h
      cases h
  · rintro rfl
    rfl

theorem composite_perm {l m : List Int} (h : l.Perm m) : composite l = composite m := by
  have hsort : sortLevels l = sortLevels m :=
    (sortLevels_of_perm ((sortLevels_perm m).trans h.symm) (sortLevels_sorted m))
  rw [composite, composite, hsort]

theorem compositeIs_le {l : List Int} {total : Int} (h : CompositeIs l total) : ∀ a ∈ l, a ≤ total := by
  induction h with
  | one a =>
    intro x hx
    exact (List.mem_singleton.1 hx).le
  | more l b total h hb ih =>
    obtain ⟨-, a, rest, rfl, -⟩ := compositeIs_iff.1 h
    intro x hx
    rcases List.mem_append.1 hx with hx | hx
    · exact (ih x hx).trans (by omega)
    · rw [List.mem_singleton.1 hx]
      exact ((hb a List.mem_cons_self).trans (ih a List.mem_cons_self)).trans (by omega)

/-- Settles O48: the composite is the fold over the levels in descending order, which their order does not change. -/
theorem compositeLevel : Obligations.CompositeLevel := by
  refine ⟨rfl, fun l m total h hl => ?_, fun m hm => ?_, fun m total h a ha => ?_⟩
  · rwa [composite_iff, sortLevels_of_perm h (compositeIs_iff.1 hl).1]
  · obtain ⟨total, ht⟩ := Option.ne_none_iff_exists'.1 (mt composite_none.1 hm)
    exact ⟨_, total, sortLevels_perm m, composite_iff.1 ht⟩
  · exact compositeIs_le (composite_iff.1 h) a ((sortLevels_perm m).mem_iff.2 ha)

/-! ### The first by an order (R109, R112) -/

/-- The first of a list by a relation, as the budget picks it. -/
def pickBy {α : Type} (before : α → α → Bool) (l : List α) : Option α :=
  l.foldl (fun best c => match best with
    | none => some c
    | some b => if before c b then some c else some b) none

theorem pickBy_snoc {α : Type} (before : α → α → Bool) (l : List α) (c : α) : pickBy before (l ++ [c]) =
    match pickBy before l with
    | none => some c
    | some b => if before c b then some c else some b := by
  rw [pickBy, List.foldl_append]
  rfl

/-- The picked one has none before it. -/
theorem pickBy_spec {α : Type} {before : α → α → Bool} (hirrefl : ∀ a, ¬before a a = true)
    (htrans : ∀ a b c, before a b = true → before b c = true → before a c = true) (l : List α) :
    (pickBy before l = none ↔ l = []) ∧ ∀ x, pickBy before l = some x → x ∈ l ∧ ∀ y ∈ l, ¬before y x = true := by
  induction l using List.reverseRecOn with
  | nil => exact ⟨⟨fun _ => rfl, fun _ => rfl⟩, fun _ h => nomatch h⟩
  | append_singleton l c ih =>
    obtain ⟨hnone, hsome⟩ := ih
    rw [pickBy_snoc]
    cases hp : pickBy before l with
    | none =>
      rw [hnone.1 hp]
      refine ⟨by simp, fun x hx => ?_⟩
      cases hx
      simpa using hirrefl c
    | some b =>
      obtain ⟨hb, hfirst⟩ := hsome b hp
      refine ⟨by simp; split <;> simp, fun x hx => ?_⟩
      dsimp only at hx
      split at hx
      · next hcb =>
        cases hx
        refine ⟨by simp, fun y hy hyc => ?_⟩
        rcases List.mem_append.1 hy with hy | hy
        · exact hfirst y hy (htrans _ _ _ hyc hcb)
        · rw [List.mem_singleton.1 hy] at hyc
          exact hirrefl c hyc
      · next hcb =>
        cases hx
        refine ⟨List.mem_append_left _ hb, fun y hy => ?_⟩
        rcases List.mem_append.1 hy with hy | hy
        · exact hfirst y hy
        · rwa [List.mem_singleton.1 hy]

theorem shedsBefore_iff {a b : Share} : shedsBefore a b = true ↔ ShedBefore a b := by
  simp [shedsBefore, ShedBefore]

theorem restoresBefore_iff {a b : Share} : restoresBefore a b = true ↔
    b.priority < a.priority ∨ a.priority = b.priority ∧ a.entry < b.entry := by
  simp [restoresBefore]

theorem pickShed_eq (l : List Share) : pickShed l = pickBy shedsBefore (l.filter fun c => decide (c.priority < 7)) := by
  rw [pickShed, pickBy]
  congr 1
  funext best c
  cases best <;> rfl

theorem pickRestore_eq (l : List Share) : pickRestore l = pickBy restoresBefore l := by
  rw [pickRestore, pickBy]
  congr 1
  funext best c
  cases best <;> rfl

/-- What is picked to shed goes before every other contributor (R109). -/
theorem pickShed_spec (l : List Share) :
    (pickShed l = none → ∀ c ∈ l, 7 ≤ c.priority) ∧
    ∀ x, pickShed l = some x → x ∈ l ∧ x.priority < 7 ∧ ∀ c ∈ l, c.entry ≠ x.entry → ShedBefore x c := by
  obtain ⟨hnone, hsome⟩ := pickBy_spec (before := shedsBefore)
    (fun a h => by simp [shedsBefore_iff, ShedBefore] at h)
    (fun a b c hab hbc => by
      simp only [shedsBefore_iff, ShedBefore, Fin.lt_def] at *
      omega) (l.filter fun c => decide (c.priority < 7))
  rw [← pickShed_eq] at hnone hsome
  refine ⟨fun h c hc => ?_, fun x hx => ?_⟩
  · by_contra hlt
    exact List.not_mem_nil (hnone.1 h ▸ List.mem_filter.2 ⟨hc, decide_eq_true (not_le.1 hlt)⟩)
  · obtain ⟨hmem, hfirst⟩ := hsome x hx
    obtain ⟨hxl, hx7⟩ := List.mem_filter.1 hmem
    have hx7 := of_decide_eq_true hx7
    refine ⟨hxl, hx7, fun c hc hne => ?_⟩
    rw [ShedBefore]
    by_cases hc7 : c.priority < 7
    · have hno := hfirst c (List.mem_filter.2 ⟨hc, decide_eq_true hc7⟩)
      rw [shedsBefore_iff, ShedBefore, Fin.lt_def] at hno
      rw [Fin.lt_def]
      rw [ne_eq, Fin.ext_iff] at hne
      omega
    · exact .inl (by omega)

theorem pickRestore_iff {l : List Share} (hl : (l.map Share.entry).Nodup) {x : Share} :
    pickRestore l = some x ↔ FirstToRestore l x := by
  obtain ⟨hnone, hsome⟩ := pickBy_spec (before := restoresBefore)
    (fun a h => by simp [restoresBefore_iff] at h)
    (fun a b c hab hbc => by
      simp only [restoresBefore_iff, Fin.lt_def] at *
      omega) l
  rw [← pickRestore_eq] at hnone hsome
  have hfirst {y : Share} (hy : pickRestore l = some y) : FirstToRestore l y := by
    obtain ⟨hmem, hno⟩ := hsome y hy
    refine ⟨hmem, fun b hb => ?_⟩
    have := hno b hb
    rw [restoresBefore_iff, Fin.lt_def] at this
    rw [Fin.le_def]
    omega
  refine ⟨hfirst, fun h => ?_⟩
  obtain ⟨y, hy⟩ := Option.ne_none_iff_exists'.1 fun hn => List.not_mem_nil (hnone.1 hn ▸ h.1)
  obtain ⟨hymem, hyfirst⟩ := hfirst hy
  have hxy := h.2 y hymem
  have hyx := hyfirst x h.1
  have hentry : y.entry = x.entry := by
    rw [Fin.le_def] at hxy hyx
    exact Fin.ext (by omega)
  rw [hy, List.inj_on_of_nodup_map hl hymem h.1 hentry]

/-! ### Shedding (R109) -/

theorem excessOf_perm {keff : Int} {l m : List Share} (h : l.Perm m) : excessOf keff l = excessOf keff m := by
  rw [excessOf, excessOf, shareComposite, shareComposite, composite_perm (h.map Share.level)]

theorem excessOf_lt {keff n : Int} {l : List Share} (hn : 0 ≤ n) :
    n < excessOf keff l ↔ ∃ c, composite (l.map Share.level) = some c ∧ n < c - keff := by
  rw [excessOf, shareComposite]
  cases composite (l.map Share.level) with
  | none => simp [hn.not_gt]
  | some c => simp

/-- What shedding makes of the contributors: who remains, and who is shed, in order. -/
structure ShedLaw (keff : Int) (bmax : Nat) (l : List Share) (r : List Share × List Share) : Prop where
  perm   : (r.1 ++ r.2).Perm l
  before : ∀ x ∈ r.2, x.priority < 7 ∧ ∀ c ∈ r.1, ShedBefore x c
  done   : (bmax : Int) < excessOf keff r.1 → ∀ c ∈ r.1, 7 ≤ c.priority
  needed : ∀ a x, r.2 = a ++ [x] → (bmax : Int) < excessOf keff (x :: r.1)

theorem filter_entry_perm {l : List Share} (hl : (l.map Share.entry).Nodup) {c : Share} (hc : c ∈ l) :
    (c :: l.filter fun x => x.entry != c.entry).Perm l := by
  have hdown : l.filter (fun x => x.entry != c.entry) = l.erase c := by
    rw [(List.Nodup.of_map _ hl).erase_eq_filter]
    refine List.filter_congr fun x hx => ?_
    rw [Bool.eq_iff_iff, bne_iff_ne, bne_iff_ne]
    exact not_congr ⟨List.inj_on_of_nodup_map hl hx hc, fun h => h ▸ rfl⟩
  rw [hdown]
  exact (List.perm_cons_erase hc).symm

theorem shedLoop_law (keff : Int) (bmax : Nat) : ∀ (fuel : Nat) (l : List Share), l.length ≤ fuel →
    (l.map Share.entry).Nodup → ShedLaw keff bmax l (shedLoop keff bmax fuel l)
  | 0, l, hlen, _ => by
    rw [List.length_eq_zero_iff.1 (Nat.le_zero.1 hlen)]
    exact ⟨.refl _, by simp [shedLoop], by simp [shedLoop], by simp [shedLoop]⟩
  | fuel + 1, l, hlen, hl => by
    obtain ⟨hpnone, hpsome⟩ := pickShed_spec l
    by_cases hfits : excessOf keff l ≤ bmax
    · rw [shedLoop, if_pos hfits]
      exact ⟨by simp, by simp, fun h => absurd h hfits.not_gt, by simp⟩
    · cases hp : pickShed l with
      | none =>
        simp only [shedLoop, if_neg hfits, hp]
        exact ⟨by simp, by simp, fun _ => hpnone hp, by simp⟩
      | some c =>
        obtain ⟨hc, hc7, hfirst⟩ := hpsome c hp
        have hperm := filter_entry_perm hl hc
        have hlen' : (l.filter fun x => x.entry != c.entry).length ≤ fuel := by
          have := hperm.length_eq
          rw [List.length_cons] at this
          omega
        obtain ⟨hrperm, hbefore, hdone, hneeded⟩ := shedLoop_law keff bmax fuel (l.filter fun x => x.entry != c.entry) hlen'
          (hl.sublist (List.filter_sublist.map _))
        simp only [shedLoop, if_neg hfits, hp]
        refine ⟨?_, fun x hx => ?_, hdone, fun a x h => ?_⟩
        · exact List.perm_middle.trans ((hrperm.cons c).trans hperm)
        · rcases List.mem_cons.1 hx with rfl | hx
          · refine ⟨hc7, fun y hy => ?_⟩
            obtain ⟨hyl, hne⟩ := List.mem_filter.1 (hrperm.mem_iff.1 (List.mem_append_left _ hy))
            exact hfirst y hyl (by simpa using hne)
          · exact hbefore x hx
        · rcases List.cons_eq_append_iff.1 h with ⟨rfl, hr⟩ | ⟨a', rfl, hr⟩
          · obtain ⟨rfl, hr⟩ := List.cons.inj hr
            rw [← hr, List.append_nil] at hrperm
            rw [excessOf_perm ((hrperm.cons x).trans hperm)]
            exact not_le.1 hfits
          · exact hneeded a' x hr

/-! ### The budget (R108 to R112) -/

theorem restoreTrial_iff {keff : Int} {bmax hyst : Nat} {contributors shed : List Share} (hs : (shed.map Share.entry).Nodup)
    {x : Share} : restoreTrial keff bmax hyst contributors shed = some x ↔ FirstToRestore shed x ∧
      ∃ c, composite ((x :: contributors).map Share.level) = some c ∧ c - keff ≤ (bmax : Int) - hyst := by
  have htrial (y : Share) : excessOf keff (y :: contributors) ≤ (bmax : Int) - hyst ↔
      ∃ c, composite ((y :: contributors).map Share.level) = some c ∧ c - keff ≤ (bmax : Int) - hyst := by
    obtain ⟨c, hc⟩ := Option.ne_none_iff_exists'.1
      (mt composite_none.1 (List.cons_ne_nil y.level (contributors.map Share.level)))
    rw [excessOf, shareComposite, List.map_cons, hc]
    simp
  rw [← pickRestore_iff hs, restoreTrial]
  cases pickRestore shed with
  | none => simp
  | some y =>
    dsimp only
    split
    · next h =>
      constructor
      · intro hx
        cases hx
        exact ⟨rfl, (htrial x).1 h⟩
      · rintro ⟨hx, -⟩
        exact hx
    · next h =>
      constructor
      · exact fun hx => nomatch hx
      · rintro ⟨hx, hc⟩
        cases hx
        exact absurd ((htrial x).2 hc) h

/-- Settles O49: by the law of shedding, and the restoration trial only where nothing was shed. -/
theorem budgetLaws : Obligations.BudgetLaws := by
  intro keff bmax hyst unshed shed hu hs b
  obtain ⟨hperm, hbefore, hdone, hneeded⟩ := shedLoop_law keff bmax unshed.length unshed le_rfl hu
  have hbackoff : b.backoff = (excessOf keff b.contributors).toNat := rfl
  have hcomposite : b.composite = composite (b.contributors.map Share.level) := rfl
  have hrestored : b.restored = if b.newlyShed.isEmpty = true then restoreTrial keff bmax hyst unshed shed else none := rfl
  refine ⟨hperm, rfl, fun c hc => ?_, fun hn => ?_, ?_, fun hlt => hdone ?_, hbefore, fun l x h => ?_, fun hne => ?_,
    fun hnil x => ?_⟩
  · rw [hbackoff, excessOf, shareComposite, ← hcomposite, hc, Int.toNat_eq_max]
    exact max_comm _ _
  · rw [hbackoff, excessOf, shareComposite, ← hcomposite, hn]
    rfl
  · rw [hcomposite, ← excessOf_lt (Int.natCast_nonneg bmax)]
    have hexcess : b.excess = (!b.contributors.isEmpty && decide ((bmax : Int) < excessOf keff b.contributors)) := rfl
    rw [hexcess, Bool.and_eq_true, decide_eq_true_eq]
    refine ⟨fun h => h.2, fun h => ⟨?_, h⟩⟩
    cases hc : b.contributors with
    | nil =>
      rw [hc] at h
      exact absurd h (by simp [excessOf, shareComposite, composite, sortLevels])
    | cons => rfl
  · change (bmax : Int) < excessOf keff b.contributors
    rw [hbackoff] at hlt
    omega
  · exact (excessOf_lt (Int.natCast_nonneg bmax)).1 (hneeded l x h)
  · rw [hrestored, if_neg (by simpa using hne)]
  · have hall : b.contributors.Perm unshed := by
      have := hperm
      change (b.contributors ++ b.newlyShed).Perm unshed at this
      rwa [hnil, List.append_nil] at this
    rw [hrestored, if_pos (by simp [hnil]), restoreTrial_iff hs, composite_perm ((hall.cons x).map Share.level)]

end Sys2Proof.Machine
end

section
/-! SUPPORT. A block period at a trunk port: the outcome of the frame window, alignment and counts, the blocks that EXT cuts and
what the assembler is given. The claims TrunkFrameAlignment, TrunkFrameBlocks and ServiceSegment. -/

namespace Sys2Proof.Machine

open Sys2Proof.Safety

/-! ### The outcome of a window (R2) -/

theorem trunkIdentity_eq (t : Trunk) : trunkIdentity t = if t = .A then 0x0A else 0x0B := by cases t <;> rfl

theorem trunkCheckHolds_iff (b : List Byte) : TrunkCheckHolds b ↔ checkMatches b 192040 = true := by
  rw [TrunkCheckHolds, checkMatches, Bool.and_eq_true, decide_eq_true_eq, beq_iff_eq]

theorem readTrunkFrame_read (b : List Byte) : FrameRead b (readTrunkFrame b) := by
  refine ⟨rfl, ⟨rfl, rfl⟩, ⟨readSamples_length _ _, fun k hk => ?_⟩, rfl⟩
  rw [readTrunkFrame, bandSamples, readSamples_getElem? _ _ _ hk, s16_drop, s16_drop]
  congr 3
  omega

theorem sortWindow_cases (t : Trunk) (b : List Byte) :
    (b.take 4 ≠ trunkSync → sortWindow t (some b) = .badSync) ∧
    (b.take 4 = trunkSync → byteAt b 4 ≠ trunkIdentity t → sortWindow t (some b) = .wrongIdentity) ∧
    (b.take 4 = trunkSync → byteAt b 4 = trunkIdentity t → checkMatches b 192040 ≠ true →
      sortWindow t (some b) = .damaged) ∧
    (b.take 4 = trunkSync → byteAt b 4 = trunkIdentity t → checkMatches b 192040 = true →
      sortWindow t (some b) = .good (readTrunkFrame b)) := by
  refine ⟨fun h => ?_, fun h hi => ?_, fun h hi hc => ?_, fun h hi hc => ?_⟩
  · rw [sortWindow, if_pos h]
  · rw [sortWindow, if_neg (not_not_intro h), if_pos hi]
  · rw [sortWindow, if_neg (not_not_intro h), if_neg (not_not_intro hi), if_pos (Bool.eq_false_iff.2 hc)]
  · rw [sortWindow, if_neg (not_not_intro h), if_neg (not_not_intro hi), if_neg (by rw [hc]; decide)]

/-! ### The port after an outcome (R3 to R8) -/

theorem isSlip_iff {p : Port} {f : TrunkFrame} : isSlip p f.number = true ↔ Slips p (.good f) := by
  cases h : p.align <;> simp [isSlip, Slips, h]

/-- The fields of a port that no outcome changes. -/
theorem takeOutcome_keeps (o : FrameOutcome) (p : Port) : (takeOutcome o p).revNumber = p.revNumber ∧
    (takeOutcome o p).outbox = p.outbox ∧ (takeOutcome o p).course = p.course ∧
    (takeOutcome o p).lastReverse = p.lastReverse ∧ (takeOutcome o p).asm = p.asm := by
  cases o <;> simp only [takeOutcome, takeFailure, takeDamaged, takeGood] <;> (repeat' split) <;> exact ⟨rfl, rfl, rfl, rfl, rfl⟩

theorem takeFailure_alignment {p : Port} {o : FrameOutcome} (h : o = .missing ∨ o = .badSync ∨ o = .wrongIdentity) :
    ((takeFailure p).align, (takeFailure p).reference, (takeFailure p).confirm, (takeFailure p).failures) =
      alignmentAfter p o := by
  cases ha : p.align with
  | flywheel =>
    have hspec : alignmentAfter p o = if p.failures + 1 < 4 then (.flywheel, some (expectedNumber p), p.confirm, p.failures + 1)
        else (.hunt, none, p.confirm, 0) := by
      rcases h with rfl | rfl | rfl <;> simp only [alignmentAfter, ha]
    rw [hspec]
    simp only [takeFailure, ha]
    by_cases hf : 4 ≤ p.failures + 1
    · rw [if_pos hf, if_neg hf.not_gt]
    · rw [if_neg hf, if_pos (not_le.1 hf)]
  | _ =>
    rcases h with rfl | rfl | rfl <;> simp only [takeFailure, alignmentAfter, ha]

theorem takeDamaged_alignment (p : Port) :
    ((takeDamaged p).align, (takeDamaged p).reference, (takeDamaged p).confirm, (takeDamaged p).failures) =
      alignmentAfter p .damaged := by
  cases ha : p.align <;> simp only [takeDamaged, alignmentAfter, ha] <;> rfl

/-- A port with the flags of a good frame copied and its slip counted (R6, R8). -/
def flagged (f : TrunkFrame) (p : Port) : Port := { p with
  overload := f.overload
  alarm := f.alarm
  slips := if isSlip p f.number = true then min 65535 (p.slips + 1) else p.slips }

/-- A good frame in CONFIRM (R4). -/
theorem takeGood_confirm {f : TrunkFrame} {p : Port} (h : p.align = .confirm) : takeGood f p =
    if f.number = expectedNumber p then
      if p.confirm + 1 ≥ 2 then { flagged f p with align := .sync, reference := some f.number, confirm := 0 }
      else { flagged f p with reference := some f.number, confirm := p.confirm + 1 }
    else { flagged f p with align := .hunt, reference := none, confirm := 0 } := by
  simp only [takeGood, flagged, satInc, h]
  rfl

theorem takeGood_alignment (f : TrunkFrame) (p : Port) :
    ((takeGood f p).align, (takeGood f p).reference, (takeGood f p).confirm, (takeGood f p).failures) =
      alignmentAfter p (.good f) := by
  cases ha : p.align with
  | confirm =>
    rw [takeGood_confirm ha]
    simp only [alignmentAfter, ha, ne_eq, Option.some.injEq]
    by_cases hn : f.number = expectedNumber p
    · rw [if_pos hn, if_neg (not_not_intro hn)]
      by_cases hc : p.confirm = 0
      · rw [if_neg (by omega), if_pos hc]
        simp only [flagged, ha, hc]
      · rw [if_pos (by omega), if_neg hc]
        rfl
    · rw [if_neg hn, if_pos hn]
      rfl
  | _ => simp only [takeGood, alignmentAfter, ha]

theorem takeOutcome_alignment (o : FrameOutcome) (p : Port) : ((takeOutcome o p).align, (takeOutcome o p).reference,
    (takeOutcome o p).confirm, (takeOutcome o p).failures) = alignmentAfter p o := by
  cases o with
  | missing => exact takeFailure_alignment (.inl rfl)
  | badSync => exact takeFailure_alignment (.inr (.inl rfl))
  | wrongIdentity => exact takeFailure_alignment (.inr (.inr rfl))
  | damaged => exact takeDamaged_alignment p
  | good f => exact takeGood_alignment f p

theorem takeFailure_counts (p : Port) : (takeFailure p).damage = p.damage ∧ (takeFailure p).slips = p.slips ∧
    (takeFailure p).overload = p.overload ∧ (takeFailure p).alarm = p.alarm := by
  simp only [takeFailure]
  repeat' split
  all_goals exact ⟨rfl, rfl, rfl, rfl⟩

theorem takeDamaged_counts (p : Port) : (takeDamaged p).damage = min 65535 (p.damage + 1) ∧ (takeDamaged p).slips = p.slips ∧
    (takeDamaged p).overload = p.overload ∧ (takeDamaged p).alarm = p.alarm := by
  simp only [takeDamaged]
  split <;> exact ⟨rfl, rfl, rfl, rfl⟩

theorem takeGood_counts (f : TrunkFrame) (p : Port) : (takeGood f p).damage = p.damage ∧
    (takeGood f p).slips = (if isSlip p f.number = true then min 65535 (p.slips + 1) else p.slips) ∧
    (takeGood f p).overload = f.overload ∧ (takeGood f p).alarm = f.alarm := by
  simp only [takeGood]
  repeat' split
  all_goals exact ⟨rfl, rfl, rfl, rfl⟩

/-- The counts and flags of a port after an outcome, as R6 to R8 give them. -/
def CountsAfter (o : FrameOutcome) (p q : Port) : Prop :=
  q.damage = (if o = .damaged then min 65535 (p.damage + 1) else p.damage) ∧
  (Slips p o → q.slips = min 65535 (p.slips + 1)) ∧ (¬Slips p o → q.slips = p.slips) ∧
  (∀ f, o = .good f → q.overload = f.overload ∧ q.alarm = f.alarm) ∧
  ((∀ f, o ≠ .good f) → q.overload = p.overload ∧ q.alarm = p.alarm)

theorem not_slips {p : Port} {o : FrameOutcome} (h : ∀ f, o ≠ .good f) : ¬Slips p o := fun ⟨f, hf, _⟩ => h f hf

theorem countsAfter_failure {o : FrameOutcome} (hno : ∀ f, o ≠ .good f) (hd : o ≠ .damaged) (p : Port) :
    CountsAfter o p (takeFailure p) := by
  obtain ⟨h1, h2, h3, h4⟩ := takeFailure_counts p
  exact ⟨h1.trans (if_neg hd).symm, fun hs => absurd hs (not_slips hno), fun _ => h2, fun f hf => absurd hf (hno f),
    fun _ => ⟨h3, h4⟩⟩

theorem takeOutcome_counts (o : FrameOutcome) (p : Port) : CountsAfter o p (takeOutcome o p) := by
  cases o with
  | damaged =>
    obtain ⟨h1, h2, h3, h4⟩ := takeDamaged_counts p
    exact ⟨h1, fun hs => absurd hs (not_slips nofun), fun _ => h2, nofun, fun _ => ⟨h3, h4⟩⟩
  | good f =>
    obtain ⟨h1, h2, h3, h4⟩ := takeGood_counts f p
    refine ⟨h1, fun hs => h2.trans (if_pos (isSlip_iff.2 hs)), fun hs => h2.trans (if_neg (mt isSlip_iff.1 hs)), ?_,
      fun hno => absurd rfl (hno f)⟩
    intro g hg
    cases hg
    exact ⟨h3, h4⟩
  | _ => exact countsAfter_failure (by simp) (by simp) p

/-! ### The command -/

/-- The port after a block period, and what else the command leaves. -/
theorem takeTrunkOutcome_port (t : Trunk) (o : FrameOutcome) (s : State) :
    portOf (takeTrunkOutcome t o s) t =
      { (takeOutcome o (portOf s t)) with asm := (feedAssembler t (portOf s t) (takeOutcome o (portOf s t)) o s.svc).1 } ∧
    (∀ x, x ≠ t → portOf (takeTrunkOutcome t o s) x = portOf s x) ∧
    (takeTrunkOutcome t o s).svc = (feedAssembler t (portOf s t) (takeOutcome o (portOf s t)) o s.svc).2 ∧
    (takeTrunkOutcome t o s).ext = { s.ext with
      waiting := s.ext.waiting ++ cutBlocks s.free t o (blockQuality (portOf s t) (takeOutcome o (portOf s t)) o) s.ext } := by
  refine ⟨?_, fun x hx => ?_, ?_, ?_⟩ <;> simp only [takeTrunkOutcome]
  · simp
  · simp [hx]
  · simp
  · simp

/-- Settles O14: the outcome is one of the ladder of Table 1-2, and the port steps by it. -/
theorem trunkFrameAlignment : Obligations.TrunkFrameAlignment := by
  refine ⟨fun t b => ?_, fun t w s h => ⟨_, exec_released h _, ?_⟩⟩
  · obtain ⟨hsync, hidentity, hdamaged, hgood⟩ := sortWindow_cases t b
    dsimp only
    rw [← trunkIdentity_eq, trunkCheckHolds_iff]
    exact ⟨rfl, hsync, hidentity, hdamaged, fun h1 h2 h3 => ⟨_, hgood h1 h2 h3, readTrunkFrame_read b⟩⟩
  · obtain ⟨hport, hother, hsvc, -⟩ := takeTrunkOutcome_port t (sortWindow t w) s
    obtain ⟨h1, h2, h3, h4, -⟩ := takeOutcome_keeps (sortWindow t w) (portOf s t)
    obtain ⟨hdamage, hslip, hnoslip, hgood, hbad⟩ := takeOutcome_counts (sortWindow t w) (portOf s t)
    obtain ⟨hpend, hreset, hpln, hctx, hdst, hcmb, htxs, hmon, -⟩ := takeTrunkOutcome_frame t (sortWindow t w) s
    dsimp only
    rw [effect, hport, hsvc, feedAssembler_notices]
    exact ⟨takeOutcome_alignment _ _, hdamage, hslip, hnoslip, hgood, hbad, h1, h2, h3, h4, hother, hpln, hctx, hdst, hcmb, htxs,
      hmon, rfl, hpend, hreset.trans h⟩

/-! ### The blocks that EXT cuts (R9, R14 to R16) -/

theorem blockQuality_is (p : Port) (o : FrameOutcome) {q : Port} :
    QualityIs p o q.align (blockQuality p q o) := by
  cases ha : q.align with
  | sync =>
    cases o with
    | good f =>
      have hiff : (isSlip p f.number || f.overload || f.alarm) = true ↔
          ¬∃ g, FrameOutcome.good f = .good g ∧ ¬Slips p (.good f) ∧ g.overload = false ∧ g.alarm = false := by
        rw [Bool.or_eq_true, Bool.or_eq_true, isSlip_iff]
        constructor
        · rintro h ⟨g, hg, hs, ho, ha⟩
          cases hg
          simp [hs, ho, ha] at h
        · intro h
          by_contra hno
          simp only [not_or, Bool.not_eq_true] at hno
          exact h ⟨f, rfl, hno.1.1, hno.1.2, hno.2⟩
      simp only [blockQuality, ha]
      by_cases h : (isSlip p f.number || f.overload || f.alarm) = true
      · rw [if_pos h]
        exact ⟨rfl, hiff.1 h⟩
      · rw [if_neg h]
        exact ⟨rfl, not_not.1 (mt hiff.2 h)⟩
    | _ =>
      simp only [blockQuality, ha]
      exact ⟨rfl, by rintro ⟨f, hf, -⟩; cases hf⟩
  | _ =>
    simp only [blockQuality, ha]
    exact fun h => nomatch h

theorem cutBlocks_eq (n : Nat) (t : Trunk) (o : FrameOutcome) (q : Quality) (x : Ext) : cutBlocks n t o q x =
    (tapsOf t x).map fun tap => ⟨tap.owner, tap.role, x.periodGen, cutBlock n o q tap⟩ := by
  rw [cutBlocks, tapsOf]
  induction x.periodRows.toList.filterMap id with
  | nil => rfl
  | cons tap rest ih => by_cases h : tap.trunk = t <;> simp [h, ih]

theorem extracted_length (n : Nat) (band : List Sample) (start width : Nat) :
    (extracted n band start width).length = 500 * width := by
  rw [extracted, List.length_map, List.length_range, Nat.mul_comm]

theorem cutBlock_good (n : Nat) (f : TrunkFrame) (tap : Tap) : cutBlock n (.good f) .good tap =
    ⟨extracted n f.band tap.start tap.width, .good, some (levelOfSamples (extracted n f.band tap.start tap.width))⟩ := rfl

theorem cutBlock_bad {n : Nat} {o : FrameOutcome} {q : Quality} (h : q ≠ .good) (tap : Tap) :
    cutBlock n o q tap = ⟨silence (500 * tap.width), q, none⟩ := by
  rw [Nat.mul_comm]
  cases q with
  | good => exact absurd rfl h
  | _ => rfl

theorem cutBy_cutBlock {p : Port} {o : FrameOutcome} {a : Align} {q : Quality} (hq : QualityIs p o a q) (n gen : Nat) (tap : Tap) :
    CutBy gen q tap ⟨tap.owner, tap.role, gen, cutBlock n o q tap⟩ := by
  by_cases hg : q = .good
  · subst hg
    obtain ⟨-, f, rfl, -⟩ := hq
    rw [cutBlock_good]
    exact ⟨rfl, rfl, rfl, rfl, extracted_length .., fun h => absurd rfl h, fun _ => rfl⟩
  · rw [cutBlock_bad hg]
    exact ⟨rfl, rfl, rfl, rfl, by simp [silence], fun _ => ⟨rfl, rfl⟩, fun h => absurd h hg⟩

theorem decimated_silent (rounding : Bool × Bool) (total : Nat) {lines : List Sample} (h : ∀ z ∈ lines, z = ⟨0, 0⟩) (i : Nat) :
    decimated rounding total lines i = ⟨0, 0⟩ := by
  have hsum : ofLines lines lines.length i = ⟨0, 0⟩ := sumSamples_silent (mapIdx_silent _ h)
  have hround (up : Bool) (one : Int) : roundEither up one 0 = 0 := by cases up <;> simp [roundEither]
  simp only [decimated, hsum, hround]

/-- The blocks of a frame whose band is silent are silent. -/
theorem extracted_silent (n : Nat) {band : List Sample} (h : ∀ z ∈ band, z = ⟨0, 0⟩) (start width : Nat) :
    extracted n band start width = silence (500 * width) := by
  have hlines := rangeLines_silent (width * 500) (mapIdx_silent
    (fun i => unitOfTurn (turnAt (Config.extractPhase n start width) (basebandHz start width) i)) h)
  rw [extracted, silence, List.eq_replicate_iff]
  refine ⟨by simp [Nat.mul_comm], fun z hz => ?_⟩
  obtain ⟨i, -, rfl⟩ := List.mem_map.1 hz
  exact decimated_silent _ _ hlines i

/-- Settles O15: one block is cut for each tap of the trunk in the period's table. -/
theorem trunkFrameBlocks : Obligations.TrunkFrameBlocks := by
  intro t w s h
  obtain ⟨hport, -, -, hext⟩ := takeTrunkOutcome_port t (sortWindow t w) s
  rw [cutBlocks_eq] at hext
  have hq := blockQuality_is (portOf s t) (sortWindow t w) (q := takeOutcome (sortWindow t w) (portOf s t))
  generalize hquality : blockQuality (portOf s t) (takeOutcome (sortWindow t w) (portOf s t)) (sortWindow t w) = q at hq hext
  have hcut {tap : Tap} {f : TrunkFrame} (hf : sortWindow t w = .good f) (hg : q = .good) :
      (cutBlock s.free (sortWindow t w) q tap).samples = extracted s.free f.band tap.start tap.width := by
    rw [hf, hg, cutBlock_good]
  have hatt {i : Nat} {a : Tap} {x : Waiting} (ha : (tapsOf t s.ext)[i]? = some a)
      (hx : ((tapsOf t s.ext).map fun tap => (⟨tap.owner, tap.role, s.ext.periodGen, cutBlock s.free (sortWindow t w) q tap⟩ :
        Waiting))[i]? = some x) : x.block = cutBlock s.free (sortWindow t w) q a := by
    rw [List.getElem?_map, ha] at hx
    cases hx
    rfl
  refine ⟨_, _, q, exec_released h _, hext, by rwa [effect, hport], ?_, fun f hf hg => ?_, fun f hf hsilent x hx => ?_,
    fun i j a b x y ha hb hx hy hstart hwidth => ?_⟩
  · rw [List.forall₂_map_right_iff, List.forall₂_same]
    exact fun tap _ => cutBy_cutBlock hq _ _ tap
  · rw [List.forall₂_map_right_iff, List.forall₂_same]
    exact fun tap _ => hcut hf hg
  · obtain ⟨tap, -, rfl⟩ := List.mem_map.1 hx
    by_cases hg : q = .good
    · rw [hcut hf hg, extracted_silent _ hsilent]
      simp [silence]
    · rw [cutBlock_bad hg]
      simp [silence]
  · rw [hatt ha hx, hatt hb hy]
    by_cases hg : q = .good
    · obtain ⟨f, hf⟩ : ∃ f, sortWindow t w = .good f := by
        rw [hg] at hq
        exact ⟨_, hq.2.choose_spec.1⟩
      rw [hf, hg, cutBlock_good, cutBlock_good, hstart, hwidth]
    · rw [cutBlock_bad hg, cutBlock_bad hg, hwidth]

/-! ### What the assembler is given (R10, R156 to R159) -/

theorem segmentLost_eq (a : Assembler) (v : Svc) : segmentLost a v = afterLoss a v := by
  rw [segmentLost, afterLoss]
  cases a.phase <;> rfl

theorem feedAssembler_good {t : Trunk} {p q : Port} {f : TrunkFrame} {v : Svc} (h : q.align = .sync) :
    (¬Slips p (.good f) → feedAssembler t p q (.good f) v = takeBytes t f.segment q.asm v) ∧
    (Slips p (.good f) → feedAssembler t p q (.good f) v =
      takeBytes t f.segment (afterLoss q.asm v).1 (afterLoss q.asm v).2) := by
  refine ⟨fun hs => ?_, fun hs => ?_⟩
  · simp only [feedAssembler, if_pos h, if_neg (mt isSlip_iff.1 hs)]
  · simp only [feedAssembler, if_pos h, if_pos (isSlip_iff.2 hs), segmentLost_eq]

theorem feedAssembler_lost {t : Trunk} {p q : Port} {o : FrameOutcome} {v : Svc}
    (h : (∀ f, o ≠ .good f) ∨ q.align ≠ .sync) : feedAssembler t p q o v = afterLoss q.asm v := by
  rw [← segmentLost_eq]
  cases o with
  | good f =>
    have hs := h.resolve_left fun hno => hno f rfl
    simp only [feedAssembler, if_neg hs]
  | _ => rfl

theorem takeBytes_fill (t : Trunk) (n : Nat) (v : Svc) : takeBytes t (List.replicate n 0) searching v = (searching, v) := by
  induction n with
  | zero => rfl
  | succ n ih => exact ih

/-- The bytes up to the length (R156): a header, or a message whose length is out of range. -/
theorem takeBytes_header (t : Trunk) (h l : Byte) (v : Svc) : takeBytes t [0xC5, 0x3A, h, l] searching v =
    if 8 ≤ h.toNat * 256 + l.toNat ∧ h.toNat * 256 + l.toNat ≤ 512
    then (⟨.collect, [0xC5, 0x3A, h, l], some (h.toNat * 256 + l.toNat)⟩, v) else (searching, countLost v) := by
  have hmarked : takeBytes t [0xC5, 0x3A, h] searching v = (⟨.header, [0xC5, 0x3A, h], none⟩, v) := rfl
  rw [show [0xC5, 0x3A, h, l] = [0xC5, 0x3A, h] ++ [l] from rfl, takeBytes_append, hmarked]
  have hlength : u16 [0xC5, 0x3A, h, l] 2 = h.toNat * 256 + l.toNat := rfl
  simp only [takeBytes, asmByte, List.cons_append, List.nil_append, List.length_cons, List.length_nil, hlength]
  rw [if_neg (by omega), if_neg (by omega)]
  split <;> rfl

theorem countLost_eq (v : Svc) : countLost v = { v with lost := min 255 (v.lost + 1) } := rfl

/-- A message taken byte by byte by an assembler in SEARCH: its check decides (R157). -/
theorem takeBytes_message (t : Trunk) (h l : Byte) (rest : List Byte) (v : Svc) (hlen : h.toNat * 256 + l.toNat = rest.length + 4)
    (hlo : 4 ≤ rest.length) (hhi : rest.length ≤ 508) : takeBytes t (0xC5 :: 0x3A :: h :: l :: rest) searching v =
      (searching, takeAsmEvent t (.complete (0xC5 :: 0x3A :: h :: l :: rest)) v) := by
  rw [show (0xC5 : Byte) :: 0x3A :: h :: l :: rest = [0xC5, 0x3A, h, l] ++ rest from rfl, takeBytes_append, takeBytes_header,
    if_pos (by omega)]
  exact takeBytes_complete t _ v rest _ (by rintro rfl; simp at hlo) (by simp only [List.length_cons, List.length_nil]; omega)

theorem messageGood_eq (a b : Byte) (x check : List Byte) (h : check.length = 2) :
    messageGood (a :: b :: (x ++ check)) = (check == checkField x) := by
  have hlen : (a :: b :: (x ++ check)).length = x.length + 4 := by simp [h]
  have hcovered : ((a :: b :: (x ++ check)).drop 2).take (x.length + 4 - 4) = x := by simp
  have hcheck : (a :: b :: (x ++ check)).drop (x.length + 4 - 2) = check := by simp
  rw [messageGood, hlen, hcovered, hcheck]

/-- Settles O18: the segment of a good frame that leaves the port in SYNC, a loss in every other case. -/
theorem serviceSegment : Obligations.ServiceSegment := by
  refine ⟨fun t w s h => ⟨_, exec_released h _, ?_⟩, takeBytes_fill, fun t h l v hlen => ?_,
    fun t h l covered check v hcheck hlen hlo hhi hne => ?_⟩
  · obtain ⟨hport, -, hsvc, -⟩ := takeTrunkOutcome_port t (sortWindow t w) s
    have hasm := (takeOutcome_keeps (sortWindow t w) (portOf s t)).2.2.2.2
    rw [effect]
    simp only [hsvc, hport]
    refine ⟨fun f hf hs hno => ?_, fun f hf hs hslip => ?_, fun hlost => ?_⟩
    · rw [hf] at hs hno hasm ⊢
      rw [(feedAssembler_good hs).1 hno, hasm]
    · rw [hf] at hs hslip hasm ⊢
      rw [(feedAssembler_good hs).2 hslip, hasm]
    · rw [feedAssembler_lost hlost, hasm]
  · rw [takeBytes_header, if_neg (by omega), countLost_eq]
  · rw [show 0xC5 :: 0x3A :: h :: l :: covered ++ check = 0xC5 :: 0x3A :: h :: l :: (covered ++ check) from rfl,
      takeBytes_message t h l (covered ++ check) v (by rw [List.length_append]; omega) (by rw [List.length_append]; omega)
        (by rw [List.length_append]; omega)]
    have hbad : messageGood (0xC5 :: 0x3A :: h :: l :: (covered ++ check)) = false := by
      rw [← List.cons_append, ← List.cons_append, messageGood_eq _ _ _ _ hcheck]
      exact beq_eq_false_iff_ne.2 hne
    rw [takeAsmEvent, hbad]
    rfl

end Sys2Proof.Machine
end

section
/-! SUPPORT. Frames and messages as bytes: the check bit by bit, what every frame has in common, the round trip of a message, the
reverse frame with the message that it carries, and the notice that leaves. The claims MessageRoundTrip, ReverseFrame and
NoticeSending. -/

namespace Sys2Proof.Machine

open Sys2Proof.Safety

/-! ### The check (R169) -/

/-- One shift of the register with a byte's bits already added: the bit at the top decides, the rest moves up. -/
theorem crcShift_xor (c x : BitVec 16) : crcShift (c ^^^ x) = checkBit c x.msb ^^^ (x <<< 1) := by
  rw [crcShift, checkBit, BitVec.msb_xor, BitVec.shiftLeft_xor_distrib]
  split
  · rw [BitVec.xor_assoc, BitVec.xor_assoc, BitVec.xor_comm (x <<< 1)]
  · rfl

/-- Bit `i` of a byte, counted from the highest, is at the top of the register once the byte has been moved up by `i`. -/
theorem msb_byte (b : Byte) : ∀ i < 8, ((b.setWidth 16 <<< 8) <<< i).msb = b.getLsbD (7 - i) := by
  intro i hi
  rw [BitVec.msb_eq_getLsbD_last, ← BitVec.shiftLeft_add, BitVec.getLsbD_shiftLeft, BitVec.getLsbD_setWidth]
  have h1 : ¬(16 - 1 < 8 + i) := by omega
  have h2 : 16 - 1 - (8 + i) = 7 - i := by omega
  have h3 : 7 - i < 16 := by omega
  simp [h1, h2, h3]

theorem crcByte_eq (c : BitVec 16) (b : Byte) :
    crcByte c b = ((List.range 8).map fun i => b.getLsbD (7 - i)).foldl checkBit c := by
  have hbit := msb_byte b
  have hout : (b.setWidth 16 <<< 8) <<< 8 = 0#16 := by
    rw [← BitVec.shiftLeft_add]
    exact BitVec.shiftLeft_eq_zero (by decide)
  have hfirst : (b.setWidth 16 <<< 8).msb = b.getLsbD 7 := by simpa using hbit 0 (by decide)
  have hmap : ((List.range 8).map fun i => b.getLsbD (7 - i)) = [b.getLsbD 7, b.getLsbD 6, b.getLsbD 5, b.getLsbD 4, b.getLsbD 3,
    b.getLsbD 2, b.getLsbD 1, b.getLsbD 0] := rfl
  rw [hmap]
  simp only [crcByte, crcShift_xor, ← BitVec.shiftLeft_add (b.setWidth 16 <<< 8), hfirst, List.foldl_cons, List.foldl_nil]
  simp only [Nat.reduceAdd, hout, BitVec.xor_zero, hbit 1 (by decide), hbit 2 (by decide), hbit 3 (by decide), hbit 4 (by decide),
    hbit 5 (by decide), hbit 6 (by decide), hbit 7 (by decide), Nat.reduceSub]

theorem crc_eq_checkRegister (b : List Byte) : crc b = checkRegister b := by
  have hfold (l : List Byte) : ∀ c : BitVec 16, l.foldl crcByte c =
      (l.flatMap fun b => (List.range 8).map fun i => b.getLsbD (7 - i)).foldl checkBit c := by
    induction l with
    | nil => exact fun _ => rfl
    | cons x rest ih =>
      intro c
      rw [List.foldl_cons, crcByte_eq, ih, List.flatMap_cons, List.foldl_append]
  exact hfold b _

theorem checkField_length (b : List Byte) : (checkField b).length = 2 := rfl

theorem u16_checkField (b : List Byte) : u16 (checkField b) 0 = (checkRegister b).toNat := by
  have h := u16_field16 (crc b).toNat []
  rw [List.append_nil] at h
  rw [checkField, h, crc_eq_checkRegister, min_eq_left (Nat.le_of_lt_succ (checkRegister b).isLt)]

/-! ### What frames and messages have in common -/

theorem framed_of (pattern covered : List Byte) :
    Framed (pattern ++ covered ++ checkField covered) pattern (pattern.length + covered.length) := by
  refine ⟨by simp [checkField_length, Nat.add_assoc], by rw [List.append_assoc, List.take_left], ?_⟩
  rw [← List.length_append, List.drop_left, List.take_left, List.drop_left]

theorem field16_length (n : Nat) : (field16 n).length = 2 := rfl

theorem u16_succ (x : Byte) (l : List Byte) (i : Nat) : u16 (x :: l) (i + 1) = u16 l i := by
  rw [u16, u16, u8_succ, u8_succ]

/-! ### The round trip of a message (R156, R157, R160) -/

/-- The bytes of a message between the start marker and the check. -/
def coveredBytes (tag kind : Nat) (body : List Byte) : List Byte :=
  highByte (body.length + 8) :: lowByte (body.length + 8) :: byteOf tag :: byteOf kind :: body

theorem messageBytes_eq (tag kind : Nat) (body : List Byte) : messageBytes tag kind body =
    0xC5 :: 0x3A :: (coveredBytes tag kind body ++ checkField (coveredBytes tag kind body)) := rfl

theorem byteOf_byte (b : Byte) : byteOf b.toNat = b := by
  rw [byteOf, min_eq_left (Nat.le_of_lt_succ b.isLt), BitVec.ofNat_toNat, BitVec.setWidth_eq]

theorem messageRequest_messageBytes (t : Trunk) (tag kind : Byte) (body : List Byte) :
    messageRequest t (messageBytes tag.toNat kind.toNat body) = ⟨t, tag, kind, body⟩ := by
  have hlen : (messageBytes tag.toNat kind.toNat body).length - 8 = body.length := by
    rw [messageBytes_eq]
    simp [coveredBytes, checkField_length]
  rw [messageRequest, hlen, messageBytes_eq, coveredBytes, byteOf_byte, byteOf_byte]
  simp [byteAt]

/-- Settles O17: the assembler gathers the message, and its own check holds. -/
theorem messageRoundTrip : Obligations.MessageRoundTrip := by
  refine ⟨fun t tag kind body v h => ?_, fun tag kind body h => ?_, fun b => ⟨checkField_length b, u16_checkField b⟩, by decide +kernel⟩
  · have hword := word_toNat (body.length + 8)
    rw [min_eq_left (by omega)] at hword
    have hrequest := messageRequest_messageBytes t tag kind body
    have hgood := messageGood_eq 0xC5 0x3A (coveredBytes tag.toNat kind.toNat body)
      (checkField (coveredBytes tag.toNat kind.toNat body)) (checkField_length _)
    rw [← messageBytes_eq, beq_self_eq_true] at hgood
    have htake := takeBytes_message t (highByte (body.length + 8)) (lowByte (body.length + 8))
      (byteOf tag.toNat :: byteOf kind.toNat :: body ++ checkField (coveredBytes tag.toNat kind.toNat body)) v
      (by simp [hword, checkField_length]) (by simp [checkField_length]) (by simp [checkField_length]; omega)
    refine htake.trans (congrArg (Prod.mk searching) ?_)
    change takeAsmEvent t (.complete (messageBytes tag.toNat kind.toNat body)) v = _
    rw [takeAsmEvent, hgood, if_pos rfl, hrequest]
    rfl
  · have hlen : (coveredBytes tag.toNat kind.toNat body).length = 4 + body.length := by simp [coveredBytes]; omega
    have hframed := framed_of [0xC5, 0x3A] (coveredBytes tag.toNat kind.toNat body)
    have hword := word_toNat (body.length + 8)
    rw [min_eq_left (by omega)] at hword
    rw [hlen] at hframed
    have hbytes : [0xC5, 0x3A] ++ coveredBytes tag.toNat kind.toNat body ++ checkField (coveredBytes tag.toNat kind.toNat body) =
      messageBytes tag.toNat kind.toNat body := rfl
    rw [hbytes] at hframed
    dsimp only
    have hlength := hframed.length
    refine ⟨by convert hframed using 1; simp; omega, ?_, ?_, ?_, ?_⟩
    · rw [hlength, messageBytes_eq, u16_succ, u16_succ, coveredBytes]
      exact hword.trans (by simp; omega)
    · rw [messageBytes_eq, coveredBytes, byteOf_byte]
      rfl
    · rw [messageBytes_eq, coveredBytes, byteOf_byte, byteOf_byte]
      rfl
    · rw [messageBytes_eq, coveredBytes]
      simp

/-! ### The reverse frame (R11, R163, R165) -/

theorem reverseTrunkBytes_frame (number : Nat) (segment : List Byte) (h : segment.length = 32) :
    Framed (reverseTrunkBytes number segment) [0x3C, 0xA6, 0x59, 0xC3] 38 ∧
    u16 (reverseTrunkBytes number segment) 4 = min 65535 number ∧ ((reverseTrunkBytes number segment).drop 6).take 32 = segment := by
  have hframed := framed_of [0x3C, 0xA6, 0x59, 0xC3] (field16 number ++ segment)
  rw [List.length_append, field16_length, h] at hframed
  refine ⟨hframed, ?_, ?_⟩
  · rw [min_comm]
    exact word_toNat number
  · rw [← h]
    simp [reverseTrunkBytes, trunkSync, field16_bytes]

theorem padded_length (bytes : List Byte) : (padded bytes).length = 32 := by
  rw [padded, List.length_append, List.length_take, List.length_replicate]
  omega

/-- A segment is the next 32 bytes of the message in course, filled up (R163). -/
theorem segmentBytes_eq (c : Option Course) : segmentBytes c = padded (c.elim [] Course.bytes) := by
  cases c with
  | none => rfl
  | some c =>
    simp only [segmentBytes, padded, Option.elim, List.length_take]
    congr 2
    omega

section
variable {t : Trunk} {s : State}

/-- The course of a trunk once a message has begun, if one is due (R163). -/
def courseDue (t : Trunk) (s : State) : Option Course :=
  match (portOf s t).course, (portOf s t).outbox with
  | some c, _ => some c
  | none, some m => some ⟨m, true⟩
  | none, none =>
    if namesTrunk s.pln.activeSettings.noticeTrunk t = true ∧ (portOf s t).align = .sync then
      (s.svc.notices.find? (fun n => !sentMark n t)).map fun n => ⟨noticeMessage n.content, false⟩
    else none

theorem messageDue_eq (t : Trunk) (s : State) : messageDue t s = (courseDue t s).elim [] Course.bytes := by
  rw [messageDue, courseDue]
  cases (portOf s t).course with
  | some c => rfl
  | none =>
    cases (portOf s t).outbox with
    | some m => rfl
    | none =>
      dsimp only
      split
      · cases s.svc.notices.find? (fun n => !sentMark n t) <;> rfl
      · rfl

theorem beginMessage_eq (t : Trunk) (s : State) : beginMessage t s =
    setPort t { (portOf s t) with course := courseDue t s } { s with svc := { s.svc with notices := noticesAfter t s } } := by
  have hself (q : List Notice) (hq : q = s.svc.notices) (c : Option Course) (hc : (portOf s t).course = c)
      (o : Option (List Byte)) (ho : (portOf s t).outbox = o) :
      s = setPort t { (portOf s t) with course := c, outbox := o } { s with svc := { s.svc with notices := q } } := by
    subst hq hc ho
    exact (setPort_self t s).symm
  cases hc : (portOf s t).course with
  | some c =>
    simp only [beginMessage, courseDue, noticesAfter, hc]
    exact hself _ rfl _ hc _ rfl
  | none =>
    cases ho : (portOf s t).outbox with
    | some m => simp only [beginMessage, courseDue, noticesAfter, hc, ho]
    | none =>
      simp only [beginMessage, courseDue, noticesAfter, hc, ho, Bool.and_eq_true, beq_iff_eq, nextNotice]
      by_cases hn : namesTrunk s.pln.activeSettings.noticeTrunk t = true ∧ (portOf s t).align = .sync
      · simp only [if_pos hn]
        cases s.svc.notices.find? (fun n => !sentMark n t) with
        | none => exact hself _ rfl _ hc _ ho
        | some n => cases t <;> rfl
      · simp only [if_neg hn]
        exact hself _ rfl _ hc _ ho

/-- What the message due is: the one in course, else the response, else a notice or nothing (R163). -/
theorem courseDue_cases (t : Trunk) (s : State) :
    (∃ c, (portOf s t).course = some c ∧ courseDue t s = some c) ∨
    ((portOf s t).course = none ∧ ∃ m, (portOf s t).outbox = some m ∧ courseDue t s = some ⟨m, true⟩) ∨
    ((portOf s t).course = none ∧ (portOf s t).outbox = none ∧
      (courseDue t s = none ∨ ∃ b, courseDue t s = some ⟨b, false⟩)) := by
  cases hc : (portOf s t).course with
  | some c => exact .inl ⟨c, rfl, by simp only [courseDue, hc]⟩
  | none =>
    cases ho : (portOf s t).outbox with
    | some m => exact .inr (.inl ⟨rfl, m, rfl, by simp only [courseDue, hc, ho]⟩)
    | none =>
      refine .inr (.inr ⟨rfl, rfl, ?_⟩)
      simp only [courseDue, hc, ho]
      split
      · cases s.svc.notices.find? (fun n => !sentMark n t) with
        | none => exact .inl rfl
        | some n => exact .inr ⟨_, rfl⟩
      · exact .inl rfl

/-- The port's course and outbox once the message due has given 32 bytes (R162, R163). -/
theorem advanceCourse_due (t : Trunk) (s : State) : advanceCourse { (portOf s t) with course := courseDue t s } = { (portOf s t) with
    course :=
      if (messageDue t s).length ≤ 32 then none
      else some ⟨(messageDue t s).drop 32, (portOf s t).course.elim (portOf s t).outbox.isSome Course.isResponse⟩
    outbox :=
      if (messageDue t s).length ≤ 32 ∧ (portOf s t).course.elim true Course.isResponse = true then none
      else (portOf s t).outbox } := by
  rw [messageDue_eq]
  generalize hp : portOf s t = p
  have hends (b : List Byte) : (b.drop 32).isEmpty = true ↔ b.length ≤ 32 := by
    rw [List.isEmpty_iff, List.drop_eq_nil_iff]
  rcases hp ▸ courseDue_cases t s with ⟨c, hc, hdue⟩ | ⟨hc, m, ho, hdue⟩ | ⟨hc, ho, hdue | ⟨b, hdue⟩⟩
  · simp only [advanceCourse, hdue, hc, Option.elim, hends]
    by_cases h : c.bytes.length ≤ 32
    · simp [h]
    · simp [h]
  · simp only [advanceCourse, hdue, hc, ho, Option.elim, hends]
    by_cases h : m.length ≤ 32 <;> simp [h]
  · simp [advanceCourse, hdue, hc, ho]
  · simp only [advanceCourse, hdue, hc, ho, Option.elim, hends]
    by_cases h : b.length ≤ 32 <;> simp [h]

theorem sendReverse_eq (t : Trunk) (s : State) : sendReverse t s = setPort t
    { (portOf s t) with
      revNumber := ((portOf s t).revNumber + 1) % 1024
      lastReverse := some (reverseTrunkBytes (portOf s t).revNumber (padded (messageDue t s)))
      course :=
        if (messageDue t s).length ≤ 32 then none
        else some ⟨(messageDue t s).drop 32, (portOf s t).course.elim (portOf s t).outbox.isSome Course.isResponse⟩
      outbox :=
        if (messageDue t s).length ≤ 32 ∧ (portOf s t).course.elim true Course.isResponse = true then none
        else (portOf s t).outbox }
    { s with svc := { s.svc with notices := noticesAfter t s } } := by
  rw [sendReverse, beginMessage_eq]
  simp only [portOf_setPort_same, setPort_setPort_same, advanceCourse_due, segmentBytes_eq, ← messageDue_eq]

end

/-- Settles O19: a frame carries the next bytes of the message due, whose beginning has been made in the same event. -/
theorem reverseFrame : Obligations.ReverseFrame :=
  ⟨reverseTrunkBytes_frame, padded_length, fun t s h => by rw [exec_released h, effect, sendReverse_eq]⟩

/-! ### Notices (R163 to R165) -/

theorem markSent_eq (t : Trunk) (n : Notice) : markSent t n = ⟨n.content, t == .A || n.sentA, t == .B || n.sentB⟩ := by
  cases t <;> rfl

theorem markSent_content (t : Trunk) (n : Notice) : (markSent t n).content = n.content := by cases t <;> rfl

/-- Of distinct notices, one that begins is marked, or gone when it has now been sent everywhere; the others stand (R165). -/
theorem sendNotice_at (setting : NoticeTrunk) (t : Trunk) {before after : List Notice} {n : Notice}
    (h : (before ++ n :: after).Pairwise fun a b => sameSource a.content b.content = false) :
    sendNotice setting t n.content (before ++ n :: after) = before ++
      (if fullySent setting (markSent t n) = true then after else markSent t n :: after) := by
  obtain ⟨-, hafter, hcross⟩ := List.pairwise_append.1 h
  obtain ⟨hn, -⟩ := List.pairwise_cons.1 hafter
  have hself : sameSource n.content n.content = true := beq_self_eq_true _
  have hstand {l : List Notice} (hl : ∀ x ∈ l, x.content ≠ n.content) :
      (l.map fun x => if x.content = n.content then markSent t x else x).filter
        (fun x => !(decide (x.content = n.content) && fullySent setting x)) = l := by
    have hmap : (l.map fun x => if x.content = n.content then markSent t x else x) = l := by
      conv_rhs => rw [← List.map_id l]
      exact List.map_congr_left fun x hx => if_neg (hl x hx)
    rw [hmap, List.filter_eq_self]
    intro x hx
    simp [hl x hx]
  have hbefore : ∀ x ∈ before, x.content ≠ n.content := fun x hx he => by
    have := hcross x hx n List.mem_cons_self
    rw [he, hself] at this
    cases this
  have hafter : ∀ x ∈ after, x.content ≠ n.content := fun x hx he => by
    have := hn x hx
    rw [he, hself] at this
    cases this
  rw [sendNotice, List.map_append, List.filter_append, hstand hbefore, List.map_cons, List.filter_cons, hstand hafter, if_pos rfl,
    markSent_content]
  cases fullySent setting (markSent t n) <;> simp

theorem find_oldest {t : Trunk} {n : Notice} (hn : sentMark n t = false) (after : List Notice) :
    ∀ {before : List Notice}, (∀ x ∈ before, sentMark x t = true) →
      (before ++ n :: after).find? (fun n => !sentMark n t) = some n
  | [], _ => by simp [hn]
  | x :: rest, h => by
    have hx := h x List.mem_cons_self
    rw [List.cons_append, List.find?_cons_of_neg (by simp [hx])]
    exact find_oldest hn after fun y hy => h y (List.mem_cons_of_mem _ hy)

theorem noticesAfter_stands {t : Trunk} {s : State} (h : (portOf s t).course ≠ none ∨ (portOf s t).outbox ≠ none ∨
      namesTrunk s.pln.activeSettings.noticeTrunk t = false ∨ (portOf s t).align ≠ .sync ∨
      (∀ x ∈ s.svc.notices, sentMark x t = true)) : noticesAfter t s = s.svc.notices := by
  cases hc : (portOf s t).course with
  | some c => simp only [noticesAfter, hc]
  | none =>
    cases ho : (portOf s t).outbox with
    | some m => simp only [noticesAfter, hc, ho]
    | none =>
      simp only [noticesAfter, hc, ho]
      rcases h with h | h | h | h | h
      · exact absurd hc h
      · exact absurd ho h
      · rw [if_neg (by simp [h])]
      · rw [if_neg (by simp [h])]
      · have hnone : s.svc.notices.find? (fun n => !sentMark n t) = none := by
          rw [List.find?_eq_none]
          intro x hx
          simp [h x hx]
        rw [hnone]
        exact ite_self _

theorem byteAt_append_right {l : List Byte} {n : Nat} (h : l.length = n) (m : List Byte) (i : Nat) :
    byteAt (l ++ m) (n + i) = byteAt m i := by
  rw [← byteAt_drop, ← h, List.drop_left]

/-- The body of PLAN-SWITCHED: the classes stand one to a byte behind the epoch. -/
theorem planNotice_report (epoch : Nat) (classes : List PosClass) (taps pages : Nat) :
    NoticeReport 0x82 (noticeBody (.plan epoch classes taps pages)) (.plan epoch classes taps pages) := by
  have hcodes : classes.flatMap (fun c => field8 c.code) = classes.map fun c => byteOf c.code := List.map_eq_flatMap.symm
  have hbody : noticeBody (.plan epoch classes taps pages) = highByte epoch :: lowByte epoch ::
      (classes.map (fun c => byteOf c.code) ++ [byteOf taps, highByte pages, lowByte pages]) := by
    rw [noticeBody, hcodes]
    simp [field8_bytes, field16_bytes]
  rw [hbody]
  refine ⟨rfl, word_field epoch, fun hlen => ?_⟩
  have htail := byteAt_append_right (l := highByte epoch :: lowByte epoch :: classes.map (fun c => byteOf c.code)) (n := 18)
    (by simp [hlen]) [byteOf taps, highByte pages, lowByte pages]
  refine ⟨by simp [hlen], fun i c hc => ?_, ?_, ?_⟩
  · obtain ⟨hi, -⟩ := List.getElem?_eq_some_iff.1 hc
    have hat : (classes.map (fun c => byteOf c.code) ++ [byteOf taps, highByte pages, lowByte pages])[i]? = some (byteOf c.code) := by
      rw [List.getElem?_append_left (by simpa using hi), List.getElem?_map, hc]
      rfl
    rw [Nat.add_comm, u8_succ, u8_succ, u8, byteAt, List.getD_eq_getElem?_getD, hat]
    cases c <;> rfl
  · exact (congrArg BitVec.toNat (htail 0)).trans (byte_field taps)
  · exact (congrArg₂ (fun x y : Byte => x.toNat * 256 + y.toNat) (htail 1) (htail 2)).trans (word_field pages)

theorem noticeReport (c : Content) : NoticeReport (noticeKind c) (noticeBody c) c := by
  cases c with
  | channel e st cause src expired shed failovers reason =>
    exact ⟨rfl, rfl, code_entry e, code_name st, code_cause cause, code_source src,
      flagField_of_byte rfl (Nat.le_of_ble_eq_true rfl), byte_field _, by cases reason <;> rfl⟩
  | transmit st keyed further refOk linkUp cause atten foldback =>
    exact ⟨rfl, rfl, code_seq st, flagField_of_byte rfl (Nat.le_of_ble_eq_true rfl), code_trip cause, word_field _, byte_field _⟩
  | plan epoch classes taps pages => exact planNotice_report epoch classes taps pages
  | memory overruns lines => exact ⟨rfl, rfl, byte_field _, byte_field _⟩
  | reset warm => exact ⟨rfl, rfl, by cases warm <;> rfl⟩

/-- Settles O20: the oldest notice due begins, and nothing else of the queue changes. -/
theorem noticeSending : Obligations.NoticeSending := by
  refine ⟨fun t s before n after h hd hc ho hn ha hq hsent hdue => ⟨_, exec_released h _, ?_, ?_⟩,
    fun t s h hwhy => ⟨_, exec_released h _, ?_⟩, fun c => ⟨_, _, rfl, noticeReport c⟩, rfl, rfl⟩
  · simp only [messageDue, hc, ho, hn, ha, hq, and_self, if_true, find_oldest hdue after hsent]
  · rw [effect, sendReverse_eq, setPort_svc, ← markSent_eq]
    have hdistinct : s.svc.notices.Pairwise fun a b => sameSource a.content b.content = false := hd
    rw [hq] at hdistinct
    simp only [noticesAfter, hc, ho, hn, ha, hq, and_self, if_true, find_oldest hdue after hsent]
    exact sendNotice_at _ t hdistinct
  · rw [effect, sendReverse_eq, setPort_svc, noticesAfter_stands hwhy]

end Sys2Proof.Machine
end

section
/-! SUPPORT. The exact arithmetic of levels and samples: the greatest number below a falling predicate, the rounding of levels and of
scaled components, the sample clamp, and the turns of a carrier. The claim LevelsAndScalingRound. -/

namespace Sys2Proof.Machine

open Sys2Proof.Safety

/-! ### Halving -/

/-- Halving finds the last number at which a falling predicate holds. -/
theorem bisect_spec {p : Nat → Bool} (hp : ∀ a b, a ≤ b → p b = true → p a = true) : ∀ (bits lo : Nat), p lo = true →
    p (bisect p bits lo) = true ∧ bisect p bits lo < lo + 2 ^ bits ∧
    ∀ m, bisect p bits lo < m → m < lo + 2 ^ bits → p m = false
  | 0, lo, hlo => ⟨hlo, by simp [bisect], fun m h1 h2 => by simp [bisect] at h1 h2; omega⟩
  | bits + 1, lo, hlo => by
    rw [bisect, Nat.pow_succ]
    by_cases hmid : p (lo + 2 ^ bits) = true
    · rw [if_pos hmid]
      obtain ⟨h1, h2, h3⟩ := bisect_spec hp bits (lo + 2 ^ bits) hmid
      exact ⟨h1, by omega, fun m hm hlt => h3 m hm (by omega)⟩
    · rw [if_neg hmid]
      obtain ⟨h1, h2, h3⟩ := bisect_spec hp bits lo hlo
      refine ⟨h1, by omega, fun m hm hlt => ?_⟩
      by_cases hlow : m < lo + 2 ^ bits
      · exact h3 m hm hlow
      · exact Bool.eq_false_iff.2 fun hm' => hmid (hp _ _ (not_lt.1 hlow) hm')

/-! ### Levels (R16, R141) -/

/-- The level of a ratio, clamped to 0 and -900, and rounded by the powers of ten on either side. -/
theorem levelOfRatio_spec (num den : Nat) : ∃ k : Nat, levelOfRatio num den = -(k : Int) ∧ k ≤ 900 ∧
    (0 < k → num ^ 200 * 10 ^ (2 * k - 1) < den ^ 200) ∧ (k < 900 → den ^ 200 ≤ num ^ 200 * 10 ^ (2 * k + 1)) := by
  obtain ⟨p, hpdef⟩ : ∃ p : Nat → Bool, p = fun n => n == 0 || !levelReaches num den (n - 1) := ⟨_, rfl⟩
  have hp (n : Nat) : p n = true ↔ (0 < n → num ^ 200 * 10 ^ (2 * n - 1) < den ^ 200) := by
    cases n with
    | zero => simp [hpdef]
    | succ n =>
      rw [hpdef, show 2 * (n + 1) - 1 = 2 * n + 1 by omega]
      simp [levelReaches]
  have hfalls (a b : Nat) (hab : a ≤ b) (hb : p b = true) : p a = true := by
    rw [hp] at hb ⊢
    exact fun ha => lt_of_le_of_lt (Nat.mul_le_mul_left _ (Nat.pow_le_pow_right (by decide) (by omega))) (hb (by omega))
  have hlevel : levelOfRatio num den = -((min 900 (bisect p 10 0) : Nat) : Int) := by rw [hpdef]; rfl
  obtain ⟨htrue, -, hfalse⟩ := bisect_spec hfalls 10 0 ((hp 0).2 fun h => absurd h (by decide))
  generalize bisect p 10 0 = n at htrue hfalse hlevel
  refine ⟨min 900 n, hlevel, min_le_left _ _, (hp _).1 (hfalls _ n (min_le_right _ _) htrue), fun hk => ?_⟩
  have hn : n < 900 := by omega
  rw [min_eq_right hn.le]
  have hno := hfalse (n + 1) (by omega) (by omega)
  by_contra hlt
  rw [← Bool.not_eq_true, hp] at hno
  exact hno fun _ => by rw [show 2 * (n + 1) - 1 = 2 * n + 1 by omega]; exact not_le.1 hlt

/-! ### Scaling (R77, R115) -/

theorem scaleFits_iff {g : Int} {x n : Nat} : scaleFits g x n = true ↔
    (0 < n → (2 * n - 1) ^ 200 * 10 ^ (-g).toNat ≤ (2 * x) ^ 200 * 10 ^ g.toNat) := by
  cases n with
  | zero => simp [scaleFits]
  | succ n => simp [scaleFits]

/-- The scaled magnitude lies below the bound of its search. -/
theorem scaleNat_bound (g : Int) (x : Nat) : (2 * x) ^ 200 * 10 ^ g.toNat < (2 ^ (Nat.log2 x + g.toNat / 60 + 3)) ^ 200 := by
  have hx : 2 * x ≤ 2 ^ (Nat.log2 x + 2) := by
    have := Nat.lt_log2_self (n := x)
    rw [Nat.pow_succ]
    omega
  have hten : (10 : Nat) ^ g.toNat < 2 ^ (200 * (g.toNat / 60 + 1)) := by
    have h60 : (10 : Nat) ^ 60 ≤ 2 ^ 200 := by norm_num
    have hsplit : 10 ^ g.toNat = (10 ^ 60) ^ (g.toNat / 60) * 10 ^ (g.toNat % 60) := by
      rw [← Nat.pow_mul, ← Nat.pow_add, Nat.div_add_mod]
    have hrest : (10 : Nat) ^ (g.toNat % 60) < 2 ^ 200 :=
      lt_of_lt_of_le (Nat.pow_lt_pow_right (by decide) (Nat.mod_lt _ (by decide))) h60
    rw [hsplit, Nat.mul_add, Nat.pow_add, Nat.pow_mul, Nat.mul_one]
    exact Nat.mul_lt_mul_of_le_of_lt (Nat.pow_le_pow_left h60 _) hrest (by positivity)
  calc (2 * x) ^ 200 * 10 ^ g.toNat
      < (2 ^ (Nat.log2 x + 2)) ^ 200 * 2 ^ (200 * (g.toNat / 60 + 1)) :=
        Nat.mul_lt_mul_of_le_of_lt (Nat.pow_le_pow_left hx _) hten (by positivity)
    _ = (2 ^ (Nat.log2 x + g.toNat / 60 + 3)) ^ 200 := by
        have hexp : (Nat.log2 x + 2) * 200 + 200 * (g.toNat / 60 + 1) = (Nat.log2 x + g.toNat / 60 + 3) * 200 := by omega
        rw [← Nat.pow_mul, ← Nat.pow_mul, ← Nat.pow_add, hexp]

theorem scaleNat_spec (g : Int) (x : Nat) :
    (0 < scaleNat g x → (2 * scaleNat g x - 1) ^ 200 * 10 ^ (-g).toNat ≤ (2 * x) ^ 200 * 10 ^ g.toNat) ∧
    (2 * x) ^ 200 * 10 ^ g.toNat < (2 * scaleNat g x + 1) ^ 200 * 10 ^ (-g).toNat := by
  have hfalls (a b : Nat) (hab : a ≤ b) (hb : scaleFits g x b = true) : scaleFits g x a = true := by
    rw [scaleFits_iff] at hb ⊢
    exact fun ha => (Nat.mul_le_mul_right _ (Nat.pow_le_pow_left (by omega) _)).trans (hb (by omega))
  obtain ⟨htrue, hlt, hfalse⟩ := bisect_spec hfalls (Nat.log2 x + g.toNat / 60 + 3) 0
    (scaleFits_iff.2 fun h => absurd h (by decide))
  have hbound := scaleNat_bound g x
  rw [show bisect (scaleFits g x) (Nat.log2 x + g.toNat / 60 + 3) 0 = scaleNat g x from rfl] at htrue hlt hfalse
  refine ⟨scaleFits_iff.1 htrue, ?_⟩
  rw [Nat.zero_add] at hlt hfalse
  by_cases hn : scaleNat g x + 1 < 2 ^ (Nat.log2 x + g.toNat / 60 + 3)
  · have hno := hfalse _ (Nat.lt_succ_self _) hn
    by_contra hle
    rw [← Bool.not_eq_true, scaleFits_iff] at hno
    exact hno fun _ => by rw [show 2 * (scaleNat g x + 1) - 1 = 2 * scaleNat g x + 1 by omega]; exact not_lt.1 hle
  · have hlast : 2 ^ (Nat.log2 x + g.toNat / 60 + 3) ≤ 2 * scaleNat g x + 1 := by omega
    exact (hbound.trans_le (Nat.pow_le_pow_left hlast _)).trans_le (Nat.le_mul_of_pos_right _ (by positivity))

theorem scaleComponent_spec (g : Int) (x : Nat) : scaleComponent g x = scaleNat g x ∧
    scaleComponent g (-(x : Int)) = -(scaleNat g x : Int) := by
  have hpos : ¬((x : Int) < 0) := by omega
  refine ⟨by rw [scaleComponent, if_neg hpos, Int.natAbs_natCast], ?_⟩
  rw [scaleComponent, Int.natAbs_neg, Int.natAbs_natCast]
  split
  · rfl
  · have hx : x = 0 := by omega
    subst hx
    have hzero : scaleNat g 0 = 0 := by
      by_contra hne
      have h := (scaleNat_spec g 0).1 (Nat.pos_of_ne_zero hne)
      have hpos : 0 < (2 * scaleNat g 0 - 1) ^ 200 * 10 ^ (-g).toNat :=
        Nat.mul_pos (Nat.pow_pos (by omega)) (Nat.pow_pos (by decide))
      rw [Nat.mul_zero, Nat.zero_pow (by decide), Nat.zero_mul] at h
      exact absurd h hpos.not_ge
    rw [hzero]
    rfl

/-! ### The clamp (R117) -/

/-- A component of a clamped sample: its sign stands, and its magnitude is the greatest that fits. -/
theorem clampComponent_spec {power : Nat} {c : Int} (hpow : 0 < power) (hc : c.natAbs ^ 2 ≤ power) :
    (0 ≤ c → 0 ≤ clampComponent power c) ∧ (c < 0 → clampComponent power c ≤ 0) ∧
    (clampComponent power c).natAbs ^ 2 * power ≤ (c.natAbs * 32767) ^ 2 ∧
    (c.natAbs * 32767) ^ 2 < ((clampComponent power c).natAbs + 1) ^ 2 * power := by
  obtain ⟨p, hpdef⟩ : ∃ p : Nat → Bool, p = fun n => decide (n ^ 2 * power ≤ (c.natAbs * fullScale) ^ 2) := ⟨_, rfl⟩
  have hp (n : Nat) : p n = true ↔ n ^ 2 * power ≤ (c.natAbs * 32767) ^ 2 := by
    rw [hpdef]
    exact decide_eq_true_iff
  have hfalls (a b : Nat) (hab : a ≤ b) (hb : p b = true) : p a = true :=
    (hp a).2 ((Nat.mul_le_mul_right _ (Nat.pow_le_pow_left hab 2)).trans ((hp b).1 hb))
  obtain ⟨htrue, hlt, hfalse⟩ := bisect_spec hfalls 15 0 ((hp 0).2 (by simp))
  have hclamp : clampComponent power c = if c < 0 then -((bisect p 15 0 : Nat) : Int) else (bisect p 15 0 : Nat) := by rw [hpdef]; rfl
  generalize bisect p 15 0 = n at htrue hlt hfalse hclamp
  have habs : (clampComponent power c).natAbs = n := by
    rw [hclamp]
    split <;> simp
  refine ⟨fun h => by rw [hclamp, if_neg h.not_gt]; omega, fun h => by rw [hclamp, if_pos h]; omega, ?_, ?_⟩
  · rw [habs]
    exact (hp n).1 htrue
  · rw [habs]
    by_cases hn : n + 1 < 0 + 2 ^ 15
    · have hno := hfalse (n + 1) (by omega) hn
      rw [← Bool.not_eq_true, hp] at hno
      exact not_le.1 hno
    · have hbig : 32768 ≤ n + 1 := by omega
      calc (c.natAbs * 32767) ^ 2 = c.natAbs ^ 2 * 32767 ^ 2 := Nat.mul_pow ..
        _ ≤ power * 32767 ^ 2 := Nat.mul_le_mul_right _ hc
        _ < power * 32768 ^ 2 := Nat.mul_lt_mul_of_pos_left (by decide) hpow
        _ ≤ (n + 1) ^ 2 * power := by
          rw [Nat.mul_comm]
          exact Nat.mul_le_mul_right _ (Nat.pow_le_pow_left hbig 2)

theorem clampSample_spec (z : Sample) : (samplePower z ≤ 32767 ^ 2 → clampSample z = z) ∧
    (32767 ^ 2 < samplePower z → samplePower (clampSample z) ≤ 32767 ^ 2 ∧
      ∀ part : Sample → Int, (part = Sample.re ∨ part = Sample.im) →
        (0 ≤ part z → 0 ≤ part (clampSample z)) ∧ (part z < 0 → part (clampSample z) ≤ 0) ∧
        (part (clampSample z)).natAbs ^ 2 * samplePower z ≤ ((part z).natAbs * 32767) ^ 2 ∧
        ((part z).natAbs * 32767) ^ 2 < ((part (clampSample z)).natAbs + 1) ^ 2 * samplePower z) := by
  have hover : sampleOver z = true ↔ 32767 ^ 2 < samplePower z := decide_eq_true_iff
  refine ⟨fun h => by rw [clampSample, if_neg (mt hover.1 h.not_gt)], fun h => ?_⟩
  have hpos : 0 < samplePower z := by omega
  have hclamp : clampSample z = ⟨clampComponent (samplePower z) z.re, clampComponent (samplePower z) z.im⟩ := by
    rw [clampSample, if_pos (hover.2 h)]
  have hre := clampComponent_spec (c := z.re) hpos (by rw [samplePower]; omega)
  have him := clampComponent_spec (c := z.im) hpos (by rw [samplePower]; omega)
  rw [hclamp]
  refine ⟨?_, fun part hpart => ?_⟩
  · have hsum : samplePower ⟨clampComponent (samplePower z) z.re, clampComponent (samplePower z) z.im⟩ * samplePower z ≤
        32767 ^ 2 * samplePower z := by
      calc _ = (clampComponent (samplePower z) z.re).natAbs ^ 2 * samplePower z +
            (clampComponent (samplePower z) z.im).natAbs ^ 2 * samplePower z := Nat.add_mul ..
        _ ≤ (z.re.natAbs * 32767) ^ 2 + (z.im.natAbs * 32767) ^ 2 := Nat.add_le_add hre.2.2.1 him.2.2.1
        _ = 32767 ^ 2 * samplePower z := by rw [samplePower]; ring
    exact Nat.le_of_mul_le_mul_right hsum hpos
  · rcases hpart with rfl | rfl
    · exact hre
    · exact him

/-! ### Sums and moved samples -/

theorem sumSamples_eq : ∀ l : List Sample, sumSamples l = summed l
  | [] => rfl
  | z :: rest => by
    have ih := sumSamples_eq rest
    simp only [sumSamples, List.foldr_cons, summed, List.map_cons, List.sum_cons] at ih ⊢
    rw [ih]
    rfl

/-- What is made of every item by its place, read off item by item. -/
theorem mapIdx_eq_range {α β : Type} (f : Nat → α → β) (l : List α) (d : α) :
    l.mapIdx f = (List.range l.length).map fun i => f i (l.getD i d) := by
  refine List.ext_getElem (by simp) fun i h1 h2 => ?_
  have hi : i < l.length := by simpa using h2
  simp [hi]

theorem lineOf_eq (l : List Sample) (k : Int) : lineOf l k =
    summed ((List.range l.length).map fun i => turned (l.getD i ⟨0, 0⟩) (turnOver (-k) i l.length)) := by
  rw [lineOf, sumSamples_eq, mapIdx_eq_range _ _ ⟨0, 0⟩]
  rfl

theorem ofLines_eq (l : List Sample) (n i : Nat) : ofLines l n i =
    summed ((List.range l.length).map fun j => turned (l.getD j ⟨0, 0⟩) (turnOver ((j : Int) - (l.length / 2 : Nat)) i n)) := by
  rw [ofLines, sumSamples_eq, mapIdx_eq_range _ _ ⟨0, 0⟩]
  rfl

theorem shiftBand_eq (l : List Sample) (phase : Nat) (hz : Int) : shiftBand phase hz l =
    (List.range l.length).map fun i => turned (l.getD i ⟨0, 0⟩) (turnAt phase hz i) := by
  rw [shiftBand, mapIdx_eq_range _ _ ⟨0, 0⟩]
  rfl

/-- The nearest integer, and from there by at most one either way. -/
theorem roundMoved_near (r x : Int) : |2 * (roundMoved r x * 2 ^ 64 - x)| ≤ 3 * 2 ^ 64 := by
  have hone : (fineOne : Int) * unitOne = 2 ^ 64 := by decide
  have hstep : -1 ≤ clampInt (-1) 1 r ∧ clampInt (-1) 1 r ≤ 1 := by
    rw [clampInt]
    omega
  rw [roundMoved, hone, abs_le]
  generalize clampInt (-1) 1 r = d at hstep
  omega

/-! ### Where a range lies (R15, R113, R114) -/

theorem placedCentre_eq (en : Entry) (src : Source) :
    placedCentre en src = 250000 * (2 * en.outStart + en.width) + en.fine := by
  rw [placedCentre, shiftHz, rangeCentre]
  ring

theorem toneCentre_eq (en : Entry) (src : Source) : toneCentre en = placedCentre en src := by
  rw [placedCentre_eq, toneCentre, rangeCentre]
  ring

theorem basebandHz_eq (start width : Nat) : basebandHz start width = -(Config.inputEdgeHz + 250000 * (2 * start + width)) := by
  rw [basebandHz, rangeCentre]
  ring

/-! ### Extraction (R15) -/

section
variable (n start width : Nat) (band : List Sample)

/-- Extraction looks at a band through its length and the lines of the range alone. -/
theorem extracted_congr {other : List Sample} (hlen : other.length = band.length)
    (h : ∀ k : Int, -(250 * width) ≤ k → k < 250 * width →
      lineOf (shiftBand (Config.extractPhase n start width) (basebandHz start width) other) k =
        lineOf (shiftBand (Config.extractPhase n start width) (basebandHz start width) band) k) :
    extracted n other start width = extracted n band start width := by
  rw [extracted, extracted, rangeLines_congr width h, hlen]

/-- A sample extracted lies within one of what the lines of the range make. -/
theorem extracted_near (hband : band ≠ []) {i : Nat} (hi : i < 500 * width) (part : Sample → Int)
    (hpart : part = Sample.re ∨ part = Sample.im) : ∃ z, (extracted n band start width)[i]? = some z ∧
      |part z * (band.length * unitOne ^ 3) - part (ofLines (rangeLines (500 * width)
        (shiftBand (Config.extractPhase n start width) (basebandHz start width) band)) (500 * width) i)| <
          band.length * unitOne ^ 3 := by
  have hone : 0 < (band.length : Int) * unitOne ^ 3 :=
    mul_pos (Int.natCast_pos.2 (List.length_pos_iff.2 hband)) (pow_pos (by decide) 3)
  rw [extracted, Nat.mul_comm width, List.getElem?_map, List.getElem?_range hi]
  refine ⟨_, rfl, ?_⟩
  simp only [decimated, rangeLines_length]
  rcases hpart with rfl | rfl
  · exact roundEither_near _ hone
  · exact roundEither_near _ hone

end

/-! ### Turns -/

/-- From one sample to the next a carrier advances by its frequency over the rate, in whole parts of a turn. -/
theorem turnAt_succ (phase : Nat) (hz : Int) (i : Nat) : ∃ d : Int, 0 ≤ d ∧ d ≤ 1 ∧
    (turnAt phase hz (i + 1) : Int) % 2 ^ 40 = (turnAt phase hz i + hz * 2 ^ 40 / 48000000 + d) % 2 ^ 40 := by
  have hturn (j : Nat) : (turnAt phase hz j : Int) % 2 ^ 40 = (phase + hz * j * 2 ^ 40 / 48000000) % 2 ^ 40 := by
    have hval : (turnAt phase hz j : Int) = (phase + hz * j * 2 ^ 40 / 48000000) % 2 ^ 40 :=
      Int.toNat_of_nonneg (Int.emod_nonneg _ (by decide))
    rw [hval, Int.emod_emod]
  have hnext : hz * ((i + 1 : Nat) : Int) * 2 ^ 40 = hz * i * 2 ^ 40 + hz * 2 ^ 40 := by
    push_cast
    ring
  have hi := hturn i
  rw [hturn, hnext]
  generalize hz * (i : Int) * 2 ^ 40 = a at hi ⊢
  generalize hz * 2 ^ 40 = b
  refine ⟨(a + b) / 48000000 - a / 48000000 - b / 48000000, by omega, by omega, ?_⟩
  omega

theorem unitOfTurn_quarter (k : Nat) : unitOfTurn (k + 2 ^ 38) = ⟨-(unitOfTurn k).im, (unitOfTurn k).re⟩ := by
  have hquarter : turnUnits / 4 = 2 ^ 38 := by decide
  have hmod : (k + 2 ^ 38) % 2 ^ 38 = k % 2 ^ 38 := Nat.add_mod_right ..
  have hdiv : (k + 2 ^ 38) / 2 ^ 38 % 4 = (k / 2 ^ 38 % 4 + 1) % 4 := by omega
  rw [unitOfTurn, unitOfTurn]
  simp only [hquarter, hmod, hdiv]
  generalize unitOfAngle _ = u
  have hlt : k / 2 ^ 38 % 4 < 4 := Nat.mod_lt _ (by decide)
  generalize k / 2 ^ 38 % 4 = m at hlt
  interval_cases m <;> simp

theorem turnOver_eq (k : Int) (i n : Nat) : (turnOver k i n : Int) = k * i * 2 ^ 40 / n % 2 ^ 40 :=
  Int.toNat_of_nonneg (Int.emod_nonneg _ (by decide))

/-- Settles O16, clause by clause. -/
theorem levelsAndScalingRound : Obligations.LevelsAndScalingRound := by
  refine ⟨fun l => levelOfRatio_spec _ _, fun g x => ?_, clampSample_spec, fun en src => ⟨placedCentre_eq en src, toneCentre_eq en src⟩,
    basebandHz_eq, fun n start width band => ⟨fun other hlen h => extracted_congr n start width band hlen h,
      fun hband i hi part hpart => extracted_near n start width band hband hi part hpart⟩, turnAt_succ, unitOfTurn_quarter,
    by decide +kernel, by decide +kernel, turnOver_eq, lineOf_eq, ofLines_eq, shiftBand_eq, roundMoved_near⟩
  obtain ⟨h1, h2⟩ := scaleComponent_spec g x
  obtain ⟨h3, h4⟩ := scaleNat_spec g x
  exact ⟨scaleNat g x, h1, h2, h3, h4⟩

end Sys2Proof.Machine
end

section
/-! SUPPORT. The forward drive frame: its layout and what its sending leaves. The claim ForwardFrame. -/

namespace Sys2Proof.Machine

open Sys2Proof.Safety

/-! ### The samples of a frame (Table 11-3) -/

theorem sampleBytes_length (z : Sample) : (sampleBytes z).length = 4 := rfl

theorem s16_append_right {l : List Byte} {n : Nat} (h : l.length = n) (m : List Byte) (i : Nat) :
    s16 (l ++ m) (n + i) = s16 m i := by
  rw [← s16_drop, ← h, List.drop_left]

/-- Sample `k` stands at byte `4 * k`, its components at the limits of their fields when they lie outside (R171). -/
theorem s16_samples {z : Sample} (rest : List Byte) : ∀ {l : List Sample} {k : Nat}, l[k]? = some z →
    s16 (l.flatMap sampleBytes ++ rest) (4 * k) = max (-32768) (min 32767 z.re) ∧
    s16 (l.flatMap sampleBytes ++ rest) (4 * k + 2) = max (-32768) (min 32767 z.im)
  | [], k, h => nomatch h
  | x :: l, 0, h => by
    cases h
    exact ⟨signed_bytes z.re, signed_bytes z.im⟩
  | x :: l, k + 1, h => by
    have ih := s16_samples rest (l := l) (k := k) h
    rw [List.flatMap_cons, List.append_assoc, Nat.mul_add, Nat.mul_one, Nat.add_comm (4 * k), Nat.add_assoc,
      s16_append_right (sampleBytes_length x), s16_append_right (sampleBytes_length x)]
    exact ih

theorem flatMap_sampleBytes_length (l : List Sample) : (l.flatMap sampleBytes).length = 4 * l.length := by
  induction l with
  | nil => rfl
  | cons x l ih => rw [List.flatMap_cons, List.length_append, ih, sampleBytes_length, List.length_cons, Nat.mul_add, Nat.add_comm]

/-- The bytes of a forward frame between the sync pattern and the check. -/
def driveCovered (number : Nat) (bias active : Bool) (samples : List Sample) : List Byte :=
  [highByte number, lowByte number, byteOf (flagByte [bias, active])] ++ samples.flatMap sampleBytes

theorem forwardDriveBytes_eq (number : Nat) (bias active : Bool) (samples : List Sample) :
    forwardDriveBytes number bias active samples =
      driveSync ++ driveCovered number bias active samples ++ checkField (driveCovered number bias active samples) := rfl

theorem forwardDriveBytes_frame (number : Nat) (bias active : Bool) (samples : List Sample) :
    let b := forwardDriveBytes number bias active samples
    Framed b [0x5A, 0x3C, 0xC3, 0xA5] (7 + 4 * samples.length) ∧ u16 b 4 = min 65535 number ∧ FlagField b 6 [bias, active] ∧
    ∀ (k : Nat) z, samples[k]? = some z →
      s16 b (7 + 4 * k) = max (-32768) (min 32767 z.re) ∧ s16 b (9 + 4 * k) = max (-32768) (min 32767 z.im) := by
  intro b
  have hlen : driveSync.length + (driveCovered number bias active samples).length = 7 + 4 * samples.length := by
    rw [driveCovered, List.length_append, flatMap_sampleBytes_length, ← Nat.add_assoc]
    rfl
  have hframed := framed_of driveSync (driveCovered number bias active samples)
  rw [hlen, ← forwardDriveBytes_eq] at hframed
  have hsplit : b = driveSync ++ [highByte number, lowByte number, byteOf (flagByte [bias, active])] ++
      (samples.flatMap sampleBytes ++ checkField (driveCovered number bias active samples)) := by
    change forwardDriveBytes number bias active samples = _
    rw [forwardDriveBytes_eq, driveCovered]
    simp only [List.append_assoc]
  refine ⟨hframed, word_field number, flagField_of_byte rfl (Nat.le_of_ble_eq_true rfl), fun k z hz => ?_⟩
  obtain ⟨hre, him⟩ := s16_samples (checkField (driveCovered number bias active samples)) hz
  rw [hsplit, s16_append_right (by rfl), show 9 + 4 * k = 7 + (4 * k + 2) by omega, s16_append_right (by rfl)]
  exact ⟨hre, him⟩

/-! ### The sending (R120, R139) -/

theorem heardFrame_eq (s : State) : heardFrame s.txs = heardWith s := by
  rw [heardFrame, heardWith]
  cases driving s.txs.state <;> cases s.txs.toSend <;> rfl

/-- The state in which the frame stands on the lanes, before MON hears it. -/
def frameSent (s : State) : State := setTxs (sentForward s.txs) s

theorem sendForward_eq (s : State) : sendForward s = monitorFrame (heardWith s) (frameSent s) := by
  rw [sendForward, heardFrame_eq]
  rfl

theorem sendForward_unmeasured {s : State} (h : ¬Measured s) : sendForward s = frameSent s := by
  have hno : (frameSent s).mon.mode = .off ∨ (frameSent s).txs.state ≠ .onAir := by
    by_contra hno
    rw [not_or, not_not] at hno
    exact h hno
  rw [sendForward_eq, monitorFrame, if_pos hno]

theorem sentForward_eq (s : State) : sentForward s.txs = { s.txs with
    fwdNumber := (s.txs.fwdNumber + 1) % 1024
    lastForward := some (forwardDriveBytes s.txs.fwdNumber (decide (s.txs.state ≠ .offAir ∧ s.txs.state ≠ .tripped))
      (decide (s.txs.state = .rampUp ∨ s.txs.state = .onAir ∨ s.txs.state = .rampDown)) (heardWith s).samples) } := by
  have hbias : biasOn s.txs.state = decide (s.txs.state ≠ .offAir ∧ s.txs.state ≠ .tripped) := by
    cases s.txs.state <;> rfl
  have hdrive : driving s.txs.state = decide (s.txs.state = .rampUp ∨ s.txs.state = .onAir ∨ s.txs.state = .rampDown) := by
    cases s.txs.state <;> rfl
  rw [sentForward, heardFrame_eq, hbias, hdrive]

/-- Settles O52: the state at the sending sets the lines, and only a measured frame is heard. -/
theorem forwardFrame : Obligations.ForwardFrame := by
  refine ⟨forwardDriveBytes_frame, fun s h => ⟨_, exec_released h _, ?_⟩⟩
  obtain ⟨hpend, -, hA, hB, hext, hpln, hdst, hcmb, -⟩ := sendForward_frame s
  obtain ⟨hqueue, hlost⟩ := sendForward_svc s
  refine ⟨?_, fun hno => ?_, hA, hB, hext, hpln, hdst, hcmb, hqueue, hlost, hpend⟩
  · rw [effect, sendForward_eq, (monitorFrame_frame ..).2.2.2.2.2.2.2.2.1]
    exact sentForward_eq s
  · rw [effect, sendForward_unmeasured hno]
    exact ⟨rfl, rfl, rfl⟩

end Sys2Proof.Machine
end

section
/-! SUPPORT. The output monitor: the power in a range, the counting of a measured frame into a dwell, and its completion. The claim
MonitorDwell. -/

namespace Sys2Proof.Machine

open Sys2Proof.Safety

/-! ### Power and level (R141, R144) -/

theorem rangePower_eq (l : List Sample) (start width : Nat) : rangePower l start width =
    ((((List.range (500 * width)).map fun j : Nat => samplePower (lineOf
      (shiftBand 0 (-(Config.bandEdgeHz + rangeCentre start width)) l) ((j : Int) - 250 * width))).sum : Nat) : Rat) /
      ((l.length : Rat) * 2 ^ 96) ^ 2 := by
  have hlines : totalPower (rangeLines (width * 500) (shiftBand 0 (-(Config.bandEdgeHz + rangeCentre start width)) l)) =
      ((List.range (500 * width)).map fun j : Nat => samplePower (lineOf
        (shiftBand 0 (-(Config.bandEdgeHz + rangeCentre start width)) l) ((j : Int) - 250 * width))).sum := by
    rw [totalPower, rangeLines, List.map_map, Nat.mul_comm]
    congr 1
    refine List.map_congr_left fun j _ => ?_
    simp only [Function.comp_apply, lineNumber]
    congr 2
    omega
  have hunit : (unitOne : Int) ^ 2 = 2 ^ 96 := by decide
  rw [rangePower]
  simp only [hlines, hunit]
  push_cast
  rfl

theorem rangePower_nonneg (l : List Sample) (start width : Nat) : 0 ≤ rangePower l start width := by
  rw [rangePower_eq]
  positivity

theorem rangePower_silent {l : List Sample} (h : ∀ z ∈ l, z = ⟨0, 0⟩) (start width : Nat) : rangePower l start width = 0 := by
  have hlines := rangeLines_silent (width * 500) (mapIdx_silent
    (fun i => unitOfTurn (turnAt 0 (-(Config.bandEdgeHz + rangeCentre start width)) i)) h)
  have hpower : totalPower (rangeLines (width * 500) (shiftBand 0 (-(Config.bandEdgeHz + rangeCentre start width)) l)) = 0 := by
    rw [totalPower, List.sum_eq_zero_iff]
    intro p hp
    obtain ⟨z, hz, rfl⟩ := List.mem_map.1 hp
    rw [hlines z hz]
    rfl
  rw [rangePower]
  simp only [hpower, Nat.cast_zero, zero_div]

/-- The level of a mean power is rounded as that of a block. -/
theorem levelOfPower_spec {p : Rat} (hp : 0 ≤ p) : ∃ k : Nat, levelOfPower p = -(k : Int) ∧ k ≤ 900 ∧
    (0 < k → p ^ 200 * 10 ^ (2 * k - 1) < (32767 ^ 2) ^ 200) ∧
    (k < 900 → (32767 ^ 2) ^ 200 ≤ p ^ 200 * 10 ^ (2 * k + 1)) := by
  obtain ⟨k, hk, hle, hlow, hhigh⟩ := levelOfRatio_spec p.num.toNat (p.den * fullScale ^ 2)
  have hden : (0 : Rat) < (p.den : Rat) ^ 200 := pow_pos (Nat.cast_pos.2 p.den_pos) 200
  have hnum : ((p.num.toNat : Nat) : Rat) = p * p.den := by
    have hcast : ((p.num.toNat : Nat) : Int) = p.num := Int.toNat_of_nonneg (Rat.num_nonneg.2 hp)
    rw [← Int.cast_natCast, hcast, Rat.mul_den_eq_num]
  have hscale (m : Nat) : ((p.num.toNat ^ 200 * 10 ^ m : Nat) : Rat) = p ^ 200 * 10 ^ m * (p.den : Rat) ^ 200 := by
    rw [Nat.cast_mul, Nat.cast_pow, Nat.cast_pow, hnum, mul_pow]
    push_cast
    ring
  have hfull : (((p.den * fullScale ^ 2) ^ 200 : Nat) : Rat) = (32767 ^ 2) ^ 200 * (p.den : Rat) ^ 200 := by
    rw [Nat.mul_pow, Nat.cast_mul, Nat.cast_pow, mul_comm, Nat.cast_pow, fullScale]
    push_cast
    rfl
  refine ⟨k, hk, hle, fun h => ?_, fun h => ?_⟩
  · have := Nat.cast_lt (α := Rat) |>.2 (hlow h)
    rw [hscale, hfull] at this
    exact lt_of_mul_lt_mul_right this hden.le
  · have := Nat.cast_le (α := Rat) |>.2 (hhigh h)
    rw [hscale, hfull] at this
    exact le_of_mul_le_mul_right this hden

theorem levelOfPower_zero : levelOfPower 0 = -900 := by decide +kernel

theorem levelOfPower_reference : levelOfPower referencePower = -200 := by decide +kernel

/-! ### Findings (R143, Table 8-2) -/

theorem finding_is (m x : Int) (tolerance : Nat) (c : Ctx) : FindingIs m x tolerance c (finding m x tolerance c).1.strikes
    ((finding m x tolerance c).1.lowOutput = true) ((finding m x tolerance c).2 = true) := by
  by_cases hhigh : x + tolerance < m
  · refine ⟨fun _ => ?_, fun h => by omega, fun _ h => by omega⟩
    simp only [finding, if_pos hhigh]
    by_cases hthird : c.strikes + 1 ≥ 3
    · rw [if_pos hthird]
      exact ⟨by simp, fun h => by omega, fun _ => ⟨rfl, rfl⟩⟩
    · rw [if_neg hthird]
      exact ⟨by simp, fun _ => ⟨rfl, by simp⟩, fun h => by omega⟩
  · by_cases hlow : m < x - tolerance
    · refine ⟨fun h => absurd h hhigh, fun _ => ?_, fun h => by omega⟩
      simp [finding, hhigh, hlow]
    · refine ⟨fun h => absurd h hhigh, fun h => absurd h hlow, fun _ _ => ?_⟩
      simp [finding, hhigh, hlow]

/-- A finding changes the strikes and the mark alone. -/
theorem finding_keeps (m x : Int) (tolerance : Nat) (c : Ctx) : (finding m x tolerance c).1 =
    { c with strikes := (finding m x tolerance c).1.strikes, lowOutput := (finding m x tolerance c).1.lowOutput } := by
  simp only [finding]
  split
  · split <;> rfl
  · split <;> rfl

/-! ### Counting a frame (R141, R143, R144) -/

section
variable {h : Drive} {d : Dwell} {s : State} {e : EntryIx} {p : Rat}

theorem countFrame_uncounted (hp : framePower h d.visited = none) : countFrame h d s = s := by
  rw [countFrame, hp]

theorem countFrame_counted (hp : framePower h d.visited = some p) (hc : d.count + 1 < d.length) : countFrame h d s =
    setMon { s.mon with dwell := some { d with count := d.count + 1, power := d.power + p } } s := by
  simp only [countFrame, hp, if_pos hc]

theorem countFrame_reference (hv : d.visited = .reference) (hc : d.length ≤ d.count + 1) : countFrame h d s =
    completeSelftest { d with count := d.count + 1, power := d.power + referencePower } s := by
  have hp : framePower h d.visited = some referencePower := by rw [hv]; rfl
  simp only [countFrame, hp, if_neg hc.not_gt]
  rw [hv]

theorem countFrame_entry {a : Applied} (hv : d.visited = .entry e) (ha : appliedOf h e = some a) (hc : d.length ≤ d.count + 1) :
    countFrame h d s = completeEntry { d with count := d.count + 1, power := d.power + rangePower h.samples a.start a.width }
      e a.level s := by
  have hp : framePower h d.visited = some (rangePower h.samples a.start a.width) := by
    rw [hv, framePower, ha]
    rfl
  simp only [countFrame, hp, if_neg hc.not_gt]
  rw [hv]
  simp only [ha]

theorem framePower_entry (a : Applied) (ha : appliedOf h e = some a) :
    framePower h (.entry e) = some (rangePower h.samples a.start a.width) := by
  rw [framePower, ha]
  rfl

theorem appliedOf_none (ha : ∀ a ∈ h.applied, a.entry ≠ e) : appliedOf h e = none := by
  rw [appliedOf, List.find?_eq_none]
  intro a hm
  simp [ha a hm]

theorem overlevelMute_eq (e : EntryIx) (s : State) : overlevelMute e s =
    if isContributor (ctxAt s e).state = true then commitCtx e (toMuted .overlevel (ctxAt s e)) .monitor s else s := rfl

/-- What the completion of a dwell on an entry leaves (R143, R58). -/
def CompletedAt (e : EntryIx) (m x : Int) (s t : State) (mutes : Prop) : Prop :=
  FindingIs m x s.pln.activeSettings.tolerance (ctxAt s e) (ctxAt t e).strikes ((ctxAt t e).lowOutput = true) mutes ∧
  t.mon = { s.mon with dwell := none } ∧ (∀ f, f ≠ e → ctxAt t f = ctxAt s f) ∧
  (mutes → isContributor (ctxAt s e).state = true →
    ctxAt t e = { settled (ctxAt s e) with
      state := .muted .overlevel, shed := false, strikes := (ctxAt t e).strikes, lowOutput := (ctxAt t e).lowOutput } ∧
    Notified e .monitor t) ∧
  (¬mutes ∨ isContributor (ctxAt s e).state = false →
    ctxAt t e = { ctxAt s e with strikes := (ctxAt t e).strikes, lowOutput := (ctxAt t e).lowOutput } ∧ t.svc = s.svc)

/-- A context with a finding on it. -/
def found (c : Ctx) (strikes : Nat) (low : Bool) : Ctx := { c with strikes := strikes, lowOutput := low }

theorem stateName_contributor {st : CtxState} {cause : Cause} (h : isContributor st = true) :
    stateName st ≠ stateName (.muted cause) := by cases st <;> simp_all [isContributor, stateName]

section
variable {m x : Int} {strikes : Nat} {low : Bool} {mutes : Prop}

theorem ctxAt_found (i : EntryIx) : ctxAt (setCtx e (found (ctxAt s e) strikes low) (endDwell s)) i =
    if i = e then found (ctxAt s e) strikes low else ctxAt s i := by
  rw [ctxAt, setCtx, vget_vput]
  rfl

theorem completedAt_quiet (hf : FindingIs m x s.pln.activeSettings.tolerance (ctxAt s e) strikes (low = true) mutes)
    (hq : ¬(mutes ∧ isContributor (ctxAt s e).state = true)) :
    CompletedAt e m x s (setCtx e (found (ctxAt s e) strikes low) (endDwell s)) mutes := by
  refine ⟨?_, rfl, fun f hf => ?_, fun hm hc => absurd ⟨hm, hc⟩ hq, fun _ => ?_⟩
  · rwa [ctxAt_found, if_pos rfl]
  · rw [ctxAt_found, if_neg hf]
  · rw [ctxAt_found, if_pos rfl]
    exact ⟨rfl, rfl⟩

theorem completedAt_muted (hf : FindingIs m x s.pln.activeSettings.tolerance (ctxAt s e) strikes (low = true) mutes)
    (hm : mutes) (hc : isContributor (ctxAt s e).state = true) : CompletedAt e m x s
      (commitCtx e (toMuted .overlevel (found (ctxAt s e) strikes low)) .monitor
        (setCtx e (found (ctxAt s e) strikes low) (endDwell s))) mutes := by
  have hreport : reportChanged (ctxAt (setCtx e (found (ctxAt s e) strikes low) (endDwell s)) e)
      (toMuted .overlevel (found (ctxAt s e) strikes low)) = true := by
    rw [ctxAt_found, if_pos rfl]
    exact reportChanged_state (stateName_contributor hc)
  have hctx (i : EntryIx) := ctxAt_commitCtx e (toMuted .overlevel (found (ctxAt s e) strikes low)) .monitor
    (setCtx e (found (ctxAt s e) strikes low) (endDwell s)) i
  have hmuted : ctxAt (commitCtx e (toMuted .overlevel (found (ctxAt s e) strikes low)) .monitor
      (setCtx e (found (ctxAt s e) strikes low) (endDwell s))) e =
      { toMuted .overlevel (found (ctxAt s e) strikes low) with shed := false } := by
    have hstate : (found (ctxAt s e) strikes low).state = (ctxAt s e).state := rfl
    rw [hctx, if_pos rfl, committed_leaves rfl, ctxAt_found, if_pos rfl, hstate, hc, Bool.not_true, Bool.and_false]
  refine ⟨by rwa [hmuted], ?_, fun f hf => ?_, fun _ _ => ⟨by rw [hmuted]; rfl, notified_commitCtx hreport⟩, fun hno => ?_⟩
  · rw [commitCtx_mon]
    exact (if_neg Bool.false_ne_true).trans ((dwellLeft_cases e _).2 fun d hd => nomatch hd)
  · rw [hctx, if_neg hf, ctxAt_found, if_neg hf]
  · rcases hno with hno | hno
    · exact absurd hm hno
    · exact nomatch hno.symm.trans hc

end

theorem completeEntry_outcome (d : Dwell) (e : EntryIx) (x : Int) (s : State) :
    ∃ mutes, CompletedAt e (measuredLevel d) x s (completeEntry d e x s) mutes := by
  have hfinding := finding_is (measuredLevel d) x s.pln.activeSettings.tolerance (ctxAt s e)
  have hkeeps := finding_keeps (measuredLevel d) x s.pln.activeSettings.tolerance (ctxAt s e)
  have hdef : completeEntry d e x s = if (finding (measuredLevel d) x s.pln.activeSettings.tolerance (ctxAt s e)).2 = true
      then overlevelMute e (setCtx e (finding (measuredLevel d) x s.pln.activeSettings.tolerance (ctxAt s e)).1 (endDwell s))
      else setCtx e (finding (measuredLevel d) x s.pln.activeSettings.tolerance (ctxAt s e)).1 (endDwell s) := rfl
  rw [hdef]
  generalize finding (measuredLevel d) x s.pln.activeSettings.tolerance (ctxAt s e) = f at hfinding hkeeps
  obtain ⟨c, mutes⟩ := f
  obtain ⟨strikes, low, rfl⟩ : ∃ strikes low, c = found (ctxAt s e) strikes low := ⟨_, _, hkeeps⟩
  refine ⟨mutes = true, ?_⟩
  cases mutes with
  | false => exact completedAt_quiet hfinding fun h => nomatch h.1
  | true =>
    rw [if_pos rfl, overlevelMute_eq, ctxAt_found, if_pos rfl]
    split
    · next hc => exact completedAt_muted hfinding rfl hc
    · next hc => exact completedAt_quiet hfinding fun h => hc h.2

/-! ### What a dwell that begins visits (R140) -/

theorem mayVisit_iff : mayVisit (heardWith s) (frameSent s) e = true ↔ Visitable s e := by
  have happlied : (appliedOf (heardWith s) e).isSome = true ↔ ∃ a ∈ (heardWith s).applied, a.entry = e := by
    rw [appliedOf, List.find?_isSome]
    simp
  rw [mayVisit, Bool.and_eq_true, Bool.and_eq_true, happlied, Bool.not_eq_true', and_assoc]
  rfl

theorem applied_of_visitable (h : Visitable s e) : ∃ a, appliedOf (heardWith s) e = some a := by
  rw [← mayVisit_iff, mayVisit, Bool.and_eq_true, Bool.and_eq_true] at h
  exact Option.isSome_iff_exists.1 h.1.1

/-- The first entry in the order of SCAN that may be visited. -/
theorem scanOrder_find : ScanVisits s e →
    (scanOrder s.mon.scanPos).find? (mayVisit (heardWith s) (frameSent s)) = some e := by
  rintro ⟨k, rfl, hvisit, hfirst⟩
  rw [List.find?_eq_some_iff_getElem]
  refine ⟨mayVisit_iff.2 hvisit, k.val, by simp [scanOrder, entries], by simp [scanOrder, entries], fun j hj => ?_⟩
  have hno := hfirst ⟨j, hj.trans k.isLt⟩ hj
  rw [← mayVisit_iff, Bool.not_eq_true] at hno
  simpa [scanOrder, entries] using hno

theorem scanOrder_none (h : ∀ e, ¬Visitable s e) :
    (scanOrder s.mon.scanPos).find? (mayVisit (heardWith s) (frameSent s)) = none := by
  rw [List.find?_eq_none]
  exact fun e _ he => h e (mayVisit_iff.1 he)

/-- A dwell that begins counts its first frame at once. -/
theorem begun_counted {v : Visited} {pos : EntryIx} (hl : 2 ≤ s.pln.activeSettings.dwell) {u : State} (hu : u.mon = s.mon)
    (hp : framePower h v = some p) :
    countFrame h ⟨v, s.pln.activeSettings.dwell, 0, 0⟩ (setMon { u.mon with scanPos := pos } u) =
      setMon { s.mon with scanPos := pos, dwell := some ⟨v, s.pln.activeSettings.dwell, 1, p⟩ } u := by
  rw [countFrame_counted hp (by simp only; omega)]
  simp only [zero_add, hu]
  rfl

theorem nextVisit_power {v : Visited} (hv : nextVisit (heardWith s) (frameSent s) = some v) :
    ∃ p, framePower (heardWith s) v = some p := by
  have hentry {e : EntryIx} (he : mayVisit (heardWith s) (frameSent s) e = true) :
      ∃ p, framePower (heardWith s) (.entry e) = some p := by
    obtain ⟨a, ha⟩ := applied_of_visitable (mayVisit_iff.1 he)
    exact ⟨_, framePower_entry a ha⟩
  rw [nextVisit] at hv
  split at hv
  · cases hv
  · obtain ⟨e, he, rfl⟩ := Option.map_eq_some_iff.1 hv
    exact hentry (List.find?_some he)
  · split at hv
    · next he =>
      cases hv
      exact hentry he
    · cases hv
  · cases hv
    exact ⟨_, rfl⟩

theorem sendForward_dwell (hm : Measured s) {d : Dwell} (hd : s.mon.dwell = some d) :
    sendForward s = countFrame (heardWith s) d (frameSent s) := by
  have hno : ¬((frameSent s).mon.mode = .off ∨ (frameSent s).txs.state ≠ .onAir) := by
    rw [not_or, not_not]
    exact hm
  have hd' : (frameSent s).mon.dwell = some d := hd
  simp only [sendForward_eq, monitorFrame, if_neg hno, hd']

theorem sendForward_idle (hm : Measured s) (hd : s.mon.dwell = none) :
    sendForward s = beginDwell (heardWith s) (frameSent s) := by
  have hno : ¬((frameSent s).mon.mode = .off ∨ (frameSent s).txs.state ≠ .onAir) := by
    rw [not_or, not_not]
    exact hm
  have hd' : (frameSent s).mon.dwell = none := hd
  simp only [sendForward_eq, monitorFrame, if_neg hno, hd']

theorem beginDwell_none (hv : nextVisit (heardWith s) (frameSent s) = none) :
    beginDwell (heardWith s) (frameSent s) = frameSent s := by
  simp only [beginDwell, hv]

/-- The dwell that begins, and the scan position: moved on in SCAN only. -/
theorem beginDwell_some {v : Visited} (hl : 2 ≤ s.pln.activeSettings.dwell)
    (hv : nextVisit (heardWith s) (frameSent s) = some v) (hp : framePower (heardWith s) v = some p) :
    ∃ pos, beginDwell (heardWith s) (frameSent s) =
        setMon { s.mon with scanPos := pos, dwell := some ⟨v, s.pln.activeSettings.dwell, 1, p⟩ } (frameSent s) ∧
      (∀ e, s.mon.mode = .scan → v = .entry e → pos = e) ∧ (s.mon.mode ≠ .scan → pos = s.mon.scanPos) := by
  simp only [beginDwell, hv]
  refine ⟨_, begun_counted hl rfl hp, fun e hmode hve => ?_, fun hmode => ?_⟩
  · have hmode' : (frameSent s).mon.mode = .scan := hmode
    rw [hmode', hve]
  · split
    · next hscan => exact absurd hscan hmode
    · rfl

/-- The visit that a dwell begins with, mode by mode (R140). -/
theorem nextVisit_scan (hmode : s.mon.mode = .scan) : nextVisit (heardWith s) (frameSent s) =
    ((scanOrder s.mon.scanPos).find? (mayVisit (heardWith s) (frameSent s))).map .entry := by
  have hmode' : (frameSent s).mon.mode = .scan := hmode
  rw [nextVisit, hmode']
  rfl

theorem nextVisit_lock (hmode : s.mon.mode = .lock e) : nextVisit (heardWith s) (frameSent s) =
    if mayVisit (heardWith s) (frameSent s) e = true then some (.entry e) else none := by
  have hmode' : (frameSent s).mon.mode = .lock e := hmode
  simp only [nextVisit, hmode']

theorem nextVisit_selftest (hmode : s.mon.mode = .selftest) : nextVisit (heardWith s) (frameSent s) = some .reference := by
  have hmode' : (frameSent s).mon.mode = .selftest := hmode
  simp only [nextVisit, hmode']

end

theorem referencePower_eq : referencePower = ((32767 ^ 2 : Nat) : Rat) / 100 := by rw [referencePower, fullScale]

/-- The settings' tolerance about -200 holds -200 itself: a self-test all of whose frames were counted passes (R144). -/
theorem selftest_passes (d : Dwell) (s : State) (h : d.power = d.count * referencePower) (hc : 0 < d.count) :
    (completeSelftest d s).mon.selftest = .pass := by
  have hlevel : measuredLevel d = -200 := by
    have hne : (d.count : Rat) ≠ 0 := by positivity
    rw [measuredLevel, h, mul_div_cancel_left₀ _ hne, levelOfPower_reference]
  have hin : -200 - (s.pln.activeSettings.tolerance : Int) ≤ -200 ∧ -200 ≤ -200 + (s.pln.activeSettings.tolerance : Int) := by omega
  simp only [completeSelftest, hlevel, if_pos hin]
  rfl

/-- Settles O53: a measured frame goes into the dwell in progress, or begins one. -/
theorem monitorDwell : Obligations.MonitorDwell := by
  refine ⟨fun l start width => ⟨rangePower_eq l start width, rangePower_nonneg l start width,
    fun h => ⟨rangePower_silent h start width, by rw [rangePower_silent h, levelOfPower_zero]⟩⟩,
    fun p hp => levelOfPower_spec hp, fun s h hm => ⟨_, exec_released h _, ?_⟩⟩
  rw [effect]
  refine ⟨fun d e hd hv ha => ?_, fun d e a hd hv ha => ⟨fun hc => ?_, fun hc => ?_⟩, fun d hd hv => ?_, fun hd hl => ?_⟩
  · rw [sendForward_dwell hm hd, countFrame_uncounted]
    · exact ⟨rfl, rfl, rfl⟩
    · rw [hv, framePower, appliedOf_none ha]
      rfl
  · rw [sendForward_dwell hm hd, countFrame_counted (by rw [hv]; exact framePower_entry a ha) hc]
    exact ⟨rfl, rfl, rfl⟩
  · rw [sendForward_dwell hm hd, countFrame_entry hv ha hc]
    generalize rangePower (heardWith s).samples a.start a.width = p
    exact completeEntry_outcome { d with count := d.count + 1, power := d.power + p } e a.level (frameSent s)
  · intro power
    have hpower : power = referencePower := referencePower_eq.symm
    clear_value power
    subst hpower
    have hp : framePower (heardWith s) d.visited = some referencePower := by
      rw [hv]
      rfl
    rw [sendForward_dwell hm hd]
    by_cases hc : d.count + 1 < d.length
    · rw [countFrame_counted hp hc]
      exact ⟨rfl, rfl, fun _ => rfl, fun hno => absurd hc hno.not_gt⟩
    · rw [countFrame_reference hv (not_lt.1 hc)]
      refine ⟨rfl, rfl, fun hyes => absurd hyes hc, fun _ => ⟨rfl, fun hsum => selftest_passes _ _ ?_ (Nat.succ_pos _)⟩⟩
      simp only [hsum]
      push_cast
      ring
  · rw [sendForward_idle hm hd]
    have hkeeps : (beginDwell (heardWith s) (frameSent s)).ctx = s.ctx ∧ (beginDwell (heardWith s) (frameSent s)).svc = s.svc := by
      cases hv : nextVisit (heardWith s) (frameSent s) with
      | none =>
        rw [beginDwell_none hv]
        exact ⟨rfl, rfl⟩
      | some v =>
        obtain ⟨p, hp⟩ := nextVisit_power hv
        obtain ⟨pos, hbegun, -⟩ := beginDwell_some hl hv hp
        rw [hbegun]
        exact ⟨rfl, rfl⟩
    refine ⟨hkeeps.1, hkeeps.2, fun e hmode hscan => ?_, fun hmode hno => ?_, fun e hmode hvisit => ?_, fun e hmode hno => ?_,
      fun hmode => ?_⟩
    · obtain ⟨a, ha⟩ := applied_of_visitable (mayVisit_iff.1 (List.find?_some (scanOrder_find hscan)))
      obtain ⟨pos, hbegun, hpos, -⟩ := beginDwell_some hl (by rw [nextVisit_scan hmode, scanOrder_find hscan]; rfl)
        (framePower_entry a ha)
      rw [hbegun, hpos e hmode rfl]
      refine ⟨_, rfl, rfl, rfl, rfl, fun b hb => ?_⟩
      cases ha.symm.trans hb
      rfl
    · rw [beginDwell_none]
      · rfl
      · rw [nextVisit_scan hmode, scanOrder_none hno]
        rfl
    · obtain ⟨a, ha⟩ := applied_of_visitable hvisit
      obtain ⟨pos, hbegun, -, hpos⟩ := beginDwell_some hl (by rw [nextVisit_lock hmode, if_pos (mayVisit_iff.2 hvisit)])
        (framePower_entry a ha)
      rw [hbegun, hpos (by simp [hmode])]
      refine ⟨_, rfl, rfl, rfl, rfl, fun b hb => ?_⟩
      cases ha.symm.trans hb
      rfl
    · rw [beginDwell_none]
      · rfl
      · rw [nextVisit_lock hmode, if_neg (mt mayVisit_iff.1 hno)]
    · obtain ⟨pos, hbegun, -, hpos⟩ := beginDwell_some hl (nextVisit_selftest hmode) (p := referencePower) rfl
      rw [hbegun, hpos (by simp [hmode])]
      exact ⟨_, rfl, rfl, rfl, rfl, referencePower_eq⟩

end Sys2Proof.Machine
end

section
/-! SUPPORT. The start of a block period: the reads that CMB queues, and their first answers. The claim OutputStart. -/

namespace Sys2Proof.Machine

open Sys2Proof.Safety

/-! ### The read of one position (R88, R89) -/

theorem readDistance_eq (delay : Nat) : readDistance delay = max 1 delay := by
  rw [readDistance]
  split <;> omega

theorem readWanted_iff {s : State} {e : EntryIx} {x : Entry × Line × Nat} : readWanted s e = some x ↔
    ReadFor s e x.1 x.2.1 ∧ x.2.2 = entryDelay x.1 (ctxAt s e).source := by
  obtain ⟨en, l, delay⟩ := x
  rw [readWanted, ReadFor]
  cases ha : activeAt s e with
  | none => simp
  | some en' =>
    cases hl : lineAt s e with
    | none => simp
    | some l' =>
      simp only [Option.some.injEq]
      by_cases hc : isContributor (ctxAt s e).state = true ∧ 0 < en'.pages
      · rw [if_pos (by simpa using hc)]
        constructor
        · intro h
          cases h
          exact ⟨⟨rfl, rfl, hc.1, hc.2⟩, rfl⟩
        · rintro ⟨⟨rfl, rfl, -, -⟩, rfl⟩
          rfl
      · rw [if_neg (by simpa using hc)]
        constructor
        · exact fun h => nomatch h
        · rintro ⟨⟨rfl, -, h1, h2⟩, -⟩
          exact absurd ⟨h1, h2⟩ hc

/-- The first answer to the read of a position, and the read itself, when CMB queues one. -/
def firstRead (s : State) (e : EntryIx) : Option (Answer × ReadReq) :=
  (readWanted s e).map fun x => (firstAnswer s.dst x.2.1 x.2.2 (readDistance x.2.2),
    ⟨e, lineCell x.2.1 (linePosition x.2.1 (readDistance x.2.2)), x.1.width, 0⟩)

theorem queueRead_none {s : State} {e : EntryIx} (h : firstRead s e = none) : queueRead e s = s := by
  rw [queueRead, Option.map_eq_none_iff.1 h]

theorem queueRead_some {s : State} {e : EntryIx} {a : Answer} {r : ReadReq} (h : firstRead s e = some (a, r)) :
    queueRead e s = if a = .waiting then setDst (joinReads r s.dst) (setCmb (answerRead e a s.cmb) s)
      else setCmb (answerRead e a s.cmb) s := by
  obtain ⟨⟨en, l, delay⟩, hw, hx⟩ := Option.map_eq_some_iff.1 h
  cases hx
  rw [queueRead, hw]
  rfl

/-- The read of a position looks at the contexts, the plan, the lines, the writes and the gap marks alone. -/
theorem firstRead_congr {s t : State} {e : EntryIx} (hc : ctxAt t e = ctxAt s e) (ha : activeAt t e = activeAt s e)
    (hl : lineAt t e = lineAt s e) (hw : t.dst.writes = s.dst.writes) (hg : t.dst.gapMarks = s.dst.gapMarks) :
    firstRead t e = firstRead s e := by
  have hwant : readWanted t e = readWanted s e := by rw [readWanted, readWanted, hc, ha, hl]
  rw [firstRead, firstRead, hwant]
  refine congrArg (fun f => (readWanted s e).map f) (funext fun x => ?_)
  rw [firstAnswer, firstAnswer, hw, hg]

/-! ### The reads of a list of positions -/

/-- What the reads queued for a list of positions leave: the answers, the read queue, and everything else as it was. -/
structure ReadsQueued (l : List EntryIx) (o : OutBlock) (u v : State) : Prop where
  course : ∃ answers : Vector Answer 16, v.cmb = { u.cmb with course := some { o with answers := answers } } ∧
    ∀ e, vget answers e = if e ∈ l then ((firstRead u e).map Prod.fst).getD (vget o.answers e) else vget o.answers e
  reads  : v.dst.reads = u.dst.reads ++ l.filterMap fun e =>
    (firstRead u e).bind fun x => if x.1 = .waiting then some x.2 else none
  dst    : v.dst.writes = u.dst.writes ∧ v.dst.lines = u.dst.lines ∧ v.dst.gapMarks = u.dst.gapMarks

theorem queueRead_queued {e : EntryIx} {o : OutBlock} {u : State} (ho : u.cmb.course = some o) :
    ReadsQueued [e] o u (queueRead e u) := by
  cases hf : firstRead u e with
  | none =>
    rw [queueRead_none hf]
    refine ⟨⟨o.answers, cmb_of_course ho, fun f => ?_⟩, by simp [hf], rfl, rfl, rfl⟩
    split
    · next h => rw [List.mem_singleton.1 h, hf]; rfl
    · rfl
  | some x =>
    obtain ⟨a, r⟩ := x
    have hanswer : answerRead e a u.cmb = { u.cmb with course := some { o with answers := vput o.answers e a } } := by
      rw [answerRead, ho]
    have hget (f : EntryIx) : vget (vput o.answers e a) f =
        if f ∈ [e] then ((firstRead u f).map Prod.fst).getD (vget o.answers f) else vget o.answers f := by
      rw [vget_vput]
      by_cases h : f = e
      · rw [if_pos h, if_pos (List.mem_singleton.2 h), h, hf]
        rfl
      · rw [if_neg h, if_neg (mt List.mem_singleton.1 h)]
    rw [queueRead_some hf]
    by_cases ha : a = .waiting
    · obtain ⟨-, -, hmarks, -, -, -, hlines, hreads, hwrites⟩ := grant_store { u.dst with reads := u.dst.reads ++ [r] }
      rw [if_pos ha]
      refine ⟨⟨_, hanswer, hget⟩, ?_, hwrites, hlines, hmarks⟩
      exact hreads.trans (by simp [hf, ha])
    · rw [if_neg ha]
      exact ⟨⟨_, hanswer, hget⟩, by simp [hf, ha], rfl, rfl, rfl⟩

theorem queueReads_queued : ∀ (l : List EntryIx) {o : OutBlock} {u : State}, u.cmb.course = some o →
    ReadsQueued l o u (l.foldl (fun s e => queueRead e s) u)
  | [], o, u, ho => ⟨⟨o.answers, cmb_of_course ho, fun _ => rfl⟩, by simp, rfl, rfl, rfl⟩
  | e :: rest, o, u, ho => by
    obtain ⟨⟨a, ha, hget⟩, hreads, hwrites, hlines, hmarks⟩ := queueRead_queued (e := e) ho
    obtain ⟨-, -, -, -, -, -, -, -, -, -, -, -, hctx, hactive⟩ := queueRead_frame e u
    obtain ⟨v, hv⟩ : ∃ v, queueRead e u = v := ⟨_, rfl⟩
    rw [List.foldl_cons]
    rw [hv] at ha hreads hwrites hlines hmarks hctx hactive ⊢
    have hfirst (f : EntryIx) : firstRead v f = firstRead u f :=
      firstRead_congr (hctx f) (hactive f) (by rw [lineAt, hlines]; rfl) hwrites hmarks
    obtain ⟨⟨b, hb, hgetb⟩, hreadsb, hwritesb, hlinesb, hmarksb⟩ :=
      queueReads_queued rest (o := { o with answers := a }) (u := v) (by rw [ha])
    refine ⟨⟨b, by rw [hb, ha], fun f => ?_⟩, ?_, hwritesb.trans hwrites, hlinesb.trans hlines, hmarksb.trans hmarks⟩
    · rw [hgetb, hfirst, hget]
      by_cases hr : f ∈ rest
      · rw [if_pos hr, if_pos (List.mem_cons_of_mem _ hr)]
        cases firstRead u f with
        | some x => rfl
        | none => exact ite_self _
      · rw [if_neg hr]
        by_cases he : f = e
        · rw [if_pos (List.mem_singleton.2 he), if_pos (by simp [he])]
        · rw [if_neg (mt List.mem_singleton.1 he), if_neg (by simp [he, hr])]
    · rw [hreadsb, hreads, List.append_assoc]
      simp only [hfirst, ← List.filterMap_append]
      rfl

/-! ### The state in which the reads are queued -/

theorem tickTest_air (c : Ctx) : isContributor (tickTest c).state = isContributor c.state ∧ (tickTest c).source = c.source := by
  rw [tickTest]
  split
  · next h => exact ⟨by rw [h]; rfl, rfl⟩
  · exact ⟨rfl, rfl⟩

theorem tickTest_test {c : Ctx} {n : Nat} {l : Int} (h : c.state = .test n l) : tickTest c = { c with state := .test (n - 1) l } := by
  rw [tickTest, h]
  rfl

theorem tickTest_other {c : Ctx} (h : ∀ n l, c.state ≠ .test n l) : tickTest c = c := by
  rw [tickTest]
  split
  · next hs => exact absurd hs (h _ _)
  · rfl

/-- The state once the timers have stepped and the output block has begun, before its reads are queued. -/
def blockBegun (s : State) : State := beginOutBlock (startPeriod s)

theorem ctxAt_blockBegun (s : State) (e : EntryIx) : ctxAt (blockBegun s) e = tickTest (ctxAt s e) := vget_map ..

theorem readFor_blockBegun {s : State} {e : EntryIx} {en : Entry} {l : Line} :
    ReadFor (blockBegun s) e en l ↔ ReadFor s e en l := by
  rw [ReadFor, ReadFor, ctxAt_blockBegun, (tickTest_air _).1]
  rfl

/-- The first answer to a read, when the line and the queue and the marks are as they are (R89). -/
theorem firstAnswer_spec (d : Dst) (l : Line) (delay distance : Nat) :
    (l.fill < delay ∨ l.accepted < distance → firstAnswer d l delay distance = .nothing) ∧
    (delay ≤ l.fill → distance ≤ l.accepted →
      (∀ w, d.writes.find? (fun w => w.cell == lineCell l (linePosition l distance)) = some w →
        firstAnswer d l delay distance = .data w.record) ∧
      ((∀ w ∈ d.writes, w.cell ≠ lineCell l (linePosition l distance)) →
        (lineCell l (linePosition l distance) ∈ d.gapMarks → firstAnswer d l delay distance = .gap) ∧
        (lineCell l (linePosition l distance) ∉ d.gapMarks → firstAnswer d l delay distance = .waiting))) := by
  refine ⟨fun h => by rw [firstAnswer, if_pos h], fun hf ha => ?_⟩
  have hno : ¬(l.fill < delay ∨ l.accepted < distance) := by omega
  simp only [firstAnswer, if_neg hno]
  refine ⟨fun w hw => by rw [hw], fun hw => ?_⟩
  have hnone : d.writes.find? (fun w => w.cell == lineCell l (linePosition l distance)) = none := by
    rw [List.find?_eq_none]
    intro w hm
    simpa using hw w hm
  rw [hnone]
  exact ⟨fun h => if_pos (List.contains_iff_mem.2 h), fun h => if_neg (mt List.contains_iff_mem.1 h)⟩

section
variable {s : State} {e : EntryIx} {en : Entry} {l : Line}

/-- The read of a position in the words of the claim. -/
theorem firstRead_eq (h : ReadFor s e en l) : firstRead (blockBegun s) e =
    some (firstAnswer s.dst l (entryDelay en (ctxAt s e).source) (max 1 (entryDelay en (ctxAt s e).source)),
      ⟨e, readCell s e en l, en.width, 0⟩) := by
  have hwant : readWanted (blockBegun s) e = some (en, l, entryDelay en (ctxAt s e).source) :=
    readWanted_iff.2 ⟨readFor_blockBegun.2 h, by rw [ctxAt_blockBegun, (tickTest_air _).2]⟩
  rw [firstRead, hwant, readCell, ← readDistance_eq]
  rfl

theorem firstRead_none (h : ∀ en l, ¬ReadFor s e en l) : firstRead (blockBegun s) e = none := by
  rw [firstRead, Option.map_eq_none_iff, Option.eq_none_iff_forall_ne_some]
  exact fun x hx => h _ _ (readFor_blockBegun.1 (readWanted_iff.1 hx).1)

theorem firstAnswer_waiting : firstAnswer s.dst l (entryDelay en (ctxAt s e).source)
    (max 1 (entryDelay en (ctxAt s e).source)) = .waiting ↔ GoesToDram s e en l := by
  obtain ⟨hnothing, hrest⟩ := firstAnswer_spec s.dst l (entryDelay en (ctxAt s e).source) (max 1 (entryDelay en (ctxAt s e).source))
  constructor
  · intro hw
    by_cases hno : l.fill < entryDelay en (ctxAt s e).source ∨ l.accepted < max 1 (entryDelay en (ctxAt s e).source)
    · exact nomatch hw.symm.trans (hnothing hno)
    · rw [not_or, not_lt, not_lt] at hno
      obtain ⟨hdata, hmark⟩ := hrest hno.1 hno.2
      have hwrites : ∀ w ∈ s.dst.writes, w.cell ≠ readCell s e en l := by
        cases hfind : s.dst.writes.find? (fun w => w.cell == readCell s e en l) with
        | some w => exact nomatch hw.symm.trans (hdata w hfind)
        | none =>
          intro w hm
          simpa using List.find?_eq_none.1 hfind w hm
      exact ⟨hno.1, hno.2, hwrites, fun hm => nomatch hw.symm.trans ((hmark hwrites).1 hm)⟩
  · rintro ⟨h1, h2, h3, h4⟩
    exact ((hrest h1 h2).2 h3).2 h4

/-- The reads that join the queue, in entry order: those that go to the DRAM. -/
theorem mem_readsBegun {x : ReadReq} : (x ∈ entries.filterMap fun e =>
      (firstRead (blockBegun s) e).bind fun x => if x.1 = .waiting then some x.2 else none) ↔
    ∃ en l, ReadFor s x.entry en l ∧ GoesToDram s x.entry en l ∧ x.cell = readCell s x.entry en l ∧ x.width = en.width ∧ x.done = 0 := by
  rw [List.mem_filterMap]
  constructor
  · rintro ⟨e, -, he⟩
    obtain ⟨⟨a, r⟩, hf, hr⟩ := Option.bind_eq_some_iff.1 he
    by_cases hread : ∃ en l, ReadFor s e en l
    · obtain ⟨en, l, hread⟩ := hread
      rw [firstRead_eq hread] at hf
      cases hf
      split at hr
      · next hw =>
        cases hr
        exact ⟨en, l, hread, firstAnswer_waiting.1 hw, rfl, rfl, rfl⟩
      · cases hr
    · rw [firstRead_none fun en l h => hread ⟨en, l, h⟩] at hf
      cases hf
  · rintro ⟨en, l, hread, hdram, hcell, hwidth, hdone⟩
    refine ⟨x.entry, mem_entries _, ?_⟩
    rw [firstRead_eq hread, Option.bind_some, if_pos (firstAnswer_waiting.2 hdram), ← hcell, ← hwidth, ← hdone]

theorem readsBegun_sorted (s : State) : (entries.filterMap fun e =>
    (firstRead s e).bind fun x => if x.1 = .waiting then some x.2 else none).Pairwise fun a b => a.entry < b.entry := by
  have hentry (e : EntryIx) (r : ReadReq)
      (h : ((firstRead s e).bind fun x => if x.1 = .waiting then some x.2 else none) = some r) : r.entry = e := by
    obtain ⟨⟨a, x⟩, hf, hr⟩ := Option.bind_eq_some_iff.1 h
    obtain ⟨y, -, hy⟩ := Option.map_eq_some_iff.1 hf
    cases hy
    split at hr
    · cases hr
      rfl
    · cases hr
  refine List.Pairwise.filterMap _ (fun a b hab x hx y hy => ?_) (List.pairwise_lt_finRange 16)
  rw [hentry a x hx, hentry b y hy]
  exact hab

end

/-- What the start of a block period leaves where no read goes. -/
theorem startBlock_rest (s : State) :
    (startBlock s).txs = txsPeriodStart s.txs ∧ (startBlock s).ctx = s.ctx.map tickTest ∧
    (startBlock s).ext = { s.ext with periodRows := s.ext.rows, periodGen := s.ext.gen } ∧
    (startBlock s).pln = s.pln ∧ (startBlock s).mon = s.mon ∧ (startBlock s).svc = s.svc ∧
    (startBlock s).rtA = s.rtA ∧ (startBlock s).rtB = s.rtB := by
  have hframe := foldl_frame (fun u e => queueRead e u) (fun u => (u.txs, u.ctx, u.ext, u.pln, u.mon, u.svc, u.rtA, u.rtB))
    (fun u e => by simp) entries (blockBegun s)
  rw [startBlock_eq]
  simp only [Prod.mk.injEq] at hframe
  exact hframe

theorem startBlock_store (s : State) :
    (startBlock s).dst.pageMap = s.dst.pageMap ∧ (startBlock s).dst.dram = s.dst.dram := by
  have hqueued := queueReads_dst (blockBegun s)
  rw [startBlock, ← blockBegun]
  exact ⟨hqueued.1, hqueued.2.1⟩

/-- The output block that begins, before its reads are queued. -/
def blockBegins (s : State) : OutBlock := ⟨s.cmb.counter, s.txs.foldback, Vector.replicate 16 .unread, false⟩

theorem startBlock_queued (s : State) : ReadsQueued entries (blockBegins s) (blockBegun s) (startBlock s) :=
  queueReads_queued entries rfl

theorem exec_outputBlockStart {s : State} (h : s.inReset = false) : exec .outputBlockStart s = .next (startBlock s) :=
  exec_released h .outputBlockStart

/-- Settles O47: one read for each contributor with pages, after the timers have stepped. -/
theorem outputStart : Obligations.OutputStart := by
  intro s h
  obtain ⟨⟨a, hcmb, hget⟩, hreads, hwrites, hlines, hmarks⟩ := startBlock_queued s
  obtain ⟨hpages, hdram⟩ := startBlock_store s
  obtain ⟨htxs, hctx, hrest⟩ := startBlock_rest s
  have hanswer (e : EntryIx) : vget a e = ((firstRead (blockBegun s) e).map Prod.fst).getD .unread := by
    rw [hget, if_pos (mem_entries e)]
    exact congrArg _ (vget_replicate _ e)
  have hread {e : EntryIx} {en : Entry} {l : Line} (hr : ReadFor s e en l) : vget a e =
      firstAnswer s.dst l (entryDelay en (ctxAt s e).source) (max 1 (entryDelay en (ctxAt s e).source)) := by
    rw [hanswer, firstRead_eq hr]
    rfl
  have hctxAt (e : EntryIx) : ctxAt (startBlock s) e = tickTest (ctxAt s e) := by
    rw [ctxAt, hctx, vget_map]
    rfl
  have hreads' : (startBlock s).dst.reads = entries.filterMap fun e =>
      (firstRead (blockBegun s) e).bind fun x => if x.1 = .waiting then some x.2 else none := by
    rw [hreads, show (blockBegun s).dst.reads = [] from removeAllReads _, List.nil_append]
  have hexec := exec_outputBlockStart h
  generalize startBlock s = v at *
  refine ⟨v, { blockBegins s with answers := a }, hexec, hcmb, rfl, rfl, rfl, fun e en l hr => ?_,
    fun e hno => ?_, fun x => ?_, ?_, hwrites, hlines, hmarks, hdram, hpages, htxs, fun e n l ht => ?_, fun e hno => ?_, hrest⟩
  · obtain ⟨hnothing, hrest⟩ := firstAnswer_spec s.dst l (entryDelay en (ctxAt s e).source)
      (max 1 (entryDelay en (ctxAt s e).source))
    rw [show vget _ e = _ from hread hr]
    exact ⟨hnothing, fun hf ha => ⟨(hrest hf ha).1, fun hw hm => ((hrest hf ha).2 hw).1 hm⟩, firstAnswer_waiting.2⟩
  · show vget a e = _
    rw [hanswer, firstRead_none hno]
    rfl
  · rw [hreads']
    exact mem_readsBegun
  · rw [hreads']
    exact readsBegun_sorted _
  · rw [hctxAt, tickTest_test ht]
  · rw [hctxAt, tickTest_other hno]

end Sys2Proof.Machine
end

section
/-! SUPPORT. The completion of an output block's assembly: the shed flags, the sequencer's step, the figures and counts. The claim
BlockAssembled. -/

namespace Sys2Proof.Machine

open Sys2Proof.Safety

/-! ### The budget's shares -/

/-- What is made of the entries one by one, each telling its entry, is in entry order. -/
theorem filterMap_entries_sorted {α : Type} {f : EntryIx → Option α} {key : α → EntryIx} (h : ∀ e x, f e = some x → key x = e) :
    ((entries.filterMap f).map key).Pairwise (· < ·) := by
  refine List.pairwise_map.2 (List.Pairwise.filterMap _ (fun a b hab x hx y hy => ?_) (List.pairwise_lt_finRange 16))
  rw [h a x hx, h b y hy]
  exact hab

theorem sharesAt_sorted (o : OutBlock) (s : State) (flag : Bool) :
    ((sharesAt o s flag).map Share.entry).Pairwise (· < ·) := by
  refine filterMap_entries_sorted fun e x hx => ?_
  split at hx
  · split at hx
    · cases hx
      rfl
    · cases hx
  · cases hx

theorem sharesAt_nodup (o : OutBlock) (s : State) (flag : Bool) : ((sharesAt o s flag).map Share.entry).Nodup :=
  (sharesAt_sorted o s flag).imp LT.lt.ne

/-- The laws of the budget of the block that is assembled. -/
theorem budgetAt_perm (o : OutBlock) (s : State) :
    ((budgetAt o s).contributors ++ (budgetAt o s).newlyShed).Perm (sharesAt o s false) :=
  (budgetLaws _ _ _ _ _ (sharesAt_nodup o s false) (sharesAt_nodup o s true)).1

theorem newlyShed_nodup (o : OutBlock) (s : State) : ((budgetAt o s).newlyShed.map Share.entry).Nodup := by
  have hall : (((budgetAt o s).contributors ++ (budgetAt o s).newlyShed).map Share.entry).Nodup :=
    ((budgetAt_perm o s).map Share.entry).nodup_iff.2 (sharesAt_nodup o s false)
  rw [List.map_append] at hall
  exact hall.of_append_right

theorem newlyShed_of_restored {o : OutBlock} {s : State} {x : Share} (h : (budgetAt o s).restored = some x) :
    (budgetAt o s).newlyShed = [] := by
  by_contra hne
  obtain ⟨-, -, -, -, -, -, -, -, hnone, -⟩ :=
    budgetLaws (s.pln.activeSettings.ceiling - o.foldback) s.pln.activeSettings.maxBackoff s.pln.activeSettings.hysteresis
      _ _ (sharesAt_nodup o s false) (sharesAt_nodup o s true)
  exact nomatch h.symm.trans (hnone hne)

/-- An output block that began before a warm restart has no shares at all (R99). -/
theorem sharesAt_restarted {o : OutBlock} (h : o.restarted = true) (s : State) (flag : Bool) : sharesAt o s flag = [] := by
  rw [sharesAt, List.filterMap_eq_nil_iff]
  intro e _
  have hlevel : levelAt o s e = none := by
    rw [levelAt, if_pos h]
  simp [hlevel]

theorem budgetAt_restarted {o : OutBlock} (h : o.restarted = true) (s : State) :
    (budgetAt o s).contributors = [] ∧ (budgetAt o s).newlyShed = [] ∧ (budgetAt o s).restored = none := by
  rw [budgetAt, sharesAt_restarted h, sharesAt_restarted h]
  exact ⟨rfl, rfl, rfl⟩

/-! ### The shed flags (R109, R112) -/

/-- What the shed flags set and cleared by the budget of an assembly leave. -/
structure FlagsSet (b : Budget) (s t : State) : Prop where
  shed     : ∀ x ∈ b.newlyShed, ctxAt t x.entry = { ctxAt s x.entry with shed := true } ∧ Notified x.entry .shed t
  restored : ∀ x, b.restored = some x → ctxAt t x.entry = { ctxAt s x.entry with shed := false } ∧ Notified x.entry .restore t
  same     : ∀ e, (∀ x ∈ b.newlyShed, x.entry ≠ e) → (∀ x, b.restored = some x → x.entry ≠ e) → ctxAt t e = ctxAt s e
  ended    : (∃ x ∈ b.newlyShed, DwellsOn s x.entry) → t.mon = { s.mon with dwell := none }
  kept     : (∀ x ∈ b.newlyShed, ¬DwellsOn s x.entry) → t.mon = s.mon

theorem shedAll_passed (l : List Share) (s : State) (h : (l.map Share.entry).Nodup) :
    Passed Share.entry (fun _ c => { c with shed := true }) (fun _ _ => true) (fun _ _ => some .shed) l s (shedAll l s) :=
  PassStep.foldl (p := s.pln) (op := shedOne) (fun c s _ => shedOne_eq_changeCtx c s) l s h rfl

theorem flagsSet_flags {b : Budget} {s : State} (hn : (b.newlyShed.map Share.entry).Nodup)
    (hr : ∀ x, b.restored = some x → b.newlyShed = []) : FlagsSet b s (flagsSet b s) := by
  cases h : b.restored with
  | none =>
    have hpass := shedAll_passed b.newlyShed s hn
    rw [flagsSet, h]
    refine ⟨fun x hx => ⟨hpass.changed x hx, hpass.notified hn hx rfl⟩, fun x hx => (nomatch h.symm.trans hx),
      fun e he _ => hpass.same e fun hm => ?_, fun ⟨x, hx, hd⟩ => hpass.ended ⟨x, hx, rfl, hd⟩, fun hno => hpass.kept fun x hx _ => hno x hx⟩
    obtain ⟨x, hx, hxe⟩ := List.mem_map.1 hm
    exact he x hx hxe
  | some y =>
    have hnil := hr y h
    have hset : flagsSet b s = changeCtx y.entry { ctxAt s y.entry with shed := false } false (some .restore) s := by
      rw [flagsSet, h, hnil, ← restoreOne_eq_changeCtx]
      rfl
    have hctx := ctxAt_changeCtx y.entry { ctxAt s y.entry with shed := false } false (some .restore) s
    have hnotices := notices_changeCtx y.entry { ctxAt s y.entry with shed := false } false (some .restore) s
    have hmon := mon_changeCtx y.entry { ctxAt s y.entry with shed := false } false (some .restore) s
    rw [← hset] at hctx hnotices hmon
    refine ⟨by simp [hnil], fun x hx => ?_, fun e _ he => ?_, by simp [hnil], fun _ => hmon⟩
    · cases h.symm.trans hx
      have hy := (hctx y.entry).trans (if_pos rfl)
      refine ⟨hy, ?_⟩
      rw [Notified, hnotices, hy]
      exact postNotice_mem _ _
    · rw [hctx, if_neg fun hey => he y h hey.symm]

/-! ### The sequencer's step at an output block (R127, R128) -/

section
variable {set : Settings} {x : Txs}

theorem rampStep_arrived (h : x.state = .rampUp) (ha : x.atten ≤ set.rampStep) :
    rampStep set x = { x with state := .onAir, atten := 0 } := by
  rw [rampStep, h]
  exact if_pos ha

theorem rampStep_up (h : x.state = .rampUp) (ha : set.rampStep < x.atten) :
    rampStep set x = { x with atten := x.atten - set.rampStep } := by
  rw [rampStep, h]
  exact if_neg ha.not_ge

theorem rampStep_silenced (h : x.state = .rampDown) (ha : 300 ≤ x.atten + set.rampStep) : rampStep set x = cooled set.coolTime x := by
  rw [rampStep, h, ← toCool_eq_cooled]
  exact if_pos ha

theorem rampStep_down (h : x.state = .rampDown) (ha : x.atten + set.rampStep < 300) :
    rampStep set x = { x with atten := x.atten + set.rampStep } := by
  rw [rampStep, h]
  exact if_neg ha.not_ge

theorem rampStep_other (h1 : x.state ≠ .rampUp) (h2 : x.state ≠ .rampDown) : rampStep set x = x := by
  rw [rampStep]
  split
  · next h => exact absurd h h1
  · next h => exact absurd h h2
  · rfl

/-- The step sets no further-faults mark and is no trip, and it does not leave ON_AIR. -/
theorem rampStep_moves (set : Settings) (x : Txs) : (rampStep set x).further = x.further ∧
    ((rampStep set x).state ≠ x.state → (rampStep set x).state ≠ .tripped ∧ x.state ≠ .onAir) := by
  by_cases h1 : x.state = .rampUp
  · rcases le_or_gt x.atten set.rampStep with ha | ha
    · rw [rampStep_arrived h1 ha, h1]
      exact ⟨rfl, fun _ => ⟨nofun, nofun⟩⟩
    · rw [rampStep_up h1 ha]
      exact ⟨rfl, fun h => absurd rfl h⟩
  · by_cases h2 : x.state = .rampDown
    · rcases le_or_gt 300 (x.atten + set.rampStep) with ha | ha
      · rw [rampStep_silenced h2 ha, h2]
        refine ⟨?_, fun _ => ⟨?_, nofun⟩⟩
        · rw [cooled]
          split <;> rfl
        · rcases cooled_state set.coolTime x with h | h <;> rw [h] <;> exact nofun
      · rw [rampStep_down h2 ha]
        exact ⟨rfl, fun h => absurd rfl h⟩
    · rw [rampStep_other h1 h2]
      exact ⟨rfl, fun h => absurd rfl h⟩

end

/-- A change of the sequencer that is no trip, sets no further-faults mark and does not leave ON_AIR. -/
theorem commitTxs_calm {x : Txs} {s : State} (hf : x.further = s.txs.further)
    (hm : x.state ≠ s.txs.state → x.state ≠ .tripped ∧ s.txs.state ≠ .onAir) :
    (commitTxs x s).txs = x ∧ (commitTxs x s).ctx = s.ctx ∧ (commitTxs x s).mon = s.mon ∧ (commitTxs x s).svc.notices =
      if x.state = s.txs.state then s.svc.notices else postNotice (transmitContent x) s.svc.notices := by
  by_cases h : x.state = s.txs.state
  · rw [commitTxs_quiet h fun hx => hf ▸ hx, if_pos h]
    exact ⟨rfl, rfl, rfl, rfl⟩
  · obtain ⟨htrip, hair⟩ := hm h
    rw [commitTxs_move_off_air h htrip hair, if_neg h]
    exact ⟨rfl, rfl, rfl, rfl⟩

/-- What TXS leaves when it takes an output block: its own fields, and a TRANSMIT-CHANGED where its state changes. -/
structure BlockTaken (band : List Sample) (placed : List Applied) (s t : State) : Prop where
  txs     : t.txs = { rampStep s.pln.activeSettings s.txs with
    formed := some (formDrive (rampStep s.pln.activeSettings s.txs) band placed) }
  ctx     : t.ctx = s.ctx
  mon     : t.mon = s.mon
  notices : t.svc.notices = if (rampStep s.pln.activeSettings s.txs).state = s.txs.state then s.svc.notices
    else postNotice (transmitContent (rampStep s.pln.activeSettings s.txs)) s.svc.notices

theorem takeOutputBlock_taken (band : List Sample) (placed : List Applied) (s : State) :
    BlockTaken band placed s (takeOutputBlock band placed s) := by
  obtain ⟨hfurther, hmoves⟩ := rampStep_moves s.pln.activeSettings s.txs
  obtain ⟨htxs, hctx, hmon, hnotices⟩ := commitTxs_calm hfurther hmoves
  refine ⟨?_, hctx, hmon, hnotices⟩
  rw [takeOutputBlock, setTxs_txs, htxs]

theorem BlockTaken.notified {band : List Sample} {placed : List Applied} {s t : State} (h : BlockTaken band placed s t)
    {e : EntryIx} {r : Reason} (hn : Notified e r s) : Notified e r t := by
  have hctx : ctxAt t e = ctxAt s e := by rw [ctxAt, ctxAt, h.ctx]
  rw [Notified, h.notices, hctx]
  split
  · exact hn
  · exact postNotice_other hn rfl

/-! ### The assembly -/

/-- The summed band of an assembly. -/
def assembledBand (o : OutBlock) (s : State) : List Sample := summedBand s.free (markLate o) (readsClosed o s) (budgetAt o s)

/-- The contributors of an assembly as TXS hands them to MON. -/
def assembledPlaced (o : OutBlock) (s : State) : List Applied :=
  (budgetAt o s).contributors.map (placedOf (readsClosed o s) (budgetAt o s))

/-- What an assembly leaves before TXS takes its block. -/
def blockBudgeted (o : OutBlock) (s : State) : State :=
  blockRecorded (markLate o) (budgetAt o s) (assembledBand o s) (flagsSet (budgetAt o s) (readsClosed o s))

theorem blockFormed_taken (o : OutBlock) (s : State) :
    BlockTaken ((assembledBand o s).map clampSample) (assembledPlaced o s) (blockBudgeted o s) (blockFormed o s) :=
  takeOutputBlock_taken ..

/-- The state after an assembly that makes no switch. -/
def blockAssembledTo (o : OutBlock) (s : State) : State := setCmb { (blockFormed o s).cmb with
  course := none
  counter := if o.restarted = true then s.cmb.counter else (s.cmb.counter + 1) % 64
  epochs := if o.restarted = false ∧ o.number = 0 then (s.cmb.epochs + 1) % 65536 else s.cmb.epochs } (blockFormed o s)

theorem blockFormed_cmb (o : OutBlock) (s : State) : (blockFormed o s).cmb =
    recordBlock (markLate o) (s.pln.activeSettings.ceiling - o.foldback) (budgetAt o s) ((assembledBand o s).any sampleOver)
      (shedCount (blockFormed o s)) { s.cmb with late := countLate o s.cmb.late } := by
  have hshed : shedCount (blockFormed o s) = shedCount (flagsSet (budgetAt o s) (readsClosed o s)) := by
    rw [shedCount, (blockFormed_taken o s).ctx]
    simp [shedCount, blockBudgeted]
  rw [hshed]
  simp [blockFormed, blockRecorded, assembledBand]
  rfl

theorem exec_assembly {s : State} {o : OutBlock} (h : s.inReset = false) (ho : s.cmb.course = some o) (hs : ¬Switches o s) :
    exec .outputBlockAssembly s = .next (blockAssembledTo o s) := by
  have hassemble : assembleBlock s = blockAssembledTo o s := by
    rw [assembleBlock, ho]
    refine (assemble_eq o s).trans ((completeBlock_unswitched (mt (switches_markLate o s).1 hs)).trans ?_)
    rw [blockAssembledTo, blockFormed_cmb]
    rfl
  exact (exec_released h _).trans (congrArg _ hassemble)

/-- The shed flags of an assembly in the state that it leaves. -/
theorem blockAssembledTo_flags (o : OutBlock) (s : State) : FlagsSet (budgetAt o s) s (blockAssembledTo o s) := by
  have hflags := flagsSet_flags (s := readsClosed o s) (newlyShed_nodup o s) fun _ => newlyShed_of_restored
  have htaken := blockFormed_taken o s
  have hctx (e : EntryIx) : ctxAt (blockFormed o s) e = ctxAt (flagsSet (budgetAt o s) (readsClosed o s)) e := by
    rw [ctxAt, htaken.ctx]
    simp only [blockBudgeted, blockRecorded_frame]
    rfl
  have hmon : (blockFormed o s).mon = (flagsSet (budgetAt o s) (readsClosed o s)).mon := by
    rw [htaken.mon]
    simp only [blockBudgeted, blockRecorded_frame]
  have hnotified {e : EntryIx} {r : Reason} (hn : Notified e r (flagsSet (budgetAt o s) (readsClosed o s))) :
      Notified e r (blockFormed o s) := htaken.notified hn
  have hbefore (e : EntryIx) : ctxAt (readsClosed o s) e = ctxAt s e := rfl
  generalize flagsSet (budgetAt o s) (readsClosed o s) = v at hflags hctx hmon hnotified
  rw [blockAssembledTo]
  generalize blockFormed o s = t at hctx hmon hnotified
  refine ⟨fun x hx => ?_, fun x hx => ?_, fun e h1 h2 => (hctx e).trans (hflags.same e h1 h2), fun h => hmon.trans (hflags.ended h),
    fun h => hmon.trans (hflags.kept h)⟩
  · obtain ⟨hset, hposted⟩ := hflags.shed x hx
    exact ⟨(hctx _).trans hset, hnotified hposted⟩
  · obtain ⟨hset, hposted⟩ := hflags.restored x hx
    exact ⟨(hctx _).trans hset, hnotified hposted⟩

/-- Settles O50: by the stages of the assembly, whose budget is that of the claims. -/
theorem blockAssembled : Obligations.BlockAssembled := by
  intro s o h ho hs
  have hflags := blockAssembledTo_flags o s
  have hcmb := blockFormed_cmb o s
  obtain ⟨-, -, hA, hB, hext, hpln, hdst, -, hqueue, -⟩ := blockFormed_frame o s
  refine ⟨blockAssembledTo o s, exec_assembly h ho hs, ?_⟩
  rw [blockAssembledTo] at hflags ⊢
  generalize blockFormed o s = t at hflags hcmb hA hB hext hpln hdst hqueue
  intro b
  refine ⟨?_, ?_, ?_, ?_, ?_, ?_, ?_, ?_, ?_, ?_, ?_, ?_, ?_, rfl, ?_, ?_, rfl, rfl, hpln, hext, hA, hB, hqueue⟩
  · rw [setCmb_cmb, hcmb]
    rfl
  · rw [setCmb_cmb, hcmb]
    rfl
  · rintro e ⟨x, hx, rfl⟩
    exact hflags.shed x hx
  · rintro e x hx rfl
    exact hflags.restored x hx
  · exact hflags.same
  · rintro e d hd hv ⟨x, hx, rfl⟩
    exact hflags.ended ⟨x, hx, d, hd, hv⟩
  · intro hno
    exact hflags.kept fun x hx ⟨d, hd, hv⟩ => hno x.entry d hd hv ⟨x, hx, rfl⟩
  · exact fun hr => budgetAt_restarted hr s
  · intro e
    rw [setCmb_cmb, hcmb]
    exact vget_zipWith ..
  · exact (congrArg Dst.reads hdst).trans (removeAllReads s.dst)
  · exact (congrArg Dst.writes hdst).trans rfl
  · exact (congrArg Dst.dram hdst).trans rfl
  · exact (congrArg Dst.lines hdst).trans rfl
  · intro e
    rw [setCmb_cmb, hcmb]
    exact vget_replicate ..
  · rw [setCmb_cmb, hcmb]
    rfl

end Sys2Proof.Machine
end

section
/-! SUPPORT. The samples of the output band: placed, summed and formed into drive samples at the sequencer's step. The claim
RampAndDrive. -/

namespace Sys2Proof.Machine

open Sys2Proof.Safety

/-! ### Placed and raised samples (R113, R114) -/

theorem placeSample_placedBy (n : Nat) (e : EntryIx) (hz : Int) (i : Nat) (z : Sample) :
    PlacedBy n e hz i z (placeSample n e hz i z) := rfl

theorem placeOffer_length (n : Nat) (e : EntryIx) (en : Entry) (src : Source) (f : Offer) :
    (placeOffer n e en src f).length = 48000 := by
  cases f <;> simp [placeOffer, bandSamples]

theorem placed_at (f : Nat → Sample) {i : Nat} (hi : i < 48000) : ((List.range bandSamples).map f)[i]? = some (f i) := by
  rw [List.getElem?_map, List.getElem?_range (show i < bandSamples from hi)]
  rfl

section
variable (n : Nat) (e : EntryIx) (en : Entry) (src : Source) (level : Int) {i : Nat} (hi : i < 48000)
include hi

theorem placeOffer_samples_at (l : List Sample) : (placeOffer n e en src (.samples level l))[i]? =
    some (placeSample n e (placedCentre en src) i (raisedSample l.length (rangeLines l.length l) i)) := by
  rw [placeOffer]
  exact placed_at _ hi

theorem placeOffer_tone_at : (placeOffer n e en src (.tone level))[i]? =
    some (placeSample n e (toneCentre en) i (carrierAmplitude level)) := by
  rw [placeOffer]
  exact placed_at _ hi

end

/-- A raised component is the whole part of the exact one. -/
theorem raised_near {total : Nat} (ht : 0 < total) (x : Int) :
    x * fineOne / (total * unitOne ^ 2) * (total * unitOne ^ 2) ≤ x * 2 ^ 16 ∧
    x * 2 ^ 16 < x * fineOne / (total * unitOne ^ 2) * (total * unitOne ^ 2) + total * unitOne ^ 2 := by
  have hpos : 0 < (total : Int) * unitOne ^ 2 := mul_pos (Int.natCast_pos.2 ht) (pow_pos (by decide) 2)
  have hfine : (fineOne : Int) = 2 ^ 16 := by decide
  rw [hfine]
  refine ⟨Int.ediv_mul_le _ hpos.ne', ?_⟩
  have := Int.lt_ediv_add_one_mul_self (x * 2 ^ 16) hpos
  rwa [Int.add_mul, Int.one_mul] at this

/-! ### Summing (R116) -/

theorem scaleComponent_zero (g : Int) : scaleComponent g 0 = 0 := by
  obtain ⟨h1, h2⟩ := scaleComponent_spec g 0
  have h2 : scaleComponent g 0 = -(scaleNat g 0 : Int) := h2
  have h1 : scaleComponent g 0 = scaleNat g 0 := h1
  omega

theorem scaleSample_zero (g : Int) : scaleSample g ⟨0, 0⟩ = ⟨0, 0⟩ := by
  rw [scaleSample]
  split
  · rfl
  · rw [scaleComponent_zero]

theorem scaleSamples_getD (g : Int) (l : List Sample) (i : Nat) :
    (scaleSamples g l).getD i ⟨0, 0⟩ = scaleSample g (l.getD i ⟨0, 0⟩) := by
  have h := List.getD_map (f := scaleSample g) (l := l) (n := i) (d := ⟨0, 0⟩)
  rwa [scaleSample_zero] at h

theorem clampSample_zero : clampSample ⟨0, 0⟩ = ⟨0, 0⟩ := (clampSample_spec _).1 (by decide)

theorem summed_cons (z : Sample) (l : List Sample) : summed (z :: l) = addSample z (summed l) := rfl

theorem addSample_assoc (a b c : Sample) : addSample (addSample a b) c = addSample a (addSample b c) := by
  simp [addSample, add_assoc]

theorem addBands_getD {a b : List Sample} (h : a.length = b.length) (i : Nat) :
    (addBands a b).getD i ⟨0, 0⟩ = addSample (a.getD i ⟨0, 0⟩) (b.getD i ⟨0, 0⟩) := by
  by_cases hi : i < a.length
  · have hb : i < b.length := h ▸ hi
    simp [addBands, hi, hb]
  · have hb : ¬i < b.length := h ▸ hi
    simp [addBands, addSample, hi, hb]

/-- Bands added one after the other make, at each sample, the sum of theirs. -/
theorem addBands_foldl {n : Nat} : ∀ (l : List (List Sample)) (a : List Sample), a.length = n → (∀ b ∈ l, b.length = n) →
    (l.foldl addBands a).length = n ∧ ∀ i, (l.foldl addBands a).getD i ⟨0, 0⟩ =
      addSample (a.getD i ⟨0, 0⟩) (summed (l.map fun b => b.getD i ⟨0, 0⟩))
  | [], a, ha, _ => ⟨ha, fun i => by simp [summed, addSample]⟩
  | b :: rest, a, ha, hl => by
    have hb : b.length = n := hl b List.mem_cons_self
    obtain ⟨hlen, hget⟩ := addBands_foldl rest (addBands a b) (by simp [addBands, ha, hb]) fun c hc =>
      hl c (List.mem_cons_of_mem _ hc)
    refine ⟨hlen, fun i => ?_⟩
    rw [List.foldl_cons, hget, addBands_getD (ha.trans hb.symm), addSample_assoc, List.map_cons, summed_cons]

theorem silence_getD (n i : Nat) : (silence n).getD i ⟨0, 0⟩ = ⟨0, 0⟩ := by
  rw [silence, List.getD_eq_getElem?_getD, List.getElem?_replicate]
  split <;> rfl

/-! ### The summed band of an assembly -/

theorem placedAt_length (o : OutBlock) (s : State) (e : EntryIx) : (placedAt o s e).length = 48000 := by
  rw [placedAt]
  split
  · exact List.length_replicate
  · split
    · exact placeOffer_length ..
    · exact placeOffer_length ..
    · exact List.length_replicate

section
variable {o : OutBlock} {s : State} {e : EntryIx} {en : Entry} {f : Offer}

theorem recordOffer_some {r : BlockRecord} (h : recordOffer r = some f) : f = .samples (r.lout.getD 0) r.samples := by
  obtain ⟨l, hl, rfl⟩ := Option.map_eq_some_iff.1 h
  rw [hl]
  rfl

/-- What a position offers is what the claims place for it. -/
theorem placedAt_of_offer (ha : activeAt s e = some en) (h : offerOf (markLate o) (readsClosed o s) e = some f) :
    placedAt o s e = placeOffer s.free e en (ctxAt s e).source f := by
  have hplayed (hp : (if en.pages = 0 then (vget s.cmb.held e).bind recordOffer
      else answerOffer (vget (markLate o).answers e)) = some f) :
      ∃ r, recordAt o s e en = some r ∧ f = .samples (r.lout.getD 0) r.samples := by
    rw [vget_markLate] at hp
    rw [recordAt]
    by_cases hpages : en.pages = 0
    · rw [if_pos hpages] at hp ⊢
      obtain ⟨r, hr, hf⟩ := Option.bind_eq_some_iff.1 hp
      exact ⟨r, hr, recordOffer_some hf⟩
    · rw [if_neg hpages] at hp ⊢
      cases hans : vget o.answers e with
      | data r =>
        rw [hans] at hp
        exact ⟨r, rfl, recordOffer_some hp⟩
      | _ =>
        rw [hans] at hp
        cases hp
  simp only [offerOf, readsClosed_frame, ha] at h
  split at h
  · cases h
  · rw [placedAt, ha]
    cases hst : (ctxAt s e).state with
    | live =>
      simp only [hst] at h
      obtain ⟨r, hr, rfl⟩ := hplayed h
      simp [hr]
    | fade =>
      simp only [hst] at h
      obtain ⟨r, hr, rfl⟩ := hplayed h
      simp [hr]
    | test n l =>
      simp only [hst] at h
      split at h
      · cases h
      · cases h
        rfl
    | _ => simp [hst] at h

/-- A contributor's samples are those that the claims place for it, turned down by the backoff. -/
theorem contribution_eq {c : Share} (b : Nat) (hc : c ∈ (budgetAt o s).contributors) :
    contribution s.free b (markLate o) (readsClosed o s) c = scaleSamples (-(b : Int)) (placedAt o s c.entry) := by
  have hmem : c ∈ shares (markLate o) (readsClosed o s) false := by
    rw [shares_eq_sharesAt]
    exact (budgetAt_perm o s).mem_iff.1 (List.mem_append_left _ hc)
  obtain ⟨e, -, he⟩ := List.mem_filterMap.1 hmem
  split at he
  · next en f ha hf =>
    split at he
    · cases he
      have ha : activeAt s e = some en := ha
      simp only [contribution, readsClosed_frame, ha, hf, placedAt_of_offer ha hf]
    · cases he
  · cases he

end

/-- A contributor's sample in the output band, turned down by the backoff. -/
def turnedDown (o : OutBlock) (s : State) (i : Nat) (c : Share) : Sample :=
  scaleSample (-((budgetAt o s).backoff : Int)) ((placedAt o s c.entry).getD i ⟨0, 0⟩)

theorem bandAt_eq (o : OutBlock) (s : State) : bandAt o s =
    (List.range 48000).map fun i => summed ((budgetAt o s).contributors.map (turnedDown o s i)) := rfl

/-- The summed band of an assembly is that of the claims. -/
theorem assembledBand_eq (o : OutBlock) (s : State) : assembledBand o s = bandAt o s := by
  have hsum : assembledBand o s = ((budgetAt o s).contributors.map fun c =>
      scaleSamples (-((budgetAt o s).backoff : Int)) (placedAt o s c.entry)).foldl addBands (silence 48000) := by
    rw [assembledBand, summedBand, List.foldl_map]
    exact List.foldl_ext _ _ _ fun a c hc => congrArg (addBands a) (contribution_eq _ hc)
  obtain ⟨hlen, hget⟩ := addBands_foldl (n := 48000) ((budgetAt o s).contributors.map fun c =>
    scaleSamples (-((budgetAt o s).backoff : Int)) (placedAt o s c.entry)) (silence 48000) List.length_replicate fun b hb => by
      obtain ⟨c, -, rfl⟩ := List.mem_map.1 hb
      rw [scaleSamples, List.length_map, placedAt_length]
  rw [← hsum] at hlen hget
  rw [bandAt_eq]
  refine List.ext_getElem (by simpa using hlen) fun i hi _ => ?_
  have hi' := hget i
  rw [List.getD_eq_getElem _ _ hi, silence_getD, List.map_map] at hi'
  rw [hi', List.getElem_map, List.getElem_range]
  have hparts : ((fun b : List Sample => b.getD i ⟨0, 0⟩) ∘ fun c : Share =>
      scaleSamples (-((budgetAt o s).backoff : Int)) (placedAt o s c.entry)) = turnedDown o s i := by
    funext c
    exact scaleSamples_getD ..
  rw [hparts]
  simp [addSample]

theorem bandAt_length (o : OutBlock) (s : State) : (bandAt o s).length = 48000 := by
  rw [bandAt_eq, List.length_map, List.length_range]

theorem bandAt_empty {o : OutBlock} {s : State} (h : (budgetAt o s).contributors = []) : bandAt o s = silence 48000 := by
  rw [bandAt_eq, h]
  simp only [List.map_nil]
  rw [List.map_const', List.length_range]
  rfl

/-! ### The forming of the drive samples (R115, R117, R120) -/

/-- What TXS forms of the summed band is what the claims say. -/
theorem formDrive_formed (o : OutBlock) (s : State) (x : Txs) :
    DriveFormed o s x (formDrive x ((bandAt o s).map clampSample) (assembledPlaced o s)) := by
  refine ⟨fun h => ?_, fun h => ?_, fun h => ?_⟩
  · rw [formDrive, h]
    rfl
  · rw [formDrive, if_pos h]
    have hlen : (scaleSamples (-(x.atten : Int)) ((bandAt o s).map clampSample)).length = 48000 := by
      rw [scaleSamples, List.length_map, List.length_map, bandAt_length]
    generalize scaleSamples _ _ = samples at hlen
    refine ⟨rfl, hlen, ?_⟩
    rw [assembledPlaced, List.map_map, List.forall₂_map_right_iff, List.forall₂_same]
    intro c _
    simp only [Function.comp_apply, placedOf]
    cases ha : activeAt (readsClosed o s) c.entry with
    | none => exact ⟨rfl, rfl, fun en hen => (nomatch hen.symm.trans ha)⟩
    | some en' =>
      refine ⟨rfl, rfl, fun en hen => ?_⟩
      cases hen.symm.trans ha
      exact ⟨rfl, rfl⟩
  · rw [formDrive, bandAt_empty h]
    split
    · simp only [silence, List.map_replicate, scaleSamples]
      rw [show clampSample Sample.zero = Sample.zero from clampSample_zero,
        show scaleSample (-(x.atten : Int)) Sample.zero = Sample.zero from scaleSample_zero _]
    · rfl

theorem blockFormed_clips (o : OutBlock) (s : State) : Clipped o s (blockAssembledTo o s) := by
  have hover : (fun z => decide (32767 ^ 2 < samplePower z)) = sampleOver := rfl
  rw [Clipped, hover, blockAssembledTo, setCmb_cmb, blockFormed_cmb, assembledBand_eq]
  generalize bandAt o s = band
  rfl

/-- Without contributors the band is silent, and nothing is clipped. -/
theorem not_clipped_empty {o : OutBlock} {s : State} (h : (budgetAt o s).contributors = []) :
    ¬(bandAt o s).any (fun z => decide (32767 ^ 2 < samplePower z)) = true := by
  rw [bandAt_empty h, silence, List.any_replicate]
  decide

/-- Settles O51: the step of the sequencer and the forming of its samples from the summed band. -/
theorem rampAndDrive : Obligations.RampAndDrive := by
  refine ⟨fun n e en src => ⟨fun level l => ⟨placeOffer_length .., fun i hi =>
      ⟨_, placeOffer_samples_at n e en src level hi l, placeSample_placedBy ..⟩⟩, fun level => ⟨placeOffer_length .., fun i hi =>
      ⟨_, placeOffer_tone_at n e en src level hi, placeSample_placedBy ..⟩⟩⟩,
    fun total i lines ht part hpart => ?_, fun s o h ho hs => ?_⟩
  · rcases hpart with rfl | rfl
    · exact raised_near ht _
    · exact raised_near ht _
  · have htaken := blockFormed_taken o s
    have hdrive := formDrive_formed o s (rampStep s.pln.activeSettings s.txs)
    have hclips := blockFormed_clips o s
    have hbefore : (blockBudgeted o s).pln = s.pln ∧ (blockBudgeted o s).txs = s.txs := by simp [blockBudgeted]
    have htxs := htaken.txs
    have hnotices := htaken.notices
    rw [hbefore.1, hbefore.2, assembledBand_eq] at htxs
    rw [hbefore.1, hbefore.2] at hnotices
    generalize formDrive _ _ _ = d at hdrive htxs
    have hu : (blockAssembledTo o s).txs = (blockFormed o s).txs ∧ (blockAssembledTo o s).svc = (blockFormed o s).svc := ⟨rfl, rfl⟩
    rw [← hu.1] at htxs
    rw [← hu.2] at hnotices
    refine ⟨blockAssembledTo o s, d, exec_assembly h ho hs, by rw [htxs], ?_⟩
    generalize blockAssembledTo o s = u at hclips htxs hnotices
    intro step x
    rw [htxs]
    refine ⟨fun hup ha => ?_, fun hup ha => ?_, fun hdown ha => ?_, fun hdown ha => ?_, fun h1 h2 => ?_, fun hne => ?_, ?_, hclips, fun hempty => ?_⟩
    · rw [rampStep_arrived hup ha]
      exact ⟨rfl, rfl⟩
    · rw [rampStep_up hup ha]
      exact ⟨hup, rfl⟩
    · rw [rampStep_down hdown ha]
      exact ⟨hdown, rfl⟩
    · rw [rampStep_silenced hdown ha, cooled]
      split
      · next h0 => exact ⟨rfl, fun hpos => absurd h0 hpos.ne', fun _ => ⟨rfl, rfl, rfl, rfl⟩⟩
      · next h0 => exact ⟨rfl, fun _ => ⟨rfl, rfl⟩, fun hzero => absurd hzero h0⟩
    · rw [rampStep_other h1 h2]
    · rw [hnotices, if_neg (Ne.symm hne)]
      exact postNotice_mem _ _
    · exact ⟨hdrive.silent, hdrive.driven, hdrive.empty⟩
    · exact hclips.trans (if_neg (not_clipped_empty hempty))

end Sys2Proof.Machine
end

section
/-! SUPPORT. The page map and the page lists of the lines stand between two plan switches (R39, R82). -/

namespace Sys2Proof.Machine

open Sys2Proof.Safety

/-- The page list of an entry's line, if it has one. -/
def pagesOf (s : State) (e : EntryIx) : Option (List Nat) := (lineAt s e).map Line.pages

/-- The page map and the page list of every line stand. -/
structure Paged (s t : State) : Prop where
  map   : t.dst.pageMap = s.dst.pageMap
  lists : ∀ e, pagesOf t e = pagesOf s e

theorem Paged.refl (s : State) : Paged s s := ⟨rfl, fun _ => rfl⟩

theorem Paged.trans {s t u : State} (h1 : Paged s t) (h2 : Paged t u) : Paged s u :=
  ⟨h2.map.trans h1.map, fun e => (h2.lists e).trans (h1.lists e)⟩

theorem Paged.of_lines {s t : State} (hm : t.dst.pageMap = s.dst.pageMap) (hl : t.dst.lines = s.dst.lines) : Paged s t :=
  ⟨hm, fun e => by rw [pagesOf, pagesOf, lineAt, lineAt, hl]⟩

theorem Paged.of_dst {s t : State} (h : t.dst = s.dst) : Paged s t := .of_lines (congrArg _ h) (congrArg _ h)

/-- A line replaced by one with the same pages. -/
theorem Paged.of_line {s t : State} {e : EntryIx} (hm : t.dst.pageMap = s.dst.pageMap)
    (hl : ∀ f, lineAt t f = if f = e then lineAt t e else lineAt s f) (he : pagesOf t e = pagesOf s e) : Paged s t := by
  refine ⟨hm, fun f => ?_⟩
  by_cases h : f = e
  · rw [h, he]
  · rw [pagesOf, pagesOf, hl, if_neg h]

/-! ### The operations of the delay store -/

theorem pages_lineFlush (o : Option Line) : (o.map lineFlush).map Line.pages = o.map Line.pages := by cases o <;> rfl

theorem Paged.flushLine (e : EntryIx) (s : State) : Paged s (flushLine e s) := by
  have h := lineAt_flushLine e s
  refine .of_line (e := e) (by simp) (fun f => ?_) ?_
  · rw [h f, h e, if_pos rfl]
  · rw [pagesOf, h e, if_pos rfl, pages_lineFlush]
    rfl

theorem Paged.switchSource (e : EntryIx) (fo : Bool) (why : Reason) (c : Ctx) (s : State) :
    Paged s (switchSource e fo why c s) := by
  have h (f : EntryIx) := lineAt_switchSource (e := e) (fo := fo) (why := why) (c := c) (s := s) f
  refine .of_line (e := e) (by simp) (fun f => ?_) ?_
  · rw [h f, h e, if_pos rfl]
  · rw [pagesOf, h e, if_pos rfl, pages_lineFlush]
    rfl

theorem Paged.flushAll (s : State) : Paged s (flushAll s) :=
  ⟨by simp, fun e => by rw [pagesOf, lineAt_flushAll, pages_lineFlush]; rfl⟩

theorem Paged.handOn (e : EntryIx) (en : Entry) (x : BlockRecord) (s : State) : Paged s (handOn e en x s) := by
  have hmap := (handOn_dst e en x s).1
  rw [Machine.handOn] at hmap ⊢
  by_cases hpages : en.pages = 0
  · rw [if_pos hpages]
    exact .of_dst rfl
  · rw [if_neg hpages]
    split
    · next l hl =>
      simp only [if_neg hpages, hl] at hmap
      have hline (f : EntryIx) : lineAt (setDst (acceptRecord e l en.width x s.dst) s) f =
          if f = e then some (acceptedLine (decide (s.dst.writes.length < 32)) l) else lineAt s f := by
        rw [lineAt, setDst_dst, acceptRecord_lines, vget_vput]
        rfl
      refine .of_line (e := e) hmap (fun f => ?_) ?_
      · rw [hline f, hline e, if_pos rfl]
      · rw [pagesOf, hline e, if_pos rfl, pagesOf, hl]
        cases decide (s.dst.writes.length < 32) <;> rfl
    · exact .refl s

theorem Paged.deliverBlock (e : EntryIx) (r : Source) (s : State) : Paged s (deliverBlock e r s) := by
  have htake (en : Entry) (b : ChannelBlock) (x : Ext) : Paged s (takeBlock e en r b (setExt x s)) := by
    refine Paged.trans (t := setExt x s) (.of_dst rfl) ?_
    generalize setExt x s = u
    have hhanded : Paged u (blockHanded e en r b u) := by
      rw [blockHanded]
      split
      · exact .handOn ..
      · exact .refl u
    rw [takeBlock_eq rfl]
    cases blockSwitch en u.pln.activeSettings.acquire (blockCtx en u.pln.activeSettings.acquire r b (ctxAt u e)) r
        (blockGood en b) with
    | some sw => exact .switchSource ..
    | none => exact hhanded.trans (.of_dst (by simp))
  rw [Machine.deliverBlock]
  split
  · exact .refl s
  · split
    · exact .of_dst rfl
    · simp only
      split
      · exact .of_dst rfl
      · exact htake _ _ _

theorem Paged.completeAccess (s : State) : Paged s (completeAccess s) := by
  have hread : Paged s (completeRead s) := by
    cases hr : s.dst.reads with
    | nil => exact .of_dst (by simp [completeRead, hr])
    | cons x rest =>
      by_cases hx : x.done + 1 < x.width
      · rw [completeRead_early hr hx]
        exact .of_lines rfl rfl
      · rw [completeRead_last hr hx]
        exact .of_lines rfl rfl
  have hwrite : Paged s (setDst (completeWrite s.dst) s) := by
    cases hw : s.dst.writes with
    | nil => exact .of_dst (by simp [completeWrite, hw])
    | cons w rest =>
      by_cases hx : w.done + 1 < w.width
      · rw [completeWrite_early hw hx]
        exact .of_lines rfl rfl
      · obtain ⟨-, -, -, hlines, -, -, hmap, -⟩ := completeWrite_last hw hx
        refine .of_line (e := w.entry) hmap (fun f => ?_) ?_
        · simp only [lineAt, setDst_dst, hlines, vget_filledLines, if_pos]
        · rw [pagesOf, lineAt, setDst_dst, hlines, vget_filledLines, if_pos rfl, pagesOf, lineAt]
          cases vget s.dst.lines w.entry <;> rfl
  have hburst : Paged s (burstDone s) := by
    by_cases h1 : s.dst.port = .read
    · rwa [burstDone_read h1]
    · by_cases h2 : s.dst.port = .write
      · rwa [burstDone_write h2]
      · rw [burstDone_none h1 h2]
        exact .refl s
  rw [completeAccess_eq]
  refine hburst.trans (.of_lines ?_ ?_) <;> simp

theorem Paged.refreshExpiry (s : State) : Paged s (refreshExpiry s) := by
  rw [Machine.refreshExpiry]
  simp only
  split
  · rw [overrun_eq rfl rfl]
    have hperiod : Paged s (setDst { s.dst with refreshPeriod := s.pln.activeSettings.refresh } s) := .of_lines rfl rfl
    refine (hperiod.trans (.flushAll _)).trans ?_
    generalize Machine.flushAll _ = v
    exact .of_lines rfl rfl
  · refine .of_lines ?_ ?_ <;> simp

theorem Paged.startBlock (s : State) : Paged s (startBlock s) :=
  .of_lines (startBlock_store s).1 (startBlock_queued s).dst.2.1

theorem Paged.blockFormed (o : OutBlock) (s : State) : Paged s (blockFormed o s) := by
  refine .of_lines ?_ ?_ <;> simp only [blockFormed_frame] <;> rfl

theorem warmRestart_store (s : State) : (warmRestart s).dst.pageMap = (flushAll s).dst.pageMap ∧
    (warmRestart s).dst.lines = (flushAll s).dst.lines := by
  rw [Machine.warmRestart, restartDst]
  generalize flushAll s = v
  exact ⟨rfl, rfl⟩

theorem Paged.warmRestart (s : State) : Paged s (warmRestart s) :=
  (Paged.flushAll s).trans (.of_lines (warmRestart_store s).1 (warmRestart_store s).2)

theorem Paged.actForceSource (b : List Byte) (s : State) : Paged s (actForceSource b s).state := by
  rw [Machine.actForceSource, onEntry]
  split
  · exact .refl s
  · split
    · exact .refl s
    · split
      · exact .refl s
      · split
        · exact .refl s
        · split
          · exact .refl s
          · exact .switchSource ..

theorem Paged.actOf (k : Kind) (b : List Byte) (s : State) : Paged s (actOf k b s).state := by
  cases k with
  | forceSource => exact .actForceSource b s
  | _ => exact .of_dst (by simp [Machine.actOf])

/-! ### The law between two switches -/

theorem pagesLaw_congr {s t : State} (h : PagesLaw s) (hp : Paged s t) (ha : ∀ e, activeAt t e = activeAt s e) : PagesLaw t := by
  have hsome (e : EntryIx) : (lineAt t e).isSome = (lineAt s e).isSome := by
    have := congrArg Option.isSome (hp.lists e)
    simpa [pagesOf] using this
  refine ⟨fun e => by rw [hp.map, ha, h.owned], fun e => by rw [hsome, ha, h.line], fun e l hl => ?_⟩
  obtain ⟨m, hm, hpages⟩ := Option.map_eq_some_iff.1 ((hp.lists e).symm.trans (congrArg (Option.map Line.pages) hl))
  obtain ⟨hnodup, hmem⟩ := h.list e m hm
  rw [← hpages, hp.map]
  exact ⟨hnodup, hmem⟩

/-- The two laws of the pages are kept by every step as soon as the switch keeps them. -/
theorem pagesLaw_kept (hswitch : ∀ s, PlanLaw s → PagesLaw s → s.pln.armed = true → PagesLaw (planSwitch s)) :
    StepKept fun s => PlanLaw s ∧ PagesLaw s where
  pending s l h := ⟨planLaw_kept.pending s l h.1, pagesLaw_congr h.2 (.of_dst rfl) fun _ => rfl⟩
  lineLow s h := ⟨planLaw_kept.lineLow s h.1, pagesLaw_congr h.2 (.of_dst rfl) fun _ => rfl⟩
  powerOn s := ⟨planLaw_kept.powerOn s, pagesLaw_congr pagesLaw_reset (.of_dst rfl) fun _ => rfl⟩
  take s r rest hq h := ⟨planLaw_kept.take s r rest hq h.1, pagesLaw_congr h.2 (.of_dst rfl) fun _ => rfl⟩
  respond r st b s h := ⟨planLaw_kept.respond r st b s h.1, pagesLaw_congr h.2 (.of_dst (by simp)) (by simp)⟩
  act k b s h := ⟨planLaw_kept.act k b s h.1, pagesLaw_congr h.2 (.actOf k b s) (Moved.actOf k b s).active⟩
  restart s h := ⟨planLaw_kept.restart s h.1, pagesLaw_congr h.2 (.warmRestart s) fun e => by simp [activeAt, warmRestart, restartDst]⟩
  trunk t o s h := ⟨planLaw_kept.trunk t o s h.1, pagesLaw_congr h.2 (.of_dst (by simp)) (by simp)⟩
  block e r s h := ⟨planLaw_kept.block e r s h.1, pagesLaw_congr h.2 (.deliverBlock e r s) (by simp)⟩
  access s h := ⟨planLaw_kept.access s h.1, pagesLaw_congr h.2 (.completeAccess s) (by simp)⟩
  refresh s h := ⟨planLaw_kept.refresh s h.1, pagesLaw_congr h.2 (.refreshExpiry s) (by simp)⟩
  start s h := ⟨planLaw_kept.start s h.1, pagesLaw_congr h.2 (.startBlock s) (by simp)⟩
  assembly s h := by
    refine ⟨planLaw_kept.assembly s h.1, ?_⟩
    have hformed (o : OutBlock) (c : Cmb) : Paged s (setCmb c (blockFormed o s)) := (Paged.blockFormed o s).trans (.of_dst rfl)
    rcases assembleBlock_cases s with ⟨-, ha⟩ | ⟨o, c, -, -, ⟨-, ha⟩ | ⟨hs, ha⟩⟩ <;> rw [ha]
    · exact h.2
    · exact pagesLaw_congr h.2 (hformed o c) (by simp)
    · exact hswitch _ (h.1.congr (by simp) (by simp)) (pagesLaw_congr h.2 (hformed o c) (by simp)) (by simpa using hs.2.2)
  forward s h := ⟨planLaw_kept.forward s h.1, pagesLaw_congr h.2 (.of_dst (by simp)) (by simp)⟩
  reverse w s h := ⟨planLaw_kept.reverse w s h.1, pagesLaw_congr h.2 (.of_dst (by simp)) (by simp)⟩
  lock l s h := ⟨planLaw_kept.lock l s h.1, pagesLaw_congr h.2 (.of_dst (by simp)) (by simp)⟩
  bias s h := ⟨planLaw_kept.bias s h.1, pagesLaw_congr h.2 (.of_dst (by simp)) (by simp)⟩
  cool s h := ⟨planLaw_kept.cool s h.1, pagesLaw_congr h.2 (.of_dst (by simp)) (by simp)⟩
  test e s h := ⟨planLaw_kept.test e s h.1, pagesLaw_congr h.2 (.of_dst (by simp)) (by simp)⟩
  send t s h := ⟨planLaw_kept.send t s h.1, pagesLaw_congr h.2 (.of_dst (by simp)) (by simp)⟩

end Sys2Proof.Machine
end

section
/-! SUPPORT. The passes of a switch over the pages and lines (R39, R98): what the first frees, and how the second takes the lowest
free pages in entry order. The claim PagesStayLawful. -/

namespace Sys2Proof.Machine

open Sys2Proof.Safety

/-! ### The classes of positions (Table 2-8) -/

theorem samePath_iff {a b : Entry} : samePath a b = true ↔ SamePath a b := by
  simp [samePath, SamePath, and_assoc]

theorem endsChannel_classify (a b : Option Entry) : endsChannel (classify a b) = true ↔ a ≠ none ∧ ¬Keeps a b := by
  rcases a with _ | a <;> rcases b with _ | b
  · simp [classify, endsChannel]
  · simp [classify, endsChannel]
  · simp [classify, endsChannel, Keeps]
  · by_cases h : samePath a b = true
    · have hk : Keeps (some a) (some b) := ⟨a, b, rfl, rfl, samePath_iff.1 h⟩
      simp only [classify, h, Bool.true_eq_false, if_false]
      split <;> simp [endsChannel, hk]
    · have hk : ¬Keeps (some a) (some b) := fun ⟨x, y, hx, hy, hxy⟩ => by
        cases hx
        cases hy
        exact h (samePath_iff.2 hxy)
      simp [classify, h, hk, endsChannel]

theorem startsChannel_classify (a b : Option Entry) : startsChannel (classify a b) = true ↔ b ≠ none ∧ ¬Keeps a b := by
  rcases a with _ | a <;> rcases b with _ | b
  · simp [classify, startsChannel]
  · simp [classify, startsChannel, Keeps]
  · simp [classify, startsChannel]
  · have h := endsChannel_classify (some a) (some b)
    have hsame : startsChannel (classify (some a) (some b)) = endsChannel (classify (some a) (some b)) := by
      simp only [classify]
      split
      · rfl
      · split <;> rfl
    rw [hsame, h]
    simp

theorem endsAt_iff (s : State) (e : EntryIx) : endsChannel (vget (switchClasses s) e) = true ↔ EndsAt s e := by
  rw [switchClasses, vget_zipWith, endsChannel_classify]
  rfl

theorem startsAt_iff (s : State) (e : EntryIx) : startsChannel (vget (switchClasses s) e) = true ↔ StartsAt s e := by
  rw [switchClasses, vget_zipWith, startsChannel_classify]
  rfl

/-! ### The first pass (R39, R98) -/

/-- The channels that `ends` picks are freed: their pages, their lines and what is queued of them. -/
structure Freed (ends : EntryIx → Bool) (s t : State) : Prop where
  map    : t.dst.pageMap = s.dst.pageMap.map (Option.filter fun f => !ends f)
  lines  : ∀ e, lineAt t e = if ends e = true then none else lineAt s e
  writes : t.dst.writes = s.dst.writes.filter fun w => !(ends w.entry && (lineAt s w.entry).isSome)
  reads  : s.dst.reads = [] → t.dst.reads = [] ∧ t.cmb = s.cmb
  rest   : t.dst.dram = s.dst.dram ∧ t.dst.gapMarks = s.dst.gapMarks ∧ t.dst.gapCounts = s.dst.gapCounts ∧
    t.dst.overruns = s.dst.overruns ∧ t.dst.refreshPeriod = s.dst.refreshPeriod ∧ t.dst.refreshPending = s.dst.refreshPending

theorem Freed.nothing (s : State) : Freed (fun _ => false) s s where
  map := by
    have : (Option.filter fun _ : EntryIx => !false) = id := by
      funext o
      cases o <;> rfl
    rw [this, Vector.map_id]
  lines _ := rfl
  writes := by simp
  reads h := ⟨h, rfl⟩
  rest := ⟨rfl, rfl, rfl, rfl, rfl, rfl⟩

theorem Freed.trans {a b : EntryIx → Bool} {s t u : State} (h1 : Freed a s t) (h2 : Freed b t u) :
    Freed (fun e => a e || b e) s u where
  map := by
    rw [h2.map, h1.map, Vector.map_map]
    congr 1
    funext o
    cases o with
    | none => rfl
    | some f => cases ha : a f <;> simp [Option.filter, ha]
  lines e := by
    rw [h2.lines, h1.lines]
    cases a e <;> simp
  writes := by
    rw [h2.writes, h1.writes, List.filter_filter]
    refine List.filter_congr fun w _ => ?_
    rw [h1.lines]
    cases a w.entry <;> cases b w.entry <;> simp
  reads h := by
    obtain ⟨hr, hc⟩ := h1.reads h
    obtain ⟨hr', hc'⟩ := h2.reads hr
    exact ⟨hr', hc'.trans hc⟩
  rest := by simp only [h2.rest, h1.rest, and_self]

theorem Freed.congr {a b : EntryIx → Bool} {s t : State} (h : Freed a s t) (hab : ∀ e, a e = b e) : Freed b s t := by
  rwa [← funext hab]

theorem freed_freeEntry (e : EntryIx) (s : State) : Freed (fun f => f == e) s (freeEntry e s) := by
  obtain ⟨hmap, hdram, hmarks, hcounts, hover, hperiod, hpending⟩ := flushLine_dst e s
  have hfilter : (fun o : Option EntryIx => if o = some e then none else o) = Option.filter fun f => !(f == e) := by
    funext o
    cases o with
    | none => rfl
    | some f => by_cases h : f = e <;> simp [Option.filter, h]
  refine ⟨?_, fun f => ?_, ?_, fun h => ?_, hdram, hmarks, hcounts, hover, hperiod, hpending⟩
  · rw [← hfilter, ← hmap]
    rfl
  · have hline : lineAt (freeEntry e s) f = if f = e then none else lineAt (flushLine e s) f := vget_vput ..
    rw [hline, lineAt_flushLine]
    by_cases h : f = e <;> simp [h]
  · have hwrites : (freeEntry e s).dst.writes = (flushLine e s).dst.writes := rfl
    rw [hwrites]
    cases hl : lineAt s e with
    | none =>
      rw [flushLine_none hl]
      refine (List.filter_eq_self.2 fun w _ => ?_).symm
      by_cases hw : w.entry = e <;> simp [hw, hl]
    | some l =>
      rw [(flushLine_queues (by rw [hl]; exact nofun)).1]
      refine List.filter_congr fun w _ => ?_
      by_cases hw : w.entry = e
      · simp [hw, hl]
      · rw [bne, beq_false_of_ne hw]
        rfl
  · have hcmb : (freeEntry e s).cmb = (flushLine e s).cmb := rfl
    have hreads : (freeEntry e s).dst.reads = (flushLine e s).dst.reads := rfl
    rw [hcmb, hreads]
    cases hl : lineAt s e with
    | none => rw [flushLine_none hl]; exact ⟨h, rfl⟩
    | some l =>
      rw [flushLine_some hl, dropReads_none (fun x hx => by
        have : x ∈ s.dst.reads := hx
        rw [h] at this
        cases this)]
      exact ⟨h, rfl⟩

theorem freed_freePass (k : Classes) (s : State) : Freed (fun e => endsChannel (vget k e)) s (freePass k s) := by
  have hone (e : EntryIx) (u : State) : Freed (fun f => (f == e) && endsChannel (vget k f)) u (freePosition k e u) := by
    rw [freePosition]
    split
    · next h =>
      refine (freed_freeEntry e u).congr fun f => ?_
      by_cases hf : f = e <;> simp [hf, h]
    · next h =>
      refine (Freed.nothing u).congr fun f => ?_
      by_cases hf : f = e <;> simp [hf, h]
  have hall : ∀ (l : List EntryIx) (u : State),
      Freed (fun f => l.contains f && endsChannel (vget k f)) u (l.foldl (fun s e => freePosition k e s) u) := by
    intro l
    induction l with
    | nil => exact fun u => (Freed.nothing u).congr fun f => by simp
    | cons e rest ih =>
      intro u
      refine ((hone e u).trans (ih _)).congr fun f => ?_
      rw [List.contains_cons, Bool.and_or_distrib_right]
  exact (hall entries s).congr fun f => by simp [mem_entries f]

/-! ### The second pass (R39) -/

/-- The numbers of the free pages, in rising order. -/
def freeList (m : Vector (Option EntryIx) 256) : List Nat := (List.range 256).filter fun i => (m.toList.getD i none).isNone

theorem mem_freeList {m : Vector (Option EntryIx) 256} {q : Nat} : q ∈ freeList m ↔ m[q]? = some none := by
  rw [freeList, List.mem_filter, List.mem_range, List.getD_eq_getElem?_getD, Vector.getElem?_toList]
  by_cases h : q < 256
  · simp [h]
  · simp [h]

theorem freeList_sorted (m : Vector (Option EntryIx) 256) : (freeList m).Pairwise (· < ·) :=
  List.pairwise_lt_range.filter _

/-- How many pages a position takes: those of its new entry, when its channel starts. -/
def wanted (k : Classes) (s : State) (e : EntryIx) : Nat :=
  (activeAt s e).elim 0 fun en => if startsChannel (vget k e) = true then en.pages else 0

/-- A position takes pages. -/
def taken (e : EntryIx) (n : Nat) (s : State) : State :=
  setDst { setLine e (some ⟨(freeList s.dst.pageMap).take n, 0, 0, 0⟩) s.dst with
    pageMap := takePages e ((freeList s.dst.pageMap).take n) s.dst.pageMap } s

theorem allocPosition_eq (k : Classes) (e : EntryIx) (s : State) :
    allocPosition k e s = if wanted k s e = 0 then s else taken e (wanted k s e) s := by
  rw [allocPosition, wanted]
  cases activeAt s e with
  | none => rfl
  | some en =>
    by_cases hk : startsChannel (vget k e) = true
    · simp only [hk, if_true, Option.elim_some]
      rfl
    · simp [hk]

section
variable (e : EntryIx) (n : Nat) (m : Vector (Option EntryIx) 256)

theorem takePages_get (q : Nat) : (takePages e ((freeList m).take n) m)[q]? =
    if q ∈ (freeList m).take n then some (some e) else m[q]? := by
  rw [takePages, Vector.getElem?_mapIdx]
  by_cases h : q ∈ (freeList m).take n
  · rw [if_pos h, mem_freeList.1 (List.mem_of_mem_take h), Option.map_some, if_pos (List.contains_iff_mem.2 h)]
  · have hno : ((freeList m).take n).contains q = false := by simpa using h
    rw [if_neg h, hno]
    exact Option.map_id'

/-- The pages taken are the lowest free ones. -/
theorem mem_take_of_lt {p q : Nat} (hp : p ∈ (freeList m).take n) (hlt : q < p) (hq : m[q]? = some none) :
    q ∈ (freeList m).take n := by
  have hmem : q ∈ (freeList m).take n ++ (freeList m).drop n := by
    rw [List.take_append_drop]
    exact mem_freeList.2 hq
  refine (List.mem_append.1 hmem).resolve_right fun hdrop => ?_
  have hsorted := freeList_sorted m
  rw [← List.take_append_drop n (freeList m), List.pairwise_append] at hsorted
  exact absurd (hsorted.2.2 p hp q hdrop) (by omega)

/-- What is left of the free pages. -/
theorem freeList_takePages : freeList (takePages e ((freeList m).take n) m) = (freeList m).drop n := by
  have hnodup : (freeList m).Nodup := (freeList_sorted m).imp LT.lt.ne
  refine List.Perm.eq_of_pairwise (le := (· < ·)) (fun a b _ _ h1 h2 => absurd h1 h2.asymm) (freeList_sorted _)
    ((freeList_sorted m).sublist (List.drop_sublist _ _)) ?_
  refine (List.perm_ext_iff_of_nodup ((freeList_sorted _).imp LT.lt.ne) (hnodup.sublist (List.drop_sublist _ _))).2 fun q => ?_
  rw [mem_freeList, takePages_get]
  have hsplit : q ∈ freeList m ↔ q ∈ (freeList m).take n ∨ q ∈ (freeList m).drop n := by
    rw [← List.mem_append, List.take_append_drop]
  have hdisj : q ∈ (freeList m).take n → q ∉ (freeList m).drop n := fun h1 h2 =>
    (List.disjoint_take_drop hnodup le_rfl) h1 h2
  split
  · next h => simp [hdisj h]
  · next h =>
    rw [← mem_freeList, hsplit]
    simp [h]

end

/-- Positions have taken their pages, in the order of the list: those that `want` gives a number. -/
structure Allocated (want : EntryIx → Nat) (l : List EntryIx) (s t : State) : Prop where
  kept    : ∀ (q : Nat) f, s.dst.pageMap[q]? = some (some f) → t.dst.pageMap[q]? = some (some f)
  free    : ∀ q : Nat, s.dst.pageMap[q]? = some none →
    t.dst.pageMap[q]? = some none ∨ ∃ e ∈ l, 0 < want e ∧ t.dst.pageMap[q]? = some (some e)
  started : ∀ e ∈ l, 0 < want e → ∃ pages, lineAt t e = some ⟨pages, 0, 0, 0⟩ ∧ pages.Pairwise (· < ·) ∧
    (∀ p, p ∈ pages ↔ s.dst.pageMap[p]? = some none ∧ t.dst.pageMap[p]? = some (some e)) ∧
    (∀ p ∈ pages, ∀ q < p, ∃ f, t.dst.pageMap[q]? = some (some f) ∧ (f ≤ e ∨ s.dst.pageMap[q]? = some (some f))) ∧
    ((l.map want).sum ≤ (freeList s.dst.pageMap).length → pages.length = want e)
  others  : ∀ e, (e ∈ l → want e = 0) → lineAt t e = lineAt s e
  queues  : t.dst.writes = s.dst.writes ∧ t.dst.reads = s.dst.reads ∧ t.cmb = s.cmb
  rest    : t.dst.dram = s.dst.dram ∧ t.dst.gapMarks = s.dst.gapMarks ∧ t.dst.gapCounts = s.dst.gapCounts ∧
    t.dst.overruns = s.dst.overruns ∧ t.dst.refreshPeriod = s.dst.refreshPeriod ∧ t.dst.refreshPending = s.dst.refreshPending

theorem Allocated.nothing (want : EntryIx → Nat) (s : State) : Allocated want [] s s :=
  ⟨fun _ _ h => h, fun _ h => .inl h, nofun, fun _ _ => rfl, ⟨rfl, rfl, rfl⟩, ⟨rfl, rfl, rfl, rfl, rfl, rfl⟩⟩

section
variable {want : EntryIx → Nat} {e : EntryIx} {rest : List EntryIx} {s t : State}

/-- A position that takes nothing. -/
theorem Allocated.skip (h0 : want e = 0) (h : Allocated want rest s t) : Allocated want (e :: rest) s t where
  kept := h.kept
  free q hq := (h.free q hq).imp id fun ⟨f, hf, hw⟩ => ⟨f, List.mem_cons_of_mem _ hf, hw⟩
  started f hf hpos := by
    rcases List.mem_cons.1 hf with rfl | hf
    · omega
    · rw [List.map_cons, List.sum_cons, h0, Nat.zero_add]
      exact h.started f hf hpos
  others f hf := h.others f fun hr => hf (List.mem_cons_of_mem _ hr)
  queues := h.queues
  rest := h.rest

/-- A position that takes its pages before all others. -/
theorem Allocated.take (h0 : 0 < want e) (hfirst : ∀ f ∈ rest, e < f) (h : Allocated want rest (taken e (want e) s) t) :
    Allocated want (e :: rest) s t := by
  obtain ⟨pages, hpages⟩ : ∃ pages, (freeList s.dst.pageMap).take (want e) = pages := ⟨_, rfl⟩
  have hmap (q : Nat) : (taken e (want e) s).dst.pageMap[q]? = if q ∈ pages then some (some e) else s.dst.pageMap[q]? := by
    rw [← hpages]
    exact takePages_get ..
  have hline (f : EntryIx) : lineAt (taken e (want e) s) f = if f = e then some ⟨pages, 0, 0, 0⟩ else lineAt s f := by
    rw [← hpages]
    exact vget_vput ..
  have hleft : freeList (taken e (want e) s).dst.pageMap = (freeList s.dst.pageMap).drop (want e) := freeList_takePages ..
  have hfree {q : Nat} (hq : q ∈ pages) : s.dst.pageMap[q]? = some none :=
    mem_freeList.1 (List.mem_of_mem_take (hpages ▸ hq))
  have howned {q : Nat} {f : EntryIx} (hq : s.dst.pageMap[q]? = some (some f)) :
      (taken e (want e) s).dst.pageMap[q]? = some (some f) := by
    rw [hmap]
    exact (if_neg fun hm => (nomatch (hfree hm).symm.trans hq)).trans hq
  have hmine {q : Nat} (hq : q ∈ pages) : t.dst.pageMap[q]? = some (some e) := h.kept q e (by rw [hmap, if_pos hq])
  have he : e ∉ rest := fun hm => absurd (hfirst e hm) (lt_irrefl e)
  have hcons {f : EntryIx} (hf : f ∈ rest) : f ∈ e :: rest := List.mem_cons_of_mem _ hf
  refine ⟨fun q f hq => h.kept q f (howned hq), fun q hq => ?_, fun f hf hpos => ?_, fun f hf => ?_, h.queues, h.rest⟩
  · by_cases hmem : q ∈ pages
    · exact .inr ⟨e, List.mem_cons_self, h0, hmine hmem⟩
    · exact (h.free q (by rw [hmap, if_neg hmem, hq])).imp id fun ⟨f, hf, hw⟩ => ⟨f, hcons hf, hw⟩
  · rcases List.mem_cons.1 hf with rfl | hf
    · refine ⟨pages, ?_, hpages ▸ (freeList_sorted _).sublist (List.take_sublist _ _), fun p => ⟨fun hp => ⟨hfree hp, hmine hp⟩, ?_⟩,
        fun p hp q hlt => ?_, fun hsum => ?_⟩
      · rw [h.others f fun hm => absurd hm he, hline, if_pos rfl]
      · rintro ⟨hnone, hf⟩
        by_contra hp
        rcases h.free p (by rw [hmap, if_neg hp, hnone]) with ht | ⟨g, hg, -, ht⟩
        · cases ht.symm.trans hf
        · cases ht.symm.trans hf
          exact he hg
      · by_cases hq : q ∈ pages
        · exact ⟨f, hmine hq, .inl le_rfl⟩
        · have h256 : p < 256 := by
            by_contra hge
            have := hfree hp
            rw [Vector.getElem?_eq_none (by omega)] at this
            cases this
          cases ho : s.dst.pageMap[q]'(by omega) with
          | none =>
            refine absurd (hpages ▸ mem_take_of_lt _ _ (hpages.symm ▸ hp) hlt ?_) hq
            rw [Vector.getElem?_eq_getElem (by omega), ho]
          | some g =>
            have hg : s.dst.pageMap[q]? = some (some g) := by rw [Vector.getElem?_eq_getElem (by omega), ho]
            exact ⟨g, h.kept q g (howned hg), .inr hg⟩
      · rw [List.map_cons, List.sum_cons] at hsum
        rw [← hpages, List.length_take]
        omega
    · obtain ⟨list, hl, hsorted, hmem, hlow, hlen⟩ := h.started f hf hpos
      refine ⟨list, hl, hsorted, fun p => ?_, fun p hp q hlt => ?_, fun hsum => hlen ?_⟩
      · rw [hmem, hmap]
        by_cases hp : p ∈ pages
        · rw [if_pos hp, hmine hp]
          have hne : e ≠ f := fun h => he (h ▸ hf)
          simp [hne]
        · rw [if_neg hp]
      · obtain ⟨g, hg, hle⟩ := hlow p hp q hlt
        refine ⟨g, hg, hle.elim .inl fun ht => ?_⟩
        rw [hmap] at ht
        split at ht
        · cases ht
          exact .inl (hfirst f hf).le
        · exact .inr ht
      · rw [List.map_cons, List.sum_cons] at hsum
        rw [hleft, List.length_drop]
        omega
  · have hne : f ≠ e := fun hfe => by
      have := hf (hfe ▸ List.mem_cons_self)
      rw [hfe] at this
      omega
    rw [h.others f fun hm => hf (hcons hm), hline, if_neg hne]

end

theorem allocated_foldl (k : Classes) (want : EntryIx → Nat) : ∀ (l : List EntryIx) (s : State), l.Pairwise (· < ·) →
    (∀ e, wanted k s e = want e) → Allocated want l s (l.foldl (fun s e => allocPosition k e s) s)
  | [], s, _, _ => .nothing want s
  | e :: rest, s, hl, hw => by
    obtain ⟨hlt, hrest⟩ := List.pairwise_cons.1 hl
    rw [List.foldl_cons, allocPosition_eq, hw e]
    split
    · next h0 => exact .skip h0 (allocated_foldl k want rest s hrest hw)
    · next h0 => exact .take (Nat.pos_of_ne_zero h0) hlt (allocated_foldl k want rest _ hrest hw)

theorem allocated_allocPass (k : Classes) (s : State) : Allocated (wanted k s) entries s (allocPass k s) :=
  allocated_foldl k _ entries s (List.pairwise_lt_finRange 16) fun _ => rfl

/-! ### The pages of a switch -/

/-- The state of a switch once the first pass has freed the pages of the ended channels. -/
def switchFreed (s : State) : State := freePass (switchClasses s) (settleSettings (adoptPlan s))

/-- The state of a switch once the second pass has given the started channels their pages. -/
def switchAllocated (s : State) : State := allocPass (switchClasses s) (switchFreed s)

theorem freed_switchFreed (s : State) : Freed (fun e => endsChannel (vget (switchClasses s) e)) s (switchFreed s) := by
  have h := freed_freePass (switchClasses s) (settleSettings (adoptPlan s))
  have hd : (settleSettings (adoptPlan s)).dst = s.dst := by simp [adoptPlan]
  have hc : (settleSettings (adoptPlan s)).cmb = s.cmb := by simp [adoptPlan]
  have hl (e : EntryIx) : lineAt (settleSettings (adoptPlan s)) e = lineAt s e := by rw [lineAt, hd]; rfl
  obtain ⟨h1, h2, h3, h4, h5⟩ := h
  simp only [hd, hc, hl] at h1 h2 h3 h4 h5
  exact ⟨h1, h2, h3, h4, h5⟩

/-- How many pages a position takes at the switch. -/
def pagesTaken (s : State) (e : EntryIx) : Nat :=
  (vget s.pln.staged e).elim 0 fun en => if startsChannel (vget (switchClasses s) e) = true then en.pages else 0

theorem allocated_switchAllocated (s : State) : Allocated (pagesTaken s) entries (switchFreed s) (switchAllocated s) := by
  have h := allocated_allocPass (switchClasses s) (switchFreed s)
  have hw : wanted (switchClasses s) (switchFreed s) = pagesTaken s := by
    funext e
    have ha : activeAt (switchFreed s) e = vget s.pln.staged e := by simp [switchFreed, adoptPlan, activeAt]
    rw [wanted, pagesTaken, ha]
  rwa [hw] at h

section
variable {s : State} {e : EntryIx}

theorem pagesTaken_started {en : Entry} (h : StartsAt s e) (hen : vget s.pln.staged e = some en) : pagesTaken s e = en.pages := by
  rw [pagesTaken, hen, Option.elim_some, if_pos ((startsAt_iff s e).2 h)]

theorem pagesTaken_other (h : ¬StartsAt s e) : pagesTaken s e = 0 := by
  rw [pagesTaken]
  cases vget s.pln.staged e with
  | none => rfl
  | some en => rw [Option.elim_some, if_neg (mt (startsAt_iff s e).1 h)]

theorem pagesTaken_pos (h : 0 < pagesTaken s e) : StartsAt s e ∧ ∃ en, vget s.pln.staged e = some en ∧ pagesTaken s e = en.pages := by
  have hstart : StartsAt s e := by
    by_contra hno
    rw [pagesTaken_other hno] at h
    omega
  obtain ⟨en, hen⟩ := Option.ne_none_iff_exists'.1 hstart.1
  exact ⟨hstart, en, hen, pagesTaken_started hstart hen⟩

/-- The store of a switch after its passes over the pages: only the gap counts are still to be cleared. -/
theorem planSwitch_store (s : State) : (planSwitch s).dst =
    (clearPass (switchClasses s) (switchAllocated s)).dst := by
  simp [planSwitch, switchAllocated, switchFreed]

theorem clearPass_store (k : Classes) (s : State) : (clearPass k s).dst = { s.dst with gapCounts := (clearPass k s).dst.gapCounts } := by
  have hone (e : EntryIx) (u : State) : (clearPosition k e u).dst = { u.dst with gapCounts := (clearPosition k e u).dst.gapCounts } := by
    rw [clearPosition]
    split <;> rfl
  refine foldl_keeps (fun u e => clearPosition k e u) (fun u => u.dst = { s.dst with gapCounts := u.dst.gapCounts })
    (fun u e hu => ?_) entries s rfl
  rw [hone, hu]

theorem planSwitch_dst (s : State) : ∃ g, (planSwitch s).dst = { (switchAllocated s).dst with gapCounts := g } :=
  ⟨_, (planSwitch_store s).trans (clearPass_store ..)⟩

theorem paged_planSwitch (s : State) : Paged (switchAllocated s) (planSwitch s) := by
  obtain ⟨g, hg⟩ := planSwitch_dst s
  refine .of_lines ?_ ?_ <;> rw [hg]

end

/-! ### Counting pages -/

/-- How many pages an entry owns. -/
def ownedCount (m : Vector (Option EntryIx) 256) (e : EntryIx) : Nat := m.toList.countP (· == some e)

theorem filter_range_length {α : Type} (l : List α) (d : α) (p : α → Bool) :
    ((List.range l.length).filter fun i => p (l.getD i d)).length = l.countP p := by
  have hl : l = (List.range l.length).map fun i => l.getD i d := by
    refine List.ext_getElem (by simp) fun i h1 _ => ?_
    simp [h1]
  conv_rhs => rw [hl, List.countP_map, List.countP_eq_length_filter]
  rfl

/-- Each of a list of owners is none or one entry. -/
theorem countP_owners : ∀ l : List (Option EntryIx), l.countP Option.isNone + ∑ e, l.countP (· == some e) = l.length
  | [] => by simp
  | o :: rest => by
    have ih := countP_owners rest
    simp only [List.countP_cons, Finset.sum_add_distrib, List.length_cons]
    cases o with
    | none =>
      simp
      omega
    | some f =>
      simp
      omega

/-- Every page is free or owned by one entry. -/
theorem freeList_add_owned (m : Vector (Option EntryIx) 256) : (freeList m).length + (entries.map (ownedCount m)).sum = 256 := by
  have hlen : m.toList.length = 256 := Vector.length_toList
  have hfree := filter_range_length m.toList none Option.isNone
  rw [hlen, ← freeList] at hfree
  have hsum : (entries.map (ownedCount m)).sum = ∑ e, ownedCount m e := (Fin.sum_univ_def _).symm
  rw [hfree, hsum]
  exact (countP_owners m.toList).trans hlen

/-- A duplicate-free list of the pages that an entry owns has as many as it owns. -/
theorem ownedCount_of_list {m : Vector (Option EntryIx) 256} {e : EntryIx} {pages : List Nat} (hn : pages.Nodup)
    (hp : ∀ p, p ∈ pages ↔ m[p]? = some (some e)) : ownedCount m e = pages.length := by
  have hlen : m.toList.length = 256 := Vector.length_toList
  rw [ownedCount, ← filter_range_length m.toList none, hlen]
  refine List.Perm.length_eq ((List.perm_ext_iff_of_nodup (List.nodup_range.filter _) hn).2 fun q => ?_)
  rw [hp, List.mem_filter, List.mem_range, List.getD_eq_getElem?_getD, Vector.getElem?_toList]
  by_cases h : q < 256 <;> simp [h]

/-- An entry that owns no page. -/
theorem not_owned {m : Vector (Option EntryIx) 256} {e : EntryIx} (h : ownedCount m e = 0) (q : Nat) : m[q]? ≠ some (some e) := by
  intro hq
  rw [ownedCount, List.countP_eq_zero] at h
  exact h (some e) (List.mem_of_getElem? ((Vector.getElem?_toList ..).trans hq)) (by simp)

theorem ownedCount_filter (m : Vector (Option EntryIx) 256) (ends : EntryIx → Bool) (e : EntryIx) :
    ownedCount (m.map (Option.filter fun f => !ends f)) e = if ends e = true then 0 else ownedCount m e := by
  rw [ownedCount, Vector.toList_map, List.countP_map]
  split
  · next h =>
    rw [List.countP_eq_zero]
    intro o _
    cases o with
    | none => simp
    | some f =>
      by_cases hf : f = e <;> by_cases hx : ends f = true <;> simp_all [Option.filter]
  · next h =>
    refine List.countP_congr fun o _ => ?_
    cases o with
    | none => simp
    | some f =>
      by_cases hf : f = e <;> by_cases hx : ends f = true <;> simp_all [Option.filter]

theorem ownedCount_congr {m n : Vector (Option EntryIx) 256} {e : EntryIx}
    (h : ∀ q : Nat, m[q]? = some (some e) ↔ n[q]? = some (some e)) : ownedCount m e = ownedCount n e := by
  have hnodup : ((List.range 256).filter fun q => m[q]? == some (some e)).Nodup := List.nodup_range.filter _
  have hm (p : Nat) : p ∈ (List.range 256).filter (fun q => m[q]? == some (some e)) ↔ m[p]? = some (some e) := by
    rw [List.mem_filter, List.mem_range]
    by_cases hp : p < 256 <;> simp [hp]
  rw [ownedCount_of_list hnodup hm, ownedCount_of_list hnodup fun p => (hm p).trans (h p)]

/-! ### The law after a switch -/

theorem has_pages_iff (o : Option Entry) : (∃ en, o = some en ∧ 0 < en.pages) ↔ 0 < o.elim 0 Entry.pages := by
  cases o <;> simp

theorem ownedCount_of_law {s : State} (h : PagesLaw s) (e : EntryIx) :
    ownedCount s.dst.pageMap e = (activeAt s e).elim 0 Entry.pages := by
  rw [← h.owned e, ownedCount, List.countP_eq_length_filter]

theorem switchFreed_get (s : State) (q : Nat) (e : EntryIx) :
    (switchFreed s).dst.pageMap[q]? = some (some e) ↔ s.dst.pageMap[q]? = some (some e) ∧ ¬EndsAt s e := by
  rw [(freed_switchFreed s).map, Vector.getElem?_map, ← endsAt_iff]
  rcases s.dst.pageMap[q]? with _ | _ | f
  · simp
  · simp
  · by_cases hf : f = e <;> simp [Option.filter, hf]

section
variable {s : State} (hlaw : PagesLaw s) (e : EntryIx)
include hlaw

theorem ownedCount_switchFreed : ownedCount (switchFreed s).dst.pageMap e =
    if endsChannel (vget (switchClasses s) e) = true then 0 else (activeAt s e).elim 0 Entry.pages := by
  rw [(freed_switchFreed s).map, ownedCount_filter, ownedCount_of_law hlaw]

/-- What a position takes and what the first pass leaves it make the pages of its new entry. -/
theorem pagesTaken_add_owned : pagesTaken s e + ownedCount (switchFreed s).dst.pageMap e =
    (vget s.pln.staged e).elim 0 Entry.pages := by
  rw [ownedCount_switchFreed hlaw, activeAt]
  by_cases hk : Keeps (vget s.pln.active e) (vget s.pln.staged e)
  · rw [pagesTaken_other fun h => h.2 hk, if_neg fun h => ((endsAt_iff s e).1 h).2 hk]
    obtain ⟨a, b, ha, hb, -, -, -, hpages, -⟩ := hk
    rw [ha, hb, Option.elim_some, Option.elim_some, hpages, Nat.zero_add]
  · have hrest : (if endsChannel (vget (switchClasses s) e) = true then 0 else (vget s.pln.active e).elim 0 Entry.pages) = 0 := by
      split
      · rfl
      · next h =>
        have hnone : vget s.pln.active e = none := by
          by_contra hne
          exact h ((endsAt_iff s e).2 ⟨hne, hk⟩)
        rw [hnone]
        rfl
    rw [hrest]
    cases hb : vget s.pln.staged e with
    | none =>
      rw [pagesTaken, hb]
      rfl
    | some b => exact pagesTaken_started ⟨by rw [hb]; exact nofun, hk⟩ hb

/-- There are free pages enough for every channel that starts. -/
theorem pagesTaken_le (hplan : PlanFits s.pln.staged) :
    (entries.map (pagesTaken s)).sum ≤ (freeList (switchFreed s).dst.pageMap).length := by
  have htotal := freeList_add_owned (switchFreed s).dst.pageMap
  have hpages : planPages s.pln.staged ≤ 256 := hplan.pages
  have hsplit : planPages s.pln.staged =
      (entries.map (pagesTaken s)).sum + (entries.map (ownedCount (switchFreed s).dst.pageMap)).sum := by
    rw [planPages, ← List.sum_map_add]
    exact congrArg List.sum (List.map_congr_left fun e _ => (pagesTaken_add_owned hlaw e).symm)
  omega

end

/-- A page that an entry has after the second pass was its own before, or it was free. -/
theorem Allocated.owned {want : EntryIx → Nat} {l : List EntryIx} {s t : State} (h : Allocated want l s t) {q : Nat} {e : EntryIx}
    (hq : t.dst.pageMap[q]? = some (some e)) :
    s.dst.pageMap[q]? = some (some e) ∨ s.dst.pageMap[q]? = some Option.none ∧ 0 < want e := by
  have hlt : q < 256 := by
    by_contra hge
    rw [Vector.getElem?_eq_none (by omega)] at hq
    cases hq
  have hsome : s.dst.pageMap[q]? = some s.dst.pageMap[q] := Vector.getElem?_eq_getElem hlt
  cases ho : s.dst.pageMap[q] with
  | none =>
    rw [ho] at hsome
    rcases h.free q hsome with ht | ⟨f, -, hpos, ht⟩
    · cases ht.symm.trans hq
    · cases ht.symm.trans hq
      exact .inr ⟨hsome, hpos⟩
  | some f =>
    rw [ho] at hsome
    cases (h.kept q f hsome).symm.trans hq
    exact .inl hsome

/-- A position that takes no pages keeps those it has. -/
theorem Allocated.unchanged {want : EntryIx → Nat} {l : List EntryIx} {s t : State} (h : Allocated want l s t) {e : EntryIx}
    (h0 : want e = 0) (q : Nat) : t.dst.pageMap[q]? = some (some e) ↔ s.dst.pageMap[q]? = some (some e) :=
  ⟨fun hq => (h.owned hq).resolve_right fun hpos => absurd h0 hpos.2.ne', h.kept q e⟩

theorem pagesLaw_switchAllocated {s : State} (hplan : PlanFits s.pln.staged) (hlaw : PagesLaw s) : PagesLaw (switchAllocated s) := by
  have halloc := allocated_switchAllocated s
  have hfreed := freed_switchFreed s
  have hactive (e : EntryIx) : activeAt (switchAllocated s) e = vget s.pln.staged e := by
    simp [switchAllocated, switchFreed, adoptPlan, activeAt]
  have hadd (e : EntryIx) := pagesTaken_add_owned hlaw e
  have hstarted (e : EntryIx) (hpos : 0 < pagesTaken s e) : ∃ l, lineAt (switchAllocated s) e = some l ∧ l.pages.Nodup ∧
      (∀ p, p ∈ l.pages ↔ (switchAllocated s).dst.pageMap[p]? = some (some e)) ∧ l.pages.length = pagesTaken s e := by
    obtain ⟨pages, hl, hsorted, hmem, -, hlen⟩ := halloc.started e (mem_entries e) hpos
    obtain ⟨-, en, hen, heq⟩ := pagesTaken_pos hpos
    have hnone : ownedCount (switchFreed s).dst.pageMap e = 0 := by
      have := hadd e
      rw [hen, heq, Option.elim_some] at this
      omega
    refine ⟨_, hl, hsorted.imp LT.lt.ne, fun p => (hmem p).trans ⟨And.right, fun hp => ⟨?_, hp⟩⟩, hlen (pagesTaken_le hlaw hplan)⟩
    exact ((halloc.owned hp).resolve_left (not_owned hnone p)).1
  have hother (e : EntryIx) (h0 : pagesTaken s e = 0) : lineAt (switchAllocated s) e =
      if endsChannel (vget (switchClasses s) e) = true then none else lineAt s e :=
    (halloc.others e fun _ => h0).trans (hfreed.lines e)
  refine ⟨fun e => ?_, fun e => ?_, fun e l hl => ?_⟩
  · rw [← List.countP_eq_length_filter, hactive, ← hadd]
    change ownedCount (switchAllocated s).dst.pageMap e = _
    rcases Nat.eq_zero_or_pos (pagesTaken s e) with h0 | hpos
    · rw [h0, Nat.zero_add, ownedCount_congr (halloc.unchanged h0)]
    · obtain ⟨l, -, hnodup, hmem, hlen⟩ := hstarted e hpos
      obtain ⟨-, en, hen, heq⟩ := pagesTaken_pos hpos
      have := hadd e
      rw [hen, Option.elim_some, ← heq] at this
      rw [ownedCount_of_list hnodup hmem, hlen]
      omega
  · rw [hactive, has_pages_iff, ← hadd]
    rcases Nat.eq_zero_or_pos (pagesTaken s e) with h0 | hpos
    · rw [hother e h0, h0, Nat.zero_add, ownedCount_switchFreed hlaw]
      split
      · simp
      · rw [hlaw.line, has_pages_iff]
    · obtain ⟨l, hl, -⟩ := hstarted e hpos
      rw [hl]
      simp
      omega
  · rcases Nat.eq_zero_or_pos (pagesTaken s e) with h0 | hpos
    · rw [hother e h0] at hl
      split at hl
      · cases hl
      · next hends =>
        obtain ⟨hnodup, hmem⟩ := hlaw.list e l hl
        refine ⟨hnodup, fun p => ?_⟩
        rw [hmem, halloc.unchanged h0, switchFreed_get, ← endsAt_iff]
        simp [hends]
    · obtain ⟨m, hm, hnodup, hmem, -⟩ := hstarted e hpos
      cases hm.symm.trans hl
      exact ⟨hnodup, hmem⟩

/-- Settles O13: the page map and the page lists change in a switch alone, whose two passes keep the law. -/
theorem pagesStayLawful : Obligations.PagesStayLawful := fun _ _ hp hs ht =>
  ((pagesLaw_kept fun s hp hs ha => pagesLaw_congr (pagesLaw_switchAllocated (hp.armedFits ha) hs) (paged_planSwitch s) fun e => by
    rw [activeAt_planSwitch]
    simp [switchAllocated, switchFreed, adoptPlan, activeAt]).step ⟨hp, hs⟩ ht).2

end Sys2Proof.Machine
end

section
/-! SUPPORT. The plan switch taken apart (R32 to R38, R41, Table 2-6): the settings that come into effect, the pass over the
contexts with its notices, and the counts that it clears. -/

namespace Sys2Proof.Machine

open Sys2Proof.Safety

/-! ### The settings in effect (Table 2-6) -/

theorem settleTxs_eq (set : Settings) (x : Txs) : settleTxs set x = resettled set x := by
  by_cases hq : set.refQual < x.qual
  · rw [resettled, if_neg (not_le.2 hq)]
    cases hok : x.refOk with
    | true =>
      simp only [settleTxs, hq, if_true, hok, Bool.true_eq_false, false_and, if_false]
    | false =>
      simp only [settleTxs, hq, if_true, hok, Bool.false_eq_true, if_false, refChange, true_and]
      split <;> rfl
  · rw [resettled, if_pos (not_lt.1 hq)]
    simp only [settleTxs, hq, if_false]

/-- The settings at most take a keyed HELD to RAMP_UP, and they set no further-faults mark. -/
theorem resettled_moves (set : Settings) (x : Txs) : (resettled set x).further = x.further ∧
    ((resettled set x).state ≠ x.state → (resettled set x).state ≠ .tripped ∧ x.state ≠ .onAir) := by
  rw [resettled]
  split
  · exact ⟨rfl, fun h => absurd rfl h⟩
  · split
    · next h =>
      refine ⟨rfl, fun _ => ⟨?_, ?_⟩⟩
      · exact fun hx => nomatch hx
      · rw [h.2.1]
        exact nofun
    · exact ⟨rfl, fun h => absurd rfl h⟩

/-- A fresh notice has been sent on no trunk. -/
theorem fullySent_fresh (set : NoticeTrunk) (c : Content) : fullySent set ⟨c, false, false⟩ = false := by
  cases set <;> rfl

theorem mem_settleNotices {set : Settings} {q : List Notice} {n : Notice} :
    n ∈ settleNotices set q ↔ n ∈ q ∧ fullySent set.noticeTrunk n = false := by
  rw [settleNotices, List.mem_filter]
  simp

/-- What the adoption of the staged plan and its settings leaves of the contexts, the notices, MON and the sequencer. -/
structure Settled (s t : State) : Prop where
  txs     : t.txs = resettled s.pln.stagedSettings s.txs
  ctx     : ∀ e, ctxAt t e = clampReady s.pln.stagedSettings.acquire (ctxAt s e)
  mon     : t.mon = s.mon
  notices : t.svc.notices =
    if (resettled s.pln.stagedSettings s.txs).state = s.txs.state then settleNotices s.pln.stagedSettings s.svc.notices
    else postNotice (transmitContent (resettled s.pln.stagedSettings s.txs)) (settleNotices s.pln.stagedSettings s.svc.notices)

/-- The contexts and the pending notices under the adopted settings. -/
def underSettings (s : State) : State :=
  setCtxs (s.ctx.map (clampReady s.pln.stagedSettings.acquire))
    (setSvc { s.svc with notices := settleNotices s.pln.stagedSettings s.svc.notices } (adoptPlan s))

theorem settleSettings_adopted (s : State) :
    settleSettings (adoptPlan s) = commitTxs (resettled s.pln.stagedSettings s.txs) (underSettings s) := by
  rw [← settleTxs_eq]
  rfl

theorem settled_adopted (s : State) : Settled s (settleSettings (adoptPlan s)) := by
  obtain ⟨hfurther, hmoves⟩ := resettled_moves s.pln.stagedSettings s.txs
  obtain ⟨htxs, hctx, hmon, hnotices⟩ := commitTxs_calm (s := underSettings s) hfurther hmoves
  rw [settleSettings_adopted]
  refine ⟨htxs, fun e => ?_, hmon, hnotices⟩
  rw [ctxAt, hctx]
  exact vget_map ..

/-! ### The pass over the contexts (R34 to R38, R101, R142) -/

/-- A context after the switch, from what the settings have left of it. -/
def contextAfter (s : State) (e : EntryIx) (c : Ctx) : Ctx :=
  switchedCtx (vget (switchClasses s) e) (vget s.pln.staged e) c

/-- Does the switch report a position, from what the settings have left of its context? -/
def reportsAfter (s : State) (e : EntryIx) (c : Ctx) : Bool := switchReports (vget (switchClasses s) e) c (contextAfter s e c)

theorem contextPass_passed (s v : State) (hp : v.pln.active = s.pln.staged) :
    Passed id (contextAfter s) (fun e _ => endsChannel (vget (switchClasses s) e))
      (fun e c => if reportsAfter s e c = true then some .plan else none) entries v (contextPass (switchClasses s) v) := by
  refine PassStep.foldl (p := v.pln) (op := fun e u => switchCtx e (vget (switchClasses s) e) u) (fun e u hu => ?_) entries v
    (by rw [List.map_id]; exact List.nodup_finRange 16) rfl
  have ha : activeAt u e = vget s.pln.staged e := by rw [activeAt, hu, hp]
  refine (switchCtx_eq_changeCtx e (vget (switchClasses s) e) u).trans ?_
  rw [ha]
  rfl

/-- The state of a switch before its pass over the contexts. -/
def switchRebuilt (s : State) : State :=
  rebuildTaps (switchClasses s) (clearPass (switchClasses s) (switchAllocated s))

theorem planSwitch_eq (s : State) : planSwitch s =
    postSwitched (switchClasses s) (disarm (contextPass (switchClasses s) (switchRebuilt s))) := rfl

theorem switchRebuilt_settled (s : State) : Settled s (switchRebuilt s) := by
  obtain ⟨htxs, hctx, hmon, hnotices⟩ := settled_adopted s
  have hsame : (switchRebuilt s).txs = (settleSettings (adoptPlan s)).txs ∧
      (switchRebuilt s).ctx = (settleSettings (adoptPlan s)).ctx ∧ (switchRebuilt s).mon = (settleSettings (adoptPlan s)).mon ∧
      (switchRebuilt s).svc = (settleSettings (adoptPlan s)).svc ∧
      (switchRebuilt s).pln = (settleSettings (adoptPlan s)).pln := by
    simp [switchRebuilt, switchAllocated, switchFreed]
  obtain ⟨h1, h2, h3, h4, -⟩ := hsame
  refine ⟨h1.trans htxs, fun e => ?_, h3.trans hmon, h4 ▸ hnotices⟩
  rw [ctxAt, h2]
  exact hctx e

/-- What a switch makes of the contexts, of MON, of the sequencer and of the notices. -/
structure Switched (s u : State) : Prop where
  txs      : u.txs = resettled s.pln.stagedSettings s.txs
  ctx      : ∀ e, ctxAt u e = contextAfter s e (clampReady s.pln.stagedSettings.acquire (ctxAt s e))
  notified : ∀ e, reportsAfter s e (clampReady s.pln.stagedSettings.acquire (ctxAt s e)) = true → Notified e .plan u
  ended    : (∃ e, EndsAt s e ∧ DwellsOn s e) → u.mon = { s.mon with dwell := none }
  kept     : (∀ e, EndsAt s e → ¬DwellsOn s e) → u.mon = s.mon
  transmit : (resettled s.pln.stagedSettings s.txs).state ≠ s.txs.state →
    ⟨transmitContent (resettled s.pln.stagedSettings s.txs), false, false⟩ ∈ u.svc.notices
  pending  : ∀ n : Notice, sourceOf n.content ≠ .plan →
    (sourceOf n.content = .transmit → (resettled s.pln.stagedSettings s.txs).state = s.txs.state) →
    (∀ e, sourceOf n.content = .channel e → reportsAfter s e (clampReady s.pln.stagedSettings.acquire (ctxAt s e)) = false) →
    (n ∈ u.svc.notices ↔ n ∈ s.svc.notices ∧ fullySent s.pln.stagedSettings.noticeTrunk n = false)
  switched : ⟨.plan u.cmb.epochs (switchClasses s).toList (tapsInUse u.ext.rows) (pagesInUse u.dst.pageMap), false, false⟩ ∈
    u.svc.notices

theorem switched_planSwitch (s : State) : Switched s (planSwitch s) := by
  have hset := switchRebuilt_settled s
  have hp : (switchRebuilt s).pln.active = s.pln.staged := by
    simp [switchRebuilt, switchAllocated, switchFreed, adoptPlan]
  have hpass := contextPass_passed s (switchRebuilt s) hp
  have hdisarmed (v : State) : (disarm v).txs = v.txs ∧ (disarm v).ctx = v.ctx ∧ (disarm v).mon = v.mon ∧ (disarm v).svc = v.svc :=
    ⟨rfl, rfl, rfl, rfl⟩
  rw [planSwitch_eq]
  generalize switchRebuilt s = r at hset hpass
  generalize contextPass (switchClasses s) r = v at hpass
  obtain ⟨htxs, hctx, hmon, hnotices⟩ := hset
  obtain ⟨content, hcontent⟩ : ∃ c : Content, c = .plan v.cmb.epochs (switchClasses s).toList (tapsInUse v.ext.rows)
    (pagesInUse v.dst.pageMap) := ⟨_, rfl⟩
  have hu : postSwitched (switchClasses s) (disarm v) = post content (disarm v) := by
    rw [hcontent]
    rfl
  have hsource : sourceOf content = .plan := by rw [hcontent]; rfl
  have hctxv (e : EntryIx) : ctxAt v e = contextAfter s e (clampReady s.pln.stagedSettings.acquire (ctxAt s e)) := by
    have h := hpass.changed e (mem_entries e)
    rw [id, hctx] at h
    exact h
  have hfresh {c : Content} (hc : ⟨c, false, false⟩ ∈ v.svc.notices) (hs : sourceOf c ≠ .plan) :
      ⟨c, false, false⟩ ∈ (post content (disarm v)).svc.notices :=
    postNotice_other hc (by simpa [sameSource, hsource] using hs)
  have hdwell (e : EntryIx) : DwellsOn r e ↔ DwellsOn s e := by rw [DwellsOn, DwellsOn, hmon]
  rw [hu]
  refine ⟨?_, hctxv, fun e he => ?_, fun ⟨e, he, hd⟩ => ?_, fun hno => ?_, fun hne => ?_, fun n hplan htransmit hchannel => ?_, ?_⟩
  · exact hpass.frame.2.2.2.2.2.2.2.2.1.trans htxs
  · refine hfresh ?_ nofun
    exact hpass.notified (by rw [List.map_id]; exact List.nodup_finRange 16) (mem_entries e) (if_pos (by rw [id, hctx]; exact he))
  · rw [← hmon]
    exact hpass.ended ⟨e, mem_entries e, (endsAt_iff s e).2 he, (hdwell e).2 hd⟩
  · rw [← hmon]
    exact hpass.kept fun e _ he hd => hno e ((endsAt_iff s e).1 he) ((hdwell e).1 hd)
  · refine hfresh ((hpass.mem_notices fun _ _ _ => by simp [sourceOf, transmitContent]).2 ?_) nofun
    rw [hnotices, if_neg hne]
    exact postNotice_mem _ _
  · have hposted : n ∈ (post content (disarm v)).svc.notices ↔ n ∈ v.svc.notices :=
      mem_postNotice_other (by simpa [sameSource, hsource] using hplan)
    rw [hposted, hpass.mem_notices, hnotices, ← mem_settleNotices]
    · split
      · rfl
      · next hne =>
        refine mem_postNotice_other ?_
        rw [sameSource, beq_eq_false_iff_ne]
        exact fun h => hne (htransmit h)
    · intro e _ hreports hsource
      have hno := hchannel e hsource
      rw [id, hctx, hno] at hreports
      exact hreports rfl
  · have hpost := postNotice_mem content (disarm v).svc.notices
    rw [hcontent] at hpost ⊢
    exact hpost

/-! ### The counts that a switch clears (R96, R101) -/

/-- Counts and undelayed records of the positions that `clears` picks are cleared. -/
structure Cleared (clears : EntryIx → Bool) (s t : State) : Prop where
  counts : ∀ e, vget t.dst.gapCounts e = if clears e = true then 0 else vget s.dst.gapCounts e
  late   : ∀ e, vget t.cmb.late e = if clears e = true then 0 else vget s.cmb.late e
  held   : ∀ e, vget t.cmb.held e = if clears e = true then none else vget s.cmb.held e
  next   : ∀ e, vget t.cmb.next e = if clears e = true then none else vget s.cmb.next e
  course : t.cmb.course = s.cmb.course

theorem Cleared.nothing (s : State) : Cleared (fun _ => false) s s := ⟨fun _ => rfl, fun _ => rfl, fun _ => rfl, fun _ => rfl, rfl⟩

theorem Cleared.trans {a b : EntryIx → Bool} {s t u : State} (h1 : Cleared a s t) (h2 : Cleared b t u) :
    Cleared (fun e => a e || b e) s u := by
  have hor {α : Type} (e : EntryIx) (x y : α) : (if b e = true then x else if a e = true then x else y) =
      if (a e || b e) = true then x else y := by
    cases a e <;> cases b e <;> rfl
  exact ⟨fun e => by rw [h2.counts, h1.counts, hor], fun e => by rw [h2.late, h1.late, hor],
    fun e => by rw [h2.held, h1.held, hor], fun e => by rw [h2.next, h1.next, hor], h2.course.trans h1.course⟩

theorem Cleared.congr {a b : EntryIx → Bool} {s t : State} (h : Cleared a s t) (hab : ∀ e, a e = b e) : Cleared b s t := by
  rwa [← funext hab]

theorem cleared_clearCounts (f : EntryIx) (s : State) : Cleared (fun e => e == f) s (clearCounts f s) := by
  have hput {α : Type} (v : Vector α 16) (x : α) (e : EntryIx) : vget (vput v f x) e = if (e == f) = true then x else vget v e := by
    rw [vget_vput]
    simp
  exact ⟨hput _ _, hput _ _, hput _ _, hput _ _, rfl⟩

theorem cleared_clearPass (k : Classes) (s : State) :
    Cleared (fun e => endsChannel (vget k e) || startsChannel (vget k e)) s (clearPass k s) := by
  have hone (f : EntryIx) (u : State) :
      Cleared (fun e => (e == f) && (endsChannel (vget k e) || startsChannel (vget k e))) u (clearPosition k f u) := by
    rw [clearPosition]
    split
    · next h =>
      refine (cleared_clearCounts f u).congr fun e => ?_
      by_cases hf : e = f
      · rw [hf, h, Bool.and_true]
      · rw [beq_false_of_ne hf, Bool.false_and]
    · next h =>
      refine (Cleared.nothing u).congr fun e => ?_
      by_cases hf : e = f
      · rw [hf, Bool.eq_false_iff.2 h, Bool.and_false]
      · rw [beq_false_of_ne hf, Bool.false_and]
  have hall : ∀ (l : List EntryIx) (u : State),
      Cleared (fun e => l.contains e && (endsChannel (vget k e) || startsChannel (vget k e))) u
        (l.foldl (fun s e => clearPosition k e s) u) := by
    intro l
    induction l with
    | nil => exact fun u => (Cleared.nothing u).congr fun e => by simp
    | cons f rest ih =>
      intro u
      refine ((hone f u).trans (ih _)).congr fun e => ?_
      rw [List.contains_cons, Bool.and_or_distrib_right]
  exact (hall entries s).congr fun e => by simp [mem_entries e]

/-- What a switch makes of the counts and records of CMB, when no read waits any more. -/
theorem cleared_planSwitch {s : State} (h : s.dst.reads = []) :
    Cleared (fun e => endsChannel (vget (switchClasses s) e) || startsChannel (vget (switchClasses s) e)) s (planSwitch s) ∧
    (planSwitch s).dst.reads = [] := by
  have hfreed := freed_switchFreed s
  obtain ⟨-, hreads, hcmb⟩ := (allocated_switchAllocated s).queues
  obtain ⟨-, -, hcounts, -⟩ := (allocated_switchAllocated s).rest
  obtain ⟨hnone, hkept⟩ := hfreed.reads h
  have hclear := cleared_clearPass (switchClasses s) (switchAllocated s)
  have hucmb : (planSwitch s).cmb = (clearPass (switchClasses s) (switchAllocated s)).cmb := planSwitch_cmb s
  have hbefore : (switchAllocated s).cmb = s.cmb := hcmb.trans hkept
  have hgaps : (switchAllocated s).dst.gapCounts = s.dst.gapCounts := hcounts.trans hfreed.rest.2.2.1
  obtain ⟨h1, h2, h3, h4, h5⟩ := hclear
  rw [hbefore] at h2 h3 h4 h5
  rw [hgaps] at h1
  refine ⟨⟨?_, ?_, ?_, ?_, ?_⟩, ?_⟩
  · rwa [planSwitch_store]
  · rwa [hucmb]
  · rwa [hucmb]
  · rwa [hucmb]
  · rwa [hucmb]
  · obtain ⟨g, hg⟩ := planSwitch_dst s
    have hnow := hreads.trans hnone
    generalize switchAllocated s = w at hg hnow
    rw [hg]
    exact hnow

end Sys2Proof.Machine
end

section
/-! SUPPORT. The output block at whose completion a plan switch is made, and what the switch makes of each block. The claim
PlanSwitch. -/

namespace Sys2Proof.Machine

open Sys2Proof.Safety

/-! ### The output block before the switch -/

theorem exec_switch {s : State} {o : OutBlock} (h : s.inReset = false) (ho : s.cmb.course = some o) (hs : Switches o s) :
    exec .outputBlockAssembly s = .next (planSwitch (blockAssembledTo o s)) := by
  have hassemble : assembleBlock s = planSwitch (blockAssembledTo o s) := by
    rw [assembleBlock, ho]
    refine (assemble_eq o s).trans ((completeBlock_switches ((switches_markLate o s).2 hs)).trans (congrArg planSwitch ?_))
    obtain ⟨hr, hn, -⟩ := hs
    rw [blockAssembledTo, blockFormed_cmb, if_neg (by rw [hr]; exact Bool.false_ne_true), if_pos ⟨hr, hn⟩]
    rfl
  exact (exec_released h _).trans (congrArg _ hassemble)

theorem rampStep_eq (set : Settings) (x : Txs) : rampStep set x = ramped set x := by
  cases h : x.state with
  | rampDown => simp only [rampStep, ramped, h, toCool_eq_cooled]
  | _ => simp only [rampStep, ramped, h]

/-- The shed flags set and cleared post nothing for the other sources. -/
theorem mem_flagsSet {b : Budget} {s : State} {n : Notice} (hn : (b.newlyShed.map Share.entry).Nodup)
    (h : ∀ e, sourceOf n.content = .channel e →
      (∀ x ∈ b.newlyShed, x.entry ≠ e) ∧ ∀ x, b.restored = some x → x.entry ≠ e) :
    n ∈ (flagsSet b s).svc.notices ↔ n ∈ s.svc.notices := by
  have hshed : n ∈ (shedAll b.newlyShed s).svc.notices ↔ n ∈ s.svc.notices :=
    (shedAll_passed b.newlyShed s hn).mem_notices fun x hx _ hsource => (h _ hsource).1 x hx rfl
  rw [flagsSet, ← hshed]
  cases hr : b.restored with
  | none => rfl
  | some x =>
    rw [restoreOne_eq_changeCtx, notices_changeCtx]
    refine mem_postNotice_other ?_
    rw [sameSource, beq_eq_false_iff_ne]
    exact fun hsource => (h _ hsource).2 x hr rfl

/-- What an assembly leaves of the block it completes, before a switch. -/
structure BlockDone (o : OutBlock) (s b : State) : Prop where
  frame   : b.pending = s.pending ∧ b.inReset = s.inReset ∧ b.rtA = s.rtA ∧ b.rtB = s.rtB ∧ b.ext = s.ext ∧ b.pln = s.pln ∧
    b.svc.queue = s.svc.queue ∧ b.svc.lost = s.svc.lost
  store   : b.dst = removeReads (fun _ => true) s.dst
  flags   : FlagsSet (budgetAt o s) s b
  txs     : ∃ d, DriveFormed o s (ramped s.pln.activeSettings s.txs) d ∧
    b.txs = { ramped s.pln.activeSettings s.txs with formed := some d }
  stepped : (ramped s.pln.activeSettings s.txs).state ≠ s.txs.state →
    ⟨transmitContent (ramped s.pln.activeSettings s.txs), false, false⟩ ∈ b.svc.notices
  notices : ∀ n : Notice, (sourceOf n.content = .transmit → (ramped s.pln.activeSettings s.txs).state = s.txs.state) →
    (∀ e, sourceOf n.content = .channel e →
      (∀ x ∈ (budgetAt o s).newlyShed, x.entry ≠ e) ∧ ∀ x, (budgetAt o s).restored = some x → x.entry ≠ e) →
    (n ∈ b.svc.notices ↔ n ∈ s.svc.notices)
  figures : b.cmb.figures = ⟨(budgetAt o s).composite, s.pln.activeSettings.ceiling - o.foldback, o.foldback,
    (budgetAt o s).backoff, (budgetAt o s).excess, (budgetAt o s).contributors.length, shedCount b⟩
  counts  : b.cmb.excess = (if (budgetAt o s).excess = true then min 65535 (s.cmb.excess + 1) else s.cmb.excess) ∧
    b.cmb.counter = (if o.restarted = true then s.cmb.counter else (s.cmb.counter + 1) % 64) ∧
    b.cmb.epochs = (if o.restarted = false ∧ o.number = 0 then (s.cmb.epochs + 1) % 65536 else s.cmb.epochs)
  records : b.cmb.late = countLate o s.cmb.late ∧ b.cmb.next = s.cmb.next ∧ b.cmb.course = none
  clips   : Clipped o s b

theorem blockDone (o : OutBlock) (s : State) : BlockDone o s (blockAssembledTo o s) := by
  have hcmb := blockFormed_cmb o s
  have hflags := blockAssembledTo_flags o s
  have hclips := blockFormed_clips o s
  have htaken := blockFormed_taken o s
  obtain ⟨hpending, hreset, hA, hB, hext, hpln, hdst, -, hqueue, hlost⟩ := blockFormed_frame o s
  have hbefore : (blockBudgeted o s).pln = s.pln ∧ (blockBudgeted o s).txs = s.txs ∧
      (blockBudgeted o s).svc = (flagsSet (budgetAt o s) (readsClosed o s)).svc := by simp [blockBudgeted]
  have hdrive := formDrive_formed o s (ramped s.pln.activeSettings s.txs)
  have htxs := htaken.txs
  have hnotices := htaken.notices
  rw [hbefore.1, hbefore.2.1, assembledBand_eq, rampStep_eq] at htxs
  rw [hbefore.1, hbefore.2.1, hbefore.2.2, rampStep_eq] at hnotices
  generalize formDrive _ _ _ = d at hdrive htxs
  have hset {n : Notice} (h : ∀ e, sourceOf n.content = .channel e →
      (∀ x ∈ (budgetAt o s).newlyShed, x.entry ≠ e) ∧ ∀ x, (budgetAt o s).restored = some x → x.entry ≠ e) :
      n ∈ (flagsSet (budgetAt o s) (readsClosed o s)).svc.notices ↔ n ∈ s.svc.notices :=
    mem_flagsSet (s := readsClosed o s) (newlyShed_nodup o s) h
  generalize (flagsSet (budgetAt o s) (readsClosed o s)).svc.notices = q at hnotices hset
  rw [blockAssembledTo] at hflags hclips ⊢
  generalize blockFormed o s = f at *
  refine ⟨⟨hpending, hreset, hA, hB, hext, hpln, hqueue, hlost⟩, hdst, hflags, ⟨d, hdrive, htxs⟩, fun hne => ?_,
    fun n htransmit hchannel => ?_, by rw [setCmb_cmb, hcmb]; rfl,
    ⟨by rw [setCmb_cmb, hcmb]; rfl, rfl, rfl⟩, ⟨by rw [setCmb_cmb, hcmb]; rfl, by rw [setCmb_cmb, hcmb]; rfl, rfl⟩, hclips⟩
  · change _ ∈ f.svc.notices
    rw [hnotices, if_neg hne]
    exact postNotice_mem _ _
  · change n ∈ f.svc.notices ↔ _
    rw [hnotices, ← hset hchannel]
    split
    · rfl
    · next hne =>
      refine mem_postNotice_other ?_
      rw [sameSource, beq_eq_false_iff_ne]
      exact fun h => hne (htransmit h)

/-- The context that the budget of the block leaves: its shed flag alone may have changed. -/
theorem BlockDone.ctx {o : OutBlock} {s b : State} (h : BlockDone o s b) (e : EntryIx) :
    ∃ x, ctxAt b e = { ctxAt s e with shed := x } ∧ (x = true ↔ ShedAfter o s e) := by
  by_cases hshed : NewlyShed o s e
  · obtain ⟨x, hx, rfl⟩ := hshed
    exact ⟨true, (h.flags.shed x hx).1, fun _ => .inl ⟨x, hx, rfl⟩, fun _ => rfl⟩
  · by_cases hr : ∃ x, (budgetAt o s).restored = some x ∧ x.entry = e
    · obtain ⟨x, hx, rfl⟩ := hr
      refine ⟨false, (h.flags.restored x hx).1, nofun, ?_⟩
      rintro (hn | ⟨-, hno⟩)
      · exact absurd hn hshed
      · exact absurd rfl (hno x hx)
    · have hno : ∀ x, (budgetAt o s).restored = some x → x.entry ≠ e := fun x hx he => hr ⟨x, hx, he⟩
      refine ⟨(ctxAt s e).shed, ?_, fun hs => .inr ⟨hs, hno⟩, fun ha => (ha.resolve_left hshed).1⟩
      exact h.flags.same e (fun x hx he => hshed ⟨x, hx, he⟩) hno

/-! ### The plan and the extractor -/

section
variable {o : OutBlock} {s b : State} (h : BlockDone o s b)
include h

theorem BlockDone.plan : b.pln = s.pln := h.frame.2.2.2.2.2.1

theorem BlockDone.classes : switchClasses b = switchClasses s := by rw [switchClasses, switchClasses, h.plan]

theorem BlockDone.ends (e : EntryIx) : EndsAt b e ↔ EndsAt s e := by rw [EndsAt, EndsAt, h.plan]

theorem BlockDone.starts (e : EntryIx) : StartsAt b e ↔ StartsAt s e := by rw [StartsAt, StartsAt, h.plan]

theorem switchPlan_of_done : SwitchPlan s (planSwitch b) := by
  have hext : b.ext = s.ext := h.frame.2.2.2.2.1
  have hx := planSwitch_ext b
  rw [h.plan, hext, h.classes] at hx
  refine ⟨by rw [planSwitch_pln, h.plan], by rw [hx], by rw [hx], fun e => ?_, by rw [hx]; exact ⟨rfl, rfl, rfl⟩⟩
  rw [hx, vget_zipWith]
  exact ⟨fun hs => if_pos ((startsAt_iff s e).2 hs), fun hs => if_neg (mt (startsAt_iff s e).1 hs)⟩

end

/-! ### The contexts (R34 to R38) -/

theorem entryBridge_eq (en : Entry) : entryBridge en = bridgeTime en.bridgeCode := rfl

/-- A retuned context, field by field (R38). -/
theorem retunedCtx_eq (en : Entry) (c : Ctx) : retunedCtx en c = { c with
    loss := if c.expired = true then entryBridge en else c.loss
    expired := c.expired && en.expiry == .notify
    revert := if revertActs en = true then c.revert else 0
    shed := c.shed && en.priority != 7 } := by
  obtain ⟨p, hp⟩ : ∃ p, (en.priority != 7) = p := ⟨_, rfl⟩
  have hseven : en.priority = 7 ↔ p = false := by rw [← hp]; simp
  rw [hp, retunedCtx]
  simp only [hseven]
  cases c with
  | mk state source readyP readyA loss expired revert gain lastIn lastOut badBlocks failovers clips shed =>
    cases expired <;> cases revertActs en <;> cases p <;> simp

section
variable {s : State} {e : EntryIx}

theorem activeAt_of_sharesAt {o : OutBlock} {flag : Bool} {x : Share} (h : x ∈ sharesAt o s flag) : activeAt s x.entry ≠ none := by
  obtain ⟨f, -, hf⟩ := List.mem_filterMap.1 h
  split at hf
  · next ha _ =>
    split at hf
    · cases hf
      rw [ha]
      exact nofun
    · cases hf
  · cases hf

/-- The budget leaves the shed flag of an empty position as it was. -/
theorem shedAfter_of_empty {o : OutBlock} (h : vget s.pln.active e = none) : ShedAfter o s e ↔ (ctxAt s e).shed = true := by
  have hnew : ¬NewlyShed o s e := by
    rintro ⟨x, hx, rfl⟩
    exact activeAt_of_sharesAt ((budgetAt_perm o s).mem_iff.1 (List.mem_append_right _ hx)) h
  have hrestored : ∀ x, (budgetAt o s).restored = some x → x.entry ≠ e := by
    rintro x hx rfl
    obtain ⟨-, -, -, -, -, -, -, -, -, hfirst⟩ :=
      budgetLaws (s.pln.activeSettings.ceiling - o.foldback) s.pln.activeSettings.maxBackoff s.pln.activeSettings.hysteresis
        _ _ (sharesAt_nodup o s false) (sharesAt_nodup o s true)
    exact activeAt_of_sharesAt ((hfirst (newlyShed_of_restored hx) x).1 hx).1.1 h
  exact ⟨fun hs => (hs.resolve_left hnew).1, fun hs => .inr ⟨hs, hrestored⟩⟩

theorem contextAfter_removed (c : Ctx) (h1 : vget s.pln.active e ≠ none) (h2 : vget s.pln.staged e = none) :
    contextAfter s e c = Ctx.powerOn ∧ reportsAfter s e c = (c.state != .off) := by
  obtain ⟨a, ha⟩ := Option.ne_none_iff_exists'.1 h1
  have hk : vget (switchClasses s) e = .removed := by rw [switchClasses, vget_zipWith, ha, h2]; rfl
  rw [contextAfter, reportsAfter, hk]
  exact ⟨rfl, rfl⟩

theorem contextAfter_started (c : Ctx) (h : StartsAt s e) :
    contextAfter s e c = { Ctx.powerOn with state := .acquire } ∧ reportsAfter s e c = true := by
  have hk := (startsAt_iff s e).2 h
  rw [contextAfter, reportsAfter]
  cases hc : vget (switchClasses s) e with
  | added => exact ⟨rfl, rfl⟩
  | pathChange => exact ⟨rfl, rfl⟩
  | _ => simp [hc, startsChannel] at hk

theorem contextAfter_unchanged (c : Ctx) {a : Entry} (h1 : vget s.pln.active e = some a) (h2 : vget s.pln.staged e = some a) :
    contextAfter s e c = c ∧ reportsAfter s e c = false := by
  have hk : vget (switchClasses s) e = .unchanged := by
    rw [switchClasses, vget_zipWith, h1, h2]
    simp [classify, samePath]
  rw [contextAfter, reportsAfter, hk]
  exact ⟨rfl, rfl⟩

theorem contextAfter_empty (c : Ctx) (h1 : vget s.pln.active e = none) (h2 : vget s.pln.staged e = none) :
    contextAfter s e c = c ∧ reportsAfter s e c = false := by
  have hk : vget (switchClasses s) e = .empty := by rw [switchClasses, vget_zipWith, h1, h2]; rfl
  rw [contextAfter, reportsAfter, hk]
  exact ⟨rfl, rfl⟩

theorem contextAfter_tuned (c : Ctx) {a b : Entry} (h1 : vget s.pln.active e = some a) (h2 : vget s.pln.staged e = some b)
    (hp : SamePath a b) (hne : a ≠ b) : contextAfter s e c = retunedCtx b c ∧
      reportsAfter s e c = (c.expired != (retunedCtx b c).expired || c.shed != (retunedCtx b c).shed) := by
  have hk : vget (switchClasses s) e = .tuning := by
    rw [switchClasses, vget_zipWith, h1, h2]
    simp [classify, samePath_iff.2 hp, hne]
  rw [contextAfter, reportsAfter, contextAfter, hk, h2]
  exact ⟨rfl, rfl⟩

end

section
variable {o : OutBlock} {s b : State} (h : BlockDone o s b)
include h

/-- MON loses a dwell on a context that is shed or whose channel ends (R142). -/
theorem mon_of_done :
    ((∃ e, DwellsOn s e ∧ (EndsAt s e ∨ NewlyShed o s e)) → (planSwitch b).mon = { s.mon with dwell := none }) ∧
    ((∀ e, DwellsOn s e → ¬EndsAt s e ∧ ¬NewlyShed o s e) → (planSwitch b).mon = s.mon) := by
  obtain ⟨-, -, -, hended, hkept, -⟩ := switched_planSwitch b
  generalize planSwitch b = u at hended hkept
  by_cases hshed : ∃ x ∈ (budgetAt o s).newlyShed, DwellsOn s x.entry
  · have hmon := h.flags.ended hshed
    have hu : u.mon = { s.mon with dwell := none } := (hkept fun e _ => not_dwellsOn_ended hmon e).trans hmon
    obtain ⟨x, hx, hd⟩ := hshed
    exact ⟨fun _ => hu, fun hno => absurd ⟨x, hx, rfl⟩ (hno x.entry hd).2⟩
  · have hmon := h.flags.kept fun x hx hd => hshed ⟨x, hx, hd⟩
    have hdwell (e : EntryIx) : DwellsOn b e ↔ DwellsOn s e := by rw [DwellsOn, DwellsOn, hmon]
    rw [hmon] at hended hkept
    simp only [hdwell, h.ends] at hended hkept
    refine ⟨fun ⟨e, hd, he⟩ => hended ⟨e, he.resolve_right fun ⟨x, hx, hxe⟩ => hshed ⟨x, hx, hxe ▸ hd⟩, hd⟩,
      fun hno => hkept fun e he hd => (hno e hd).1 he⟩

/-- A context after the switch, and whether it is reported. -/
theorem ctx_of_done (e : EntryIx) : ∃ x, (x = true ↔ ShedAfter o s e) ∧
    ctxAt (planSwitch b) e =
      contextAfter s e { clampReady s.pln.stagedSettings.acquire (ctxAt s e) with shed := x } ∧
    (reportsAfter s e { clampReady s.pln.stagedSettings.acquire (ctxAt s e) with shed := x } = true →
      Notified e .plan (planSwitch b)) := by
  obtain ⟨-, hctx, hnotified, -⟩ := switched_planSwitch b
  obtain ⟨x, hx, hshed⟩ := h.ctx e
  have hca (c : Ctx) : contextAfter b e c = contextAfter s e c := by rw [contextAfter, contextAfter, h.classes, h.plan]
  have hra (c : Ctx) : reportsAfter b e c = reportsAfter s e c := by rw [reportsAfter, reportsAfter, hca, h.classes]
  have hc := hctx e
  have hn := hnotified e
  rw [hca, h.plan, hx] at hc
  rw [hra, h.plan, hx] at hn
  exact ⟨x, hshed, hc, hn⟩

theorem switchContexts_of_done : SwitchContexts o s (planSwitch b) := by
  obtain ⟨hended, hkept⟩ := mon_of_done h
  have hctx := ctx_of_done h
  generalize planSwitch b = u at hended hkept hctx
  have htuned (e : EntryIx) (x y : Entry) (hx : vget s.pln.active e = some x) (hy : vget s.pln.staged e = some y)
      (hp : SamePath x y) (hne : x ≠ y) : ∃ f, (f = true ↔ ShedAfter o s e) ∧
        ctxAt u e = retunedCtx y { clampReady s.pln.stagedSettings.acquire (ctxAt s e) with shed := f } ∧
        ((ctxAt u e).expired ≠ (ctxAt s e).expired ∨ f = true ∧ y.priority = 7 → Notified e .plan u) := by
    obtain ⟨f, hf, hc, hn⟩ := hctx e
    obtain ⟨hafter, hreports⟩ := contextAfter_tuned { clampReady s.pln.stagedSettings.acquire (ctxAt s e) with shed := f } hx hy hp hne
    rw [hafter] at hc
    refine ⟨f, hf, hc, fun hch => hn ?_⟩
    rw [hreports, ← hc, Bool.or_eq_true, bne_iff_ne, bne_iff_ne]
    refine hch.imp Ne.symm ?_
    rintro ⟨rfl, hseven⟩
    rw [hc, retunedCtx_eq]
    simp [hseven]
  refine ⟨fun e h1 h2 => ?_, fun e he => ?_, fun e hk => ?_, fun e a h1 h2 => ?_, fun e a c h1 h2 hp hne => ?_, fun e h1 h2 => ?_,
    fun e d hd hv he => ?_, fun hno => ?_, ?_⟩
  · obtain ⟨f, -, hc, hn⟩ := hctx e
    obtain ⟨hafter, hreports⟩ := contextAfter_removed { clampReady s.pln.stagedSettings.acquire (ctxAt s e) with shed := f } h1 h2
    exact ⟨hc.trans hafter, fun hoff => hn (hreports.trans (bne_iff_ne.2 hoff))⟩
  · obtain ⟨f, -, hc, hn⟩ := hctx e
    obtain ⟨hafter, hreports⟩ := contextAfter_started { clampReady s.pln.stagedSettings.acquire (ctxAt s e) with shed := f } he
    exact ⟨hc.trans hafter, hn hreports⟩
  · obtain ⟨x, y, hx, hy, hp⟩ := hk
    by_cases hne : x = y
    · obtain ⟨f, -, hc, -⟩ := hctx e
      rw [(contextAfter_unchanged _ hx (hne ▸ hy)).1] at hc
      exact ⟨_, _, _, f, hc⟩
    · obtain ⟨f, -, hc, -⟩ := htuned e x y hx hy hp hne
      rw [retunedCtx_eq] at hc
      exact ⟨_, _, _, _, hc⟩
  · obtain ⟨f, hf, hc, -⟩ := hctx e
    rw [hc, (contextAfter_unchanged _ h1 h2).1]
    exact ⟨rfl, rfl, rfl, hf⟩
  · obtain ⟨f, hf, hc, hn⟩ := htuned e a c h1 h2 hp hne
    have hrevert := revertActs_iff (en := c)
    rw [and_assoc] at hrevert
    refine ⟨fun hx => ?_, fun hx => ?_, fun hr => ?_, fun hr => ?_, ?_, fun hch => hn (hch.imp id fun hs => ⟨hf.2 hs.1, hs.2⟩)⟩
    · rw [hc, retunedCtx_eq]
      simp [clampReady, hx, entryBridge_eq]
    · rw [hc, retunedCtx_eq]
      simp [clampReady, hx]
    · rw [hc, retunedCtx_eq]
      exact if_neg (mt hrevert.1 hr)
    · rw [hc, retunedCtx_eq]
      exact if_pos (hrevert.2 hr)
    · rw [hc, retunedCtx_eq, ← hf]
      simp
  · obtain ⟨f, hf, hc, -⟩ := hctx e
    rw [(contextAfter_empty _ h1 h2).1] at hc
    have hsame : f = (ctxAt s e).shed := by
      rw [Bool.eq_iff_iff, hf, shedAfter_of_empty h1]
    rw [hc, hsame]
    rfl
  · rw [hended ⟨e, ⟨d, hd, hv⟩, he⟩]
  · exact hkept fun e ⟨d, hd, hv⟩ => hno e d hd hv
  · by_cases hany : ∃ e, DwellsOn s e ∧ (EndsAt s e ∨ NewlyShed o s e)
    · rw [hended hany]
    · rw [hkept fun e hd => not_or.1 fun he => hany ⟨e, hd, he⟩]

end

end Sys2Proof.Machine
end

section
/-! SUPPORT. What a switch makes of the delay store, of the settings and of the notices; the claim PlanSwitch. -/

namespace Sys2Proof.Machine

open Sys2Proof.Safety

/-! ### The delay store (R39, R96, R98, R101) -/

theorem switchFreed_none {s : State} {q : Nat}
    (h : s.dst.pageMap[q]? = some none ∨ ∃ f, s.dst.pageMap[q]? = some (some f) ∧ EndsAt s f) :
    (switchFreed s).dst.pageMap[q]? = some none := by
  rw [(freed_switchFreed s).map, Vector.getElem?_map]
  rcases h with h | ⟨f, h, hends⟩
  · rw [h]
    rfl
  · rw [h]
    simp [Option.filter, (endsAt_iff s f).2 hends]

section
variable {o : OutBlock} {s b : State} (h : BlockDone o s b)
include h

theorem BlockDone.paged : Paged s b := .of_lines (by rw [h.store]; rfl) (by rw [h.store]; rfl)

theorem BlockDone.lines (e : EntryIx) : lineAt b e = lineAt s e := by
  rw [lineAt, lineAt, h.store]
  rfl

theorem BlockDone.pages : b.dst.pageMap = s.dst.pageMap := h.paged.map

theorem switchStore_of_done (harmed : s.pln.armed = true) (ho : s.cmb.course = some o) : SwitchStore s (planSwitch b) := by
  have hreads : b.dst.reads = [] := (congrArg Dst.reads h.store).trans (removeAllReads s.dst)
  obtain ⟨⟨hcounts, hlate, hheld, hnext, -⟩, hnoreads⟩ := cleared_planSwitch hreads
  obtain ⟨g, hdst⟩ := planSwitch_dst b
  obtain ⟨hblate, hbnext, -⟩ := h.records
  have hcleared (e : EntryIx) : (endsChannel (vget (switchClasses b) e) || startsChannel (vget (switchClasses b) e)) = true ↔
      EndsAt s e ∨ StartsAt s e := by rw [Bool.or_eq_true, endsAt_iff, startsAt_iff, h.ends, h.starts]
  have hget (q : Nat) (f : EntryIx) : (switchFreed b).dst.pageMap[q]? = some (some f) ↔
      s.dst.pageMap[q]? = some (some f) ∧ ¬EndsAt s f := by rw [switchFreed_get, h.pages, h.ends]
  have hnone {q : Nat} (hq : s.dst.pageMap[q]? = some none ∨ ∃ f, s.dst.pageMap[q]? = some (some f) ∧ EndsAt s f) :
      (switchFreed b).dst.pageMap[q]? = some none := by
    refine switchFreed_none ?_
    rw [h.pages]
    simpa only [h.ends] using hq
  have htaken {e : EntryIx} {en : Entry} (hs : StartsAt s e) (hen : vget s.pln.staged e = some en) : pagesTaken b e = en.pages :=
    pagesTaken_started ((h.starts e).2 hs) (by rw [h.plan, hen])
  have hnotaken {e : EntryIx} (hs : ¬StartsAt s e) : pagesTaken b e = 0 := pagesTaken_other (mt (h.starts e).1 hs)
  have hpos {e : EntryIx} (hp : 0 < pagesTaken b e) : StartsAt s e := (h.starts e).1 (pagesTaken_pos hp).1
  have henough (hp : PlanLaw s) (hl : PagesLaw s) :
      (entries.map (pagesTaken b)).sum ≤ (freeList (switchFreed b).dst.pageMap).length :=
    pagesTaken_le (pagesLaw_congr hl h.paged fun e => by rw [activeAt, activeAt, h.plan]) (by rw [h.plan]; exact hp.armedFits harmed)
  have hends (e : EntryIx) : endsChannel (vget (switchClasses b) e) = true ↔ EndsAt s e := by rw [endsAt_iff, h.ends]
  obtain ⟨-, hflines, hfwrites, hfreads, hfrest⟩ := freed_switchFreed b
  have halloc := allocated_switchAllocated b
  have hbline := h.lines
  have hbstore := h.store
  generalize switchFreed b = v at *
  generalize switchAllocated b = w at *
  generalize planSwitch b = u at *
  have hline (e : EntryIx) : lineAt u e = lineAt w e := by rw [lineAt, lineAt, hdst]
  have hmap : u.dst.pageMap = w.dst.pageMap := by rw [hdst]
  have hgone {e : EntryIx} (h0 : pagesTaken b e = 0) (he : EndsAt s e) : lineAt u e = none := by
    rw [hline, halloc.others e fun _ => h0, hflines, if_pos ((hends e).2 he)]
  have hstays {e : EntryIx} (h0 : pagesTaken b e = 0) (he : ¬EndsAt s e) : lineAt u e = lineAt s e := by
    rw [hline, halloc.others e fun _ => h0, hflines, if_neg (mt (hends e).1 he), hbline]
  have hkeeps {e : EntryIx} (hk : Keeps (vget s.pln.active e) (vget s.pln.staged e)) : ¬(EndsAt s e ∨ StartsAt s e) :=
    fun he => he.elim (fun he => he.2 hk) fun hs => hs.2 hk
  refine ⟨fun q f hq hno => ?_, fun q hq => ?_, fun e en hs hen hpages => ?_, fun e he hno => ?_, fun e hk => ?_, fun e o' hk ho' => ?_,
    fun e he => ?_, ?_, hnoreads, ?_⟩
  · rw [hmap]
    exact halloc.kept q f ((hget q f).2 ⟨hq, hno⟩)
  · rw [hmap]
    exact (halloc.free q (hnone hq)).imp id fun ⟨e, _, hp, ht⟩ => ⟨e, hpos hp, ht⟩
  · have heq := htaken hs hen
    obtain ⟨pages, hl, hsorted, hmem, hlow, hlen⟩ := halloc.started e (mem_entries e) (by rw [heq]; exact hpages)
    refine ⟨_, (hline e).trans hl, rfl, rfl, rfl, hsorted, fun hp hlaw => (hlen (henough hp hlaw)).trans heq, fun p hp => ?_⟩
    rw [hmap]
    refine ⟨((hmem p).1 hp).2, fun q hq => ?_⟩
    obtain ⟨f, hf, hle⟩ := hlow p hp q hq
    exact ⟨f, hf, hle.imp id fun hv => ((hget q f).1 hv).1⟩
  · have h0 : pagesTaken b e = 0 := by
      by_cases hs : StartsAt s e
      · obtain ⟨en, hen⟩ := Option.ne_none_iff_exists'.1 hs.1
        rw [htaken hs hen, hno en hen]
      · exact hnotaken hs
    rw [hmap]
    exact ⟨hgone h0 he, fun q hq => ((hget q e).1 ((halloc.unchanged h0 q).1 hq)).2 he⟩
  · have hno := mt (hcleared e).1 (hkeeps hk)
    rw [hcounts, hnext, if_neg hno, if_neg hno, hbnext, hbstore]
    exact ⟨hstays (hnotaken fun hs => hs.2 hk) fun he => he.2 hk, rfl, rfl⟩
  · cases ho.symm.trans ho'
    rw [hlate, if_neg (mt (hcleared e).1 (hkeeps hk)), hblate]
    exact vget_zipWith ..
  · rw [hcounts, hlate, hnext, hheld]
    simp only [(hcleared e).2 he, if_true, and_self]
  · have hwrites : u.dst.writes = s.dst.writes.filter fun x => !(endsChannel (vget (switchClasses b) x.entry) &&
        (lineAt s x.entry).isSome) := by
      rw [hdst, ← show b.dst.writes = s.dst.writes by rw [hbstore]; rfl]
      simp only [← hbline]
      exact halloc.queues.1.trans hfwrites
    refine ⟨fun x hx hno => ?_, fun x hx => ?_⟩
    · rw [hwrites, List.mem_filter, Bool.eq_false_iff.2 (mt (hends _).1 hno)]
      exact ⟨hx, rfl⟩
    · rw [hwrites, List.mem_filter] at hx
      refine ⟨hx.1, fun he => ?_⟩
      have hkept := hx.2
      rw [(hends _).2 he] at hkept
      simpa using hkept
  · obtain ⟨h1, h2, -, h3, h4, h5⟩ := hfrest
    obtain ⟨h6, h7, -, h8, h9, h10⟩ := halloc.rest
    have hsame : b.dst.dram = s.dst.dram ∧ b.dst.gapMarks = s.dst.gapMarks ∧ b.dst.overruns = s.dst.overruns ∧
        b.dst.refreshPending = s.dst.refreshPending ∧ b.dst.refreshPeriod = s.dst.refreshPeriod := by
      rw [hbstore]
      exact ⟨rfl, rfl, rfl, rfl, rfl⟩
    obtain ⟨h11, h12, h13, h14, h15⟩ := hsame
    rw [hdst]
    exact ⟨h6.trans (h1.trans h11), h7.trans (h2.trans h12), h8.trans (h3.trans h13), h10.trans (h5.trans h14),
      h9.trans (h4.trans h15)⟩

end

/-! ### The settings, the notices and the figures (Table 2-6, R41, R137) -/

theorem toList_eq_map {α : Type} (v : Vector α 16) : v.toList = entries.map (vget v) := by
  refine List.ext_getElem (by simp [entries]) fun i h1 h2 => ?_
  simp [entries, vget]

/-- How many contexts are shed, counted by entries. -/
theorem shedCount_eq (s : State) {shed : EntryIx → Bool} (h : ∀ e, (ctxAt s e).shed = shed e) :
    shedCount s = (entries.filter shed).length := by
  have hfun : Ctx.shed ∘ vget s.ctx = shed := funext h
  rw [shedCount, toList_eq_map, List.filter_map, List.length_map, hfun]

theorem classIs_classify (x y : Option Entry) : ClassIs x y (classify x y) := by
  rcases x with _ | x <;> rcases y with _ | y
  · exact ⟨rfl, rfl⟩
  · exact ⟨rfl, nofun⟩
  · exact ⟨nofun, rfl⟩
  · by_cases hp : samePath x y = true
    · by_cases hxy : x = y
      · subst hxy
        rw [show classify (some x) (some x) = .unchanged by simp [classify, hp]]
        exact ⟨x, rfl, rfl⟩
      · rw [show classify (some x) (some y) = .tuning by simp [classify, hp, hxy]]
        exact ⟨x, y, rfl, rfl, samePath_iff.1 hp, hxy⟩
    · rw [show classify (some x) (some y) = .pathChange by simp [classify, hp]]
      exact ⟨x, y, rfl, rfl, mt samePath_iff.2 hp⟩

section
variable {o : OutBlock} {s b : State} (h : BlockDone o s b)
include h

/-- A position of which neither the budget nor the switch has anything to report. -/
theorem not_reported {e : EntryIx} (hp : NotPosted o s (planSwitch b) (.channel e)) :
    reportsAfter b e (clampReady b.pln.stagedSettings.acquire (ctxAt b e)) = false := by
  obtain ⟨hshed, hrestored, hstarts, hends, htuned⟩ := hp
  have hsame : ctxAt b e = ctxAt s e := h.flags.same e hshed hrestored
  have hctx := (switched_planSwitch b).ctx e
  generalize planSwitch b = u at htuned hctx
  rw [hsame] at hctx ⊢
  generalize hc : clampReady b.pln.stagedSettings.acquire (ctxAt s e) = c at hctx
  have hcore : c.state = (ctxAt s e).state ∧ c.expired = (ctxAt s e).expired ∧ c.shed = (ctxAt s e).shed := by
    rw [← hc]
    exact ⟨rfl, rfl, rfl⟩
  obtain ⟨hstate, hexpired, hflag⟩ := hcore
  have hplan := h.plan
  cases hx : vget s.pln.active e with
  | none =>
    cases hy : vget s.pln.staged e with
    | none => exact (contextAfter_empty c (by rw [hplan, hx]) (by rw [hplan, hy])).2
    | some y => exact absurd ⟨by rw [hy]; exact nofun, fun ⟨_, _, hk, _⟩ => (nomatch hk.symm.trans hx)⟩ hstarts
  | some x =>
    cases hy : vget s.pln.staged e with
    | none =>
      have hoff := hends ⟨by rw [hx]; exact nofun, fun ⟨_, _, _, hk, _⟩ => (nomatch hk.symm.trans hy)⟩
      rw [(contextAfter_removed c (by rw [hplan, hx]; exact nofun) (by rw [hplan, hy])).2, hstate, hoff]
      rfl
    | some y =>
      by_cases hp : SamePath x y
      · by_cases hxy : x = y
        · exact (contextAfter_unchanged c (a := x) (by rw [hplan, hx]) (by rw [hplan, hy, hxy])).2
        · obtain ⟨hafter, hreports⟩ := contextAfter_tuned c (by rw [hplan, hx]) (by rw [hplan, hy]) hp hxy
          obtain ⟨hkept, hseven⟩ := htuned x y hx hy hxy
          rw [hctx, hafter, ← hexpired] at hkept
          rw [← hflag] at hseven
          rw [hreports, hkept, retunedCtx_eq]
          cases hs : c.shed with
          | false => simp
          | true => simp [hseven hs]
      · refine absurd ⟨by rw [hy]; exact nofun, fun ⟨x', y', hx', hy', hk⟩ => hp ?_⟩ hstarts
        cases hx'.symm.trans hx
        cases hy'.symm.trans hy
        exact hk

theorem switchSettings_of_done (hs : Switches o s) : SwitchSettings o s (planSwitch b) := by
  obtain ⟨hr, hn, -⟩ := hs
  obtain ⟨d, hd, hbtxs⟩ := h.txs
  have hreported := fun (e : EntryIx) => not_reported h (e := e)
  obtain ⟨hpending, hreset, hA, hB, -⟩ := planSwitch_frame b
  obtain ⟨hqueue, hlost⟩ := planSwitch_svc b
  have htally := tally_planSwitch b
  have hcourse := (cleared_planSwitch ((congrArg Dst.reads h.store).trans (removeAllReads s.dst))).1.course
  obtain ⟨htxs, -, -, -, -, htransmit, hnotices, hswitched⟩ := switched_planSwitch b
  generalize planSwitch b = u at *
  rw [h.plan] at htxs htransmit hnotices
  have hbstate : b.txs.state = (ramped s.pln.activeSettings s.txs).state := by rw [hbtxs]
  obtain ⟨hbpending, hbreset, hbA, hbB, -, -, hbqueue, hblost⟩ := h.frame
  simp only [tally, Prod.mk.injEq] at htally
  obtain ⟨hcounter, hepochs, hfigures, hexcess, hclips⟩ := htally
  obtain ⟨hbexcess, hbcounter, hbepochs⟩ := h.counts
  refine ⟨⟨d, hd, by rw [htxs, hbtxs]⟩, fun hne => ?_, fun heq hne => ?_, fun n hp => ?_, fun shed hshed => ?_,
    hclips.trans h.clips, hexcess.trans hbexcess, ?_, ⟨vget (switchClasses s), fun e => ?_, ?_⟩, ?_⟩
  · rw [htxs] at hne ⊢
    exact htransmit (by rw [hbstate]; exact hne)
  · have hstate : (resettled s.pln.stagedSettings b.txs).state = b.txs.state := by rw [← htxs, heq, hbstate]
    have hiff := hnotices ⟨transmitContent (ramped s.pln.activeSettings s.txs), false, false⟩ (by simp [sourceOf, transmitContent])
      (fun _ => hstate) (by simp [sourceOf, transmitContent])
    exact hiff.2 ⟨h.stepped (by rwa [← heq]), fullySent_fresh _ _⟩
  · have hplan : sourceOf n.content ≠ .plan := fun hsource => by
      rw [hsource] at hp
      exact hp
    have hstands (hsource : sourceOf n.content = .transmit) : (ramped s.pln.activeSettings s.txs).state = s.txs.state ∧
        (resettled s.pln.stagedSettings b.txs).state = b.txs.state := by
      rw [hsource] at hp
      obtain ⟨h1, h2⟩ := hp
      exact ⟨h1, by rw [← htxs, h2, hbstate, h1]⟩
    have hleft (e : EntryIx) (hsource : sourceOf n.content = .channel e) : NotPosted o s u (.channel e) := by
      rwa [hsource] at hp
    rw [hnotices n hplan (fun hsource => (hstands hsource).2) fun e hsource => ?_,
      h.notices n (fun hsource => (hstands hsource).1) fun e hsource => ?_]
    · obtain ⟨h1, h2, -⟩ := hleft e hsource
      exact ⟨h1, h2⟩
    · have := hreported e (hleft e hsource)
      rwa [h.plan] at this
  · rw [hfigures, h.figures, shedCount_eq b fun e => ?_]
    obtain ⟨f, hf, hiff⟩ := h.ctx e
    rw [hf, Bool.eq_iff_iff, hiff, hshed]
  · rw [hepochs, hbepochs, if_pos ⟨hr, hn⟩]
  · rw [switchClasses, vget_zipWith]
    exact classIs_classify _ _
  · rw [h.classes, toList_eq_map] at hswitched
    exact hswitched
  · refine ⟨hA.trans hbA, hB.trans hbB, hqueue.trans hbqueue, hlost.trans hblost, hcourse.trans h.records.2.2, ?_,
      hpending.trans hbpending, hreset.trans hbreset⟩
    rw [hcounter, hbcounter, if_neg (by rw [hr]; exact Bool.false_ne_true)]

end

end Sys2Proof.Machine

namespace Sys2Proof.Safety

open Sys2Proof.Machine

/-- Settles O27: the completion that makes a switch, by what its output block leaves; every other completion by its stages. -/
theorem planSwitch : Obligations.PlanSwitch := by
  intro s o h ho
  by_cases hs : Switches o s
  · have hdone := blockDone o s
    refine ⟨_, exec_switch h ho hs, fun _ _ _ => ⟨switchPlan_of_done hdone, switchContexts_of_done hdone,
      switchStore_of_done hdone hs.2.2 ho, switchSettings_of_done hdone hs⟩, ?_⟩
    obtain ⟨hr, hn, ha⟩ := hs
    rintro (hr' | hn' | ha')
    · exact nomatch hr.symm.trans hr'
    · exact absurd hn hn'
    · exact nomatch ha.symm.trans ha'
  · obtain ⟨-, -, -, -, hext, hpln, hdst, -⟩ := blockFormed_frame o s
    refine ⟨_, exec_assembly h ho hs, fun hr hn ha => absurd ⟨hr, hn, ha⟩ hs, fun _ => ?_⟩
    rw [blockAssembledTo]
    generalize blockFormed o s = f at hext hpln hdst
    exact ⟨hpln, hext, (congrArg Dst.pageMap hdst).trans rfl, (congrArg Dst.lines hdst).trans rfl⟩

end Sys2Proof.Safety
end
